-- ==== Sys2Proof/Word.lean ====
section
/-! DEFINITION. The machine's words: 8, 32 and 64 bits (spec/00_scope.md R5), and the plainest arithmetic on them. -/
namespace Sys2Proof

/-- A byte of memory. -/
abbrev Byte := BitVec 8
/-- A scalar register, an instruction word, a lane word (R9, R64). -/
abbrev Word := BitVec 32
/-- A scalar pair, a virtual address, a step, a control word of the condition queue (R9, R16, R27). -/
abbrev DWord := BitVec 64

/-- The word of a natural number, taken modulo 2^32. -/
abbrev w32 (n : Nat) : Word := BitVec.ofNat 32 n
/-- The double word of a natural number, taken modulo 2^64. -/
abbrev w64 (n : Nat) : DWord := BitVec.ofNat 64 n

/-- `rotl32` of R81 and R139: a 32-bit word rotated left. -/
abbrev rotl32 (x : Word) (n : Nat) : Word := x.rotateLeft n

/-- The low half of a double word. -/
abbrev lo32 (x : DWord) : Word := x.extractLsb' 0 32
/-- The high half of a double word. -/
abbrev hi32 (x : DWord) : Word := x.extractLsb' 32 32

end Sys2Proof
end

