-- ==== Sys2Proof/Fields.lean ====
section
/-! DEFINITION. The operand fields of instruction words (spec/01_instruction_words.md R15-R19) and the names of causes
(spec/16_traps_preemption_checkpoint.md R366), as data that the instruction type is built from. -/
namespace Sys2Proof

/-- A 7-bit operand field with the literal it calls for (R16): a register code, a constant 0-31, one literal word, or a
64-bit literal. In a 64-bit field register code 2n names the pair wn and one literal word is sign-extended. -/
inductive Opnd where
  | reg (r : BitVec 6)
  | imm (c : BitVec 5)
  | lit (w : Word)
  | lit2 (w : DWord)
deriving DecidableEq, Repr

/-- Format V (R17) with field b a vector source, a format, a selector or must-be-0. -/
structure VF where
  rm : BitVec 3
  wsel : BitVec 3
  psel : BitVec 3
  swzb : BitVec 2
  swza : BitVec 2
  b : BitVec 11
  a : BitVec 11
  d : BitVec 11
  hb : BitVec 1
  ha : BitVec 1
deriving DecidableEq, Repr

/-- Format V (R17) with field b a scalar operand. -/
structure VSF where
  rm : BitVec 3
  wsel : BitVec 3
  psel : BitVec 3
  swza : BitVec 2
  b : Opnd
  a : BitVec 11
  d : BitVec 11
  ha : BitVec 1
deriving DecidableEq, Repr

/-- Format M (R18): row base a, control word b, signed row offset. -/
structure MF where
  rm : BitVec 3
  wsel : BitVec 3
  psel : BitVec 3
  b : Opnd
  off : BitVec 8
  d : BitVec 11
  a : Opnd
deriving DecidableEq, Repr

/-- Format X (R18): operand slots oa and ob, accumulator acc. -/
structure XF where
  rm : BitVec 3
  wsel : BitVec 3
  psel : BitVec 3
  b : Opnd
  oa : BitVec 3
  ob : BitVec 3
  acc : BitVec 2
  d : BitVec 11
  a : Opnd
deriving DecidableEq, Repr

/-- Format E (R18). -/
structure EF where
  wsel : BitVec 3
  psel : BitVec 3
  c : Opnd
  imm8 : BitVec 8
  d : BitVec 6
  a : Opnd
  b : Opnd
  unit : BitVec 4
deriving DecidableEq, Repr

/-- A 128-byte engine command image (R341). -/
abbrev Cmd := BitVec 1024
/-- A launch record (R354) or a bind record (R358). -/
abbrev Rec512 := BitVec 512

/-- The causes of R366 that a burner can take or a completion record can carry. -/
inductive Cause where
  | illegalWord | illegalOpcode | illegalOperand | illegalRounding | illegalPfx | orphanPfx | queueUnreserved
  | fetchRange
  | vaRange | meshHole | rowQuota | meshDenied | inboxWrite | constBank | earlyRead | pageNotPresent | pteReserved
  | physRange | pageProtection | watchHit
  | formatMismatch | runOverflow | recipeReplay | recipeIllegal | recipeState | maskDepth | matrixLease | matrixSlot
  | engCommand | engEmpty | bufHeader | decompError | xformSpec
  | weightSpec | wtableFull | ckptNone | weightDiverged | stepGone | stepAhead
  | pantryReserved | pantryTicket | pantryRole | pantryQuota
  | barrierState | barrierCount | barrierBroken | rftState | trapInsn | breakpoint | handlerQueue
  | replayDiverged | debugStop
  | uncorrected | domainKilled
deriving DecidableEq, Repr

/-- The party a fault came from: the SRC field of TCAUSE (R370). -/
inductive Src where
  | cc | l | x | s | copy | gather | coll | wport
deriving DecidableEq, Repr

end Sys2Proof
end

