-- ==== Sys2Proof/Config.lean ====
section
/-! DEFINITION. What an implementation fixes and the values spec/ leaves open: constants without a body, so that nothing in
Lean can evaluate them. Each is named in notes/assumptions/. -/
namespace Sys2Proof.Config

/-- Which of the enabled acts comes next where R39, R140, R177, R179, R209, R346 leave it to run time (log 7). -/
opaque choice : Nat → Nat

/-- SHA3-256 over a list of bytes (R133, R395, R411, R415, R416): the standard is named, its function not given (log 9).
Byte i of the digest is bits 8i + 7 to 8i. -/
opaque sha3 : List Byte → BitVec 256

/-- The fused secret of R415 (log 9). -/
opaque fusedSecret : BitVec 256
/-- ML-DSA-44's public key from a seed, its signature with the seed's private key over the report's bits 11519:0, and whether a
signature over a digest verifies against a public key (R414-R416; log 9). -/
opaque mlDsaKey : BitVec 256 → BitVec 10496
opaque mlDsaSign : BitVec 256 → BitVec 11520 → BitVec 19360
opaque mlDsaVerifies : BitVec 10496 → BitVec 256 → BitVec 19360 → Bool

/-- The byte that decryption under another key than the writer's yields at a physical address (R44, R415): reader's key,
writer's key, address, stored byte (log 9). A key is an index 0 to 15 plus 16 times the cold starts before it was drawn. -/
opaque wrongKey : Nat → Nat → Nat → Byte → Byte
/-- A byte of device control space as an access finds it, by a count of draws and address: R43 leaves its layout to the firmware
(log 19). -/
opaque controlByte : Nat → Nat → Byte
/-- Which entry a full TLB gives up, by a count of draws (R50; log 44). -/
opaque tlbVictim : Nat → Nat
/-- Whether a reader in another queue, which no token orders after a write, takes the value before it (R179), by core,
burner, ko position of the reader and register (log 23). -/
opaque older : Nat → Nat → Nat → Nat → Bool

/-- The ring the firmware names for a die's trace unit, by a count of draws and die: base, records and the RCB whose tables
translate it (R3, R391; log 104). -/
opaque traceRing : Nat → Nat → Nat × Nat × Nat

/-- Whether the GCM tag of a received flit passes (R405), by the keys of the training, port, direction, key epoch, 64-bit sequence, header, and the
payload with its tag (R406; log 9). -/
opaque tagPasses : Nat → Nat → BitVec 1 → BitVec 31 → DWord → BitVec 64 → BitVec 1952 → Bool
/-- The plaintext payload of a flit, by the same (R404, R406; log 9). -/
opaque flitPayload : Nat → Nat → BitVec 1 → BitVec 31 → DWord → BitVec 64 → BitVec 1952 → List Byte
/-- Ciphertext and tag of a flit sent, by the keys of the training, port, direction, key epoch, 64-bit sequence, header and plaintext (R404, R406; log
9). -/
opaque sealFlit : Nat → Nat → BitVec 1 → BitVec 31 → DWord → BitVec 64 → List Byte → BitVec 1952
/-- The plaintexts of the two flits that carry a row to another package (R404, R407; log 105): which one, package, row address
and bytes. -/
opaque rowText : Nat → Nat → Nat → List (Nat × Byte × Byte) → List Byte
/-- Whether the route table gives no route to a package, and the route it gives, among the ports that are up (R403, R408;
log 105). -/
opaque noRoute : List Nat → Nat → Bool
opaque route : List Nat → Nat → Nat
/-- What a row meets in another package, by a count of draws, package, fault domain and address: none, or which of its faults
(R407; log 105). -/
opaque farFault : Nat → Nat → Nat → Nat → Option Nat
/-- The row that the payloads a port has delivered, each with its source package, complete with the last of them, if any: the
source's fault domain, its command and the SUM32 that starts from, the address, and the bytes (offset, mask, value) (R407; log
105). -/
opaque rowIn : List (Nat × List Byte) → Option (Nat × Nat × Word × Nat × List (Nat × Byte × Byte))
/-- The peer table: the RCB that stands for a source package and fault domain (R407; log 105). -/
opaque peerRcb : Nat → Nat → Option Nat
/-- The plaintext that carries a fault back to its source: its cause code and address (R407; log 105). -/
opaque faultText : Nat → Nat → List Byte
/-- The plaintext that carries a command's SUM32 back with a row written: the command, the address and the sum (R407; log 105). -/
opaque sumText : Nat → Nat → Word → List Byte
/-- A link's training, by a count of draws and port: whether it fails to authenticate, and the peer's package (R403, R406;
log 105). -/
opaque linkFails : Nat → Nat → Bool
opaque linkPeer : Nat → Nat → Nat

/-- The prefix bits of a function value that 400-bit interval arithmetic left undecided (R293; log 10): the function's
code, the operand's magnitude. -/
opaque undecided : Nat → Nat → Int → Nat

/-- What a name bound by OTAKE holds before its first OFILL, by use, row and column: R329 gives no contents (log 13). -/
opaque slotTag : Nat → BitVec 5
opaque slotEl : Nat → Nat → Nat → Nat
/-- The elements of a slot retagged to a format of another element width, by old and new code, contents, row and column: R330
states no value (log 14). -/
opaque retagEl : Nat → Nat → List (List Nat) → Nat → Nat → Nat

/-- An element that a collective combines by a ROP that R307 gives no value in its format: op, format and the two elements
(log 16). -/
opaque redOther : Nat → Nat → Nat → Nat → Nat
/-- What a member of a group in another package does next, by a count of draws and group: which of its events, its package, its
burner there, and a rank or count (R271, R363; log 117). -/
opaque farEvent : Nat → Nat → Nat × Nat × Nat × Nat
/-- The collective command that such a member contributes, and the elements of its vectors, by the same, vector and element
(R346; log 117). -/
opaque farCmd : Nat → Nat → Cmd
opaque farEl : Nat → Nat → Nat → Nat → Nat
/-- An element of a tree-mode root to which no leaf contributes (log 16). -/
opaque emptyRoot : Nat → Nat
/-- The address of the destination's side tensor in a COPY from a scaled to a scaled tensor: R110 names one side tensor address
and R341 has no second field (log 15). -/
opaque sideTensor : Cmd → Nat
/-- BFMT of the bank that a row address of another package's mesh window names: its owner's, which no rule sends here (log 126). -/
opaque farBfmt : Nat → Nat → Nat

/-- A lane word past the rows that R324 lets a load of a BPIk bank read, by row address and lane word (log 109). -/
opaque pastRows : Nat → Nat → Word

/-- A firmware image in the module's flash, 0 for A and 1 for B: its bytes, the public key and signature with it, and its security
version; and the fused digest of the public key (R414; log 11). -/
opaque flashImage : Nat → List Byte
opaque flashKey : Nat → BitVec 10496
opaque flashSig : Nat → BitVec 19360
opaque flashSvn : Nat → BitVec 16
opaque fusedKey : BitVec 256
/-- What start steps find, by a count of draws (R410; log 11): fuse parity wrong, the die whose self test fails as a whole, the
cores that fail it, the channel that fails training or meets an uncorrected error in the memory clear, the capacity behind a
CXL port, and whether the entropy health test passes. -/
opaque fuseParity : Nat → Bool
opaque failingDie : Nat → Option Nat
opaque failingCores : Nat → List Nat
opaque trainingFails : Nat → Option Nat
opaque clearFails : Nat → Option Nat
opaque cxlFound : Nat → Nat → Nat
opaque entropyPasses : Nat → Bool
/-- The die on which a corrected error is met, by a count of draws (R417; log 134). -/
opaque softDie : Nat → Nat

/-- Burners a firmware policy evicts for a launch with EVOK, by launch count (R362; log 12). -/
opaque evictPolicy : Nat → List (Nat × Nat)

/-- The place of a save area in LPDDR 6, by its number: the firmware allocates it (R378; log 42). -/
opaque saveArea : Nat → Nat

end Sys2Proof.Config
end

