-- ==== Sys2Proof/Syntax.lean ====
section
/-! DEFINITION. The instructions and acts of the Plethes C640: one constructor for each row of spec/opcode_table.json,
each with the rule that gives its meaning: first the rows that a word encodes, then the acts of other agents. -/
namespace Sys2Proof

/-- One instruction word, or one act of another agent of the device (spec/95_what_each_step_holds.md). -/
inductive Instr where
  /-- ADD (R255). Writes a + b modulo 2^32 to s(d). -/
  | add (d : BitVec 6) (a b : Opnd)
  /-- SUB (R255). Writes a − b modulo 2^32 to s(d). -/
  | sub (d : BitVec 6) (a b : Opnd)
  /-- MUL (R255). Writes the low 32 bits of a × b to s(d). -/
  | mul (d : BitVec 6) (a b : Opnd)
  /-- MULH (R255). Writes the high 32 bits of the signed 64-bit product to s(d). -/
  | mulh (d : BitVec 6) (a b : Opnd)
  /-- MULHU (R255). Writes the high 32 bits of the unsigned 64-bit product to s(d). -/
  | mulhu (d : BitVec 6) (a b : Opnd)
  /-- DIV (R256). Writes the signed quotient, rounded toward zero, with fixed results for division by zero and overflow. -/
  | div (d : BitVec 6) (a b : Opnd)
  /-- DIVU (R256). Writes the unsigned quotient, with a fixed result for division by zero. -/
  | divu (d : BitVec 6) (a b : Opnd)
  /-- REM (R256). Writes the signed remainder, which takes the sign of a. -/
  | rem (d : BitVec 6) (a b : Opnd)
  /-- REMU (R256). Writes the unsigned remainder. -/
  | remu (d : BitVec 6) (a b : Opnd)
  /-- AND (R255). Writes a AND b to s(d). -/
  | and (d : BitVec 6) (a b : Opnd)
  /-- OR (R255). Writes a OR b to s(d). -/
  | or (d : BitVec 6) (a b : Opnd)
  /-- XOR (R255). Writes a XOR b to s(d). -/
  | xor (d : BitVec 6) (a b : Opnd)
  /-- SHL (R255). Shifts a left by b<4:0>. -/
  | shl (d : BitVec 6) (a b : Opnd)
  /-- SHR (R255). Shifts a logically right by b<4:0>. -/
  | shr (d : BitVec 6) (a b : Opnd)
  /-- SRA (R255). Shifts a arithmetically right by b<4:0>. -/
  | sra (d : BitVec 6) (a b : Opnd)
  /-- ANDN (R255). Writes a AND NOT b to s(d). -/
  | andn (d : BitVec 6) (a b : Opnd)
  /-- ROL (R255). Rotates a left by b<4:0>. -/
  | rol (d : BitVec 6) (a b : Opnd)
  /-- ROR (R255). Rotates a right by b<4:0>. -/
  | ror (d : BitVec 6) (a b : Opnd)
  /-- MIN (R255). Writes the signed minimum of a and b. -/
  | min (d : BitVec 6) (a b : Opnd)
  /-- MAX (R255). Writes the signed maximum of a and b. -/
  | max (d : BitVec 6) (a b : Opnd)
  /-- MINU (R255). Writes the unsigned minimum of a and b. -/
  | minu (d : BitVec 6) (a b : Opnd)
  /-- MAXU (R255). Writes the unsigned maximum of a and b. -/
  | maxu (d : BitVec 6) (a b : Opnd)
  /-- CLZ (R255). Writes the count of leading zeros of a, which is 32 for a zero. -/
  | clz (d : BitVec 6) (a : Opnd)
  /-- CTZ (R255). Writes the count of trailing zeros of a, which is 32 for a zero. -/
  | ctz (d : BitVec 6) (a : Opnd)
  /-- POPC (R255). Writes the number of set bits of a. -/
  | popc (d : BitVec 6) (a : Opnd)
  /-- SEXT (R255). Sign-extends a<n:0> to 32 bits, with n = b<4:0>. -/
  | sext (d : BitVec 6) (a b : Opnd)
  /-- ZEXT (R255). Zero-extends a<n:0> to 32 bits, with n = b<4:0>. -/
  | zext (d : BitVec 6) (a b : Opnd)
  /-- MOV (R255). Copies operand a into s(d). -/
  | mov (d : BitVec 6) (a : Opnd)
  /-- SEL (R255). Writes a when s(d) is nonzero, and b otherwise. -/
  | sel (d : BitVec 6) (a b : Opnd)
  /-- CMP (R255). Writes the equal and ordering relations of a and b as bits 4:0. -/
  | cmp (d : BitVec 6) (a b : Opnd)
  /-- LI (R255). Writes the sign-extended 18-bit immediate to s(d). -/
  | li (d : BitVec 6) (i : BitVec 18)
  /-- ADDW (R257). Writes a + b modulo 2^64 to the pair w(d). -/
  | addw (d : BitVec 6) (a b : Opnd)
  /-- SUBW (R257). Writes a − b modulo 2^64 to the pair w(d). -/
  | subw (d : BitVec 6) (a b : Opnd)
  /-- SHLW (R257). Shifts the 64-bit a left by b<5:0> into the pair w(d). -/
  | shlw (d : BitVec 6) (a b : Opnd)
  /-- MOVW (R257). Copies the 64-bit operand a into the pair w(d). -/
  | movw (d : BitVec 6) (a : Opnd)
  /-- ADDP_16 (R258). Adds 16-bit lanes modulo 2^16. -/
  | addp16 (d : BitVec 6) (a b : Opnd)
  /-- ADDP_8 (R258). Adds 8-bit lanes modulo 2^8. -/
  | addp8 (d : BitVec 6) (a b : Opnd)
  /-- ADDP_4 (R258). Adds 4-bit lanes modulo 2^4. -/
  | addp4 (d : BitVec 6) (a b : Opnd)
  /-- SUBP_16 (R258). Subtracts 16-bit lanes modulo 2^16. -/
  | subp16 (d : BitVec 6) (a b : Opnd)
  /-- SUBP_8 (R258). Subtracts 8-bit lanes modulo 2^8. -/
  | subp8 (d : BitVec 6) (a b : Opnd)
  /-- SUBP_4 (R258). Subtracts 4-bit lanes modulo 2^4. -/
  | subp4 (d : BitVec 6) (a b : Opnd)
  /-- MAXP_16 (R258). Takes the signed maximum of 16-bit lanes. -/
  | maxp16 (d : BitVec 6) (a b : Opnd)
  /-- MAXP_8 (R258). Takes the signed maximum of 8-bit lanes. -/
  | maxp8 (d : BitVec 6) (a b : Opnd)
  /-- MAXP_4 (R258). Takes the signed maximum of 4-bit lanes. -/
  | maxp4 (d : BitVec 6) (a b : Opnd)
  /-- MINP_16 (R258). Takes the signed minimum of 16-bit lanes. -/
  | minp16 (d : BitVec 6) (a b : Opnd)
  /-- MINP_8 (R258). Takes the signed minimum of 8-bit lanes. -/
  | minp8 (d : BitVec 6) (a b : Opnd)
  /-- MINP_4 (R258). Takes the signed minimum of 4-bit lanes. -/
  | minp4 (d : BitVec 6) (a b : Opnd)
  /-- AVGP_16 (R258). Averages signed 16-bit lanes as floor((x + y + 1) / 2). -/
  | avgp16 (d : BitVec 6) (a b : Opnd)
  /-- AVGP_8 (R258). Averages signed 8-bit lanes as floor((x + y + 1) / 2). -/
  | avgp8 (d : BitVec 6) (a b : Opnd)
  /-- AVGP_4 (R258). Averages signed 4-bit lanes as floor((x + y + 1) / 2). -/
  | avgp4 (d : BitVec 6) (a b : Opnd)
  /-- FADD (R260). Adds two FP32 values with rounding, flags and optional saturation. -/
  | fadd (d : BitVec 6) (a b : Opnd)
  /-- FSUB (R260). Subtracts two FP32 values with rounding and flags. -/
  | fsub (d : BitVec 6) (a b : Opnd)
  /-- FMUL (R260). Multiplies two FP32 values with rounding and flags. -/
  | fmul (d : BitVec 6) (a b : Opnd)
  /-- FFMA (R260). Computes a × b + s(d) with a single rounding. -/
  | ffma (d : BitVec 6) (a b : Opnd)
  /-- FMIN (R261). Writes the FP32 minimum, with −0 ordered below +0 and NaN handling. -/
  | fmin (d : BitVec 6) (a b : Opnd)
  /-- FMAX (R261). Writes the FP32 maximum, with −0 ordered below +0 and NaN handling. -/
  | fmax (d : BitVec 6) (a b : Opnd)
  /-- FCMP (R261). Writes the equal, less, greater and unordered bits for two FP32 values. -/
  | fcmp (d : BitVec 6) (a b : Opnd)
  /-- FCVT (R262). Converts one element of the format named in b to FP32, or to the prefix's format. -/
  | fcvt (d : BitVec 6) (a : Opnd) (f : BitVec 5)
  /-- FCVTI (R262). Converts FP32 to INT32. -/
  | fcvti (d : BitVec 6) (a : Opnd)
  /-- FCVTF (R262). Converts INT32 to FP32. -/
  | fcvtf (d : BitVec 6) (a : Opnd)
  /-- LDW (R187). Reads one lane word of a mesh row into s(d), after any buffered store to that row. -/
  | ldw (d : BitVec 6) (a b : Opnd)
  /-- STW (R187). Writes s(d) to one lane word, through the store buffer when the row is local. -/
  | stw (d : BitVec 6) (a b : Opnd)
  /-- AADD (R187). Atomically adds s(d) to a lane word and returns the old value. -/
  | aadd (d : BitVec 6) (a b : Opnd)
  /-- AMAX (R187). Atomically takes the signed maximum with a lane word and returns the old value. -/
  | amax (d : BitVec 6) (a b : Opnd)
  /-- AMIN (R187). Atomically takes the signed minimum with a lane word and returns the old value. -/
  | amin (d : BitVec 6) (a b : Opnd)
  /-- AXCHG (R187). Atomically exchanges s(d) with a lane word. -/
  | axchg (d : BitVec 6) (a b : Opnd)
  /-- ACAS (R187). Atomically writes s(d+1) to a lane word when it equals s(d), and returns the old value. -/
  | acas (d : BitVec 6) (a b : Opnd)
  /-- AOR (R187). Atomically ORs s(d) into a lane word and returns the old value. -/
  | aor (d : BitVec 6) (a b : Opnd)
  /-- FENCE (R189). Holds the control core until the masked classes of earlier work are performed or retired. -/
  | fence (m : BitVec 5) (sys : BitVec 1)
  /-- BC_NZ (R264). Branches when s(a) is nonzero. -/
  | bcNz (a : Opnd) (o : BitVec 13)
  /-- BC_Z (R264). Branches when s(a) is zero. -/
  | bcZ (a : Opnd) (o : BitVec 13)
  /-- BCQ_ANY (R266). Pops the head CQ entry, waiting while CQ is empty, and branches when a covered bit is 1. -/
  | bcqAny (k : Opnd) (o : BitVec 13)
  /-- BCQ_NONE (R266). Pops the head CQ entry, waiting while CQ is empty, and branches when every covered bit is 0. -/
  | bcqNone (k : Opnd) (o : BitVec 13)
  /-- BEV_SET (R264). Branches when the event bit is set; a taken branch is an acquire. -/
  | bevSet (e : BitVec 6) (o : BitVec 13)
  /-- BEV_CLR (R264). Branches when the event bit is clear; falling through is an acquire. -/
  | bevClr (e : BitVec 6) (o : BitVec 13)
  /-- JR (R264). Jumps to s(a), with bits 1:0 ignored. -/
  | jr (a : Opnd)
  /-- RET (R264). Jumps to s63, with bits 1:0 ignored. -/
  | ret
  /-- B (R264). Branches unconditionally by a 24-bit offset. -/
  | b (o : BitVec 24)
  /-- CALL (R264). Writes the return address to s63 and branches. -/
  | call (o : BitVec 24)
  /-- LOOP (R268). Arms loop k on its first pass, advances ITER and the stage predicates, and branches back while passes remain. -/
  | loop (k : BitVec 4) (a : Opnd) (o : BitVec 13)
  /-- EVWAIT (R269). Waits until the event bit is 1, lending issue slots meanwhile, and then retires as an acquire. -/
  | evwait (e : BitVec 6)
  /-- EVSET (R269). Sets an event bit as a release. -/
  | evset (e : BitVec 6)
  /-- EVCLR (R269). Clears an event bit. -/
  | evclr (e : BitVec 6)
  /-- WAITF (R270). Rereads a lane word, lending issue slots, until it differs from s(d), then writes it to s(d). -/
  | waitf (d : BitVec 6) (a b : Opnd)
  /-- BARM (R272). Arms a barrier group with count c. -/
  | barm (a b : Opnd)
  /-- BARR (R273). Releases and then arrives at the group's current phase. -/
  | barr (a : Opnd)
  /-- BWAIT (R273). Waits, lending slots, until the phase of the burner's latest BARR completes or the group breaks. -/
  | bwait (d : BitVec 6) (a : Opnd)
  /-- BLEAVE (R273). Releases and then departs the group permanently, counting as arrived in every phase. -/
  | bleave (a : Opnd)
  /-- SENDT (R274). Releases, reads a payload row and delivers it with a token into a target burner's inbox. -/
  | sendt (a b : Opnd)
  /-- TRAP (R279). Raises TRAP_INSN with TADDR set to operand a. -/
  | trap (a : Opnd)
  /-- RFT (R374). Leaves the trap handler: marks skipped entries, clears TE and resumes every queue at its cut. -/
  | rft
  /-- YIELD (R278). When a yield is requested, drains, saves the yield area and frees the core; otherwise acts as a NOP. -/
  | yield
  /-- HALT (R278). Stops decoding, waits for every queue entry, store and engine command, and then the burner stops and is unbound. -/
  | halt
  /-- CTLR (R276). Reads the control register numbered in b into s(d). -/
  | ctlr (d : BitVec 6) (c : BitVec 7)
  /-- CTLW (R276). Writes operand a to a control register that has no behaviour of its own, with its checks and serialisation. -/
  | ctlw (c : BitVec 7) (a : Opnd)
  /-- NOP (R275). Does nothing. -/
  | nop
  /-- BKPT (R279). Raises BREAKPOINT with TADDR set to operand a. -/
  | bkpt (a : Opnd)
  /-- BSWITCH (R277). Makes the other burner front when it is runnable, cutting this one; the outcome is logged for replay. -/
  | bswitch
  /-- PFX (R22). Overrides the format, saturation or rounding of the next instruction, forming one unit with it. -/
  | pfx (w : BitVec 24)
  /-- INBPOP (R210). A CTLR of INBPOP pops the head inbox token as an acquire, waiting and lending slots while the FIFO is empty. -/
  | inbpop (d : BitVec 6)
  /-- INBREL (R210). A CTLW of INBREL releases the n oldest popped inbox rows back to the ring. -/
  | inbrel (a : Opnd)
  /-- SLD (R81). Writing BCTL with SLD = 1 loads the stochastic-rounding generator from SEED. -/
  | sld (a : Opnd)
  /-- SRS_WRITE (R81). A CTLW of SRSL or SRSH writes half of the burner's generator state directly. -/
  | srsWrite (hi : BitVec 1) (a : Opnd)
  /-- LTR_WRITE (R267). A CTLW of LTRk writes the loop's counts and arms it with ITER 0. -/
  | ltrWrite (k : BitVec 4) (a : Opnd)
  /-- PFWAIT (R377). Registers a page wait in the die's fault table and leaves the handler stopped at the cut. -/
  | pfwait (a : Opnd)
  /-- TRMARK (R390). A CTLW of TRMARK writes a MARK trace record when its enable is set. -/
  | trmark (a : Opnd)
  /-- MODE (R396). A write of RPCTL.MODE starts recording or replay, sets POS to 0 and restarts the digest. -/
  | mode (a : Opnd)
  /-- VADD (R290). Adds integer elements, wrapping or saturating. -/
  | vadd (f : VF)
  /-- VSUB (R290). Subtracts integer elements, wrapping or saturating. -/
  | vsub (f : VF)
  /-- VMUL (R290). Multiplies integer elements, wrapping or saturating. -/
  | vmul (f : VF)
  /-- VMULH (R290). Writes the high part of each integer product. -/
  | vmulh (f : VF)
  /-- VMAD (R290). Computes x × y + c per integer element, with vd as the addend. -/
  | vmad (f : VF)
  /-- VMIN (R290). Takes the elementwise integer minimum. -/
  | vmin (f : VF)
  /-- VMAX (R290). Takes the elementwise integer maximum. -/
  | vmax (f : VF)
  /-- VABS (R290). Takes the absolute value of each integer element. -/
  | vabs (f : VF)
  /-- VNEG (R290). Negates each integer element. -/
  | vneg (f : VF)
  /-- VAND (R290). ANDs lane words bit by bit. -/
  | vand (f : VF)
  /-- VOR (R290). ORs lane words bit by bit. -/
  | vor (f : VF)
  /-- VXOR (R290). XORs lane words bit by bit. -/
  | vxor (f : VF)
  /-- VNOT (R290). Inverts lane words bit by bit. -/
  | vnot (f : VF)
  /-- VSHL (R290). Shifts integer elements left. -/
  | vshl (f : VF)
  /-- VSHR (R290). Shifts integer elements logically right. -/
  | vshr (f : VF)
  /-- VSRA (R290). Shifts integer elements arithmetically right. -/
  | vsra (f : VF)
  /-- VPOPC (R290). Counts the set bits of each element. -/
  | vpopc (f : VF)
  /-- VCLZ (R290). Counts the leading zeros of each element. -/
  | vclz (f : VF)
  /-- VFADD (R292). Adds float elements with one rounding into their format. -/
  | vfadd (f : VF)
  /-- VFSUB (R292). Subtracts float elements. -/
  | vfsub (f : VF)
  /-- VFMUL (R292). Multiplies float elements. -/
  | vfmul (f : VF)
  /-- VFMA (R292). Computes a fused multiply-add per element, with vd as the addend. -/
  | vfma (f : VF)
  /-- VFMIN (R292). Takes the elementwise float minimum. -/
  | vfmin (f : VF)
  /-- VFMAX (R292). Takes the elementwise float maximum. -/
  | vfmax (f : VF)
  /-- VDIV (R293). Divides elements, correctly rounded. -/
  | vdiv (f : VF)
  /-- VSQRT (R293). Takes the square root of each element, correctly rounded. -/
  | vsqrt (f : VF)
  /-- VRCP (R293). Takes the reciprocal of each element, correctly rounded. -/
  | vrcp (f : VF)
  /-- VRSQ (R293). Takes the reciprocal square root of each element, correctly rounded. -/
  | vrsq (f : VF)
  /-- VEXP2 (R293). Computes 2^x per element, correctly rounded. -/
  | vexp2 (f : VF)
  /-- VLOG2 (R293). Computes log2 x per element, correctly rounded. -/
  | vlog2 (f : VF)
  /-- VTANH (R293). Computes tanh x per element, correctly rounded. -/
  | vtanh (f : VF)
  /-- VSIN (R294). Computes the sine by the reference reduction and polynomial. -/
  | vsin (f : VF)
  /-- VCOS (R294). Computes the cosine by the reference reduction and polynomial. -/
  | vcos (f : VF)
  /-- VCMP_EQ (R296). Writes all ones where the elements are equal. -/
  | vcmpEq (f : VF)
  /-- VCMP_NE (R296). Writes all ones where the elements are not equal or are unordered. -/
  | vcmpNe (f : VF)
  /-- VCMP_LT (R296). Writes all ones where x < y. -/
  | vcmpLt (f : VF)
  /-- VCMP_LE (R296). Writes all ones where x ≤ y. -/
  | vcmpLe (f : VF)
  /-- VCMP_GT (R296). Writes all ones where x > y. -/
  | vcmpGt (f : VF)
  /-- VCMP_GE (R296). Writes all ones where x ≥ y. -/
  | vcmpGe (f : VF)
  /-- VCMP_LTU (R296). Writes all ones where x < y unsigned, or the floats are less or unordered. -/
  | vcmpLtu (f : VF)
  /-- VCMP_GEU (R296). Writes all ones where x ≥ y unsigned, or the floats are greater-equal or unordered. -/
  | vcmpGeu (f : VF)
  /-- VSEL (R297). Selects a's or b's element by vd's condition element. -/
  | vsel (f : VF)
  /-- VCVT (R299). Converts every element of view a to a target format. -/
  | vcvt (f : VF)
  /-- VSCALE (R300). Derives the E8M0 block scales of a view for an element format. -/
  | vscale (f : VF)
  /-- VQNT (R300). Quantises a view into scaled elements in v(d) and scales in v(d+1). -/
  | vqnt (f : VF)
  /-- VDQNT (R301). Dequantises elements by their block scales. -/
  | vdqnt (f : VF)
  /-- VROTR (R305). Rotates the register's rows by k. -/
  | vrotr (f : VSF)
  /-- VROTC (R305). Rotates the register's columns by k. -/
  | vrotc (f : VSF)
  /-- VBCR (R305). Broadcasts row k to every row. -/
  | vbcr (f : VSF)
  /-- VBCC (R305). Broadcasts column k to every column. -/
  | vbcc (f : VSF)
  /-- VREDR (R306). Reduces along the row axis through the fixed tree. -/
  | vredr (f : VF)
  /-- VREDC (R306). Reduces each row across its columns through the fixed tree. -/
  | vredc (f : VF)
  /-- VREDA (R306). Reduces the whole register to one lane through the fixed tree. -/
  | vreda (f : VF)
  /-- VIOTA (R308). Writes lane i := i for n lanes. -/
  | viota (f : VSF)
  /-- VSPL (R308). Splats a scalar into all 1,024 lanes. -/
  | vspl (f : VSF)
  /-- VEXT (R308). Extracts the lanes from k onward. -/
  | vext (f : VSF)
  /-- VINS (R308). Inserts the view's lanes into vd at lane k. -/
  | vins (f : VSF)
  /-- VCOAL (R309). Rewrites a register in canonical run form. -/
  | vcoal (f : VF)
  /-- VLEN (R309). Sets the logical length, cutting runs or appending zeros. -/
  | vlen (f : VSF)
  /-- VOCC (R309). Reports the view's run count and length. -/
  | vocc (f : VF)
  /-- MPUSH (R311). Pushes a mask entry ANDed with the view's true lanes. -/
  | mpush (f : VF)
  /-- MINV (R311). Inverts the top mask entry within the entry below it. -/
  | minv (f : VF)
  /-- MPOP (R311). Removes the top mask entry. -/
  | mpop (f : VF)
  /-- MTEST (R311). Writes the top mask as an INT32 register. -/
  | mtest (f : VF)
  /-- VCQ (R313). Writes one any, all or per-tile entry into the condition queue at retirement, waiting while CQ is full. -/
  | vcq (f : VF)
  /-- RDEF (R318). Defines recipe entry k from its captured body, first replaying and untagging the registers attached to it. -/
  | rdef (f : VF)
  /-- VTAG (R319). Computes vd through a recipe and marks it TAGGED. -/
  | vtag (f : VF)
  /-- VUNTAG (R320). Makes vd PLAIN, replaying it first when it is DROPPED. -/
  | vuntag (f : VF)
  /-- VDROP (R320). Frees a droppable TAGGED register's runs and marks it DROPPED. -/
  | vdrop (f : VF)
  /-- VLD (R324). Loads N lane words from consecutive rows. -/
  | vld (f : MF)
  /-- VLD_ROT (R324). Loads N lane words starting at lane offset K. -/
  | vldRot (f : MF)
  /-- VST (R325). Stores a register to consecutive rows, converting to the bank's format. -/
  | vst (f : MF)
  /-- VST_ROT (R325). Stores a register starting at lane offset K. -/
  | vstRot (f : MF)
  /-- VLDZ (R324). Loads a quarter of a Z-order or linear tile, optionally transposed. -/
  | vldz (f : MF)
  /-- VSTZ (R325). Stores a register into its tile positions. -/
  | vstz (f : MF)
  /-- VLDM (R324). Loads rows at a signed stride. -/
  | vldm (f : MF)
  /-- VSTM (R325). Stores rows at a signed stride. -/
  | vstm (f : MF)
  /-- MLEASE (R328). Enrols with the quad's array, stalling until the lease is granted. -/
  | mlease (f : XF)
  /-- MFREE (R328). Leaves the array's lease rotation. -/
  | mfree (f : XF)
  /-- OTAKE (R329). Binds a free physical operand slot to a name. -/
  | otake (f : XF)
  /-- OGIVE (R329). Unbinds an operand slot, losing its contents. -/
  | ogive (f : XF)
  /-- OFILL (R330). Loads an operand slot from a scratchpad tile. -/
  | ofill (f : XF)
  /-- MMA (R331). Accumulates the product of two operand slots into an accumulator tile in chunks. -/
  | mma (f : XF)
  /-- MMAZ (R331). Zeroes the tile and then accumulates the product. -/
  | mmaz (f : XF)
  /-- ARD (R333). Reads a quarter of an accumulator tile into a vector register. -/
  | ard (f : XF)
  /-- AWR (R333). Writes a quarter of an accumulator tile from a vector register. -/
  | awr (f : XF)
  /-- AZERO (R333). Zeroes an accumulator tile and sets its kind. -/
  | azero (f : XF)
  /-- ESEND (R336). Reads, validates and pushes a 128-byte engine command as a release. -/
  | esend (f : EF)
  /-- ERECV (R338). Pops the oldest completion element of a unit as an acquire, waiting while a command is outstanding. -/
  | erecv (f : EF)
  /-- ESTAT_STATUS (R339). ESTAT with n = 0 returns the unit's status word. -/
  | estatStatus (f : EF)
  /-- ESTAT_PROGRESS (R339). ESTAT with n = 1 returns the progress of the faulted head command. -/
  | estatProgress (f : EF)
  /-- ESTAT_DROP (R339). ESTAT with n = 2 drops a faulted head command with status DROPPED. -/
  | estatDrop (f : EF)
  /-- BXFORM (R106). Sends a transform request to its bank's transform unit and retires once it is performed. -/
  | bxform (f : EF)
  /-- WREG (R114). Registers a tensor from its registration record and returns its TID. -/
  | wreg (f : EF)
  /-- WREG_UNREG (R130). Unregisters a tensor, ending its waiting loads, and holds until the entry is freed. -/
  | wregUnreg (f : EF)
  /-- WREG_RESTORE (R134). Restores a tensor from its newest valid checkpoint slot and registers it. -/
  | wregRestore (f : EF)
  /-- WLOAD_PAST (R115). Loads rows of a named step that is stored or reconstructable. -/
  | wloadPast (f : EF)
  /-- WLOAD_WAIT (R116). Loads rows of a named step, waiting for a step up to 8 ahead. -/
  | wloadWait (f : EF)
  /-- WLOAD_EXTRAP (R117). Loads rows of a named step, extrapolating up to 4 steps ahead along momentum. -/
  | wloadExtrap (f : EF)
  /-- WCOMMIT (R121). The weight port accepts a commit request as a release and returns its tag. -/
  | wcommit (f : EF)
  /-- WPUB (R121). The weight port accepts a publish request as a release and returns its tag. -/
  | wpub (f : EF)
  /-- WRELEASE (R128). Raises the release floor and frees deltas that no user needs. -/
  | wrelease (f : EF)
  /-- WQUERY (R129). Returns the selected 32-bit item of a tensor's state. -/
  | wquery (f : EF)
  /-- CLAIM (R149). Presents a name to its slice and receives MAKER, WAITER, READY or FULL. -/
  | claim (f : EF)
  /-- CLWAIT (R151). Delivers a pending membership, or waits until the waiting membership becomes pending. -/
  | clwait (f : EF)
  /-- FULFIL (R153). Makes the entry READY with its handle as a release, and turns the waiters into pending READY. -/
  | fulfil (f : EF)
  /-- ABANDON (R155). Gives up a maker role or a waiting membership. -/
  | abandon (f : EF)
  /-- CLHOLD (R156). Adds one hold on a READY entry. -/
  | clhold (f : EF)
  /-- CLFREE (R156). Removes one hold on a READY entry. -/
  | clfree (f : EF)
  /-- INBOX_DELIVERY (R209). Writes the payload into the next free row of the target's ring and pushes the token word, once a row is free. -/
  | inboxDelivery (core bur : Nat) (tok : Word) (row : List Word)
  /-- ARRIVAL_COMBINE (R425). In arrival mode, an arriving partial is added to the running sum with one rounding. -/
  | arrivalCombine (g rank : Nat)
  /-- COLLECTIVE_ROOT (R346). Once every contribution is present, one engine forms the root and sends it whole to every member. -/
  | collectiveRoot (g : Nat)
  /-- ENGINE_COMPLETION (R345). A finished command posts its completion element with SUM32, then sets its SIGM event bits. -/
  | engineCompletion (u : Nat) (e : BitVec 128) (sigm : DWord)
  /-- STOCKPOT_COMMIT (R118). The sequencer checks the step, frees ring space, rewrites the weights block by block and reaches the completion point. -/
  | stockpotCommit (tid : Word) (src step : DWord) (evf : Byte) (tag : Word)
  /-- CHECKPOINT_COMPLETE (R132). After the lazy weight writes, the commit record is written and the pin removed. -/
  | checkpointComplete (tid : Word)
  /-- STOCKPOT_PUBLISH (R126). The publishing stockpot sends the deltas beyond P to every replica of the list. -/
  | stockpotPublish (tid : Word) (step : DWord) (evf : Byte) (tag : Word)
  /-- DELTA_APPLY (R126). A replica's stockpot applies a received delta, or ignores it and may set DIVERGED. -/
  | deltaApply (tid rset : Word) (step : DWord) (sum : Word) (ws : List Word)
  /-- PUBLISH_ACK (R126). When every replica has acknowledged, P becomes s and the publish completes DONE or PARTIAL. -/
  | publishAck (tid : Word) (step : DWord) (evf : Byte) (tag : Word) (sent applied : Nat)
  /-- DELTA_FREE (R128). A delta still needed at a release or commit is freed when its last user finishes. -/
  | deltaFree (tid : Word)
  /-- TENSOR_ENTRY_FREE (R130). When the last operation of an unregistered tensor completes, its table entry is freed. -/
  | tensorEntryFree (tid : Word)
  /-- PANTRY_REMOVAL (R158). After a burner's unbind or its domain's kill, the slice ends its memberships and hands maker roles on. -/
  | pantryRemoval (core bur : Nat)
  /-- RECORD_NOP (R354). A NOP launch record completes at once. -/
  | recordNop (q : Nat) (r : Rec512)
  /-- LAUNCH (R357). Checks the image header and reservations, then writes bind records or completes refused. -/
  | launch (q : Nat) (r : Rec512)
  /-- LAUNCH_LIST (R356). A LAUNCH with LIST runs the RCB's command list node by node. -/
  | launchList (q : Nat) (r : Rec512)
  /-- COMMAND_LIST_NODE (R356). When every burner of a node has halted, the next node of the list is launched. -/
  | commandListNode (id : Nat)
  /-- INVAL (R51). Invalidates an ASN's range in every TLB and completes after in-flight walks and accesses. -/
  | inval (q : Nat) (r : Rec512)
  /-- KILL (R364). Kills every burner and engine command of a fault domain, then unbinds them. -/
  | kill (q : Nat) (r : Rec512)
  /-- YIELDREQ (R354). Asks every burner of a region's subtree to yield at its next YIELD. -/
  | yieldreq (q : Nat) (r : Rec512)
  /-- EVICT (R380). Precisely evicts every burner of a region's subtree into save areas. -/
  | evict (q : Nat) (r : Rec512)
  /-- RESUME (R380). Binds every evicted burner of the subtree again and restores its saved state. -/
  | resume (q : Nat) (r : Rec512)
  /-- DISPATCH_BIND (R359). Dispatch carries out a bind record, loading the image, rows and registers of a burner. -/
  | dispatchBind (slot : Nat)
  /-- DISPATCH_UNBIND (R361). Dispatch unbinds a burner, returning its reservations and clearing its partition. -/
  | dispatchUnbind (slot : Nat)
  /-- DISPATCH_EVICT (R358). Dispatch carries out an evict bind record for a burner. -/
  | dispatchEvict (slot : Nat)
  /-- COMPLETION_RECORD (R355). Writes a completion record once the completion ring has room, followed by the interrupt word. -/
  | completionRecord (q : Nat) (op tag status detail : Nat)
  /-- UNCORRECTED_ERROR (R418). An uncorrected error poisons its row and kills the fault domain that found it. -/
  | uncorrectedError (row fd : Nat)
  /-- RESULT_VISIBLE (R214). When a write's exposed latency in slots has elapsed, its result becomes visible and the hidden old runs are freed. -/
  | resultVisible
  /-- LEASE_GRANT (R328). The array grants the lease to the next waiting requester in turn. -/
  | leaseGrant (quad : Nat)
  /-- LEASE_PASS (R328). After 64 matrix commands, the lease passes on when another requester waits, or its count restarts. -/
  | leasePass (quad : Nat)
  /-- EXPAND (R103). The transform unit decodes one compressed block into 16 rows. -/
  | expand (r : DWord)
  /-- ZTRANS (R103). The transform unit writes the transpose of a Z-order tile. -/
  | ztrans (r : DWord)
  /-- TOZ (R103). The transform unit re-lays a linear tile in Z-order. -/
  | toz (r : DWord)
  /-- TOLIN (R103). The transform unit re-lays a Z-order tile linearly. -/
  | tolin (r : DWord)
  /-- COPY (R343). The copy engine copies SRC to DST with conversion, scaling, expansion or compression. -/
  | copy (c : Cmd)
  /-- COPYQ (R109). The copy engine quantises a tensor into elements and a side tensor of scales. -/
  | copyq (c : Cmd)
  /-- XFORM (R343). The copy engine performs a transform request in DST's bank. -/
  | xform (c : Cmd)
  /-- FILL (R343). The copy engine fills the destination elements from a fill word. -/
  | fill (c : Cmd)
  /-- GATHER (R343). The gather engine gathers elements by an index tensor. -/
  | gather (c : Cmd)
  /-- SCATTER (R343). The gather engine scatters elements by an index tensor. -/
  | scatter (c : Cmd)
  /-- ALLRED (R346). The collective engine contributes this member's partial to an all-reduce in tree or arrival mode. -/
  | allred (c : Cmd)
  /-- BCAST (R343). The collective engine broadcasts the root's SRC to every member's DST. -/
  | bcast (c : Cmd)
  /-- REDSCAT (R343). The collective engine reduces in tree mode and scatters the result across members. -/
  | redscat (c : Cmd)
  /-- ALLGATH (R343). The collective engine gathers every member's SRC into every DST. -/
  | allgath (c : Cmd)
  /-- WLOADC (R343). The weight port loads rows of a named step with conversion. -/
  | wloadc (c : Cmd)
  /-- WDELTA (R343). The weight port copies a retained compressed delta raw to DST. -/
  | wdelta (c : Cmd)
  /-- EVQ_FAULT_CLEAR (R146). The management core clears an eviction-queue fault, making the entry evictable again. -/
  | evqFaultClear (slice set way : Nat)
  /-- STORE_BUFFER_PERFORM (R168). The store buffer performs its oldest local STW. -/
  | storeBufferPerform
  /-- PAGE_WALK (R50). A TLB miss takes one of the die's walkers, walks the tables and sets A and D. -/
  | pageWalk (va : DWord) (wr : Bool)
  /-- LEND_END (R217). When the lender's wait ends, the lending burner is cut within 64 cycles and the waiting burner becomes front. -/
  | lendEnd (core : Nat)
  /-- TRAP_ENTRY (R371). A fault taken with TE = 0 cuts the burner, writes the trap record and enters the handler at TVEC. -/
  | trapEntry (c : Cause) (src : Src) (addr : DWord)
  /-- PC_STOP (R385). Before decoding the instruction at DPC, the burner stops with DEBUG_STOP. -/
  | pcStop
  /-- MANAGEMENT_RESUME (R385). The management core resumes a burner held by a stop at its cut. -/
  | managementResume (core bur : Nat)
  /-- DOORBELL (R353). A host write of a queue's TAIL publishes launch records as an hq release. -/
  | doorbell (q : Nat) (tail : Word)
  /-- FIRMWARE_UNBIND_FROZEN (R376). The firmware unbinds a FROZEN burner, whose launch completes KILLED. -/
  | firmwareUnbindFrozen (core bur : Nat)
  /-- QUEUE_ENABLE (R402). Setting EN resets HEAD, the completion position and PH when the setup is valid. -/
  | queueEnable (q : Nat) (e : BitVec 256)
  /-- QUEUE_DISABLE (R402). Clearing EN stops the queue's record reading. -/
  | queueDisable (q : Nat)
  /-- ACCEPT (R399). The first host write of ACCEPT fixes the accepted features. -/
  | accept (v : BitVec 128)
  /-- WINDOW_WRITE (R398). A host write to a management window register with no behaviour of its own. -/
  | windowWrite (off : Nat) (v : DWord)
  /-- HOST_APERTURE_READ (R401). A host read through the device aperture is translated, or returns all ones and counts HFLT. -/
  | hostApertureRead (off len : Nat)
  /-- HOST_APERTURE_WRITE (R401). A host write through the device aperture is translated, or is discarded and counts HFLT. -/
  | hostApertureWrite (off : Nat) (bs : List Byte)
  /-- AREQ (R416). Writing 1 to AREQ requests an attestation report and sets ASTAT busy. -/
  | areq (v : Word)
  /-- ATTESTATION_REPORT (R416). The management core finishes the signed report and sets ASTAT to 2. -/
  | attestationReport
  /-- COLD_START (R410). RESET bit 0 kills every domain and runs every start step, generating fresh keys. -/
  | coldStart
  /-- WARM_START (R410). RESET bit 1 kills every domain and runs the warm start steps with retained keys. -/
  | warmStart
  /-- ADVANCE_SVN (R414). RESET bit 2 raises the fused minimum security version to the running one. -/
  | advanceSvn
  /-- FLIT_DATA (R405). A received data flit is checked and delivered in sequence, or discarded with a retry request. -/
  | flitData (port : Nat) (flit : BitVec 2048)
  /-- FLIT_IDLE (R404). A received idle flit returns credits and acknowledgements. -/
  | flitIdle (port : Nat) (flit : BitVec 2048)
  /-- FLIT_RETRY_REQUEST (R405). A received retry request makes the sender resend from the first unacknowledged flit. -/
  | flitRetryRequest (port : Nat) (flit : BitVec 2048)
  /-- FLIT_KEY_UPDATE (R406). A received key update flit starts a new key epoch. -/
  | flitKeyUpdate (port : Nat) (flit : BitVec 2048)
  /-- REKEY (R406). After 2^40 flits, the sender starts a new key epoch with a key update flit. -/
  | rekey (port : Nat)
  /-- LINK_DOWN (R408). Eight consecutive failures of one flit take the link down; its pending commands complete PEER_LOST and routes change. -/
  | linkDown (port : Nat)
  /-- PATROL_SCRUB (R417). The patrol scrub reads each LPDDR 6 row within 24 hours and writes corrections back. -/
  | patrolScrub (row : Nat) (corrected uncorrected : Bool)
  /-- THROTTLE (R419). At 95 °C junction, matrix and vector issue halve. -/
  | throttle
  /-- THROTTLE_END (R419). At 90 °C junction, full issue resumes. -/
  | throttleEnd
  /-- THERMAL_SHUTDOWN (R419). At 110 °C junction, every domain is killed and the start state becomes failed. -/
  | thermalShutdown
  /-- CYCLE (R392). Each cycle of the 1.8 GHz clock advances every enabled profiling counter whose selection holds, and the die's cycle count. -/
  | cycle
deriving DecidableEq, Repr

end Sys2Proof
end

