-- ==== Sys2Proof/WellFormed.lean ====
section
/-! DEFINITION. What an instruction word must satisfy beyond having an opcode: the checks of steps 6, 7 and 8 of the decoding
precedence (spec/01_instruction_words.md R26), over the instruction type, and their conjunction. -/
namespace Sys2Proof

/-- The queue that executes an instruction (R13). -/
inductive Queue where
  | l | x | s
deriving DecidableEq, Repr

/-- A 32-bit operand: any code but 127 (R16). -/
def Opnd.ok32 : Opnd → Bool
  | .lit2 _ => false
  | _ => true

/-- A 64-bit operand: register codes are even (R16). -/
def Opnd.ok64 : Opnd → Bool
  | .reg r => r.extractLsb' 0 1 == 0#1
  | _ => true

/-- An operand field an instruction does not use holds 64, the constant 0 (R254, R147, R120, R327, R335). -/
def Opnd.unused (o : Opnd) : Bool := o == .imm 0

/-- Format codes that are not reserved (R21). -/
def fmtAssigned (c : Nat) : Bool := c ≤ 0x0E || (0x12 ≤ c && c ≤ 0x18)

/-- Control-register numbers that some chapter assigns (R69, R203, R206, R208, R210, R222, R267, R368, R383, R399). -/
def ctlAssigned (c : Nat) : Bool := !(c == 14 || c == 15 || c ≥ 109)

/-- Control registers whose write is a row of its own in the opcode table. -/
def ctlwOwn (c : Nat) : Bool := c == 8 || c == 12 || c == 13 || c == 43 || c == 45 || c == 47 || (64 ≤ c && c ≤ 79) || c == 100

/-- R19: a wait selector names a FIFO whose consumer is the queue (codes LX 1, LS 2, XL 3, XS 4, SL 5, SX 6). -/
def waitOk (q : Queue) (c : BitVec 3) : Bool :=
  match q with
  | .l => c == 0 || c == 3 || c == 5
  | .x => c == 0 || c == 1 || c == 6
  | .s => c == 0 || c == 2 || c == 4

/-- R19: a push selector names a FIFO whose producer is the queue. -/
def pushOk (q : Queue) (c : BitVec 3) : Bool :=
  match q with
  | .l => c == 0 || c == 1 || c == 2
  | .x => c == 0 || c == 3 || c == 4
  | .s => c == 0 || c == 5 || c == 6

def VF.tokOk (f : VF) : Bool := waitOk .x f.wsel && pushOk .x f.psel
def VSF.tokOk (f : VSF) : Bool := waitOk .x f.wsel && pushOk .x f.psel
def MF.tokOk (q : Queue) (f : MF) : Bool := waitOk q f.wsel && pushOk q f.psel
def XF.tokOk (f : XF) : Bool := waitOk .x f.wsel && pushOk .x f.psel
def EF.tokOk (f : EF) : Bool := waitOk .s f.wsel && pushOk .s f.psel

/-- Field a of format V is not a vector source: it and its view bits are 0 (R17). -/
def VF.noA (f : VF) : Bool := f.a == 0 && f.ha == 0 && f.swza == 0
/-- Field b of format V is must-be-0, with its view bits (R17). -/
def VF.noB (f : VF) : Bool := f.b == 0 && f.hb == 0 && f.swzb == 0
/-- Field b holds a small code below 2^n, with its view bits 0 (R17). -/
def VF.codeB (n : Nat) (f : VF) : Bool := decide (f.b.toNat < 2 ^ n) && f.swzb == 0
def VF.noRm (f : VF) : Bool := f.rm == 0
def VSF.noA (f : VSF) : Bool := f.a == 0 && f.ha == 0 && f.swza == 0
def VSF.noRm (f : VSF) : Bool := f.rm == 0
/-- Format X fields a form does not name are 0 (R327). -/
def XF.noD (f : XF) : Bool := f.d == 0
def XF.noSlots (f : XF) : Bool := f.oa == 0 && f.ob == 0 && f.acc == 0
def XF.noRm (f : XF) : Bool := f.rm == 0

/-- The rounding code of an X-queue instruction that rounds: 111 is illegal (R20). -/
def rmX (rm : BitVec 3) : Bool := rm != 7
/-- Outside the X queue, and in a `.fadd` reduction, 101 is illegal too (R82, R307). -/
def rmNoSr (rm : BitVec 3) : Bool := rm != 7 && rm != 5

/-- A reduction rounds only with op `.fadd`, code 3 (R307). -/
def VF.isFadd (f : VF) : Bool := f.b.extractLsb' 0 3 == 3#3

/-- Step 6 of R26: every must-be-zero field is 0, and rm is 000 where R20 requires it. -/
def Instr.zeroOk : Instr → Bool
  | .vadd f => f.noRm
  | .vsub f => f.noRm
  | .vmul f => f.noRm
  | .vmulh f => f.noRm
  | .vmad f => f.noRm
  | .vmin f => f.noRm
  | .vmax f => f.noRm
  | .vand f => f.noRm
  | .vor f => f.noRm
  | .vxor f => f.noRm
  | .vshl f => f.noRm
  | .vshr f => f.noRm
  | .vsra f => f.noRm
  | .vfmin f => f.noRm
  | .vfmax f => f.noRm
  | .vcmpEq f => f.noRm
  | .vcmpNe f => f.noRm
  | .vcmpLt f => f.noRm
  | .vcmpLe f => f.noRm
  | .vcmpGt f => f.noRm
  | .vcmpGe f => f.noRm
  | .vcmpLtu f => f.noRm
  | .vcmpGeu f => f.noRm
  | .vsel f => f.noRm
  | .vabs f => f.noRm && f.noB
  | .vneg f => f.noRm && f.noB
  | .vnot f => f.noRm && f.noB
  | .vpopc f => f.noRm && f.noB
  | .vclz f => f.noRm && f.noB
  | .vsqrt f => f.noB
  | .vrcp f => f.noB
  | .vrsq f => f.noB
  | .vexp2 f => f.noB
  | .vlog2 f => f.noB
  | .vsin f => f.noB
  | .vcos f => f.noB
  | .vtanh f => f.noB
  | .vcvt f => f.codeB 5 && f.hb == 0
  | .vscale f => f.codeB 5
  | .vqnt f => f.codeB 5
  | .vdqnt f => f.swzb == 0
  | .vredr f => f.codeB 3 && f.hb == 0 && (f.isFadd || f.noRm)
  | .vredc f => f.codeB 3 && f.hb == 0 && (f.isFadd || f.noRm)
  | .vreda f => f.codeB 3 && f.hb == 0 && (f.isFadd || f.noRm)
  | .vcoal f => f.noRm && f.noB
  | .vocc f => f.noRm && f.noB
  | .mpush f => f.noRm && f.noB && f.d == 0
  | .minv f => f.noRm && f.noA && f.noB && f.d == 0
  | .mpop f => f.noRm && f.noA && f.noB && f.d == 0
  | .mtest f => f.noRm && f.noA && f.noB
  | .vuntag f => f.noRm && f.noA && f.noB
  | .vdrop f => f.noRm && f.noA && f.noB
  | .vcq f => f.noRm && f.codeB 2 && f.hb == 0 && f.d == 0
  | .rdef f => f.noRm && f.noB && f.ha == 0 && f.swza == 0 && decide (f.d.toNat < 64) && decide (f.a.toNat < 4)
  | .vtag f => f.noRm && f.noB && f.ha == 0 && f.swza == 0 && decide (f.a.toNat < 64)
  | .vrotr f => f.noRm
  | .vrotc f => f.noRm
  | .vbcr f => f.noRm
  | .vbcc f => f.noRm
  | .vext f => f.noRm
  | .vins f => f.noRm
  | .vlen f => f.noRm
  | .viota f => f.noRm && f.noA
  | .vspl f => f.noRm && f.noA
  | .mlease f => f.noRm && f.noD && f.noSlots
  | .mfree f => f.noRm && f.noD && f.noSlots
  | .otake f => f.noRm && f.noD && f.ob == 0 && f.acc == 0
  | .ogive f => f.noRm && f.noD && f.ob == 0 && f.acc == 0
  | .ofill f => f.noRm && f.noD && f.ob == 0 && f.acc == 0
  | .mma f => f.noD
  | .mmaz f => f.noD
  | .ard f => f.noRm && f.oa == 0 && f.ob == 0
  | .awr f => f.noRm && f.oa == 0 && f.ob == 0
  | .azero f => f.noRm && f.noD && f.oa == 0 && f.ob == 0
  | .esend f => decide (f.imm8.toNat < 2)
  | .erecv f => f.imm8 == 0
  | .estatStatus f => decide (f.imm8.toNat < 4)
  | .estatProgress f => decide (f.imm8.toNat < 4)
  | .estatDrop f => decide (f.imm8.toNat < 4)
  | .bxform f => f.imm8 == 0 && f.d == 0
  | .wreg f => f.imm8 == 0
  | .wregUnreg f => f.imm8 == 0
  | .wregRestore f => f.imm8 == 0
  | .wrelease f => f.imm8 == 0
  | .claim f => f.imm8 == 0
  | .clwait f => f.imm8 == 0
  | .fulfil f => f.imm8 == 0
  | .abandon f => f.imm8 == 0
  | .clhold f => f.imm8 == 0
  | .clfree f => f.imm8 == 0
  | .wcommit f => f.imm8.extractLsb' 6 1 == 0#1
  | .wpub f => f.imm8.extractLsb' 6 1 == 0#1
  | _ => true

/-- Step 7 of R26: operand codes, odd pair codes, token selectors, control-register numbers, format codes. -/
def Instr.operandOk : Instr → Bool
  | .vadd f => f.tokOk
  | .vsub f => f.tokOk
  | .vmul f => f.tokOk
  | .vmulh f => f.tokOk
  | .vmad f => f.tokOk
  | .vmin f => f.tokOk
  | .vmax f => f.tokOk
  | .vabs f => f.tokOk
  | .vneg f => f.tokOk
  | .vand f => f.tokOk
  | .vor f => f.tokOk
  | .vxor f => f.tokOk
  | .vnot f => f.tokOk
  | .vshl f => f.tokOk
  | .vshr f => f.tokOk
  | .vsra f => f.tokOk
  | .vpopc f => f.tokOk
  | .vclz f => f.tokOk
  | .vfadd f => f.tokOk
  | .vfsub f => f.tokOk
  | .vfmul f => f.tokOk
  | .vfma f => f.tokOk
  | .vfmin f => f.tokOk
  | .vfmax f => f.tokOk
  | .vdiv f => f.tokOk
  | .vsqrt f => f.tokOk
  | .vrcp f => f.tokOk
  | .vrsq f => f.tokOk
  | .vexp2 f => f.tokOk
  | .vlog2 f => f.tokOk
  | .vtanh f => f.tokOk
  | .vsin f => f.tokOk
  | .vcos f => f.tokOk
  | .vcmpEq f => f.tokOk
  | .vcmpNe f => f.tokOk
  | .vcmpLt f => f.tokOk
  | .vcmpLe f => f.tokOk
  | .vcmpGt f => f.tokOk
  | .vcmpGe f => f.tokOk
  | .vcmpLtu f => f.tokOk
  | .vcmpGeu f => f.tokOk
  | .vsel f => f.tokOk
  | .vcvt f => f.tokOk && fmtAssigned f.b.toNat
  | .vscale f => f.tokOk && decide (4 ≤ f.b.toNat) && decide (f.b.toNat ≤ 8)
  | .vqnt f => f.tokOk && decide (4 ≤ f.b.toNat) && decide (f.b.toNat ≤ 8) && f.d != 2047
  | .vdqnt f => f.tokOk
  | .vredr f => f.tokOk
  | .vredc f => f.tokOk
  | .vreda f => f.tokOk
  | .vcoal f => f.tokOk
  | .vocc f => f.tokOk
  | .mpush f => f.tokOk
  | .minv f => f.tokOk
  | .mpop f => f.tokOk
  | .mtest f => f.tokOk
  | .vcq f => f.tokOk && decide (f.b.toNat < 3)
  | .rdef f => f.tokOk
  | .vtag f => f.tokOk && f.d != 2047
  | .vuntag f => f.tokOk
  | .vdrop f => f.tokOk
  | .vrotr f => f.tokOk && f.b.ok32
  | .vrotc f => f.tokOk && f.b.ok32
  | .vbcr f => f.tokOk && f.b.ok32
  | .vbcc f => f.tokOk && f.b.ok32
  | .viota f => f.tokOk && f.b.ok32
  | .vspl f => f.tokOk && f.b.ok32
  | .vext f => f.tokOk && f.b.ok32
  | .vins f => f.tokOk && f.b.ok32
  | .vlen f => f.tokOk && f.b.ok32
  | .vld f => f.tokOk .l && f.a.ok32 && f.b.ok32
  | .vldRot f => f.tokOk .l && f.a.ok32 && f.b.ok32
  | .vldz f => f.tokOk .l && f.a.ok32 && f.b.ok32
  | .vldm f => f.tokOk .l && f.a.ok32 && f.b.ok32
  | .vst f => f.tokOk .s && f.a.ok32 && f.b.ok32
  | .vstRot f => f.tokOk .s && f.a.ok32 && f.b.ok32
  | .vstz f => f.tokOk .s && f.a.ok32 && f.b.ok32
  | .vstm f => f.tokOk .s && f.a.ok32 && f.b.ok32
  | .mlease f => f.tokOk && f.a.unused && f.b.unused
  | .mfree f => f.tokOk && f.a.unused && f.b.unused
  | .otake f => f.tokOk && f.a.unused && f.b.unused
  | .ogive f => f.tokOk && f.a.unused && f.b.unused
  | .mma f => f.tokOk && f.a.unused && f.b.unused
  | .mmaz f => f.tokOk && f.a.unused && f.b.unused
  | .ofill f => f.tokOk && f.a.ok32 && f.b.ok32
  | .ard f => f.tokOk && f.a.unused && f.b.ok32
  | .awr f => f.tokOk && f.a.unused && f.b.ok32
  | .azero f => f.tokOk && f.a.unused && (f.b == .imm 1 || f.b == .imm 9)
  | .esend f => f.tokOk && f.a.ok32 && f.b.unused && f.c.unused && decide (f.unit.toNat < 4)
  | .erecv f => f.tokOk && f.a.unused && f.b.unused && f.c.unused && decide (f.unit.toNat < 4) && f.d.extractLsb' 0 2 == 0#2
  | .estatStatus f => f.tokOk && f.a.unused && f.b.unused && f.c.unused && decide (f.unit.toNat < 4) && f.imm8 == 0
  | .estatProgress f => f.tokOk && f.a.unused && f.b.unused && f.c.unused && decide (f.unit.toNat < 4) && f.imm8 == 1
  | .estatDrop f => f.tokOk && f.a.unused && f.b.unused && f.c.unused && decide (f.unit.toNat < 4) && f.imm8 == 2
  | .bxform f => f.tokOk && f.a.ok64 && f.b.unused && f.c.unused && f.unit == 0
  | .wreg f => f.tokOk && f.a.ok64 && f.b.unused && f.c.unused && f.unit == 0
  | .wregUnreg f => f.tokOk && f.a.ok32 && f.b.unused && f.c.unused && f.unit == 1
  | .wregRestore f => f.tokOk && f.a.ok64 && f.b.unused && f.c.unused && f.unit == 2
  | .wloadPast f => f.tokOk && f.a.ok64 && f.b.ok64 && f.c.ok32 && f.unit == 0
  | .wloadWait f => f.tokOk && f.a.ok64 && f.b.ok64 && f.c.ok32 && f.unit == 1
  | .wloadExtrap f => f.tokOk && f.a.ok64 && f.b.ok64 && f.c.ok32 && f.unit == 2
  | .wcommit f => f.tokOk && f.a.ok32 && f.b.ok64 && f.c.ok64 && f.unit == 0
  | .wpub f => f.tokOk && f.a.ok32 && f.b.ok64 && f.c.unused && f.unit == 0
  | .wrelease f => f.tokOk && f.a.ok32 && f.b.ok64 && f.c.unused && f.unit == 0
  | .wquery f => f.tokOk && f.a.ok32 && f.b.unused && f.c.unused && f.unit == 0 && decide (f.imm8.toNat < 10)
  | .claim f => f.tokOk && f.a.ok32 && f.b.ok64 && f.c.ok32 && f.unit == 0 && f.d.extractLsb' 0 2 == 0#2
  | .clwait f => f.tokOk && f.a.ok32 && f.b.unused && f.c.unused && f.unit == 0 && f.d.extractLsb' 0 2 == 0#2
  | .fulfil f => f.tokOk && f.a.ok32 && f.b.ok64 && f.c.ok32 && f.unit == 0
  | .abandon f => f.tokOk && f.a.ok32 && f.b.unused && f.c.unused && f.unit == 0
  | .clhold f => f.tokOk && f.a.ok32 && f.b.unused && f.c.unused && f.unit == 0
  | .clfree f => f.tokOk && f.a.ok32 && f.b.unused && f.c.unused && f.unit == 0
  | .add _ p q => p.ok32 && q.ok32
  | .sub _ p q => p.ok32 && q.ok32
  | .mul _ p q => p.ok32 && q.ok32
  | .mulh _ p q => p.ok32 && q.ok32
  | .mulhu _ p q => p.ok32 && q.ok32
  | .div _ p q => p.ok32 && q.ok32
  | .divu _ p q => p.ok32 && q.ok32
  | .rem _ p q => p.ok32 && q.ok32
  | .remu _ p q => p.ok32 && q.ok32
  | .and _ p q => p.ok32 && q.ok32
  | .or _ p q => p.ok32 && q.ok32
  | .xor _ p q => p.ok32 && q.ok32
  | .shl _ p q => p.ok32 && q.ok32
  | .shr _ p q => p.ok32 && q.ok32
  | .sra _ p q => p.ok32 && q.ok32
  | .andn _ p q => p.ok32 && q.ok32
  | .rol _ p q => p.ok32 && q.ok32
  | .ror _ p q => p.ok32 && q.ok32
  | .min _ p q => p.ok32 && q.ok32
  | .max _ p q => p.ok32 && q.ok32
  | .minu _ p q => p.ok32 && q.ok32
  | .maxu _ p q => p.ok32 && q.ok32
  | .clz _ a => a.ok32
  | .ctz _ a => a.ok32
  | .popc _ a => a.ok32
  | .sext _ p q => p.ok32 && q.ok32
  | .zext _ p q => p.ok32 && q.ok32
  | .mov _ a => a.ok32
  | .sel _ p q => p.ok32 && q.ok32
  | .cmp _ p q => p.ok32 && q.ok32
  | .addw d p q => d.extractLsb' 0 1 == 0#1 && p.ok64 && q.ok64
  | .subw d p q => d.extractLsb' 0 1 == 0#1 && p.ok64 && q.ok64
  | .shlw d p q => d.extractLsb' 0 1 == 0#1 && p.ok64 && q.ok64
  | .movw d a => d.extractLsb' 0 1 == 0#1 && a.ok64
  | .addp16 _ p q => p.ok32 && q.ok32
  | .addp8 _ p q => p.ok32 && q.ok32
  | .addp4 _ p q => p.ok32 && q.ok32
  | .subp16 _ p q => p.ok32 && q.ok32
  | .subp8 _ p q => p.ok32 && q.ok32
  | .subp4 _ p q => p.ok32 && q.ok32
  | .maxp16 _ p q => p.ok32 && q.ok32
  | .maxp8 _ p q => p.ok32 && q.ok32
  | .maxp4 _ p q => p.ok32 && q.ok32
  | .minp16 _ p q => p.ok32 && q.ok32
  | .minp8 _ p q => p.ok32 && q.ok32
  | .minp4 _ p q => p.ok32 && q.ok32
  | .avgp16 _ p q => p.ok32 && q.ok32
  | .avgp8 _ p q => p.ok32 && q.ok32
  | .avgp4 _ p q => p.ok32 && q.ok32
  | .fadd _ p q => p.ok32 && q.ok32
  | .fsub _ p q => p.ok32 && q.ok32
  | .fmul _ p q => p.ok32 && q.ok32
  | .ffma _ p q => p.ok32 && q.ok32
  | .fmin _ p q => p.ok32 && q.ok32
  | .fmax _ p q => p.ok32 && q.ok32
  | .fcmp _ p q => p.ok32 && q.ok32
  | .fcvt _ a f => a.ok32 && fmtAssigned f.toNat
  | .fcvti _ a => a.ok32
  | .fcvtf _ a => a.ok32
  | .ldw _ p q => p.ok32 && q.ok32
  | .stw _ p q => p.ok32 && q.ok32
  | .aadd _ p q => p.ok32 && q.ok32
  | .amax _ p q => p.ok32 && q.ok32
  | .amin _ p q => p.ok32 && q.ok32
  | .axchg _ p q => p.ok32 && q.ok32
  | .acas d p q => d.extractLsb' 0 1 == 0#1 && p.ok32 && q.ok32
  | .aor _ p q => p.ok32 && q.ok32
  | .waitf _ p q => p.ok32 && q.ok32
  | .barm p q => p.ok32 && q.ok32
  | .barr a => a.ok32
  | .bwait _ a => a.ok32
  | .bleave a => a.ok32
  | .sendt p q => p.ok32 && q.ok32
  | .trap a => a.ok32
  | .bkpt a => a.ok32
  | .bcNz a _ => a.ok32
  | .bcZ a _ => a.ok32
  | .bcqAny k _ => k.ok32
  | .bcqNone k _ => k.ok32
  | .jr a => a.ok32
  | .loop _ a _ => a.ok32
  | .ctlr _ c => ctlAssigned c.toNat && c != 42
  | .ctlw c a => ctlAssigned c.toNat && !ctlwOwn c.toNat && a.ok32
  | .inbrel a => a.ok32
  | .sld a => a.ok32
  | .srsWrite _ a => a.ok32
  | .ltrWrite _ a => a.ok32
  | .pfwait a => a.ok32
  | .trmark a => a.ok32
  | .mode a => a.ok32
  | _ => true

/-- Step 8 of R26: the rounding codes that the entry of a rounding instruction accepts (R20, R82, R307, R327). -/
def Instr.roundOk : Instr → Bool
  | .vfadd f => rmX f.rm
  | .vfsub f => rmX f.rm
  | .vfmul f => rmX f.rm
  | .vfma f => rmX f.rm
  | .vdiv f => rmX f.rm
  | .vsqrt f => rmX f.rm
  | .vrcp f => rmX f.rm
  | .vrsq f => rmX f.rm
  | .vexp2 f => rmX f.rm
  | .vlog2 f => rmX f.rm
  | .vsin f => rmX f.rm
  | .vcos f => rmX f.rm
  | .vtanh f => rmX f.rm
  | .vcvt f => rmX f.rm
  | .vscale f => rmX f.rm
  | .vqnt f => rmX f.rm
  | .vdqnt f => rmX f.rm
  | .vredr f => !f.isFadd || rmNoSr f.rm
  | .vredc f => !f.isFadd || rmNoSr f.rm
  | .vreda f => !f.isFadd || rmNoSr f.rm
  | .vld f => rmNoSr f.rm
  | .vldRot f => rmNoSr f.rm
  | .vldz f => rmNoSr f.rm
  | .vldm f => rmNoSr f.rm
  | .vst f => rmNoSr f.rm
  | .vstRot f => rmNoSr f.rm
  | .vstz f => rmNoSr f.rm
  | .vstm f => rmNoSr f.rm
  | .mma f => f.rm == 0
  | .mmaz f => f.rm == 0
  | _ => true

/-- R21, R22: the fields of a PFX word that hold whatever instruction follows it: bits 31:20 are 0, sat is not 11, fmt is 0
while fe = 0 and rnd is 0 while re = 0, and a format override names an assigned format. -/
def pfxFieldsOk (w : BitVec 24) : Bool :=
  w.extractLsb' 12 12 == 0 && w.extractLsb' 4 2 != 3 &&
  (w.extractLsb' 6 1 == 1 || w.extractLsb' 7 5 == 0) && (w.extractLsb' 3 1 == 1 || w.extractLsb' 0 3 == 0) &&
  (w.extractLsb' 6 1 == 0 || fmtAssigned (w.extractLsb' 7 5).toNat)

/-- A well-formed instruction: every check of steps 6 to 8 of R26 holds, and a PFX word obeys R21 and R22. Rows that no word
encodes are always well-formed. -/
def Instr.WellFormed (i : Instr) : Bool :=
  i.zeroOk && i.operandOk && i.roundOk && (match i with | .pfx w => pfxFieldsOk w | _ => true)

end Sys2Proof
end

