-- ==== Sys2Proof/Decode.lean ====
section
/-! DEFINITION. The decoder (spec/01_instruction_words.md R10-R26): total on any words, refusing by the cause R26 gives, and
the encoder, written from the same field layouts (R15, R17, R18, R21). Also which prefixes an instruction accepts. -/
namespace Sys2Proof

/-- Why the words at an address are no instruction (R26); `fetch k` is a failed fetch of word `k` (R367). -/
inductive DecErr where
  | fetch (k : Nat)
  | illegalWord
  | illegalOpcode
  | illegalOperand
  | illegalRounding
deriving DecidableEq, Repr

/-- A decoded word before the checks of steps 6 to 8: the instruction, its words, and whether the raw fields that the
instruction type does not keep pass step 6 and step 7. -/
structure Dec where
  i : Instr
  n : Nat
  z : Bool
  o : Bool
deriving DecidableEq, Repr

/-- How an entry reads an operand field (R16): unused or a constant, 32 bits wide, or 64 bits wide. -/
inductive OpK where
  | con | o | w
deriving DecidableEq, Repr

/-- R16 on one 7-bit field: the operand, whether its code passes step 7, and how many literal words it takes; `none` when a
literal word is missing. -/
def rdOp (k : OpK) (c : BitVec 7) (ls : List Word) : Option (Opnd × Bool × Nat) :=
  let n := c.toNat
  if 64 ≤ n && n < 96 then some (.imm (c.extractLsb' 0 5), true, 0)
  else match k with
    | .con => some (.imm 0, false, 0)
    | .o =>
      if n < 64 then some (.reg (c.extractLsb' 0 6), true, 0)
      else if n = 126 then match ls with
        | [] => none
        | l :: _ => some (.lit l, true, 1)
      else if n = 127 then some (.lit2 0, false, 0)
      else some (.imm 0, false, 0)
    | .w =>
      if n < 64 then some (.reg (c.extractLsb' 0 6), true, 0)
      else if n = 126 then match ls with
        | [] => none
        | l :: _ => some (.lit l, true, 1)
      else if n = 127 then match ls with
        | l :: h :: _ => some (.lit2 (h ++ l), true, 2)
        | _ => none
      else some (.imm 0, false, 0)

/-! The fields of the 32-bit formats (R15) and of the 64-bit formats (R17, R18). -/
def fMin (w : Word) : Nat := (w.extractLsb' 28 4).toNat
def fB (w : Word) : BitVec 7 := w.extractLsb' 21 7
def fA (w : Word) : BitVec 7 := w.extractLsb' 14 7
def fD (w : Word) : BitVec 6 := w.extractLsb' 8 6
def cbA (w : Word) : BitVec 7 := w.extractLsb' 21 7
def cbOff (w : Word) : BitVec 13 := w.extractLsb' 8 13
def gMin (w2 : Word) : Nat := (w2.extractLsb' 26 6).toNat
def gRm (w2 : Word) : BitVec 3 := w2.extractLsb' 23 3
def gW (w2 : Word) : BitVec 3 := w2.extractLsb' 20 3
def gP (w2 : Word) : BitVec 3 := w2.extractLsb' 17 3

/-- One operand field of an instruction with words `n` before its literals. -/
def with1 (n : Nat) (k : OpK) (c : BitVec 7) (ls : List Word) (z o : Bool) (f : Opnd → Instr) : Option Dec :=
  match rdOp k c ls with
  | none => none
  | some (a, oa, la) => some ⟨f a, n + la, z, oa && o⟩

/-- Two operand fields, the literals of the first before those of the second (R16). -/
def with2 (n : Nat) (ka : OpK) (ca : BitVec 7) (kb : OpK) (cb : BitVec 7) (ls : List Word) (z o : Bool)
    (f : Opnd → Opnd → Instr) : Option Dec :=
  match rdOp ka ca ls with
  | none => none
  | some (a, oa, la) => with1 (n + la) kb cb (ls.drop la) z (oa && o) (f a)

/-- Three operand fields in the order a, b, c. -/
def with3 (n : Nat) (ka : OpK) (ca : BitVec 7) (kb : OpK) (cb : BitVec 7) (kc : OpK) (cc : BitVec 7) (ls : List Word)
    (z o : Bool) (f : Opnd → Opnd → Opnd → Instr) : Option Dec :=
  match rdOp ka ca ls with
  | none => none
  | some (a, oa, la) => with2 (n + la) kb cb kc cc (ls.drop la) z (oa && o) (f a)

/-- Format C3 with operands a and b. -/
def dDAB (k : OpK) (w : Word) (ls : List Word) (f : BitVec 6 → Opnd → Opnd → Instr) : Option Dec :=
  with2 1 k (fA w) k (fB w) ls true true (f (fD w))
/-- Format C3 with operand a; b unused. -/
def dDA (k : OpK) (w : Word) (ls : List Word) (f : BitVec 6 → Opnd → Instr) : Option Dec :=
  with1 1 k (fA w) ls true (fB w == 64) (f (fD w))
/-- Format C3 without destination. -/
def dAB (w : Word) (ls : List Word) (f : Opnd → Opnd → Instr) : Option Dec :=
  with2 1 .o (fA w) .o (fB w) ls (fD w == 0) true f
def dA (w : Word) (ls : List Word) (f : Opnd → Instr) : Option Dec :=
  with1 1 .o (fA w) ls (fD w == 0) (fB w == 64) f
def d0 (w : Word) (i : Instr) : Option Dec :=
  some ⟨i, 1, fD w == 0, fA w == 64 && fB w == 64⟩
/-- The event instructions: a raw event number in a<5:0> (R15). -/
def dEv (w : Word) (f : BitVec 6 → Instr) : Option Dec :=
  some ⟨f ((fA w).extractLsb' 0 6), 1, (fA w).extractLsb' 6 1 == 0 && fD w == 0, fB w == 64⟩
/-- Format CB with an operand. -/
def dCB (w : Word) (ls : List Word) (f : Opnd → BitVec 13 → Instr) : Option Dec :=
  with1 1 .o (cbA w) ls true true (fun a => f a (cbOff w))
def dBev (w : Word) (f : BitVec 6 → BitVec 13 → Instr) : Option Dec :=
  some ⟨f ((cbA w).extractLsb' 0 6) (cbOff w), 1, (cbA w).extractLsb' 6 1 == 0, true⟩
/-- Format V, field b a vector or a code (R17). -/
def dVF (w w2 : Word) (f : VF → Instr) : Option Dec :=
  some ⟨f { rm := gRm w2, wsel := gW w2, psel := gP w2, swzb := w2.extractLsb' 15 2, swza := w2.extractLsb' 13 2,
            b := w2.extractLsb' 2 11, a := w.extractLsb' 21 11, d := w.extractLsb' 10 11, hb := w.extractLsb' 9 1,
            ha := w.extractLsb' 8 1 }, 2, true, true⟩
/-- Format V, field b a scalar operand: b<10:7>, hb and swzb are must-be-zero bits. -/
def dVSF (w w2 : Word) (ls : List Word) (f : VSF → Instr) : Option Dec :=
  with1 2 .o (w2.extractLsb' 2 7) ls
    (w2.extractLsb' 9 4 == 0 && w.extractLsb' 9 1 == 0 && w2.extractLsb' 15 2 == 0) true
    fun b => f { rm := gRm w2, wsel := gW w2, psel := gP w2, swza := w2.extractLsb' 13 2, b := b, a := w.extractLsb' 21 11,
                 d := w.extractLsb' 10 11, ha := w.extractLsb' 8 1 }
/-- Format M. -/
def dMF (w w2 : Word) (ls : List Word) (f : MF → Instr) : Option Dec :=
  with2 2 .o (w.extractLsb' 14 7) .o (w2.extractLsb' 10 7) ls (w.extractLsb' 8 6 == 0) true
    fun a b => f { rm := gRm w2, wsel := gW w2, psel := gP w2, b := b, off := w2.extractLsb' 2 8, d := w.extractLsb' 21 11, a := a }
/-- Format X. -/
def dXF (ka kb : OpK) (w w2 : Word) (ls : List Word) (f : XF → Instr) : Option Dec :=
  with2 2 ka (w.extractLsb' 14 7) kb (w2.extractLsb' 10 7) ls (w.extractLsb' 8 6 == 0) true
    fun a b => f { rm := gRm w2, wsel := gW w2, psel := gP w2, b := b, oa := w2.extractLsb' 7 3, ob := w2.extractLsb' 4 3,
                   acc := w2.extractLsb' 2 2, d := w.extractLsb' 21 11, a := a }
/-- Format E: fields a and b are split over bits 25:19 and 18:12 of the first word; rm must be 000. -/
def dEF (ka kb kc : OpK) (w w2 : Word) (ls : List Word) (f : EF → Instr) : Option Dec :=
  with3 2 ka (w.extractLsb' 19 7) kb (w.extractLsb' 12 7) kc (w2.extractLsb' 10 7) ls (gRm w2 == 0) true
    fun a b c => f { wsel := gW w2, psel := gP w2, c := c, imm8 := w2.extractLsb' 2 8, d := w.extractLsb' 26 6, a := a, b := b,
                     unit := w.extractLsb' 8 4 }

/-- An instruction, an unassigned minor, or a missing literal. -/
inductive DRes where
  | bad
  | got (d : Option Dec)
deriving DecidableEq, Repr

/-- The minors of major 0x00 (R14). -/
def decInt1 (w : Word) (ls : List Word) : DRes :=
  match fMin w with
  | 1 => .got (dDAB .o w ls Instr.add)
  | 2 => .got (dDAB .o w ls Instr.sub)
  | 3 => .got (dDAB .o w ls Instr.mul)
  | 4 => .got (dDAB .o w ls Instr.mulh)
  | 5 => .got (dDAB .o w ls Instr.mulhu)
  | 6 => .got (dDAB .o w ls Instr.div)
  | 7 => .got (dDAB .o w ls Instr.divu)
  | 8 => .got (dDAB .o w ls Instr.rem)
  | 9 => .got (dDAB .o w ls Instr.remu)
  | 10 => .got (dDAB .o w ls Instr.and)
  | 11 => .got (dDAB .o w ls Instr.or)
  | 12 => .got (dDAB .o w ls Instr.xor)
  | 13 => .got (dDAB .o w ls Instr.shl)
  | 14 => .got (dDAB .o w ls Instr.shr)
  | 15 => .got (dDAB .o w ls Instr.sra)
  | _ => .bad

/-- The minors of major 0x01 (R14). -/
def decInt2 (w : Word) (ls : List Word) : DRes :=
  match fMin w with
  | 0 => .got (dDAB .o w ls Instr.andn)
  | 1 => .got (dDAB .o w ls Instr.rol)
  | 2 => .got (dDAB .o w ls Instr.ror)
  | 3 => .got (dDAB .o w ls Instr.min)
  | 4 => .got (dDAB .o w ls Instr.max)
  | 5 => .got (dDAB .o w ls Instr.minu)
  | 6 => .got (dDAB .o w ls Instr.maxu)
  | 7 => .got (dDA .o w ls Instr.clz)
  | 8 => .got (dDA .o w ls Instr.ctz)
  | 9 => .got (dDA .o w ls Instr.popc)
  | 10 => .got (dDAB .o w ls Instr.sext)
  | 11 => .got (dDAB .o w ls Instr.zext)
  | 12 => .got (dDA .o w ls Instr.mov)
  | 13 => .got (dDAB .o w ls Instr.sel)
  | 14 => .got (dDAB .o w ls Instr.cmp)
  | _ => .bad

/-- The minors of major 0x02 (R14). -/
def decWide (w : Word) (ls : List Word) : DRes :=
  match fMin w with
  | 0 => .got (dDAB .w w ls Instr.addw)
  | 1 => .got (dDAB .w w ls Instr.subw)
  | 2 => .got (dDAB .w w ls Instr.shlw)
  | 3 => .got (dDA .w w ls Instr.movw)
  | _ => .bad

/-- The minors of major 0x03 (R14). -/
def decPacked (w : Word) (ls : List Word) : DRes :=
  match fMin w with
  | 0 => .got (dDAB .o w ls Instr.addp16)
  | 1 => .got (dDAB .o w ls Instr.addp8)
  | 2 => .got (dDAB .o w ls Instr.addp4)
  | 3 => .got (dDAB .o w ls Instr.subp16)
  | 4 => .got (dDAB .o w ls Instr.subp8)
  | 5 => .got (dDAB .o w ls Instr.subp4)
  | 6 => .got (dDAB .o w ls Instr.maxp16)
  | 7 => .got (dDAB .o w ls Instr.maxp8)
  | 8 => .got (dDAB .o w ls Instr.maxp4)
  | 9 => .got (dDAB .o w ls Instr.minp16)
  | 10 => .got (dDAB .o w ls Instr.minp8)
  | 11 => .got (dDAB .o w ls Instr.minp4)
  | 12 => .got (dDAB .o w ls Instr.avgp16)
  | 13 => .got (dDAB .o w ls Instr.avgp8)
  | 14 => .got (dDAB .o w ls Instr.avgp4)
  | _ => .bad

/-- The minors of major 0x04 (R14). -/
def decFloat (w : Word) (ls : List Word) : DRes :=
  match fMin w with
  | 0 => .got (dDAB .o w ls Instr.fadd)
  | 1 => .got (dDAB .o w ls Instr.fsub)
  | 2 => .got (dDAB .o w ls Instr.fmul)
  | 3 => .got (dDAB .o w ls Instr.ffma)
  | 4 => .got (dDAB .o w ls Instr.fmin)
  | 5 => .got (dDAB .o w ls Instr.fmax)
  | 6 => .got (dDAB .o w ls Instr.fcmp)
  | 7 => .got (with1 1 .o (fA w) ls true (decide (64 ≤ (fB w).toNat) && decide ((fB w).toNat < 96)) fun a =>
      Instr.fcvt (fD w) a ((fB w).extractLsb' 0 5))
  | 8 => .got (dDA .o w ls Instr.fcvti)
  | 9 => .got (dDA .o w ls Instr.fcvtf)
  | _ => .bad

/-- The minors of major 0x06 (R14). -/
def decRow (w : Word) (ls : List Word) : DRes :=
  match fMin w with
  | 0 => .got (dDAB .o w ls Instr.ldw)
  | 1 => .got (dDAB .o w ls Instr.stw)
  | 2 => .got (dDAB .o w ls Instr.aadd)
  | 3 => .got (dDAB .o w ls Instr.amax)
  | 4 => .got (dDAB .o w ls Instr.amin)
  | 5 => .got (dDAB .o w ls Instr.axchg)
  | 6 => .got (dDAB .o w ls Instr.acas)
  | 7 => .got (dDAB .o w ls Instr.aor)
  | 8 => .got (some ⟨Instr.fence ((fA w).extractLsb' 0 5) ((fB w).extractLsb' 0 1), 1, fD w == 0,
      decide (64 ≤ (fA w).toNat) && decide ((fA w).toNat < 96) && (fB w == 64 || fB w == 65)⟩)
  | _ => .bad

/-- The minors of major 0x07 (R14). -/
def decBranch (w : Word) (ls : List Word) : DRes :=
  match fMin w with
  | 0 => .got (dCB w ls Instr.bcNz)
  | 1 => .got (dCB w ls Instr.bcZ)
  | 2 => .got (dCB w ls Instr.bcqAny)
  | 3 => .got (dCB w ls Instr.bcqNone)
  | 4 => .got (dBev w Instr.bevSet)
  | 5 => .got (dBev w Instr.bevClr)
  | 6 => .got (with1 1 .o (cbA w) ls (cbOff w == 0) true Instr.jr)
  | 7 => .got (some ⟨Instr.ret, 1, cbOff w == 0, cbA w == 64⟩)
  | _ => .bad

/-- The minors of major 0x0b (R14). -/
def decEvent (w : Word) (ls : List Word) : DRes :=
  match fMin w with
  | 0 => .got (dEv w Instr.evwait)
  | 1 => .got (dEv w Instr.evset)
  | 2 => .got (dEv w Instr.evclr)
  | 3 => .got (dDAB .o w ls Instr.waitf)
  | _ => .bad

/-- The minors of major 0x0c (R14). -/
def decBarrier (w : Word) (ls : List Word) : DRes :=
  match fMin w with
  | 0 => .got (dAB w ls Instr.barm)
  | 1 => .got (dA w ls Instr.barr)
  | 2 => .got (dDA .o w ls Instr.bwait)
  | 3 => .got (dA w ls Instr.bleave)
  | _ => .bad

/-- The minors of major 0x0d (R14). -/
def decSendt (w : Word) (ls : List Word) : DRes :=
  match fMin w with
  | 0 => .got (dAB w ls Instr.sendt)
  | _ => .bad

/-- The minors of major 0x3d (R14). -/
def decSystem (w : Word) (ls : List Word) : DRes :=
  match fMin w with
  | 0 => .got (dA w ls Instr.trap)
  | 1 => .got (d0 w Instr.rft)
  | 2 => .got (d0 w Instr.yield)
  | 3 => .got (d0 w Instr.halt)
  | 4 => .got (some (if fB w == 42 then ⟨Instr.inbpop (fD w), 1, true, fA w == 64⟩
      else ⟨Instr.ctlr (fD w) (fB w), 1, true, fA w == 64⟩))
  | 5 => .got (with1 1 .o (fA w) ls (fD w == 0) true fun a =>
      let c := (fB w).toNat
      if c = 8 then Instr.sld a
      else if c = 12 || c = 13 then Instr.srsWrite ((fB w).extractLsb' 0 1) a
      else if c = 43 then Instr.inbrel a
      else if c = 45 then Instr.pfwait a
      else if c = 47 then Instr.trmark a
      else if 64 ≤ c && c ≤ 79 then Instr.ltrWrite ((fB w).extractLsb' 0 4) a
      else if c = 100 then Instr.mode a
      else Instr.ctlw (fB w) a)
  | 6 => .got (d0 w Instr.nop)
  | 7 => .got (dA w ls Instr.bkpt)
  | 8 => .got (d0 w Instr.bswitch)
  | _ => .bad

/-- The minors of major 0x20 (R14). -/
def decVInt (w w2 : Word) (_ls : List Word) : DRes :=
  match gMin w2 with
  | 0 => .got (dVF w w2 Instr.vadd)
  | 1 => .got (dVF w w2 Instr.vsub)
  | 2 => .got (dVF w w2 Instr.vmul)
  | 3 => .got (dVF w w2 Instr.vmulh)
  | 4 => .got (dVF w w2 Instr.vmad)
  | 5 => .got (dVF w w2 Instr.vmin)
  | 6 => .got (dVF w w2 Instr.vmax)
  | 7 => .got (dVF w w2 Instr.vabs)
  | 8 => .got (dVF w w2 Instr.vneg)
  | 9 => .got (dVF w w2 Instr.vand)
  | 10 => .got (dVF w w2 Instr.vor)
  | 11 => .got (dVF w w2 Instr.vxor)
  | 12 => .got (dVF w w2 Instr.vnot)
  | 13 => .got (dVF w w2 Instr.vshl)
  | 14 => .got (dVF w w2 Instr.vshr)
  | 15 => .got (dVF w w2 Instr.vsra)
  | 16 => .got (dVF w w2 Instr.vpopc)
  | 17 => .got (dVF w w2 Instr.vclz)
  | _ => .bad

/-- The minors of major 0x21 (R14). -/
def decVFloat (w w2 : Word) (_ls : List Word) : DRes :=
  match gMin w2 with
  | 0 => .got (dVF w w2 Instr.vfadd)
  | 1 => .got (dVF w w2 Instr.vfsub)
  | 2 => .got (dVF w w2 Instr.vfmul)
  | 3 => .got (dVF w w2 Instr.vfma)
  | 4 => .got (dVF w w2 Instr.vfmin)
  | 5 => .got (dVF w w2 Instr.vfmax)
  | 6 => .got (dVF w w2 Instr.vdiv)
  | 7 => .got (dVF w w2 Instr.vsqrt)
  | 8 => .got (dVF w w2 Instr.vrcp)
  | 9 => .got (dVF w w2 Instr.vrsq)
  | 10 => .got (dVF w w2 Instr.vexp2)
  | 11 => .got (dVF w w2 Instr.vlog2)
  | 12 => .got (dVF w w2 Instr.vsin)
  | 13 => .got (dVF w w2 Instr.vcos)
  | 14 => .got (dVF w w2 Instr.vtanh)
  | _ => .bad

/-- The minors of major 0x22 (R14). -/
def decVCmp (w w2 : Word) (_ls : List Word) : DRes :=
  match gMin w2 with
  | 0 => .got (dVF w w2 Instr.vcmpEq)
  | 1 => .got (dVF w w2 Instr.vcmpNe)
  | 2 => .got (dVF w w2 Instr.vcmpLt)
  | 3 => .got (dVF w w2 Instr.vcmpLe)
  | 4 => .got (dVF w w2 Instr.vcmpGt)
  | 5 => .got (dVF w w2 Instr.vcmpGe)
  | 6 => .got (dVF w w2 Instr.vcmpLtu)
  | 7 => .got (dVF w w2 Instr.vcmpGeu)
  | 8 => .got (dVF w w2 Instr.vsel)
  | _ => .bad

/-- The minors of major 0x23 (R14). -/
def decVConv (w w2 : Word) (_ls : List Word) : DRes :=
  match gMin w2 with
  | 0 => .got (dVF w w2 Instr.vcvt)
  | 1 => .got (dVF w w2 Instr.vscale)
  | 2 => .got (dVF w w2 Instr.vqnt)
  | 3 => .got (dVF w w2 Instr.vdqnt)
  | _ => .bad

/-- The minors of major 0x24 (R14). -/
def decShape (w w2 : Word) (ls : List Word) : DRes :=
  match gMin w2 with
  | 0 => .got (dVSF w w2 ls Instr.vrotr)
  | 1 => .got (dVSF w w2 ls Instr.vrotc)
  | 2 => .got (dVSF w w2 ls Instr.vbcr)
  | 3 => .got (dVSF w w2 ls Instr.vbcc)
  | 4 => .got (dVF w w2 Instr.vredr)
  | 5 => .got (dVF w w2 Instr.vredc)
  | 6 => .got (dVF w w2 Instr.vreda)
  | 7 => .got (dVSF w w2 ls Instr.viota)
  | 8 => .got (dVSF w w2 ls Instr.vspl)
  | 9 => .got (dVSF w w2 ls Instr.vext)
  | 10 => .got (dVSF w w2 ls Instr.vins)
  | _ => .bad

/-- The minors of major 0x25 (R14). -/
def decRuns (w w2 : Word) (ls : List Word) : DRes :=
  match gMin w2 with
  | 0 => .got (dVF w w2 Instr.vcoal)
  | 1 => .got (dVSF w w2 ls Instr.vlen)
  | 2 => .got (dVF w w2 Instr.vocc)
  | _ => .bad

/-- The minors of major 0x26 (R14). -/
def decMask (w w2 : Word) (_ls : List Word) : DRes :=
  match gMin w2 with
  | 0 => .got (dVF w w2 Instr.mpush)
  | 1 => .got (dVF w w2 Instr.minv)
  | 2 => .got (dVF w w2 Instr.mpop)
  | 3 => .got (dVF w w2 Instr.mtest)
  | 4 => .got (dVF w w2 Instr.vcq)
  | _ => .bad

/-- The minors of major 0x27 (R14). -/
def decRecipe (w w2 : Word) (_ls : List Word) : DRes :=
  match gMin w2 with
  | 0 => .got (dVF w w2 Instr.rdef)
  | 1 => .got (dVF w w2 Instr.vtag)
  | 2 => .got (dVF w w2 Instr.vuntag)
  | 3 => .got (dVF w w2 Instr.vdrop)
  | _ => .bad

/-- Majors 0x30 to 0x35 (R323). -/
def decVMem (maj : Nat) (w w2 : Word) (ls : List Word) : DRes :=
  match maj, gMin w2 with
  | 0x30, 0 => .got (dMF w w2 ls Instr.vld)
  | 0x30, 1 => .got (dMF w w2 ls Instr.vldRot)
  | 0x31, 0 => .got (dMF w w2 ls Instr.vst)
  | 0x31, 1 => .got (dMF w w2 ls Instr.vstRot)
  | 0x32, 0 => .got (dMF w w2 ls Instr.vldz)
  | 0x33, 0 => .got (dMF w w2 ls Instr.vstz)
  | 0x34, 0 => .got (dMF w w2 ls Instr.vldm)
  | 0x35, 0 => .got (dMF w w2 ls Instr.vstm)
  | _, _ => .bad

/-- Majors 0x36 to 0x39 (R327). -/
def decMatrix (maj : Nat) (w w2 : Word) (ls : List Word) : DRes :=
  match maj, gMin w2 with
  | 0x36, 0 => .got (dXF .con .con w w2 ls Instr.mlease)
  | 0x36, 1 => .got (dXF .con .con w w2 ls Instr.mfree)
  | 0x36, 2 => .got (dXF .con .con w w2 ls Instr.otake)
  | 0x36, 3 => .got (dXF .con .con w w2 ls Instr.ogive)
  | 0x37, 0 => .got (dXF .o .o w w2 ls Instr.ofill)
  | 0x38, 0 => .got (dXF .con .con w w2 ls Instr.mma)
  | 0x38, 1 => .got (dXF .con .con w w2 ls Instr.mmaz)
  | 0x39, 0 => .got (dXF .con .o w w2 ls Instr.ard)
  | 0x39, 1 => .got (dXF .con .o w w2 ls Instr.awr)
  | 0x39, 2 => .got (dXF .con .con w w2 ls Instr.azero)
  | _, _ => .bad

/-- Majors 0x3A to 0x3C (R335, R147, R120). ESTAT is read by its n, WREG and WLOAD by their unit; values that name no row
keep the first row's constructor and fail step 7. -/
def decEngine (maj : Nat) (w w2 : Word) (ls : List Word) : DRes :=
  let unit := (w.extractLsb' 8 4).toNat
  let imm8 := (w2.extractLsb' 2 8).toNat
  match maj, gMin w2 with
  | 0x3A, 0 => .got (dEF .o .con .con w w2 ls Instr.esend)
  | 0x3A, 1 => .got (dEF .con .con .con w w2 ls Instr.erecv)
  | 0x3A, 2 => .got (dEF .con .con .con w w2 ls
      (if imm8 = 1 then Instr.estatProgress else if imm8 = 2 then Instr.estatDrop else Instr.estatStatus))
  | 0x3A, 3 => .got (dEF .w .con .con w w2 ls Instr.bxform)
  | 0x3B, 0 => .got (dEF .o .w .o w w2 ls Instr.claim)
  | 0x3B, 1 => .got (dEF .o .con .con w w2 ls Instr.clwait)
  | 0x3B, 2 => .got (dEF .o .w .o w w2 ls Instr.fulfil)
  | 0x3B, 3 => .got (dEF .o .con .con w w2 ls Instr.abandon)
  | 0x3B, 4 => .got (dEF .o .con .con w w2 ls Instr.clhold)
  | 0x3B, 5 => .got (dEF .o .con .con w w2 ls Instr.clfree)
  | 0x3C, 0 =>
    if unit = 1 then .got (dEF .o .con .con w w2 ls Instr.wregUnreg)
    else .got (dEF .w .con .con w w2 ls (if unit = 2 then Instr.wregRestore else Instr.wreg))
  | 0x3C, 1 => .got (dEF .w .w .o w w2 ls
      (if unit = 1 then Instr.wloadWait else if unit = 2 then Instr.wloadExtrap else Instr.wloadPast))
  | 0x3C, 2 => .got (dEF .o .w .w w w2 ls Instr.wcommit)
  | 0x3C, 3 => .got (dEF .o .w .con w w2 ls Instr.wpub)
  | 0x3C, 4 => .got (dEF .o .w .con w w2 ls Instr.wrelease)
  | 0x3C, 5 => .got (dEF .o .con .con w w2 ls Instr.wquery)
  | _, _ => .bad

/-- The reserved majors of R13 (step 3 of R26). -/
def majReserved (m : Nat) : Bool := (0x0E ≤ m && m ≤ 0x1F) || (0x28 ≤ m && m ≤ 0x2F) || m = 0x3F
/-- The majors of 64-bit instructions (R13, R18). -/
def majWide (m : Nat) : Bool := (0x20 ≤ m && m ≤ 0x27) || (0x30 ≤ m && m ≤ 0x3C)

/-- The 32-bit instructions by major. -/
def decNarrow (maj : Nat) (w : Word) (ls : List Word) : DRes :=
  match maj with
  | 0x00 => decInt1 w ls
  | 0x01 => decInt2 w ls
  | 0x02 => decWide w ls
  | 0x03 => decPacked w ls
  | 0x04 => decFloat w ls
  | 0x05 => .got (some ⟨Instr.li (fD w) (w.extractLsb' 14 18), 1, true, true⟩)
  | 0x06 => decRow w ls
  | 0x07 => decBranch w ls
  | 0x08 => .got (some ⟨Instr.b (w.extractLsb' 8 24), 1, true, true⟩)
  | 0x09 => .got (some ⟨Instr.call (w.extractLsb' 8 24), 1, true, true⟩)
  | 0x0A => .got (dCB w ls (Instr.loop (w.extractLsb' 28 4)))
  | 0x0B => decEvent w ls
  | 0x0C => decBarrier w ls
  | 0x0D => decSendt w ls
  | 0x3D => decSystem w ls
  | _ => .bad

/-- The 64-bit instructions by major. -/
def decLong (maj : Nat) (w w2 : Word) (ls : List Word) : DRes :=
  match maj with
  | 0x20 => decVInt w w2 ls
  | 0x21 => decVFloat w w2 ls
  | 0x22 => decVCmp w w2 ls
  | 0x23 => decVConv w w2 ls
  | 0x24 => decShape w w2 ls
  | 0x25 => decRuns w w2 ls
  | 0x26 => decMask w w2 ls
  | 0x27 => decRecipe w w2 ls
  | _ =>
    if maj ≤ 0x35 then decVMem maj w w2 ls
    else if maj ≤ 0x39 then decMatrix maj w w2 ls
    else decEngine maj w w2 ls

/-- Steps 6, 7 and 8 of R26 over a decoded word. -/
def Dec.check (d : Dec) : Except DecErr (Instr × Nat) :=
  if !(d.z && d.i.zeroOk) then .error .illegalWord
  else if !(d.o && d.i.operandOk) then .error .illegalOperand
  else if !d.i.roundOk then .error .illegalRounding
  else .ok (d.i, d.n)

/-- The outcome of a major's decoder, step 5 and step 1 for a missing literal. -/
def DRes.finish (r : DRes) (avail : Nat) : Except DecErr (Instr × Nat) :=
  match r with
  | .bad => .error .illegalOpcode
  | .got none => .error (.fetch avail)
  | .got (some d) => d.check

/-- The decoder: the instruction that the words `ws` begin with and the number of its words, or the cause of R26. A PFX word
decodes to itself; the rules of steps 8 and 9 that need the next instruction are `pfxOk` below. -/
def decode (ws : List Word) : Except DecErr (Instr × Nat) :=
  match ws with
  | [] => .error (.fetch 0)
  | w :: rest =>
    let sel := (w.extractLsb' 0 2).toNat
    let maj := (w.extractLsb' 2 6).toNat
    if sel = 3 then .error .illegalWord
    else if sel = 1 then
      match rest with
      | [] => .error (.fetch 1)
      | w2 :: ls =>
        if majReserved maj then .error .illegalOpcode
        else if !majWide maj || w2.extractLsb' 0 2 != 3#2 then .error .illegalWord
        else (decLong maj w w2 ls).finish ws.length
    else if majReserved maj then .error .illegalOpcode
    else if sel = 2 then
      if maj = 0x3E then .ok (.pfx (w.extractLsb' 8 24), 1) else .error .illegalWord
    else if majWide maj || maj = 0x3E then .error .illegalWord
    else (decNarrow maj w rest).finish ws.length

/-! ## Prefixes (R21-R23) -/

/-- The override fields of a PFX word: format, saturation and rounding. -/
structure Pfx where
  fmt : Option (BitVec 5) := none
  sat : BitVec 2 := 0
  rnd : Option (BitVec 3) := none
deriving DecidableEq, Repr

/-- No override. -/
def Pfx.none : Pfx := {}

/-- The fields of bits 31:8 of a PFX word (R21). -/
def Pfx.ofWord (w : BitVec 24) : Pfx :=
  { fmt := if w.extractLsb' 6 1 == 1#1 then some (w.extractLsb' 7 5) else Option.none
    sat := w.extractLsb' 4 2
    rnd := if w.extractLsb' 3 1 == 1#1 then some (w.extractLsb' 0 3) else Option.none }

/-- Which override fields an instruction uses (R22): rounding, saturation, format. `none` where it may not be prefixed. -/
def Instr.pfxUse : Instr → Option (Bool × Bool × Bool)

  | .add _ _ _ => none
  | .sub _ _ _ => none
  | .mul _ _ _ => none
  | .mulh _ _ _ => none
  | .mulhu _ _ _ => none
  | .div _ _ _ => none
  | .divu _ _ _ => none
  | .rem _ _ _ => none
  | .remu _ _ _ => none
  | .and _ _ _ => none
  | .or _ _ _ => none
  | .xor _ _ _ => none
  | .shl _ _ _ => none
  | .shr _ _ _ => none
  | .sra _ _ _ => none
  | .andn _ _ _ => none
  | .rol _ _ _ => none
  | .ror _ _ _ => none
  | .min _ _ _ => none
  | .max _ _ _ => none
  | .minu _ _ _ => none
  | .maxu _ _ _ => none
  | .clz _ _ => none
  | .ctz _ _ => none
  | .popc _ _ => none
  | .sext _ _ _ => none
  | .zext _ _ _ => none
  | .mov _ _ => none
  | .sel _ _ _ => none
  | .cmp _ _ _ => none
  | .li _ _ => none
  | .addw _ _ _ => none
  | .subw _ _ _ => none
  | .shlw _ _ _ => none
  | .movw _ _ => none
  | .addp16 _ _ _ => none
  | .addp8 _ _ _ => none
  | .addp4 _ _ _ => none
  | .subp16 _ _ _ => none
  | .subp8 _ _ _ => none
  | .subp4 _ _ _ => none
  | .maxp16 _ _ _ => none
  | .maxp8 _ _ _ => none
  | .maxp4 _ _ _ => none
  | .minp16 _ _ _ => none
  | .minp8 _ _ _ => none
  | .minp4 _ _ _ => none
  | .avgp16 _ _ _ => none
  | .avgp8 _ _ _ => none
  | .avgp4 _ _ _ => none
  | .fadd _ _ _ => some (true, true, false)
  | .fsub _ _ _ => some (true, true, false)
  | .fmul _ _ _ => some (true, true, false)
  | .ffma _ _ _ => some (true, true, false)
  | .fmin _ _ _ => some (false, false, false)
  | .fmax _ _ _ => some (false, false, false)
  | .fcmp _ _ _ => some (false, false, false)
  | .fcvt _ _ _ => some (true, true, true)
  | .fcvti _ _ => some (true, true, false)
  | .fcvtf _ _ => some (true, false, false)
  | .ldw _ _ _ => none
  | .stw _ _ _ => none
  | .aadd _ _ _ => none
  | .amax _ _ _ => none
  | .amin _ _ _ => none
  | .axchg _ _ _ => none
  | .acas _ _ _ => none
  | .aor _ _ _ => none
  | .fence _ _ => none
  | .bcNz _ _ => none
  | .bcZ _ _ => none
  | .bcqAny _ _ => none
  | .bcqNone _ _ => none
  | .bevSet _ _ => none
  | .bevClr _ _ => none
  | .jr _ => none
  | .ret => none
  | .b _ => none
  | .call _ => none
  | .loop _ _ _ => none
  | .evwait _ => none
  | .evset _ => none
  | .evclr _ => none
  | .waitf _ _ _ => none
  | .barm _ _ => none
  | .barr _ => none
  | .bwait _ _ => none
  | .bleave _ => none
  | .sendt _ _ => none
  | .trap _ => none
  | .rft => none
  | .yield => none
  | .halt => none
  | .ctlr _ _ => none
  | .ctlw _ _ => none
  | .nop => none
  | .bkpt _ => none
  | .bswitch => none
  | .pfx _ => none
  | .inbpop _ => none
  | .inbrel _ => none
  | .sld _ => none
  | .srsWrite _ _ => none
  | .ltrWrite _ _ => none
  | .pfwait _ => none
  | .trmark _ => none
  | .mode _ => none
  | .vadd _ => some (false, true, true)
  | .vsub _ => some (false, true, true)
  | .vmul _ => some (false, true, true)
  | .vmulh _ => some (false, false, true)
  | .vmad _ => some (false, true, true)
  | .vmin _ => some (false, false, true)
  | .vmax _ => some (false, false, true)
  | .vabs _ => some (false, true, true)
  | .vneg _ => some (false, true, true)
  | .vand _ => some (false, false, true)
  | .vor _ => some (false, false, true)
  | .vxor _ => some (false, false, true)
  | .vnot _ => some (false, false, true)
  | .vshl _ => some (false, true, true)
  | .vshr _ => some (false, false, true)
  | .vsra _ => some (false, false, true)
  | .vpopc _ => some (false, false, true)
  | .vclz _ => some (false, false, true)
  | .vfadd _ => some (true, true, true)
  | .vfsub _ => some (true, true, true)
  | .vfmul _ => some (true, true, true)
  | .vfma _ => some (true, true, true)
  | .vfmin _ => some (false, false, true)
  | .vfmax _ => some (false, false, true)
  | .vdiv _ => some (true, true, true)
  | .vsqrt _ => some (true, true, true)
  | .vrcp _ => some (true, true, true)
  | .vrsq _ => some (true, true, true)
  | .vexp2 _ => some (true, true, true)
  | .vlog2 _ => some (true, true, true)
  | .vtanh _ => some (true, true, true)
  | .vsin _ => some (true, true, true)
  | .vcos _ => some (true, true, true)
  | .vcmpEq _ => some (false, false, true)
  | .vcmpNe _ => some (false, false, true)
  | .vcmpLt _ => some (false, false, true)
  | .vcmpLe _ => some (false, false, true)
  | .vcmpGt _ => some (false, false, true)
  | .vcmpGe _ => some (false, false, true)
  | .vcmpLtu _ => some (false, false, true)
  | .vcmpGeu _ => some (false, false, true)
  | .vsel _ => some (false, false, true)
  | .vcvt _ => some (true, true, false)
  | .vscale _ => some (true, true, false)
  | .vqnt _ => some (true, true, false)
  | .vdqnt _ => some (true, true, true)
  | .vrotr _ => some (false, false, true)
  | .vrotc _ => some (false, false, true)
  | .vbcr _ => some (false, false, true)
  | .vbcc _ => some (false, false, true)
  | .vredr f => match f.b.toNat with | 0 => some (false, true, true) | 3 => some (true, true, true) | _ => some (false, false, true)
  | .vredc f => match f.b.toNat with | 0 => some (false, true, true) | 3 => some (true, true, true) | _ => some (false, false, true)
  | .vreda f => match f.b.toNat with | 0 => some (false, true, true) | 3 => some (true, true, true) | _ => some (false, false, true)
  | .viota _ => some (false, false, true)
  | .vspl _ => some (false, false, true)
  | .vext _ => some (false, false, true)
  | .vins _ => some (false, false, true)
  | .vcoal _ => none
  | .vlen _ => none
  | .vocc _ => none
  | .mpush _ => none
  | .minv _ => none
  | .mpop _ => none
  | .mtest _ => none
  | .vcq _ => none
  | .rdef _ => none
  | .vtag _ => none
  | .vuntag _ => none
  | .vdrop _ => none
  | .vld _ => some (true, true, true)
  | .vldRot _ => some (true, true, true)
  | .vst _ => some (true, true, false)
  | .vstRot _ => some (true, true, false)
  | .vldz _ => some (true, true, true)
  | .vstz _ => some (true, true, false)
  | .vldm _ => some (true, true, true)
  | .vstm _ => some (true, true, false)
  | .mlease _ => none
  | .mfree _ => none
  | .otake _ => none
  | .ogive _ => none
  | .ofill _ => some (false, false, true)
  | .mma _ => some (false, true, false)
  | .mmaz _ => some (false, true, false)
  | .ard _ => none
  | .awr _ => none
  | .azero _ => none
  | .esend _ => none
  | .erecv _ => none
  | .estatStatus _ => none
  | .estatProgress _ => none
  | .estatDrop _ => none
  | .bxform _ => none
  | .wreg _ => none
  | .wregUnreg _ => none
  | .wregRestore _ => none
  | .wloadPast _ => none
  | .wloadWait _ => none
  | .wloadExtrap _ => none
  | .wcommit _ => none
  | .wpub _ => none
  | .wrelease _ => none
  | .wquery _ => none
  | .claim _ => none
  | .clwait _ => none
  | .fulfil _ => none
  | .abandon _ => none
  | .clhold _ => none
  | .clfree _ => none
  | .inboxDelivery _ _ _ _ => none
  | .arrivalCombine _ _ => none
  | .collectiveRoot _ => none
  | .engineCompletion _ _ _ => none
  | .stockpotCommit _ _ _ _ _ => none
  | .checkpointComplete _ => none
  | .stockpotPublish _ _ _ _ => none
  | .deltaApply _ _ _ _ _ => none
  | .publishAck _ _ _ _ _ _ => none
  | .deltaFree _ => none
  | .tensorEntryFree _ => none
  | .pantryRemoval _ _ => none
  | .recordNop _ _ => none
  | .launch _ _ => none
  | .launchList _ _ => none
  | .commandListNode _ => none
  | .inval _ _ => none
  | .kill _ _ => none
  | .yieldreq _ _ => none
  | .evict _ _ => none
  | .resume _ _ => none
  | .dispatchBind _ => none
  | .dispatchUnbind _ => none
  | .dispatchEvict _ => none
  | .completionRecord _ _ _ _ _ => none
  | .uncorrectedError _ _ => none
  | .resultVisible => none
  | .leaseGrant _ => none
  | .leasePass _ => none
  | .expand _ => none
  | .ztrans _ => none
  | .toz _ => none
  | .tolin _ => none
  | .copy _ => none
  | .copyq _ => none
  | .xform _ => none
  | .fill _ => none
  | .gather _ => none
  | .scatter _ => none
  | .allred _ => none
  | .bcast _ => none
  | .redscat _ => none
  | .allgath _ => none
  | .wloadc _ => none
  | .wdelta _ => none
  | .evqFaultClear _ _ _ => none
  | .storeBufferPerform => none
  | .pageWalk _ _ => none
  | .lendEnd _ => none
  | .trapEntry _ _ _ => none
  | .pcStop => none
  | .managementResume _ _ => none
  | .doorbell _ _ => none
  | .firmwareUnbindFrozen _ _ => none
  | .queueEnable _ _ => none
  | .queueDisable _ => none
  | .accept _ => none
  | .windowWrite _ _ => none
  | .hostApertureRead _ _ => none
  | .hostApertureWrite _ _ => none
  | .areq _ => none
  | .attestationReport => none
  | .coldStart => none
  | .warmStart => none
  | .advanceSvn => none
  | .flitData _ _ => none
  | .flitIdle _ _ => none
  | .flitRetryRequest _ _ => none
  | .flitKeyUpdate _ _ => none
  | .rekey _ => none
  | .linkDown _ => none
  | .patrolScrub _ _ _ => none
  | .throttle => none
  | .throttleEnd => none
  | .thermalShutdown => none
  | .cycle => none

/-- Step 8 of R26 for a prefix's rounding override: 111 is never legal; 101 is not legal outside the X queue nor for a
`.fadd` reduction (R82, R307). The matrix instructions take no rounding override. -/
def Instr.pfxRoundOk (i : Instr) (rnd : BitVec 3) : Bool :=
  match i with
  | .fadd _ _ _ => rmNoSr rnd
  | .fsub _ _ _ => rmNoSr rnd
  | .fmul _ _ _ => rmNoSr rnd
  | .ffma _ _ _ => rmNoSr rnd
  | .fcvt _ _ _ => rmNoSr rnd
  | .fcvti _ _ => rmNoSr rnd
  | .fcvtf _ _ => rmNoSr rnd
  | .vredr _ => rmNoSr rnd
  | .vredc _ => rmNoSr rnd
  | .vreda _ => rmNoSr rnd
  | .vld _ => rmNoSr rnd
  | .vldRot _ => rmNoSr rnd
  | .vldz _ => rmNoSr rnd
  | .vldm _ => rmNoSr rnd
  | .vst _ => rmNoSr rnd
  | .vstRot _ => rmNoSr rnd
  | .vstz _ => rmNoSr rnd
  | .vstm _ => rmNoSr rnd
  | _ => rmX rnd

/-- What a prefix before instruction `i` raises (R23, R26): `none` when it is legal. -/
def pfxCause (w : BitVec 24) (i : Instr) : Option Cause :=
  match i.pfxUse with
  | none => some .illegalPfx
  | some (r, s, f) =>
    let p := Pfx.ofWord w
    let roundBad := r && match p.rnd with
      | some c => !i.pfxRoundOk c
      | none => false
    if roundBad then some .illegalRounding
    else if !pfxFieldsOk w then some .illegalPfx
    else if (p.rnd.isSome && !r) || (p.sat != 0 && !s) || (p.fmt.isSome && !f) then some .illegalPfx
    else match i, p.fmt with
      | .vdqnt _, some c => if c == 1 || c == 2 || c == 3 then none else some .illegalPfx
      | _, _ => none

/-! ## The encoder -/

/-- The code of an operand field and its literal words (R16). -/
def Opnd.code : Opnd → BitVec 7
  | .reg r => 0#1 ++ r
  | .imm c => 2#2 ++ c
  | .lit _ => 126
  | .lit2 _ => 127
def Opnd.lits : Opnd → List Word
  | .reg _ => []
  | .imm _ => []
  | .lit w => [w]
  | .lit2 w => [lo32 w, hi32 w]

/-- Format C3 (R15). -/
def c3w (maj : BitVec 6) (m : BitVec 4) (b a : BitVec 7) (d : BitVec 6) : Word := m ++ b ++ a ++ d ++ maj ++ 0#2
/-- Format CB (R15). -/
def cbw (maj : BitVec 6) (m : BitVec 4) (a : BitVec 7) (o : BitVec 13) : Word := m ++ a ++ o ++ maj ++ 0#2
def eDAB (maj : BitVec 6) (m : BitVec 4) (d : BitVec 6) (a b : Opnd) : List Word := c3w maj m b.code a.code d :: (a.lits ++ b.lits)
def eDA (maj : BitVec 6) (m : BitVec 4) (d : BitVec 6) (a : Opnd) : List Word := c3w maj m 64 a.code d :: a.lits
def eEv (m : BitVec 4) (e : BitVec 6) : List Word := [c3w 0x0B m 64 (0#1 ++ e) 0]
def eCB (maj : BitVec 6) (m : BitVec 4) (a : Opnd) (o : BitVec 13) : List Word := cbw maj m a.code o :: a.lits
/-- Format V (R17). -/
def eVF (maj : BitVec 6) (m : BitVec 6) (f : VF) : List Word :=
  [f.a ++ f.d ++ f.hb ++ f.ha ++ maj ++ 1#2, m ++ f.rm ++ f.wsel ++ f.psel ++ f.swzb ++ f.swza ++ f.b ++ 3#2]
def eVSF (maj : BitVec 6) (m : BitVec 6) (f : VSF) : List Word :=
  (f.a ++ f.d ++ 0#1 ++ f.ha ++ maj ++ 1#2) :: (m ++ f.rm ++ f.wsel ++ f.psel ++ 0#2 ++ f.swza ++ 0#4 ++ f.b.code ++ 3#2) :: f.b.lits
/-- Format M (R18). -/
def eMF (maj : BitVec 6) (m : BitVec 6) (f : MF) : List Word :=
  (f.d ++ f.a.code ++ 0#6 ++ maj ++ 1#2) :: (m ++ f.rm ++ f.wsel ++ f.psel ++ f.b.code ++ f.off ++ 3#2) :: (f.a.lits ++ f.b.lits)
/-- Format X (R18). -/
def eXF (maj : BitVec 6) (m : BitVec 6) (f : XF) : List Word :=
  (f.d ++ f.a.code ++ 0#6 ++ maj ++ 1#2) ::
    (m ++ f.rm ++ f.wsel ++ f.psel ++ f.b.code ++ f.oa ++ f.ob ++ f.acc ++ 3#2) :: (f.a.lits ++ f.b.lits)
/-- Format E (R18). -/
def eEF (maj : BitVec 6) (m : BitVec 6) (f : EF) : List Word :=
  (f.d ++ f.a.code ++ f.b.code ++ f.unit ++ maj ++ 1#2) ::
    (m ++ 0#3 ++ f.wsel ++ f.psel ++ f.c.code ++ f.imm8 ++ 3#2) :: (f.a.lits ++ f.b.lits ++ f.c.lits)

/-- The words of an instruction; an act of another agent has none. -/
def encode : Instr → List Word
  | .add d p q => eDAB 0x00 1 d p q
  | .sub d p q => eDAB 0x00 2 d p q
  | .mul d p q => eDAB 0x00 3 d p q
  | .mulh d p q => eDAB 0x00 4 d p q
  | .mulhu d p q => eDAB 0x00 5 d p q
  | .div d p q => eDAB 0x00 6 d p q
  | .divu d p q => eDAB 0x00 7 d p q
  | .rem d p q => eDAB 0x00 8 d p q
  | .remu d p q => eDAB 0x00 9 d p q
  | .and d p q => eDAB 0x00 10 d p q
  | .or d p q => eDAB 0x00 11 d p q
  | .xor d p q => eDAB 0x00 12 d p q
  | .shl d p q => eDAB 0x00 13 d p q
  | .shr d p q => eDAB 0x00 14 d p q
  | .sra d p q => eDAB 0x00 15 d p q
  | .andn d p q => eDAB 0x01 0 d p q
  | .rol d p q => eDAB 0x01 1 d p q
  | .ror d p q => eDAB 0x01 2 d p q
  | .min d p q => eDAB 0x01 3 d p q
  | .max d p q => eDAB 0x01 4 d p q
  | .minu d p q => eDAB 0x01 5 d p q
  | .maxu d p q => eDAB 0x01 6 d p q
  | .clz d p => eDA 0x01 7 d p
  | .ctz d p => eDA 0x01 8 d p
  | .popc d p => eDA 0x01 9 d p
  | .sext d p q => eDAB 0x01 10 d p q
  | .zext d p q => eDAB 0x01 11 d p q
  | .mov d p => eDA 0x01 12 d p
  | .sel d p q => eDAB 0x01 13 d p q
  | .cmp d p q => eDAB 0x01 14 d p q
  | .li d i => [i ++ d ++ 0x05#6 ++ 0#2]
  | .addw d p q => eDAB 0x02 0 d p q
  | .subw d p q => eDAB 0x02 1 d p q
  | .shlw d p q => eDAB 0x02 2 d p q
  | .movw d p => eDA 0x02 3 d p
  | .addp16 d p q => eDAB 0x03 0 d p q
  | .addp8 d p q => eDAB 0x03 1 d p q
  | .addp4 d p q => eDAB 0x03 2 d p q
  | .subp16 d p q => eDAB 0x03 3 d p q
  | .subp8 d p q => eDAB 0x03 4 d p q
  | .subp4 d p q => eDAB 0x03 5 d p q
  | .maxp16 d p q => eDAB 0x03 6 d p q
  | .maxp8 d p q => eDAB 0x03 7 d p q
  | .maxp4 d p q => eDAB 0x03 8 d p q
  | .minp16 d p q => eDAB 0x03 9 d p q
  | .minp8 d p q => eDAB 0x03 10 d p q
  | .minp4 d p q => eDAB 0x03 11 d p q
  | .avgp16 d p q => eDAB 0x03 12 d p q
  | .avgp8 d p q => eDAB 0x03 13 d p q
  | .avgp4 d p q => eDAB 0x03 14 d p q
  | .fadd d p q => eDAB 0x04 0 d p q
  | .fsub d p q => eDAB 0x04 1 d p q
  | .fmul d p q => eDAB 0x04 2 d p q
  | .ffma d p q => eDAB 0x04 3 d p q
  | .fmin d p q => eDAB 0x04 4 d p q
  | .fmax d p q => eDAB 0x04 5 d p q
  | .fcmp d p q => eDAB 0x04 6 d p q
  | .fcvt d p f => c3w 0x04 7 (2#2 ++ f) p.code d :: p.lits
  | .fcvti d p => eDA 0x04 8 d p
  | .fcvtf d p => eDA 0x04 9 d p
  | .ldw d p q => eDAB 0x06 0 d p q
  | .stw d p q => eDAB 0x06 1 d p q
  | .aadd d p q => eDAB 0x06 2 d p q
  | .amax d p q => eDAB 0x06 3 d p q
  | .amin d p q => eDAB 0x06 4 d p q
  | .axchg d p q => eDAB 0x06 5 d p q
  | .acas d p q => eDAB 0x06 6 d p q
  | .aor d p q => eDAB 0x06 7 d p q
  | .fence m s => [c3w 0x06 8 (2#2 ++ (0#4 ++ s)) (2#2 ++ m) 0]
  | .bcNz p o => eCB 0x07 0 p o
  | .bcZ p o => eCB 0x07 1 p o
  | .bcqAny p o => eCB 0x07 2 p o
  | .bcqNone p o => eCB 0x07 3 p o
  | .bevSet e o => [cbw 0x07 4 (0#1 ++ e) o]
  | .bevClr e o => [cbw 0x07 5 (0#1 ++ e) o]
  | .jr p => eCB 0x07 6 p 0
  | .ret => [cbw 0x07 7 64 0]
  | .b o => [o ++ 0x08#6 ++ 0#2]
  | .call o => [o ++ 0x09#6 ++ 0#2]
  | .loop k p o => eCB 0x0A k p o
  | .evwait e => eEv 0 e
  | .evset e => eEv 1 e
  | .evclr e => eEv 2 e
  | .waitf d p q => eDAB 0x0b 3 d p q
  | .barm p q => eDAB 0x0c 0 0 p q
  | .barr p => eDA 0x0c 1 0 p
  | .bwait d p => eDA 0x0c 2 d p
  | .bleave p => eDA 0x0c 3 0 p
  | .sendt p q => eDAB 0x0d 0 0 p q
  | .trap p => eDA 0x3d 0 0 p
  | .rft => [c3w 0x3d 1 64 64 0]
  | .yield => [c3w 0x3d 2 64 64 0]
  | .halt => [c3w 0x3d 3 64 64 0]
  | .ctlr d c => [c3w 0x3D 4 c 64 d]
  | .ctlw c p => c3w 0x3D 5 c p.code 0 :: p.lits
  | .nop => [c3w 0x3d 6 64 64 0]
  | .bkpt p => eDA 0x3d 7 0 p
  | .bswitch => [c3w 0x3d 8 64 64 0]
  | .pfx w => [w ++ 0x3E#6 ++ 2#2]
  | .inbpop d => [c3w 0x3D 4 42 64 d]
  | .inbrel p => c3w 0x3D 5 43 p.code 0 :: p.lits
  | .sld p => c3w 0x3D 5 8 p.code 0 :: p.lits
  | .srsWrite h p => c3w 0x3D 5 (6#6 ++ h) p.code 0 :: p.lits
  | .ltrWrite k p => c3w 0x3D 5 (4#3 ++ k) p.code 0 :: p.lits
  | .pfwait p => c3w 0x3D 5 45 p.code 0 :: p.lits
  | .trmark p => c3w 0x3D 5 47 p.code 0 :: p.lits
  | .mode p => c3w 0x3D 5 100 p.code 0 :: p.lits
  | .vadd f => eVF 0x20 0 f
  | .vsub f => eVF 0x20 1 f
  | .vmul f => eVF 0x20 2 f
  | .vmulh f => eVF 0x20 3 f
  | .vmad f => eVF 0x20 4 f
  | .vmin f => eVF 0x20 5 f
  | .vmax f => eVF 0x20 6 f
  | .vabs f => eVF 0x20 7 f
  | .vneg f => eVF 0x20 8 f
  | .vand f => eVF 0x20 9 f
  | .vor f => eVF 0x20 10 f
  | .vxor f => eVF 0x20 11 f
  | .vnot f => eVF 0x20 12 f
  | .vshl f => eVF 0x20 13 f
  | .vshr f => eVF 0x20 14 f
  | .vsra f => eVF 0x20 15 f
  | .vpopc f => eVF 0x20 16 f
  | .vclz f => eVF 0x20 17 f
  | .vfadd f => eVF 0x21 0 f
  | .vfsub f => eVF 0x21 1 f
  | .vfmul f => eVF 0x21 2 f
  | .vfma f => eVF 0x21 3 f
  | .vfmin f => eVF 0x21 4 f
  | .vfmax f => eVF 0x21 5 f
  | .vdiv f => eVF 0x21 6 f
  | .vsqrt f => eVF 0x21 7 f
  | .vrcp f => eVF 0x21 8 f
  | .vrsq f => eVF 0x21 9 f
  | .vexp2 f => eVF 0x21 10 f
  | .vlog2 f => eVF 0x21 11 f
  | .vtanh f => eVF 0x21 14 f
  | .vsin f => eVF 0x21 12 f
  | .vcos f => eVF 0x21 13 f
  | .vcmpEq f => eVF 0x22 0 f
  | .vcmpNe f => eVF 0x22 1 f
  | .vcmpLt f => eVF 0x22 2 f
  | .vcmpLe f => eVF 0x22 3 f
  | .vcmpGt f => eVF 0x22 4 f
  | .vcmpGe f => eVF 0x22 5 f
  | .vcmpLtu f => eVF 0x22 6 f
  | .vcmpGeu f => eVF 0x22 7 f
  | .vsel f => eVF 0x22 8 f
  | .vcvt f => eVF 0x23 0 f
  | .vscale f => eVF 0x23 1 f
  | .vqnt f => eVF 0x23 2 f
  | .vdqnt f => eVF 0x23 3 f
  | .vrotr f => eVSF 0x24 0 f
  | .vrotc f => eVSF 0x24 1 f
  | .vbcr f => eVSF 0x24 2 f
  | .vbcc f => eVSF 0x24 3 f
  | .vredr f => eVF 0x24 4 f
  | .vredc f => eVF 0x24 5 f
  | .vreda f => eVF 0x24 6 f
  | .viota f => eVSF 0x24 7 f
  | .vspl f => eVSF 0x24 8 f
  | .vext f => eVSF 0x24 9 f
  | .vins f => eVSF 0x24 10 f
  | .vcoal f => eVF 0x25 0 f
  | .vlen f => eVSF 0x25 1 f
  | .vocc f => eVF 0x25 2 f
  | .mpush f => eVF 0x26 0 f
  | .minv f => eVF 0x26 1 f
  | .mpop f => eVF 0x26 2 f
  | .mtest f => eVF 0x26 3 f
  | .vcq f => eVF 0x26 4 f
  | .rdef f => eVF 0x27 0 f
  | .vtag f => eVF 0x27 1 f
  | .vuntag f => eVF 0x27 2 f
  | .vdrop f => eVF 0x27 3 f
  | .vld f => eMF 0x30 0 f
  | .vldRot f => eMF 0x30 1 f
  | .vst f => eMF 0x31 0 f
  | .vstRot f => eMF 0x31 1 f
  | .vldz f => eMF 0x32 0 f
  | .vstz f => eMF 0x33 0 f
  | .vldm f => eMF 0x34 0 f
  | .vstm f => eMF 0x35 0 f
  | .mlease f => eXF 0x36 0 f
  | .mfree f => eXF 0x36 1 f
  | .otake f => eXF 0x36 2 f
  | .ogive f => eXF 0x36 3 f
  | .ofill f => eXF 0x37 0 f
  | .mma f => eXF 0x38 0 f
  | .mmaz f => eXF 0x38 1 f
  | .ard f => eXF 0x39 0 f
  | .awr f => eXF 0x39 1 f
  | .azero f => eXF 0x39 2 f
  | .esend f => eEF 0x3a 0 f
  | .erecv f => eEF 0x3a 1 f
  | .estatStatus f => eEF 0x3a 2 f
  | .estatProgress f => eEF 0x3a 2 f
  | .estatDrop f => eEF 0x3a 2 f
  | .bxform f => eEF 0x3a 3 f
  | .wreg f => eEF 0x3c 0 f
  | .wregUnreg f => eEF 0x3c 0 f
  | .wregRestore f => eEF 0x3c 0 f
  | .wloadPast f => eEF 0x3c 1 f
  | .wloadWait f => eEF 0x3c 1 f
  | .wloadExtrap f => eEF 0x3c 1 f
  | .wcommit f => eEF 0x3c 2 f
  | .wpub f => eEF 0x3c 3 f
  | .wrelease f => eEF 0x3c 4 f
  | .wquery f => eEF 0x3c 5 f
  | .claim f => eEF 0x3b 0 f
  | .clwait f => eEF 0x3b 1 f
  | .fulfil f => eEF 0x3b 2 f
  | .abandon f => eEF 0x3b 3 f
  | .clhold f => eEF 0x3b 4 f
  | .clfree f => eEF 0x3b 5 f
  | .inboxDelivery _ _ _ _ => []
  | .arrivalCombine _ _ => []
  | .collectiveRoot _ => []
  | .engineCompletion _ _ _ => []
  | .stockpotCommit _ _ _ _ _ => []
  | .checkpointComplete _ => []
  | .stockpotPublish _ _ _ _ => []
  | .deltaApply _ _ _ _ _ => []
  | .publishAck _ _ _ _ _ _ => []
  | .deltaFree _ => []
  | .tensorEntryFree _ => []
  | .pantryRemoval _ _ => []
  | .recordNop _ _ => []
  | .launch _ _ => []
  | .launchList _ _ => []
  | .commandListNode _ => []
  | .inval _ _ => []
  | .kill _ _ => []
  | .yieldreq _ _ => []
  | .evict _ _ => []
  | .resume _ _ => []
  | .dispatchBind _ => []
  | .dispatchUnbind _ => []
  | .dispatchEvict _ => []
  | .completionRecord _ _ _ _ _ => []
  | .uncorrectedError _ _ => []
  | .resultVisible => []
  | .leaseGrant _ => []
  | .leasePass _ => []
  | .expand _ => []
  | .ztrans _ => []
  | .toz _ => []
  | .tolin _ => []
  | .copy _ => []
  | .copyq _ => []
  | .xform _ => []
  | .fill _ => []
  | .gather _ => []
  | .scatter _ => []
  | .allred _ => []
  | .bcast _ => []
  | .redscat _ => []
  | .allgath _ => []
  | .wloadc _ => []
  | .wdelta _ => []
  | .evqFaultClear _ _ _ => []
  | .storeBufferPerform => []
  | .pageWalk _ _ => []
  | .lendEnd _ => []
  | .trapEntry _ _ _ => []
  | .pcStop => []
  | .managementResume _ _ => []
  | .doorbell _ _ => []
  | .firmwareUnbindFrozen _ _ => []
  | .queueEnable _ _ => []
  | .queueDisable _ => []
  | .accept _ => []
  | .windowWrite _ _ => []
  | .hostApertureRead _ _ => []
  | .hostApertureWrite _ _ => []
  | .areq _ => []
  | .attestationReport => []
  | .coldStart => []
  | .warmStart => []
  | .advanceSvn => []
  | .flitData _ _ => []
  | .flitIdle _ _ => []
  | .flitRetryRequest _ _ => []
  | .flitKeyUpdate _ _ => []
  | .rekey _ => []
  | .linkDown _ => []
  | .patrolScrub _ _ _ => []
  | .throttle => []
  | .throttleEnd => []
  | .thermalShutdown => []
  | .cycle => []

/-- The instruction of a table word numbered as spec/opcode_table.json numbers its bits: bit 0 is the least significant bit
of the first word, the bits above `nbits` are 0. The words are little-endian 32-bit words in order. -/
def tableWords (nbits w : Nat) : List Word :=
  let w := w % 2 ^ nbits
  [w32 w, w32 (w / 2 ^ 32), w32 (w / 2 ^ 64), w32 (w / 2 ^ 96), w32 (w / 2 ^ 128), w32 (w / 2 ^ 160), w32 (w / 2 ^ 192)]

def decodeTableWord (nbits w : Nat) : Option Instr :=
  match decode (tableWords nbits w) with
  | .ok (i, _) => some i
  | .error _ => none

end Sys2Proof
end

