-- ==== Sys2Proof/Machine/State.lean ====
section
/-! DEFINITION. The state of the device as plain data: every piece of state spec/ names (INVENTORY.md, State), the fault and
refusal reasons, and the machine after reset. -/
namespace Sys2Proof.Machine

/-- Why the machine stops: never, since no encoding, operand value or combination of events leaves an outcome open (R9). -/
inductive Fault where
deriving DecidableEq, Repr

/-- Why an instruction has no meaning here. -/
inductive Refusal where
  /-- Raised by an arm of `exec` without a meaning. Safe: nothing is proved of it. -/
  | notModelled (mnemonic : String)
deriving DecidableEq, Repr

/-- Byte memory: cells (address, byte), addresses rising, no cell equal to the byte 0 that an unlisted address reads as. -/
abbrev Memory := List Host.Cell

/-! ## Registers -/

/-- A run of equal lane words: value and count (R6). -/
abbrev Runs := List (Word × Nat)

/-- The state of a vector register (R220), with the recipe entry attached. -/
inductive VSt where
  | plain
  | tagged (k : Nat)
  | dropped (k : Nat)
deriving DecidableEq, Repr

/-- A vector register's descriptor and runs (R220). -/
structure VReg where
  runs : Runs := []
  len : Nat := 0
  tag : BitVec 5 := 0
  st : VSt := .plain
  last : Nat := 0
deriving DecidableEq, Repr

/-- What a tagged register keeps of its VTAG: operands that it read as older values, and the bank formats its loads read under
(R226). -/
structure TagIn where
  ops : List (Nat × VReg) := []
  fmts : List Word := []
deriving DecidableEq, Repr

/-- How many retired instructions of each queue a party follows in happens-before (R172, R179). -/
structure Clock where
  l : Nat := 0
  x : Nat := 0
  s : Nat := 0
deriving DecidableEq, Repr

/-- A write inside an exposure window (R214): queue, register, the slot at which it becomes visible, the old value, and whether
another queue has written the register since. -/
structure Window where
  q : Queue
  reg : Nat
  due : Nat
  old : VReg
  sup : Bool := false
deriving DecidableEq, Repr

/-- A queue's latest write of a register, for readers of the other queues (R179): how many instructions of the queue had retired
before the writer, the value before it, whether the same instruction wrote the register below, and the queues whose reader of
that one has shown this write (R302). -/
structure Past where
  q : Queue
  reg : Nat
  n : Nat
  old : VReg
  pair : Bool := false
  shown : List Queue := []
deriving DecidableEq, Repr

/-- An accumulator tile: its kind and 64 × 64 words, row by row (R327, R333). -/
structure AccTile where
  int : Bool := false
  ws : List Word := []
deriving DecidableEq, Repr

/-- An operand slot: bound, tag, and 64 rows of element codes (R329, R330). -/
structure OSlot where
  bound : Bool := false
  tag : BitVec 5 := 0
  els : List (List Nat) := []
deriving DecidableEq, Repr

/-- One captured recipe instruction (R315). -/
structure RSlot where
  ins : Instr
  pfx : Option (BitVec 24)
  va : Word
  vb : Word
deriving DecidableEq, Repr

/-- A defined recipe entry: its instructions and the captured DRM (R315). -/
structure Recipe where
  slots : List RSlot
  drm : BitVec 3
deriving DecidableEq, Repr

/-! ## Queues and engines -/

/-- Why an access stops: a cause, a row found poisoned, that the act's share of row accesses is used up (log 107), or that an
operation which stands between its accesses wants this one next, a write or a read, of so many bytes. -/
inductive AErr where
  | cause (c : Cause)
  | poisoned (row : Nat)
  | pause
  | want (wr : Bool) (n : Nat) (bs : List Byte)
deriving DecidableEq, Repr

/-- An access that an operation has made before it stood between two (R162): a write or a read, its address, the bytes written
or read, and why it failed. -/
structure RowDone where
  wr : Bool
  va : Nat
  bytes : List Byte := []
  fail : Option AErr := none
deriving DecidableEq, Repr

/-- A resolved load (R115): its tensor, the step whose weights it needs, the steps it extrapolates with the learning rate, its
resolution code, whether its event is logged (R394), whether a cut came while it stood between two rows (R123), its own rows
still to be written (R388), the rows that are read and not yet written, and whether its tensor was unregistered while it waited
(R130), and whether it reads its rows without memoised blocks since one of them could not be written (R131). -/
structure WLd where
  tid : Nat
  base : Nat
  k : Nat := 0
  eta : Word := 0
  code : Nat := 0
  logged : Bool := false
  cut : Bool := false
  rows : List Nat := []
  got : List Word := []
  gone : Bool := false
  plain : Bool := false
deriving DecidableEq, Repr

/-- Flags of several elements together: an OR and a count of saturated elements (R76, R78). -/
structure FSum where
  fl : BitVec 7 := 0
  sat : Nat := 0
deriving DecidableEq, Repr

/-- What a vector instruction writes: runs, length, tag, the flags it raises, how often the generator advances, a second
register's runs, length and tag (VQNT's scales), and under SR how many runs each segment wrote (empty: one each). -/
structure VOut where
  runs : Runs := []
  len : Nat := 0
  tag : Nat := 0
  fs : FSum := {}
  adv : Nat := 0
  snd : Option (Runs × Nat × Nat) := none
  segs : List Nat := []
deriving DecidableEq, Repr

/-- An unretired queue entry (R201, R202, R215): sequence number, ko position, instruction, prefix, captured operand values,
text offset, the count of instructions decoded (R395), token selectors (R19), scalar destinations (R202), whether it stores,
whether it is an acquire of the S queue (R170), whether it counts matrix-command slots (R211), whether the mask stack may skip
it (R310), μPC, partial result runs, skip mark (R374), an RDEF's captured body, whether it waited since it was begun (R440),
whether it has begun, the register a begun store took (R179), the rows a begun load or OFILL has read, what its instruction
follows in happens-before, how a WLOAD was resolved, the row accesses that a WREG or WQUERY has made, and the result of a vector
instruction that stands between two of its segments, whose sources are read (R215). -/
structure Entry where
  seq : Word
  ko : Nat
  ins : Instr
  pfx : Option (BitVec 24) := none
  va : DWord := 0
  vb : DWord := 0
  vc : DWord := 0
  iaddr : Word := 0
  rseq : Word := 0
  wsel : Nat := 0
  psel : Nat := 0
  sd : List (BitVec 6) := []
  store : Bool := false
  acq : Bool := false
  mx : Bool := false
  msk : Bool := false
  upc : Nat := 0
  part : Runs := []
  skip : Bool := false
  body : Option Recipe := none
  waited : Bool := false
  begun : Bool := false
  src : Option VReg := none
  imgs : List (List Word) := []
  bf : Word := 0
  know : Clock := {}
  load : Option WLd := none
  trail : List RowDone := []
  out : Option VOut := none
deriving DecidableEq, Repr

/-- An item an engine takes in push order: a command (R341), or a weight-port request (R121). -/
inductive EItem where
  | cmd (c : Cmd)
  | commit (tid : Word) (src step : DWord) (evf : Byte)
  | publish (tid : Word) (step : DWord) (evf : Byte)
deriving DecidableEq, Repr

/-- A pushed item with its sequence number or request tag, whether it has started, and for a collective its place in the count
of its group: the arming in force when it was pushed, and its number in it (R346, R348). -/
structure EPush where
  item : EItem
  seq : Word
  started : Bool := false
  era : Nat := 0
  cn : Nat := 0
deriving DecidableEq, Repr

/-- A row as a command first saw it (R181): whether it lies in physical memory, its number (for physical memory 16 times the row
plus the key), whether the command has written it since, and its bytes. -/
structure RowSeen where
  phys : Bool
  row : Nat
  own : Bool := false
  bytes : List Byte
deriving DecidableEq, Repr

/-- A row of a command on its way to another package (R407): package, row address, the bytes (offset, mask, value), the first
element in it, whether its words enter SUM32, and the command: core, burner, engine, sequence number. -/
structure FarRow where
  pkg : Nat
  va : Nat
  bytes : List (Nat × Byte × Byte)
  el : Nat
  counts : Bool := true
  core : Nat
  bur : Nat
  unit : Nat
  seq : Word
deriving DecidableEq, Repr

/-- One engine's state for one burner (R336-R345): pushed items oldest first, progress, SUM32, flags and saturation count of
the head command, the words it has written, newest first, by address (R344), its fault and whether that fault is still to be
taken, completion elements oldest first, the next sequence number, the CSUM of the previous command's element, the declared
count, whether the head WAIT load stands waiting (R116), and how many of `fifo` lie in the overflow area (R336). Of a command
between two of its accesses (R162, R181): the elements done when it stands so, how many rows of the next group and words of the next
row in host memory it has written, the rows it has seen, which of them each row address it presented named, those it has produced and not performed
(R176, R388), and a compressed destination's image with its covered bytes (R101). Of a WLOADC how it was
resolved, and of a WCOMMIT words 11 to 13 of the record as it read them at its start (R113); of it or a WPUB, the row accesses
it has made before it goes on. Of a command to another package
the rows that faulted there (R407). -/
structure Eng where
  fifo : List EPush := []
  prog : Nat := 0
  sum : Word := 0
  fl : BitVec 7 := 0
  satn : Nat := 0
  tw : List (Nat × Option Word) := []
  pos : Option Nat := none
  part : Nat := 0
  sub : Nat := 0
  trail : List RowDone := []
  seen : List RowSeen := []
  maps : List (Nat × Bool × Nat) := []
  pend : List Nat := []
  img : Memory := []
  cov : List Nat := []
  load : Option WLd := none
  reread : Option Nat := none
  redo : List FarRow := []
  flt : Option (Cause × DWord) := none
  fltDue : Bool := false
  out : List (BitVec 128) := []
  next : Word := 0
  last : Word := 0
  limit : Nat := 0
  waitFrom : Bool := false
  ovf : Nat := 0
deriving DecidableEq, Repr

/-- A burner's pantry membership (R143). -/
inductive MKind where
  | maker | waiting | pendMaker | pendReady | hold
deriving DecidableEq, Repr

/-- Fault domain, name and ticket of a membership; `n` counts holds. -/
structure Memb where
  slice : Nat
  set : Nat
  way : Nat
  gen : Nat
  fid : Word
  dig : DWord
  ver : Word
  fd : Nat := 0
  kind : MKind
  n : Nat := 0
deriving DecidableEq, Repr

/-- The effective region of a burner (R349, R350): its RCB and the field groups that govern it, as the management core read them
for its launch record; `chain` names the RCB and its ancestors, `bud` the effective budgets of groups 3 to 9 at each. -/
structure Region where
  rcb : Nat := 0
  fd : Nat := 0
  asn : Nat := 0
  ptroot : Nat := 0
  prio : Nat := 0
  sys : Bool := false
  evq : Nat := 0
  evqn : Nat := 0
  ovfl : Nat := 0
  ovfln : Nat := 0
  bgBase : Nat := 0
  bgCnt : Nat := 0
  rankBase : Nat := 0
  chain : List Nat := []
  bud : List (Nat × List Nat) := []
deriving DecidableEq, Repr

/-- A burner's condition (R217, R278, R360, R376, R377, R379, R385, R438). A yielded burner, an evicted one (with the
condition it had) and what is left of an unbound one stand in the device's `saved`. -/
inductive BStat where
  | unbound | starting | running | halted | frozen | held | pageWait | suspended | yielded
deriving DecidableEq, Repr

/-- What a control core that lends its issue slots waits for (R217). -/
inductive WaitK where
  | evwait | waitf | bwait | inbpop
deriving DecidableEq, Repr

/-- A row-table write buffered in the control core: address, word, ko position (R168). -/
structure SBuf where
  addr : Nat
  val : Word
  ko : Nat
deriving DecidableEq, Repr

/-- A trap record's 32 words (R372). -/
abbrev TRec := BitVec 1024

/-- Everything private to one burner, and its quota of what is shared (R216). A burner off its core (in `saved`) stands under
a core number of its own: 1,024 times a number of `nextLaunch`, plus its core. `auto` marks one evicted to make room, which
is bound again without a RESUME (R362), `area` the bytes of its save area (R378), and `ovPage` the page of its overflow area
that a suspended one waits for (R336). `carry` is the row that a SENDT has read and not yet delivered (R274). -/
structure Burner where
  core : Nat := 0
  bur : Nat := 0
  status : BStat := .unbound
  loaded : Bool := false
  front : Bool := false
  lend : Bool := false
  wait : Option WaitK := none
  carry : Option (List Word) := none
  s : Vector Word 64 := Vector.replicate 64 0
  pc : Word := 0
  pfx : Option (BitVec 24) := none
  tlen : Nat := 0
  ibase : Nat := 0
  text : Memory := []
  flags : Word := 0
  satcnt : Word := 0
  bctl : Word := 0
  sr : DWord := 0x0000FFFF9E3779B9
  bfmt : Vector Word 16 := Vector.replicate 16 0
  rowq : Word := 0
  qres : Word := 0
  runq : Nat := 0
  inbq : Word := 0
  tok : Vector Nat 6 := Vector.replicate 6 0
  tokc : Vector (List Clock) 6 := Vector.replicate 6 []
  cq : List DWord := []
  cqc : List Clock := []
  knows : Clock := {}
  knowL : Clock := {}
  knowX : Clock := {}
  knowS : Clock := {}
  inbox : List Word := []
  inbPopped : Nat := 0
  inbNext : Nat := 0
  ev : DWord := 0
  ltr : Vector Word 16 := Vector.replicate 16 0
  lst : Vector Word 16 := Vector.replicate 16 0
  v : List (Nat × VReg) := []
  reads : Nat := 0
  win : List Window := []
  hist : List Past := []
  tagOps : List (Nat × TagIn) := []
  slotL : Nat := 0
  slotX : Nat := 0
  slotS : Nat := 0
  slotM : Nat := 0
  mask : List (BitVec 1024) := []
  recipes : List (Nat × Recipe) := []
  rcp : Nat := 0
  ql : List Entry := []
  qx : List Entry := []
  qs : List Entry := []
  nl : Word := 0
  nx : Word := 0
  ns : Word := 0
  ko : Nat := 0
  sbuf : List SBuf := []
  stPend : List Nat := []
  told : List (Cause × DWord) := []
  tvec : Word := 0xFFFFFFFC
  te : Bool := false
  tcause : Word := 0
  taddr : DWord := 0
  tepc : Word := 0
  trec0 : TRec := 0
  trec1 : TRec := 0
  trix : Word := 0
  skl : Bool := false
  skx : Bool := false
  sks : Bool := false
  t1v : Bool := false
  yrq : Bool := false
  pw : Bool := false
  ntrap : Word := 0
  skipStop : Bool := false
  bypass : List Src := []
  dctl : Word := 0
  diter : Word := 0
  trlost : Word := 0
  dpc : Word := 0
  trctl : Word := 0
  wf : Vector Word 12 := Vector.replicate 12 0
  psel : Vector Word 4 := Vector.replicate 4 0
  pcnt : Vector Word 4 := Vector.replicate 4 0
  rpctl : Word := 0
  rplog : DWord := 0
  rplen : Word := 0
  rppos : Word := 0
  rpseq : Word := 0
  rpbytes : List Byte := []
  eng : Vector Eng 4 := Vector.replicate 4 {}
  wtag : Word := 0
  enrolled : Bool := false
  acc : Vector AccTile 4 := Vector.replicate 4 {}
  accWin : List (Nat × Nat × AccTile) := []
  ops : Vector OSlot 8 := Vector.replicate 8 {}
  opWin : List (Nat × Nat × OSlot) := []
  membs : List Memb := []
  holdsMax : Nat := 0
  region : Region := {}
  rank : Nat := 0
  count : Nat := 0
  arg : DWord := 0
  image : DWord := 0
  launch : Nat := 0
  tokf : Nat := 0
  node : Nat := 0
  auto : Bool := false
  area : Nat := 0
  ovPage : Nat := 0
deriving DecidableEq, Repr

/-! ## The device -/

/-- A retained delta (R112, R118, R446): its step, first ring row, rows taken, XOR words, and the SUM32 of its step. -/
structure Delta where
  k : Nat
  row : Nat
  rows : Nat
  ws : List Word
  sum : Word
deriving DecidableEq, Repr

/-- A memoised block in a tensor's ring (R131, R446): first ring row, step, block, its pantry place, and whether the stockpot
still holds its entry. -/
structure Memo where
  row : Nat
  step : Nat
  block : Nat
  slice : Nat
  set : Nat
  way : Nat
  held : Bool := true
deriving DecidableEq, Repr

/-- A burner whatever core it stands on, or none: launch, list node, rank. -/
structure Who where
  launch : Nat
  node : Nat
  rank : Nat
deriving DecidableEq, Repr

/-- The completion element that a commit posts when the checkpoint it began has read the optimiser state (R132): its burner,
tag, step, ring rows and event field. -/
structure OwedElem where
  who : Who
  tag : Word
  step : DWord
  rows : Nat
  evf : Byte
deriving DecidableEq, Repr

/-- A checkpoint being written (R132): its step and slot, the burner whose commit began it, the weight rows written, the row
accesses that the part in hand has made, and the element owed while the optimiser state is still being read. -/
structure Ckpt where
  step : Nat
  slot : Nat := 0
  who : Who
  done : Nat := 0
  trail : List RowDone := []
  posts : Option OwedElem := none
deriving DecidableEq, Repr

/-- A memoised block being made (R131): its step, block and the words reconstructed so far, its ring row, its pantry place, the
load's burner, and the bytes written. -/
structure Making where
  step : Nat
  block : Nat
  ws : List Word
  row : Nat
  slice : Nat
  set : Nat
  way : Nat
  who : Who
  done : Nat := 0
deriving DecidableEq, Repr

/-- A rewrite of a tensor's weights in progress (R118, R126): the committing burner and its tag, or none for a replica's delta;
the new step, the delta's first ring row, words 11 to 13 of the record, the sum announced with a delta, the delta's words, the
source's bytes and its and the current words read, the blocks of the delta written, and the rows rewritten. -/
structure Wip where
  own : Option (Nat × Nat × Word)
  step : Nat
  row : Nat
  n : Nat := 0
  sum : Word := 0
  xs : List Word := []
  got : List Byte := []
  new : List Word := []
  old : List Word := []
  put : Nat := 0
  done : Nat := 0
deriving DecidableEq, Repr

/-- A registered tensor's state at its sequencer (R112, R113, R130, R132). `stale` names the requests that were accepted for an
earlier tensor of the same TID: launch, core, burner and tag. -/
structure Tensor where
  tid : Nat
  region : Region
  core : Nat
  rec_ : Nat
  rcd : BitVec 1024
  scur : Nat
  s0 : Nat
  frel : Nat
  p : Nat
  eta : Word
  diverged : Bool := false
  ring : List Delta := []
  memos : List Memo := []
  ckCommits : Nat := 0
  ckTime : Nat := 0
  ckSeq : Nat := 0
  ckpt : Option Ckpt := none
  unreg : Bool := false
  wip : Option Wip := none
  making : List Making := []
  stale : List (Nat × Nat × Nat × Word) := []
  pubs : List Nat := []
deriving DecidableEq, Repr

/-- A pantry party: a burner, or the stockpot of a tensor. -/
inductive Party where
  | bur (core bur : Nat)
  | pot (tid : Nat)
deriving DecidableEq, Repr

inductive PState where
  | opened | making | ready
deriving DecidableEq, Repr

/-- A pantry entry (R141); an entry not listed is OPEN at generation 0. -/
structure PEntry where
  slice : Nat
  set : Nat
  way : Nat
  st : PState := .opened
  fid : Word := 0
  dig : DWord := 0
  ver : Word := 0
  fd : Nat := 0
  gen : Nat := 0
  maker : Option Party := none
  waiters : List Party := []
  holds : Nat := 0
  addr : DWord := 0
  size : Word := 0
  owner : Region := {}
  pot : Option Nat := none
  stamp : DWord := 0
  evqFault : Bool := false
deriving DecidableEq, Repr

inductive GState where
  | unarmed | armed | broken
deriving DecidableEq, Repr

/-- A member of a barrier group (R271), which keeps its place when its burner is unbound (its core number is then one of no
burner, as that of a member in another package is): whether it arrived in the current phase, the phase of its latest BARR
since arming, whether its BWAIT waits and what that BWAIT returns (true for BROKEN; R272), departed, killed, killed after it
departed from the group while that stays ARMED (which goes on counting it; R272), how many
collectives it pushed on the group (R346), and whether a BARM left it out of collectives (R348). -/
structure GMem where
  core : Nat
  bur : Nat
  rank : Nat
  fd : Nat
  arrived : Bool := false
  barr : Option Nat := none
  waits : Bool := false
  res : Option Bool := none
  departed : Bool := false
  killed : Bool := false
  gone : Bool := false
  pushed : Nat := 0
  cx : Bool := false
deriving DecidableEq, Repr

/-- What one die's partials have come to in arrival mode: its running sum and flags, and the ranks in the order combined
(R346). -/
structure DieSum where
  die : Nat
  els : List Nat
  fl : BitVec 7 := 0
  satn : Nat := 0
  nf : Bool := false
  ranks : List Nat
deriving DecidableEq, Repr

/-- One member's contribution to a pairing: rank, party, sequence number, command, source elements (R346). -/
structure Contrib where
  rank : Nat
  core : Nat
  bur : Nat
  seq : Word
  cmd : Cmd
  data : List (List Nat)
deriving DecidableEq, Repr

/-- A pairing of collective commands (R346-R348): the arming its count belongs to and its number in it, contributions in
order of arrival, the sums of the dies that have not reached the package's, the running sum or the root's elements, the ranks
combined or gathered in order, whether the root is formed, and the status it ends with. -/
structure Pairing where
  era : Nat := 0
  n : Nat
  dies : List DieSum := []
  cs : List Contrib := []
  acc : List Nat := []
  order : List Nat := []
  formed : Bool := false
  status : Byte := 0
  fl : BitVec 7 := 0
  satn : Nat := 0
  nf : Bool := false
deriving DecidableEq, Repr

/-- What a BARM that restarted the count leaves of the one before: the arming, the first pairing without a member, and the
members it had (R348). -/
structure PastCount where
  era : Nat
  lost : Nat
  mems : List (Nat × Nat)
deriving DecidableEq, Repr

/-- A barrier group (R271, R272) and its collectives (R346, R348): `era` counts the restarts of the pairing count, `lost` is the
first pairing without a member, and `cut` names the pairings that a link took down with it (R408). -/
structure Group where
  id : Nat
  st : GState := .unarmed
  c : Nat := 0
  phase : Nat := 0
  arrivals : Nat := 0
  mems : List GMem := []
  pairs : List Pairing := []
  era : Nat := 0
  lost : Option Nat := none
  past : List PastCount := []
  cut : List (Nat × Nat) := []
deriving DecidableEq, Repr

/-- A quad's array lease (R328): holder, commands used, last holder, and the waiting requesters. -/
structure Lease where
  quad : Nat
  holder : Option (Nat × Nat) := none
  cmds : Nat := 0
  last : Option (Nat × Nat) := none
  reqs : List (Nat × Nat) := []
deriving DecidableEq, Repr

/-- A completion record without its HEAD and PH (R355): OP, TAG, STATUS, DETAIL. -/
structure CRec where
  op : Nat
  tag : Nat
  status : Nat
  detail : Nat
deriving DecidableEq, Repr

/-- A work queue (R353, R402): setup entry, the entry as it was when EN was last set, TAIL, HEAD, completion position, phase, how many completion records it has posted,
those held while its completion ring is full, oldest first (R355), how many words of the oldest are written, whether an overrun stopped it, and how many records of other
queues were taken since it was served or became non-empty (R362). -/
structure WQ where
  id : Nat
  setup : BitVec 256 := 0
  live : BitVec 256 := 0
  tail : Word := 0
  head : Word := 0
  cpos : Nat := 0
  ph : Bool := true
  posted : Nat := 0
  held : List CRec := []
  stopped : Bool := false
  passed : Nat := 0
  step : Nat := 0
deriving DecidableEq, Repr

/-- A launch that has not bound its burners: its record, the node of its command list, and its region. With the kernel header
read it waits for the evictions that it asked of the slots `want`; without, for evicted burners of its priority or a higher
one (R362). -/
structure Todo where
  ask : Rec512
  node : Nat
  region : Region
  hdr : Option Nat := none
  want : List Nat := []
deriving DecidableEq, Repr

/-- A launch read and not completed (R353-R360): queue, OP, TAG, the RCB it names, its region, the slots it binds, burners
still to bind and still to end, the status and detail it will report, for a command list the list's address and node, and what
it has yet to bind. -/
structure Launch where
  id : Nat
  q : Nat
  op : Nat
  tag : Word
  rcb : Nat := 0
  region : Region := {}
  slots : List Nat := []
  toBind : Nat := 0
  left : Nat := 0
  count : Nat := 0
  status : Nat := 0
  detail : Nat := 0
  list : Option (Nat × Nat) := none
  todo : Option Todo := none
deriving DecidableEq, Repr

/-- A sent and unacknowledged flit, and the row that is performed with its acknowledgement (R405, R408). -/
structure Sent where
  flit : BitVec 2048
  row : Option FarRow := none
deriving DecidableEq, Repr

/-- A rope port (R403-R408): link, the peer's package, 64-bit sequences next to send and to receive and the first
unacknowledged, 31-bit key epochs and the sequence at which the sending one began, failures in a row, the replay buffer,
flits put on the wire and payloads delivered, oldest first, each with its source package, credits, the key drawn at its
training (R406), whether flits are
discarded until the peer resends, whether the link stays down until the next start, and whether it has been trained since. -/
structure Port where
  id : Nat
  up : Bool := false
  peer : Nat := 0
  tx : DWord := 0
  rx : DWord := 0
  acked : DWord := 0
  epoch : BitVec 31 := 0
  rxEpoch : BitVec 31 := 0
  since : DWord := 0
  fails : Nat := 0
  replay : List Sent := []
  wire : List (BitVec 2048) := []
  delivered : List (Nat × List Byte) := []
  credits : Nat := 0
  key : Nat := 0
  retry : Bool := false
  dead : Bool := false
  trained : Bool := false
deriving DecidableEq, Repr

/-- A record in a trace unit's buffer: its time, core, burner and bits (R390, R391). -/
structure TrcRec where
  time : Nat
  core : Nat
  bur : Nat
  bits : BitVec 256
deriving DecidableEq, Repr

/-- A die's trace unit (R389-R391): the ring the firmware named (base, region, records; none named while it has 0), records lost
since the last one written, and the buffer. -/
structure TraceU where
  die : Nat
  base : Nat := 0
  region : Region := {}
  n : Nat := 0
  lost : Nat := 0
  buf : List TrcRec := []
deriving DecidableEq, Repr

/-- A cached leaf (R50): in the TLB of a core or in the die's, its die, ASN, virtual page base, page size in bits, the entry. -/
structure TlbEnt where
  die : Nat
  core : Option Nat := none
  asn : Nat
  va : Nat
  bits : Nat
  pte : DWord
deriving DecidableEq, Repr

/-- A fault-table entry (R377): die, ASN, 4 KiB page, waiting burners in arrival order, and whether it was reported. -/
structure FaultEnt where
  die : Nat
  asn : Nat
  page : Nat
  waiters : List (Nat × Nat)
  reported : Bool := false
deriving DecidableEq, Repr

end Sys2Proof.Machine

namespace Sys2Proof.Machine

/-- The device (R1). `b` is the burner that acts; `others` are the other burners; one step is one act. `lastQ` is the work
queue a record was last taken from (R362). -/
structure State where
  b : Burner := {}
  others : List Burner := []
  mesh : Memory := []
  phys : Memory := []
  far : List (Nat × Memory) := []
  peerSum : List (Nat × List (Nat × Option Word)) := []
  owed : List (Nat × List Byte) := []
  rowKey : List (Nat × Nat) := []
  poison : List Nat := []
  reports : List (Cause × DWord) := []
  tlb : List TlbEnt := []
  tensors : List Tensor := []
  pantry : List PEntry := []
  pstep : Vector DWord 16 := Vector.replicate 16 0
  groups : List Group := []
  leases : List Lease := []
  fenced : List Nat := []
  slots : List (Nat × BitVec 512) := []
  mail : List (Nat × BitVec 256) := []
  launches : List Launch := []
  nextLaunch : Nat := 1
  saved : List Burner := []
  savedRows : List (Nat × Nat × Memory) := []
  faultTab : List FaultEnt := []
  wqs : List WQ := []
  lastQ : Nat := 0
  accept : BitVec 128 := 0
  acceptDone : Bool := false
  offer : BitVec 128 := 0x1FF
  hwin : Nat := 0
  hrcb : Nat := 0
  nonce : BitVec 256 := 0
  astat : Nat := 0
  hflt : DWord := 0
  pfrBase : Nat := 0
  pfrN : Nat := 0
  errCorr : Vector Nat 4 := Vector.replicate 4 0
  errUnc : Vector Nat 4 := Vector.replicate 4 0
  report : BitVec 30880 := 0
  stState : BitVec 2 := 1
  stKind : BitVec 2 := 1
  stStep : Nat := 9
  stCode : Nat := 0
  stDetail : Nat := 0
  svn : BitVec 16 := 0
  fwdig : BitVec 256 := 0
  minSvn : BitVec 16 := 0
  keys : Vector (Option Nat) 16 := Vector.replicate 16 (some 0)
  keyGen : Nat := 0
  ports : List Port := (List.range 16).map fun i => { id := i }
  trace : List TraceU := (List.range 4).map fun d => { die := d }
  pkg : Nat := 0
  cxl : Vector Nat 4 := Vector.replicate 4 0
  cycle : Nat := 0
  issued : List (Nat × List Nat) := []
  throttle : Bool := false
  hostData : List Byte := []
  pending : List Instr := []
  sched : List Nat := []
  tick : Nat := 0
  pace : Nat := 0
  trail : Option (List RowDone) := none
deriving DecidableEq, Repr

/-- The machine after reset: every field at its default above. -/
def State.reset : State := {}

end Sys2Proof.Machine
end

