-- ==== Sys2Proof/Machine/Flags.lean ====
section
/-! DEFINITION. Formats, rounding, conversion and every flag computation (spec/03_number_formats.md R57-R93; the arithmetic of
R260, R261, R290, R292, R293, R307, R331). Values are exact: a dyadic rational, or a magnitude known to a prefix with a
sticky bit. -/
namespace Sys2Proof.Machine

/-! ## Exact values -/

/-- An element's exact value: NaN, an infinity, or (−1)^neg × m × 2^e. -/
inductive FV where
  | nan
  | inf (neg : Bool)
  | num (neg : Bool) (m : Nat) (e : Int)
deriving DecidableEq, Repr

/-- A positive magnitude: in [m, m + 1) × 2^e, and above m × 2^e exactly when `st`. -/
structure Mag where
  m : Nat
  e : Int
  st : Bool := false
deriving DecidableEq, Repr

/-- Flags raised by one element, in FLAGS order (R77), and whether it was replaced by a saturation bound (R78). -/
structure Fx where
  fl : BitVec 7 := 0
  sat : Bool := false
deriving DecidableEq, Repr

def fNV : BitVec 7 := 0x01
def fDZ : BitVec 7 := 0x02
def fOF : BitVec 7 := 0x04
def fUF : BitVec 7 := 0x08
def fNX : BitVec 7 := 0x10
def fSAT : BitVec 7 := 0x20
def fRNG : BitVec 7 := 0x40

/-- `n` elements raising the same flags. -/
def FSum.addN (f : FSum) (x : Fx) (n : Nat) : FSum := ⟨f.fl ||| x.fl, f.sat + if x.sat then n else 0⟩
def FSum.add (f : FSum) (x : Fx) : FSum := f.addN x 1
def FSum.join (f g : FSum) : FSum := ⟨f.fl ||| g.fl, f.sat + g.sat⟩

/-- 2^k for an integer exponent that is not negative. -/
def p2 (k : Int) : Nat := 2 ^ k.toNat

/-! ## Formats (R57, R60, R61, R64) -/

/-- A float format's layout: fraction bits, exponent bits, bias. -/
structure FF where
  mw : Nat
  ew : Nat
  bias : Nat
  hasInf : Bool
  hasNan : Bool
deriving DecidableEq, Repr

def ffFP32 : FF := ⟨23, 8, 127, true, true⟩

/-- The float format of a format code (R21, R57). -/
def ffOf (c : Nat) : Option FF :=
  match c with
  | 1 => some ffFP32
  | 2 => some ⟨7, 8, 127, true, true⟩
  | 3 => some ⟨10, 5, 15, true, true⟩
  | 4 => some ⟨3, 4, 7, false, true⟩
  | 5 => some ⟨2, 5, 15, true, true⟩
  | 6 => some ⟨2, 3, 3, false, false⟩
  | 7 => some ⟨3, 2, 1, false, false⟩
  | 8 => some ⟨1, 2, 1, false, false⟩
  | _ => none

/-- The integer format of a code: value width and signedness (R60). RAW32 reads as INT32 (R286). -/
def intOf (c : Nat) : Option (Nat × Bool) :=
  match c with
  | 0x00 => some (32, true)
  | 0x09 => some (32, true)
  | 0x0A => some (16, true)
  | 0x0B => some (8, true)
  | 0x0C => some (8, false)
  | 0x0D => some (4, true)
  | _ => if 0x12 ≤ c && c ≤ 0x18 then some (c - 0x10, true) else none

/-- Storage width of an element (R64). -/
def elW (c : Nat) : Nat :=
  match c with
  | 0x00 | 0x01 | 0x09 => 32
  | 0x02 | 0x03 | 0x0A => 16
  | 0x08 | 0x0D => 4
  | _ => 8

/-- Elements per lane word (R64). -/
def elN (c : Nat) : Nat := 32 / elW c

def isFP6 (c : Nat) : Bool := c == 6 || c == 7
def isBPI (c : Nat) : Bool := 0x12 ≤ c && c ≤ 0x18
/-- Sets I, F and Q of R286. -/
def inI (c : Nat) : Bool := (intOf c).isSome
def inF (c : Nat) : Bool := c == 1 || c == 2 || c == 3
def inQ (c : Nat) : Bool := 4 ≤ c && c ≤ 8

/-- Exponent of the largest binade: floor(log2 max) (R57). -/
def emaxE (c : Nat) : Int :=
  match c with
  | 1 | 2 => 127
  | 3 | 5 => 15
  | 4 => 8
  | 6 => 4
  | _ => 2

/-- The code of the largest finite magnitude, sign bit clear (R57). -/
def FF.maxCode (f : FF) : Nat :=
  if f.hasInf then ((2 ^ f.ew - 1) * 2 ^ f.mw) - 1
  else if f.hasNan then 2 ^ (f.ew + f.mw) - 2
  else 2 ^ (f.ew + f.mw) - 1
/-- Sign bit position. -/
def FF.sb (f : FF) : Nat := f.ew + f.mw
def FF.signed (f : FF) (neg : Bool) (code : Nat) : Nat := if neg then code + 2 ^ f.sb else code
def FF.infCode (f : FF) : Nat := (2 ^ f.ew - 1) * 2 ^ f.mw
/-- The canonical NaN (R58). -/
def FF.nanCode (f : FF) : Nat :=
  if f.hasInf then (2 ^ f.ew - 1) * 2 ^ f.mw + 2 ^ (f.mw - 1) else 2 ^ (f.ew + f.mw) - 1
/-- Exponent of the min normal. -/
def FF.emin (f : FF) : Int := 1 - (f.bias : Int)

/-- The value of a float code (R57). -/
def FF.val (f : FF) (x : Nat) : FV :=
  let neg := x / 2 ^ f.sb % 2 == 1
  let E := x / 2 ^ f.mw % 2 ^ f.ew
  let F := x % 2 ^ f.mw
  if f.hasInf && E == 2 ^ f.ew - 1 then (if F == 0 then .inf neg else .nan)
  else if f.hasNan && !f.hasInf && E == 2 ^ f.ew - 1 && F == 2 ^ f.mw - 1 then .nan
  else if E == 0 then .num neg F (f.emin - f.mw)
  else .num neg (F + 2 ^ f.mw) ((E : Int) - f.bias - f.mw)

/-- A k-bit pattern read as two's complement or unsigned (R60). -/
def intVal (k : Nat) (sg : Bool) (x : Nat) : Int :=
  let u := x % 2 ^ k
  if sg && u ≥ 2 ^ (k - 1) then (u : Int) - 2 ^ k else u

def ofInt (i : Int) : FV := .num (i < 0) i.natAbs 0

/-- The exact value of an element of format `c` held in its storage bits (R57, R60, R61, R66). -/
def elVal (c : Nat) (x : Nat) : FV :=
  match ffOf c with
  | some f => f.val (x % 2 ^ (f.sb + 1))
  | none =>
    if c == 0x0E then (if x % 256 == 255 then .nan else .num false 1 ((x % 256 : Nat) - 127))
    else match intOf c with
      | some (k, sg) => ofInt (intVal k sg x)
      | none => .num false 0 0

/-! ## Rounding (R75, R80) -/

/-- How a rounding instruction rounds one element: the mode of R20 after resolving code 110, saturation, and the 16 random
bits of R81. -/
structure RMode where
  rm : BitVec 3 := 0
  sat : BitVec 2 := 0
  r : Nat := 0
deriving DecidableEq, Repr

/-- Whether the magnitude N + frac rounds up, with frac = (rem + sticky)/2^sh (R75, R80). -/
def roundUp (rm : BitVec 3) (r : Nat) (neg : Bool) (N rem sh : Nat) (st : Bool) : Bool :=
  let inex := rem != 0 || st
  match rm.toNat with
  | 0 => decide (rem * 2 > 2 ^ sh) || (rem * 2 == 2 ^ sh && (st || N % 2 == 1))
  | 1 => false
  | 2 => neg && inex
  | 3 => !neg && inex
  | 4 => decide (rem * 2 ≥ 2 ^ sh) && inex
  | _ => inex && decide (rem * 65536 / 2 ^ sh + r ≥ 65536)

/-- A magnitude rounded to a multiple of 2^ue: the integer multiple and whether it is inexact. -/
def Mag.toGrid (x : Mag) (ue : Int) (o : RMode) (neg : Bool) : Nat × Bool :=
  if x.e ≥ ue then (x.m * p2 (x.e - ue) + (if roundUp o.rm o.r neg (x.m * p2 (x.e - ue)) 0 1 x.st then 1 else 0), x.st)
  else
    let sh := (ue - x.e).toNat
    let N := x.m / 2 ^ sh
    let rem := x.m % 2 ^ sh
    (N + (if roundUp o.rm o.r neg N rem sh x.st then 1 else 0), rem != 0 || x.st)

/-- floor(log2) of a nonzero magnitude. -/
def Mag.log (x : Mag) : Int := (Nat.log2 x.m : Int) + x.e

/-- RoundTo for a finite nonzero magnitude into a float format, with R86's overflow rows: the code and what it raises. -/
def FF.round (f : FF) (o : RMode) (neg : Bool) (x : Mag) : Nat × Fx :=
  let L := x.log
  let ue := max L f.emin - f.mw
  let (N, inex) := x.toGrid ue o neg
  let code := ((ue + f.mw + f.bias).toNat * 2 ^ f.mw + N) - 2 ^ f.mw
  if code > f.maxCode then
    if o.sat == 1 then (f.signed neg f.maxCode, ⟨fOF ||| fNX ||| fSAT, true⟩)
    else if f.hasInf then
      let toMax := o.rm == 1 || (o.rm == 2 && !neg) || (o.rm == 3 && neg)
      (f.signed neg (if toMax then f.maxCode else f.infCode), ⟨fOF ||| fNX, false⟩)
    else if f.hasNan then (f.nanCode, ⟨fOF ||| fNX, false⟩)
    else (f.signed neg f.maxCode, ⟨fOF ||| fNX, false⟩)
  else
    let uf := inex && decide (L < f.emin)
    (f.signed neg code, ⟨(if inex then fNX else 0) ||| (if uf then fUF else 0), false⟩)

/-- The result of an arithmetic operation in a float format: NaN canonical, infinities exact, zeros signed, the rest
rounded once (R58, R59, R260, R292). -/
def FF.deliver (f : FF) (o : RMode) : FV → Nat × Fx
  | .nan => (f.nanCode, {})
  | .inf n => (f.signed n f.infCode, {})
  | .num n m e => if m = 0 then (f.signed n 0, {}) else f.round o n ⟨m, e, false⟩

/-- Rounding to an integer format with R86 and R87: clamped, saturated or wrapped. -/
def intRound (k : Nat) (sg : Bool) (o : RMode) (neg : Bool) (x : Mag) : Nat × Fx :=
  let (N, inex) := x.toGrid 0 o neg
  let v : Int := if neg then -N else N
  let lo : Int := if sg then -(2 ^ (k - 1)) else 0
  let hi : Int := if sg then 2 ^ (k - 1) - 1 else 2 ^ k - 1
  let nx := if inex then fNX else 0
  let bits (i : Int) : Nat := (i % 2 ^ k).toNat
  if v < lo || v > hi then
    if o.sat == 2 then (bits v, ⟨nx, false⟩)
    else if o.sat == 1 then (bits (if v < lo then lo else hi), ⟨fSAT ||| fNX, true⟩)
    else (bits (if v < lo then lo else hi), ⟨fNV ||| fNX, false⟩)
  else (bits v, ⟨nx, false⟩)

/-- Whether a nonzero magnitude is exactly a power of two. -/
def Mag.isPow2 (x : Mag) : Bool := !x.st && x.m == 2 ^ Nat.log2 x.m

/-- Conversion of an exact value to format `c` (R84-R88): the value bits of the element, not yet in its container. -/
def convVal (c : Nat) (o : RMode) (x : FV) : Nat × Fx :=
  match ffOf c with
  | some f =>
    match x with
    | .nan => if f.hasNan then (f.nanCode, {}) else (0, ⟨fNV, false⟩)
    | .inf n =>
      if o.sat == 1 then (f.signed n f.maxCode, ⟨fOF ||| fSAT, true⟩)
      else if f.hasInf then (f.signed n f.infCode, {})
      else if f.hasNan then (f.nanCode, ⟨fNV, false⟩)
      else (f.signed n f.maxCode, ⟨fNV, false⟩)
    | .num n m e => if m = 0 then (f.signed n 0, {}) else f.round o n ⟨m, e, false⟩
  | none =>
    if c == 0x0E then
      match x with
      | .nan => (255, {})
      | .inf _ => (255, ⟨fNV, false⟩)
      | .num n m e =>
        if m = 0 || n then (255, ⟨fNV, false⟩)
        else
          let g : Mag := ⟨m, e, false⟩
          if g.log < -127 then (0, ⟨fUF ||| fNX, false⟩)
          else if g.log > 127 then (254, ⟨fOF ||| fNX, false⟩)
          else ((g.log + 127).toNat, ⟨if g.isPow2 then 0 else fNX, false⟩)
    else match intOf c with
      | some (k, sg) =>
        let lo : Nat := if sg then 2 ^ (k - 1) else 0
        let hi : Nat := if sg then 2 ^ (k - 1) - 1 else 2 ^ k - 1
        match x with
        | .nan => (0, ⟨fNV, false⟩)
        | .inf n => (if n then lo else hi, if o.sat == 1 then ⟨fNV ||| fSAT, true⟩ else ⟨fNV, false⟩)
        | .num n m e => if m = 0 then (0, {}) else intRound k sg o n ⟨m, e, false⟩
      | none => (0, {})

/-- An element's bits in its storage container: BPIk sign-extended to 8 bits, the rest zero-extended (R64, R66). -/
def contain (c : Nat) (x : Nat) : Nat :=
  if isBPI c then (intVal (c - 0x10) true x % 256).toNat else x % 2 ^ elW c

/-- Conversion of one stored element to another format's stored element; RAW32 is not converted here (R74, R299). -/
def convEl (cs cd : Nat) (o : RMode) (x : Nat) : Nat × Fx :=
  let (y, f) := convVal cd o (elVal cs x)
  (contain cd y, f)

/-- Bits 7:6 of every byte cleared when the format is FP6 (R66). -/
def fp6Mask (c : Nat) (w : Word) : Word := if isFP6 c then w &&& 0x3F3F3F3F else w

/-! ## Exact arithmetic -/

/-- The signed integer m × 2^(e − g) of a finite value at grid exponent g ≤ e. -/
def gridInt (neg : Bool) (m : Nat) (e g : Int) : Int :=
  let a : Int := m * p2 (e - g)
  if neg then -a else a

/-- An exact sum with R59's zeros: the mode decides the sign of a zero sum. -/
def addFV (rdn : Bool) : FV → FV → FV × BitVec 7
  | .nan, _ => (.nan, 0)
  | _, .nan => (.nan, 0)
  | .inf a, .inf b => if a == b then (.inf a, 0) else (.nan, fNV)
  | .inf a, _ => (.inf a, 0)
  | _, .inf b => (.inf b, 0)
  | .num na ma ea, .num nb mb eb =>
    if ma = 0 && mb = 0 then (.num (if na == nb then na else rdn) 0 0, 0)
    else
      let g := min ea eb
      let v := gridInt na ma ea g + gridInt nb mb eb g
      if v = 0 then (.num rdn 0 0, 0) else (.num (v < 0) v.natAbs g, 0)

def negFV : FV → FV
  | .nan => .nan
  | .inf n => .inf (!n)
  | .num n m e => .num (!n) m e

/-- An exact product; 0 × ±inf is NaN with NV (R260). -/
def mulFV : FV → FV → FV × BitVec 7
  | .nan, _ => (.nan, 0)
  | _, .nan => (.nan, 0)
  | .inf a, .inf b => (.inf (a != b), 0)
  | .inf a, .num b m _ => if m = 0 then (.nan, fNV) else (.inf (a != b), 0)
  | .num a m _, .inf b => if m = 0 then (.nan, fNV) else (.inf (a != b), 0)
  | .num a m e, .num b n f => (.num (a != b) (m * n) (e + f), 0)

/-- The product and then the sum, exactly: NaN and NV for 0 × ±inf whatever the addend (R260). -/
def fmaFV (rdn : Bool) (a b c : FV) : FV × BitVec 7 :=
  let (p, f) := mulFV a b
  if f != 0 then (.nan, f) else addFV rdn p c

/-- Integer square root by bits: the largest r with r² ≤ n, searching `k` bits downward. -/
def isqrtGo (n : Nat) : Nat → Nat → Nat
  | 0, r => r
  | k + 1, r => let t := r + 2 ^ k; isqrtGo n k (if t * t ≤ n then t else r)
def isqrt (n : Nat) : Nat := isqrtGo n (Nat.log2 n / 2 + 1) 0

/-- m1·2^e1 / m2·2^e2 to at least 100 bits. -/
def divMag (m1 : Nat) (e1 : Int) (m2 : Nat) (e2 : Int) : Mag :=
  let s := 100 + Nat.log2 m2
  ⟨m1 * 2 ^ s / m2, e1 - e2 - s, m1 * 2 ^ s % m2 != 0⟩

/-- The square root of m·2^e to at least 100 bits. -/
def sqrtMag (m : Nat) (e : Int) : Mag :=
  let odd := e % 2 != 0
  let m := if odd then m * 2 else m
  let e := if odd then e - 1 else e
  let n := m * 2 ^ 240
  let r := isqrt n
  ⟨r, e / 2 - 120, r * r != n⟩

/-- 1/√(m·2^e) to at least 100 bits. -/
def rsqMag (m : Nat) (e : Int) : Mag :=
  let odd := e % 2 != 0
  let m := if odd then m * 2 else m
  let e := if odd then e - 1 else e
  let k := 140 + Nat.log2 m
  let r := isqrt (2 ^ (2 * k) / m)
  ⟨r, -(e / 2) - k, r * r * m != 2 ^ (2 * k)⟩

/-! ## FP32 helpers for the scalar unit and R294 -/

def fp32 (w : Word) : FV := ffFP32.val w.toNat
def isNaN : FV → Bool
  | .nan => true
  | _ => false

/-- The order of two values that are numbers or infinities: −1, 0, 1, with −0 equal to +0. -/
def cmpFV : FV → FV → Int
  | .nan, _ => 0
  | _, .nan => 0
  | .inf a, .inf b => if a == b then 0 else if a then -1 else 1
  | .inf a, _ => if a then -1 else 1
  | _, .inf b => if b then 1 else -1
  | .num na ma ea, .num nb mb eb =>
    let g := min ea eb
    let v := gridInt na ma ea g - gridInt nb mb eb g
    if v < 0 then -1 else if v > 0 then 1 else 0

def negBit : FV → Bool
  | .nan => false
  | .inf n => n
  | .num n _ _ => n

/-- R261's order, which places −0 below +0. -/
def ltTot (a b : FV) : Bool :=
  let c := cmpFV a b
  c < 0 || (c == 0 && negBit a && !negBit b)

/-- FMIN and FMAX on codes of format f (R261). -/
def minMaxF (f : FF) (mx : Bool) (x y : Nat) : Nat :=
  let a := f.val x
  let b := f.val y
  match isNaN a, isNaN b with
  | true, true => f.nanCode
  | true, false => y
  | false, true => x
  | false, false => if (ltTot a b) != mx then x else if ltTot a b == ltTot b a then x else y

/-! ## Integer elements (R290, R307) -/

def inRange (k : Nat) (sg : Bool) (t : Int) : Bool :=
  if sg then -(2 ^ (k - 1)) ≤ t && t ≤ 2 ^ (k - 1) - 1 else 0 ≤ t && t ≤ 2 ^ k - 1

/-- An exact integer result as a k-bit element: saturated where `sat`, else wrapped (R290). -/
def intDeliver (c : Nat) (sat : Bool) (t : Int) : Nat × Fx :=
  match intOf c with
  | none => (0, {})
  | some (k, sg) =>
    if inRange k sg t then (contain c (t % 2 ^ k).toNat, {})
    else if sat then
      let lo : Int := if sg then -(2 ^ (k - 1)) else 0
      let hi : Int := if sg then 2 ^ (k - 1) - 1 else 2 ^ k - 1
      (contain c ((if t < lo then lo else hi) % 2 ^ k).toNat, ⟨fSAT, true⟩)
    else (contain c (t % 2 ^ k).toNat, {})

/-- The signed or unsigned value of a stored integer element. -/
def intEl (c : Nat) (x : Nat) : Int :=
  match intOf c with
  | some (k, sg) => intVal k sg x
  | none => 0

/-! ## Sub-elements of lane words (R64) -/

/-- Sub-element j of a lane word. -/
def sub (c : Nat) (w : Word) (j : Nat) : Nat := w.toNat / 2 ^ (elW c * j) % 2 ^ elW c

/-- A lane word from its sub-elements, lowest first. -/
def packWord (c : Nat) (xs : List Nat) : Word :=
  w32 (xs.foldr (fun x acc => acc * 2 ^ elW c + x % 2 ^ elW c) 0)

def subs (c : Nat) (w : Word) : List Nat := (List.range (elN c)).map (sub c w)

/-! ## Stochastic rounding draws (R81, R82) -/

/-- One advance of a generator state; the broadcast word is the high half of the new state. -/
def srAdvance (x : DWord) : DWord :=
  let x := if x = 0 then 1 else x
  let x := x ^^^ (x <<< 13)
  let x := x ^^^ (x >>> 7)
  x ^^^ (x <<< 17)

/-- The state after n advances, and the broadcast words in order. -/
def srWords : Nat → DWord → List Word
  | 0, _ => []
  | n + 1, x => let y := srAdvance x; hi32 y :: srWords n y
def srAfter : Nat → DWord → DWord
  | 0, x => x
  | n + 1, x => srAfter n (srAdvance x)

/-- The 16 random bits of lane i, sub-element j under broadcast word w. -/
def srDraw (w : Word) (i j : Nat) : Nat := (rotl32 w ((i + 4 * j) % 32)).toNat / 65536

/-- The state a CTLW of BCTL with SLD = 1 loads (R81). -/
def srSeed (seed : BitVec 16) : DWord := seed ++ (seed ^^^ 0xFFFF#16) ++ 0x9E3779B9#32
/-- The state an engine command's generator starts from (R82). -/
def srCmdSeed (seed : Word) : DWord := seed ++ (seed ^^^ 0x9E3779B9#32)

/-- The draw of element e of a tensor with n elements per lane word: group by 64·n (R82). -/
def srElem (ws : List Word) (n e : Nat) : Nat :=
  let g := e / (64 * n)
  let k := e % (64 * n)
  srDraw (ws.getD g 0) (k / n) (k % n)

/-! ## Block scaling (R90-R93) -/

/-- The scale exponent and code of a block whose largest magnitude is known (R90). -/
inductive Amax where
  | zero
  | special
  | mag (m : Nat) (e : Int)
deriving DecidableEq, Repr

def amaxOf (xs : List FV) : Amax :=
  xs.foldl (fun a x => match a, x with
    | .special, _ => .special
    | _, .nan => .special
    | _, .inf _ => .special
    | a, .num _ 0 _ => a
    | .zero, .num _ m e => .mag m e
    | .mag m1 e1, .num _ m e => if cmpFV (.num false m1 e1) (.num false m e) < 0 then .mag m e else .mag m1 e1) .zero

/-- One block quantised to format c (R90-R92): the scale code, the element codes and the flags of each element. `r` gives the
random bits of the i-th element. -/
def quantBlock (c : Nat) (o : RMode) (r : Nat → Nat) (xs : List FV) : Nat × List Nat × FSum :=
  match amaxOf xs, ffOf c with
  | .zero, _ => (0x7F, xs.map fun _ => 0, {})
  | .special, _ => (0xFF, xs.map fun _ => 0, ⟨fNV, 0⟩)
  | .mag _ _, none => (0x7F, xs.map fun _ => 0, {})
  | .mag m e, some f =>
    let L := (Nat.log2 m : Int) + e
    let s := max (-127) (min 127 (L - emaxE c))
    let one (p : FV × Nat) : Nat × Fx :=
      match p.1 with
      | .num n mm ee =>
        if mm = 0 then (f.signed n 0, {})
        else
          let g : Mag := ⟨mm, ee - s, false⟩
          if g.log < f.emin - f.mw then (f.signed n 0, ⟨fUF, false⟩)
          else f.round { o with r := r p.2 } n g
      | _ => (0, {})
    let ys := (xs.zipIdx).map one
    let fs := ys.foldl (fun acc y => acc.add y.2) ({} : FSum)
    if ys.all fun y => y.1 % 2 ^ f.sb == 0 then (0x7F, xs.map fun _ => 0, fs)
    else ((s + 127).toNat, ys.map (·.1), fs)

/-- An element times its block's scale (R93). -/
def dequant (c : Nat) (x code : Nat) : FV :=
  if code == 255 then .nan
  else match elVal c x with
    | .num n m e => .num n m (e + (code : Int) - 127)
    | v => v

end Sys2Proof.Machine
end

