-- ==== Sys2Proof/Machine/Ops.lean ====
section
/-! DEFINITION. The named operations over memory, registers, burners and addresses that every meaning uses: byte memory, row
checks (spec/02_address_spaces.md R27-R37), translation (R45-R49), taking a trap and leaving the handler
(spec/16_traps_preemption_checkpoint.md R371-R376). -/
namespace Sys2Proof

/-! ## Causes (R366) -/

def Cause.code : Cause → Nat
  | .illegalWord => 0x01
  | .illegalOpcode => 0x02
  | .illegalOperand => 0x03
  | .illegalRounding => 0x04
  | .illegalPfx => 0x05
  | .orphanPfx => 0x06
  | .queueUnreserved => 0x07
  | .fetchRange => 0x08
  | .vaRange => 0x10
  | .meshHole => 0x11
  | .rowQuota => 0x12
  | .meshDenied => 0x13
  | .inboxWrite => 0x14
  | .constBank => 0x15
  | .earlyRead => 0x16
  | .pageNotPresent => 0x17
  | .pteReserved => 0x18
  | .physRange => 0x19
  | .pageProtection => 0x1A
  | .watchHit => 0x1B
  | .formatMismatch => 0x20
  | .runOverflow => 0x21
  | .recipeReplay => 0x22
  | .recipeIllegal => 0x23
  | .recipeState => 0x24
  | .maskDepth => 0x25
  | .matrixLease => 0x26
  | .matrixSlot => 0x27
  | .engCommand => 0x28
  | .engEmpty => 0x29
  | .bufHeader => 0x2A
  | .decompError => 0x2B
  | .xformSpec => 0x2C
  | .weightSpec => 0x30
  | .wtableFull => 0x31
  | .ckptNone => 0x32
  | .weightDiverged => 0x33
  | .stepGone => 0x34
  | .stepAhead => 0x35
  | .pantryReserved => 0x38
  | .pantryTicket => 0x39
  | .pantryRole => 0x3A
  | .pantryQuota => 0x3B
  | .barrierState => 0x40
  | .barrierCount => 0x41
  | .barrierBroken => 0x42
  | .rftState => 0x43
  | .trapInsn => 0x44
  | .breakpoint => 0x45
  | .handlerQueue => 0x46
  | .replayDiverged => 0x48
  | .debugStop => 0x49
  | .uncorrected => 0x50
  | .domainKilled => 0x51

def Src.code : Src → Nat
  | .cc => 0
  | .l => 1
  | .x => 2
  | .s => 3
  | .copy => 4
  | .gather => 5
  | .coll => 6
  | .wport => 7

end Sys2Proof

namespace Sys2Proof.Machine

abbrev Outcome := Host.Outcome State Fault Refusal

/-! ## Byte memory: a list of cells, addresses rising, no cell equal to the byte 0 an unlisted address reads as -/

/-- The canonical form above a bound. -/
def Memory.wfFrom : Nat → Memory → Bool
  | _, [] => true
  | lo, (k, v) :: t => decide (lo ≤ k) && v != 0 && Memory.wfFrom (k + 1) t
/-- The canonical form. -/
def Memory.wf (m : Memory) : Bool := Memory.wfFrom 0 m

/-- What a byte that nothing has written reads as (log 3, 4). -/
def unlisted : Byte := 0

def Memory.get : Memory → Nat → Byte
  | [], _ => unlisted
  | (k, v) :: t, a => if k = a then v else Memory.get t a

def Memory.set : Memory → Nat → Byte → Memory
  | [], a, v => if v = unlisted then [] else [(a, v)]
  | (k, x) :: t, a, v =>
    if a < k then (if v = unlisted then (k, x) :: t else (a, v) :: (k, x) :: t)
    else if a = k then (if v = unlisted then t else (a, v) :: t)
    else (k, x) :: Memory.set t a v

/-- Consecutive bytes written from address a. -/
def Memory.setBytes : Memory → Nat → List Byte → Memory
  | m, _, [] => m
  | m, a, v :: t => Memory.setBytes (m.set a v) (a + 1) t

def Memory.bytes (m : Memory) (a n : Nat) : List Byte := (List.range n).map fun i => m.get (a + i)

/-- The little-endian word at a (R5). -/
def Memory.word (m : Memory) (a : Nat) : Word := m.get (a + 3) ++ m.get (a + 2) ++ m.get (a + 1) ++ m.get a
/-- A word's four bytes, lowest first. -/
def wordBytes (w : Word) : List Byte := [w.extractLsb' 0 8, w.extractLsb' 8 8, w.extractLsb' 16 8, w.extractLsb' 24 8]
def Memory.setWord (m : Memory) (a : Nat) (w : Word) : Memory := m.setBytes a (wordBytes w)

/-- The natural number of bytes in little-endian order. -/
def natOfBytes (bs : List Byte) : Nat := bs.foldr (fun b acc => b.toNat + 256 * acc) 0
/-- n little-endian bytes of a number. -/
def bytesOfNat (n x : Nat) : List Byte := (List.range n).map fun i => BitVec.ofNat 8 (x / 2 ^ (8 * i))
def wordsOfBytes (bs : List Byte) : Nat → List Word
  | 0 => []
  | n + 1 => w32 (natOfBytes (bs.take 4)) :: wordsOfBytes (bs.drop 4) n

/-! ## Small keyed tables, keys rising -/

def tabGet {α : Type} (d : α) : List (Nat × α) → Nat → α
  | [], _ => d
  | (k, v) :: t, a => if k = a then v else tabGet d t a
def tabSet {α : Type} : List (Nat × α) → Nat → α → List (Nat × α)
  | [], a, v => [(a, v)]
  | (k, x) :: t, a, v => if a < k then (a, v) :: (k, x) :: t else if a = k then (a, v) :: t else (k, x) :: tabSet t a v

/-! ## Scalar registers (R9) and operands (R16) -/

def Burner.getS (b : Burner) (r : BitVec 6) : Word := b.s[r.toNat]
def Burner.setS (b : Burner) (r : BitVec 6) (x : Word) : Burner := { b with s := b.s.set r.toNat x r.isLt }
/-- The pair w(n) that an even register code names: low half first. -/
def Burner.getW (b : Burner) (r : BitVec 6) : DWord := b.getS (r ||| 1) ++ b.getS (r &&& 62)
def Burner.setW (b : Burner) (r : BitVec 6) (x : DWord) : Burner := (b.setS (r &&& 62) (lo32 x)).setS (r ||| 1) (hi32 x)

/-- The 32-bit value of an operand. -/
def Burner.op32 (b : Burner) : Opnd → Word
  | .reg r => b.getS r
  | .imm c => c.setWidth 32
  | .lit w => w
  | .lit2 w => lo32 w
/-- The 64-bit value of an operand: one literal word is sign-extended. -/
def Burner.op64 (b : Burner) : Opnd → DWord
  | .reg r => b.getW r
  | .imm c => c.setWidth 64
  | .lit w => w.signExtend 64
  | .lit2 w => w
/-- The registers an operand reads. -/
def opRegs : Opnd → List (BitVec 6)
  | .reg r => [r]
  | _ => []
def opRegs64 : Opnd → List (BitVec 6)
  | .reg r => [r &&& 62, r ||| 1]
  | _ => []

/-! ## Burners -/

def State.modB (s : State) (f : Burner → Burner) : State := { s with b := f s.b }
def Burner.is (b : Burner) (core bur : Nat) : Bool := b.core == core && b.bur == bur
/-- Its reservations are made and its place is taken (R357, R361). -/
def Burner.placed (b : Burner) : Bool := b.status != .unbound && b.status != .yielded
/-- Bound: its registers stand on its core (R217, R380), once its bind record has been carried out (R359). -/
def Burner.bound (b : Burner) : Bool := b.placed && (b.status != .starting || b.loaded)
/-- Runnable (R438): not while its launch is suspended for a page of its overflow area (R362). -/
def Burner.runnable (b : Burner) : Bool := b.status == .running && b.ovPage == 0
def State.all (s : State) : List Burner := s.b :: s.others
def State.find (s : State) (core bur : Nat) : Option Burner := s.all.find? (·.is core bur)
/-- The other burner of the acting burner's core. -/
def State.other (s : State) : Option Burner := s.others.find? (·.is s.b.core (1 - s.b.bur))
/-- Every burner that satisfies p, changed by f. -/
def State.modWhere (s : State) (p : Burner → Bool) (f : Burner → Burner) : State :=
  { s with b := if p s.b then f s.b else s.b, others := s.others.map fun o => if p o then f o else o }
def State.modAt (s : State) (core bur : Nat) (f : Burner → Burner) : State := s.modWhere (·.is core bur) f
/-- Make the burner (core, bur) the acting one. -/
def State.focus (s : State) (core bur : Nat) : State :=
  if s.b.is core bur then s
  else match s.others.find? (·.is core bur) with
    | none => s
    | some o => { s with b := o, others := s.b :: s.others.filter fun x => !x.is core bur }

/-- The next choice (R177): from `sched` while it lasts, then a free value. -/
def State.draw (s : State) : Nat × State :=
  match s.sched with
  | n :: t => (n, { s with sched := t })
  | [] => (Config.choice s.tick, { s with tick := s.tick + 1 })

def Burner.die (b : Burner) : Nat := b.core / 160

/-! ## ROWQ, QRES, INBQ, BCTL fields -/

def Burner.owns (b : Burner) (bank : Nat) : Bool := b.rowq.getLsbD bank
def Burner.const (b : Burner) (bank : Nat) : Bool := b.rowq.getLsbD (16 + bank) && b.rowq.getLsbD bank
def Burner.resL (b : Burner) : Nat := (b.qres.extractLsb' 15 7).toNat
def Burner.resX (b : Burner) : Nat := (b.qres.extractLsb' 7 8).toNat
def Burner.resS (b : Burner) : Nat := (b.qres.extractLsb' 0 7).toNat
def Burner.resAcc (b : Burner) : Nat := (b.qres.extractLsb' 22 3).toNat
def Burner.resOps (b : Burner) : Nat := (b.qres.extractLsb' 25 4).toNat
def Burner.inbBase (b : Burner) : Nat := (b.inbq.extractLsb' 0 5).toNat
def Burner.inbCnt (b : Burner) : Nat := (b.inbq.extractLsb' 8 6).toNat
def Burner.drm (b : Burner) : BitVec 3 := b.bctl.extractLsb' 0 3
def Burner.dbg (b : Burner) : Bool := b.bctl.getLsbD 3
/-- Whether feature k is accepted (R399). -/
def State.feat (s : State) (k : Nat) : Bool := s.accept.getLsbD k

/-! ## The mesh window (R29-R37) -/

def bankOf (row : Nat) : Nat := row / 96
def isInbox (row : Nat) : Bool := 1504 ≤ row
/-- The mesh address of a row. -/
def rowAddr (core row : Nat) : Nat := core * 0x80000 + row * 256

/-- R29-R31: the core and row a mesh address names for a party of core `self`. -/
def meshResolve (self a : Nat) : Except Cause (Nat × Nat) :=
  let cf := a / 0x80000
  let row := a / 256 % 2048
  if a ≥ 0x20000000 || (cf ≥ 640 && cf != 1023) || row ≥ 1536 then .error .meshHole
  else .ok (if cf = 1023 then self else cf, row)

/-- A bound burner of the core that satisfies p. -/
def State.someOn (s : State) (core : Nat) (p : Burner → Bool) : Option Burner :=
  s.all.find? fun o => o.core == core && o.bound && p o

/-- R35-R37 in the order of R55, for a row already resolved. -/
def meshAllowed (s : State) (b : Burner) (wr : Bool) (core row : Nat) : Except Cause Unit :=
  let bank := bankOf row
  if core = b.core then
    if isInbox row then (if wr then .error .inboxWrite else .ok ())
    else if !b.owns bank then .error .rowQuota
    else if wr && b.const bank then .error .constBank
    else .ok ()
  else if isInbox row then
    let off := row - 1504
    if wr && (s.someOn core fun o => o.inbBase ≤ off && off < o.inbBase + o.inbCnt && o.region.fd == b.region.fd).isSome &&
        !s.fenced.contains core then .error .inboxWrite
    else .error .meshDenied
  else if s.fenced.contains core then .error .meshDenied
  else match s.someOn core fun o => o.owns bank && o.region.fd == b.region.fd with
    | none => .error .meshDenied
    | some o => if wr && o.const bank then .error .constBank else .ok ()

/-- A row address of an instruction checked by R29 to R37: its core and row. -/
def meshCheck (s : State) (b : Burner) (wr : Bool) (a : Nat) : Except Cause (Nat × Nat) :=
  match meshResolve b.core a with
  | .error c => .error c
  | .ok (core, row) =>
    match meshAllowed s b wr core row with
    | .error c => .error c
    | .ok () => .ok (core, row)

/-- BFMT of the bank of a row, by the burner that owns it (R69, R73). -/
def State.bfmtAt (s : State) (core row : Nat) : Word :=
  let bank := bankOf row
  match s.someOn core fun o => o.owns bank with
  | none => 0
  | some o => if h : bank < 16 then o.bfmt[bank] else 0
def bfFmt (w : Word) : Nat := (w.extractLsb' 0 5).toNat
def bfSm (w : Word) : Nat := (w.extractLsb' 6 2).toNat
def bfZ (w : Word) : Bool := w.getLsbD 8
def bfPl (w : Word) : Nat := (w.extractLsb' 9 3).toNat

def State.lane (s : State) (core row lane : Nat) : Word := s.mesh.word (rowAddr core row + 4 * lane)
def State.row (s : State) (core row : Nat) : List Word := (List.range 64).map (s.lane core row)
def State.setLane (s : State) (core row lane : Nat) (w : Word) : State :=
  { s with mesh := s.mesh.setWord (rowAddr core row + 4 * lane) w }
/-- A row write with lane enables: the words and the first lane. -/
def State.setLanes (s : State) (core row lane : Nat) (ws : List Word) : State :=
  { s with mesh := s.mesh.setBytes (rowAddr core row + 4 * lane) (ws.flatMap wordBytes) }

/-! ## Physical memory and translation (R41-R49) -/

/-- R41, R43: which kind of memory a physical address names; `none` when it is absent. -/
inductive PKind where
  | lpddr | cxl | host | control
deriving DecidableEq, Repr

def State.physKind (s : State) (pa : Nat) : Option PKind :=
  if pa < 0xC000000000 then some .lpddr
  else if 0xF000000000 ≤ pa && pa < 0xF100000000 then some .control
  else if 0x10000000000 ≤ pa && pa < 0x90000000000 then
    let p := (pa - 0x10000000000) / 0x20000000000
    let o := (pa - 0x10000000000) % 0x20000000000
    if h : p < 4 then (if o < s.cxl[p] && s.feat 4 then some .cxl else none) else none
  else if 0x800000000000 ≤ pa && pa < 0x800000000000 + s.hwin && pa < 0x1000000000000 then some .host
  else none

/-- Whether an address lies in device control space (R41, R43). -/
def isControl (pa : Nat) : Bool := decide (0xF000000000 ≤ pa) && decide (pa < 0xF100000000)
/-- The key that an index selects, by the cold start that drew it (R44, R415). -/
def State.keyNow (s : State) (key : Nat) : Nat := key + 16 * (if h : key < 16 then s.keys[key].getD 0 else 0)

/-- The key a row was last written under: for a row of LPDDR 6 that nothing has written since the clear of the start, key 0 of
the keys in force (R410). -/
def State.writerKey (s : State) (row : Nat) : Nat := tabGet (if row < 0xC0000000 then s.keyNow 0 else 0) s.rowKey row

/-- A byte of physical memory as a reader with a key sees it (R44, R415); what device control space holds is free (log 19). -/
def State.physByte (s : State) (key pa : Nat) : Byte :=
  let w := s.writerKey (pa / 256)
  let k := s.keyNow key
  let x := s.phys.get pa
  if isControl pa then Config.controlByte s.tick pa
  else if w = k || pa ≥ 0x800000000000 then x else Config.wrongKey k w pa x

/-- A write of bytes inside one row under a key; a row last written under another key is first taken under this one. A write to
device control space changes nothing that spec/ describes (log 19). -/
def State.physWrite (s : State) (key pa : Nat) (bs : List Byte) : State :=
  if isControl pa then s
  else if pa ≥ 0x800000000000 then { s with phys := s.phys.setBytes pa bs }
  else
    let base := pa / 256 * 256
    let w := s.writerKey (pa / 256)
    let k := s.keyNow key
    let m := if w = k then s.phys else s.phys.setBytes base ((List.range 256).map fun i => s.physByte key (base + i))
    { s with phys := m.setBytes pa bs
             rowKey := if w = k then s.rowKey else tabSet s.rowKey (pa / 256) k
             poison := if bs.length = 256 then s.poison.filter (· != pa / 256) else s.poison }

/-- Who accesses translated space: the region whose tables translate, the die whose last-level TLB serves, whether the acting
burner's watch filters apply, whether it is the host (R44), the core whose TLB serves first (R50), and whether it is an engine,
which reaches CXL memory (R409). -/
structure Via where
  region : Region
  die : Nat
  watch : Bool := false
  host : Bool := false
  core : Option Nat := none
  eng : Bool := false
deriving DecidableEq, Repr

/-- A party of the device that translates through a die's last-level TLB. -/
def Via.dev (r : Region) (die : Nat) : Via := { region := r, die := die }
def State.viaB (s : State) : Via := { region := s.b.region, die := s.b.die, watch := true, core := some s.b.core, eng := true }

def pteV (e : DWord) : Bool := e.getLsbD 0
def pteR (e : DWord) : Bool := e.getLsbD 1
def pteW (e : DWord) : Bool := e.getLsbD 2
def pteProt (e : DWord) : Bool := e.getLsbD 3
def pteMt (e : DWord) : Nat := (e.extractLsb' 4 2).toNat
def ptePs (e : DWord) : Bool := e.getLsbD 6
def pteA (e : DWord) : Bool := e.getLsbD 7
def pteD (e : DWord) : Bool := e.getLsbD 8
def pteWch (e : DWord) : Bool := e.getLsbD 10
def pteTrc (e : DWord) : Bool := e.getLsbD 11
def ptePfn (e : DWord) : Nat := (e.extractLsb' 12 36).toNat * 4096
def pteKey (e : DWord) : Nat := (e.extractLsb' 60 4).toNat
/-- Must-be-0 fields of R46: bits 59:56, 51:48 and 9. -/
def pteMbz (e : DWord) : Bool := e.extractLsb' 56 4 != 0 || e.extractLsb' 48 4 != 0 || e.getLsbD 9

/-- A table entry as the walker reads it: the stored bytes, whatever key wrote the row, since only a leaf names a key (log
106). -/
def State.pteAt (s : State) (pa : Nat) : DWord :=
  if isControl pa then w64 (natOfBytes ((List.range 8).map fun i => Config.controlByte s.tick (pa + i)))
  else w64 (natOfBytes (s.phys.bytes pa 8))
/-- The walker's update of A and D, without a key as its read (R48). -/
def State.ptePut (s : State) (pa : Nat) (e : DWord) : State :=
  if isControl pa then s else { s with phys := s.phys.setBytes pa (bytesOfNat 8 e.toNat) }

/-- A walk from a table at level `lvl` (R45, R47, R48): the leaf's address, its value and the page size in bits. DESIGN CHOICE
(log 151): a PTROOT that is not 4 KiB-aligned is taken as it stands, and the root table read from it. -/
def walk (s : State) (va : Nat) : Nat → Nat → Except Cause (Nat × DWord × Nat)
  | lvl, table =>
    let idx := va / 2 ^ (12 + 9 * lvl) % 512
    let pa := table + 8 * idx
    if (s.physKind pa).isNone then .error .physRange
    else
      let e := s.pteAt pa
      if !pteV e then .error .pageNotPresent
      else if pteMbz e then .error .pteReserved
      else
        let leaf := lvl = 0 || (ptePs e && (lvl = 1 || lvl = 2))
        if leaf then
          let bits := 12 + 9 * lvl
          if pteMt e = 3 || ptePfn e % 2 ^ bits != 0 then .error .pteReserved else .ok (pa, e, bits)
        else match lvl with
          | 0 => .ok (pa, e, 12)
          | l + 1 => if ptePs e then .error .pteReserved else walk s va l (ptePfn e)

/-- The first row of tables that a walk meets poisoned (R418). -/
def walkPoison (s : State) (va : Nat) : Nat → Nat → Option Nat
  | lvl, table =>
    let pa := table + 8 * (va / 2 ^ (12 + 9 * lvl) % 512)
    if (s.physKind pa).isNone then none
    else if s.poison.contains (pa / 256) then some (pa / 256)
    else
      let e := s.pteAt pa
      if !pteV e || pteMbz e || (ptePs e && (lvl = 1 || lvl = 2)) then none
      else match lvl with
        | 0 => none
        | l + 1 => walkPoison s va l (ptePfn e)

/-- What an access does in one row: whether it reads it, which touches the whole row (R32), and the offsets of the bytes it
writes. A read-modify-write does both (R49, R386). -/
structure Access where
  rd : Bool
  wr : List Nat := []
/-- A read, or a write of n bytes from va. -/
def Access.plain (wr : Bool) (va n : Nat) : Access := if wr then ⟨false, (List.range n).map (va % 256 + ·)⟩ else ⟨true, []⟩
def Access.writes (a : Access) : Bool := !a.wr.isEmpty
/-- A write of the whole row. -/
def Access.whole (a : Access) : Bool := !a.rd && a.wr.length == 256

/-- R386: whether an access to a row matches a watch filter of the burner. -/
def watchHit (b : Burner) (a : Access) (va : Nat) : Bool :=
  (List.range 4).any fun k =>
    if h : 3 * k + 2 < 12 then
      let lo := b.wf[3 * k]
      let hi := b.wf[3 * k + 1]
      let by' := b.wf[3 * k + 2]
      let page := (hi.extractLsb' 0 25).toNat * 2 ^ 20 + (lo.extractLsb' 12 20).toNat
      let rowOk := lo.getLsbD 3 || (lo.extractLsb' 8 4).toNat == va / 256 % 16
      let reads := lo.getLsbD 1 && a.rd && by' != 0
      let writes := lo.getLsbD 0 && a.wr.any fun o => by'.getLsbD (o / 8)
      (reads || writes) && page == va / 4096 && rowOk
    else false

/-- R49 and R43 after the leaf is known: present memory, MT, CXL memory by engines alone through normal or uncached leaves (R409;
log 136), R and W, watch; the one access that passes over the watch test is
not stopped (R387). -/
def leafCheck (s : State) (v : Via) (a : Access) (va : Nat) (e : DWord) (pa : Nat) : Except Cause Unit :=
  match s.physKind pa with
  | none => .error .physRange
  | some k =>
    if k == .control && pteMt e != 2 then .error .pteReserved
    else if k == .cxl && (!v.eng || pteMt e == 2) then .error .physRange
    else if (a.writes && !pteW e) || (a.rd && !pteR e) then .error .pageProtection
    else if v.watch && pteWch e && watchHit s.b a va && s.b.bypass.isEmpty then .error .watchHit else .ok ()

/-- A matching access that was passed over uses the bypass up; WONE returns to 0 (R387). -/
def useBypass (v : Via) (a : Access) (va : Nat) (e : DWord) (s : State) : State :=
  if v.watch && !s.b.bypass.isEmpty && pteWch e && watchHit s.b a va then
    s.modB fun b => { b with bypass := [], dctl := b.dctl &&& ~~~(0x400#32) }
  else s

/-- Whether a cached leaf serves: one with D = 0 serves no write (R48). -/
def TlbEnt.serves (t : TlbEnt) (asn va : Nat) (wr : Bool) : Bool :=
  t.asn == asn && va / 2 ^ t.bits == t.va / 2 ^ t.bits && (!wr || pteD t.pte)
/-- Entries of one TLB: a core's, or a die's last level (R50). -/
def TlbEnt.inTlb (core : Option Nat) (die : Nat) (t : TlbEnt) : Bool := t.core == core && t.die == die
def tlbSize (core : Option Nat) : Nat := if core.isSome then 64 else 1024

/-- A leaf enters one TLB: it replaces an entry of its page and ASN, and a full TLB gives up one entry (R50; log 44). -/
def State.tlbPut (core : Option Nat) (x : TlbEnt) (s : State) : State :=
  let x : TlbEnt := { x with core := core }
  let rest := s.tlb.filter fun t => !(t.inTlb core x.die && t.asn == x.asn && t.va / 2 ^ x.bits == x.va / 2 ^ x.bits)
  let mine := rest.filter (·.inTlb core x.die)
  if mine.length < tlbSize core then { s with tlb := x :: rest }
  else { s with tlb := x :: rest.erase (mine.getD (Config.tlbVictim s.tick % mine.length) x), tick := s.tick + 1 }
/-- A leaf enters the TLBs that serve a party: the core's, where it has one, and the die's. -/
def State.tlbFill (v : Via) (x : TlbEnt) (s : State) : State :=
  let s1 := s.tlbPut none x
  if v.core.isSome then s1.tlbPut v.core x else s1

/-- A miss in both TLBs: the walk, the checks of the leaf, A and D set in memory, and the leaf cached (R48-R50). -/
def missWalkBy (s : State) (v : Via) (a : Access) (va : Nat) : Except Cause (State × Nat × DWord) :=
  match walk s va 4 v.region.ptroot with
  | .error c => .error c
  | .ok (ea, e, bits) =>
    let pa := ptePfn e + va % 2 ^ bits
    match leafCheck s v a va e pa with
    | .error c => .error c
    | .ok () =>
      let e' := e ||| (if a.writes then 0x180#64 else 0x80#64)
      let s' := if e' = e then s else s.ptePut ea e'
      .ok (useBypass v a va e' (s'.tlbFill v { die := v.die, asn := v.region.asn, va := va / 2 ^ bits * 2 ^ bits, bits := bits, pte := e' }),
        pa, e')
def missWalk (s : State) (v : Via) (wr : Bool) (va n : Nat) : Except Cause (State × Nat × DWord) :=
  missWalkBy s v (.plain wr va n) va

/-- The leaf of a TLB that serves an access (R48, R50). -/
def State.tlbHit (s : State) (v : Via) (a : Access) (va : Nat) (core : Option Nat) : Option TlbEnt :=
  s.tlb.find? fun t => t.inTlb core v.die && t.serves v.region.asn va a.writes
/-- A poisoned row that an access's walk meets, where it walks (R418). -/
def State.walkFinds (s : State) (v : Via) (a : Access) (va : Nat) : Option Nat :=
  if s.poison.isEmpty || (v.core.isSome && (s.tlbHit v a va v.core).isSome) || (s.tlbHit v a va none).isSome then none
  else walkPoison s va 4 v.region.ptroot

/-- Translation of one row access, by one entry (R50, R52): the core's TLB, the die's, then a walk; the state, the physical
address and the leaf. -/
def translateBy (s : State) (v : Via) (a : Access) (va : Nat) : Except Cause (State × Nat × DWord) :=
  let use (t : TlbEnt) (s1 : State) : Except Cause (State × Nat × DWord) :=
    let pa := ptePfn t.pte + va % 2 ^ t.bits
    match leafCheck s v a va t.pte pa with
    | .error c => .error c
    | .ok () => .ok (useBypass v a va t.pte s1, pa, t.pte)
  match (if v.core.isSome then s.tlbHit v a va v.core else none) with
  | some t => use t s
  | none => match s.tlbHit v a va none with
    | some t => use t (if v.core.isSome then s.tlbPut v.core t else s)
    | none => missWalkBy s v a va
def translate (s : State) (v : Via) (wr : Bool) (va n : Nat) : Except Cause (State × Nat × DWord) :=
  translateBy s v (.plain wr va n) va

/-- R28: outside the virtual map. -/
def vaBad (va : Nat) : Bool := va ≥ 2 ^ 57 || (0x20000000 ≤ va && va < 0x40000000)

/-- Where one row access of an engine or another device party lands; `hidden` is protected memory to the host (R44). -/
inductive Loc where
  | mesh (core row : Nat)
  | phys (pa : Nat) (key : Nat)
  | hidden
deriving DecidableEq, Repr

/-- The number under which a scratchpad row stands in the list of poisoned rows (R417; log 135). -/
def meshRow (core row : Nat) : Nat := 2 ^ 40 + 2048 * core + row

/-- R28, then the mesh checks as the burner b's own access (R444), or translation, for one row access. -/
def locateBy (s : State) (v : Via) (b : Burner) (a : Access) (va : Nat) : Except AErr (State × Loc) :=
  if vaBad va then .error (.cause .vaRange)
  else if va < 0x20000000 then
    match meshCheck s b a.writes va with
    | .error c => .error (.cause c)
    | .ok (core, row) => if s.poison.contains (meshRow core row) && !a.whole then .error (.poisoned (meshRow core row)) else .ok (s, .mesh core row)
  else match s.walkFinds v a va with
  | some row => .error (.poisoned row)
  | none => match translateBy s v a va with
    | .error c => .error (.cause c)
    | .ok (s', pa, e) =>
      if v.host && pteProt e then .ok (s', .hidden)
      else if isControl pa then .ok ({ s' with tick := s'.tick + 1 }, .phys pa (pteKey e))
      else if s'.poison.contains (pa / 256) && !a.whole then .error (.poisoned (pa / 256))
      else .ok (s', .phys pa (pteKey e))
def locate (s : State) (v : Via) (b : Burner) (wr : Bool) (va n : Nat) : Except AErr (State × Loc) :=
  locateBy s v b (.plain wr va n) va

/-- A burner by launch, list node and rank, wherever it stands. -/
def Burner.who (b : Burner) : Who := ⟨b.launch, b.node, b.rank⟩
/-- A fault of an access by the device itself, reported to the management core (R56). -/
def State.tellMgmt (k : AErr × Nat) (s : State) : State :=
  match k.1 with
  | .cause c => { s with reports := s.reports ++ [(c, w64 k.2)] }
  | _ => s

/-- And to the burner whose command caused it, which takes it at its next cut (R56). -/
def State.tellBurner (w : Who) (k : AErr × Nat) (s : State) : State :=
  match k.1 with
  | .cause c =>
    let add (b : Burner) : Burner := if b.who = w then { b with told := b.told ++ [(c, w64 k.2)] } else b
    let s1 := (s.tellMgmt k).modWhere (fun _ => true) add
    { s1 with saved := s1.saved.map add }
  | _ => s

/-- Bytes inside one row. -/
def State.locBytes (s : State) (l : Loc) (va n : Nat) : List Byte :=
  match l with
  | .mesh core row => s.mesh.bytes (rowAddr core row + va % 256) n
  | .phys pa key => (List.range n).map fun i => s.physByte key (pa + i)
  | .hidden => List.replicate n 0xFF
def State.locWrite (s : State) (l : Loc) (va : Nat) (bs : List Byte) : State :=
  match l with
  | .mesh core row =>
    let s1 : State := { s with mesh := s.mesh.setBytes (rowAddr core row + va % 256) bs }
    if bs.length = 256 && s.poison.contains (meshRow core row) then { s1 with poison := s.poison.filter (· != meshRow core row) } else s1
  | .phys pa key => s.physWrite key pa bs
  | .hidden => s

/-- The access of an operation in parts (R162): the one it made in an earlier act, else what it wants; none where the operation
makes its accesses itself. -/
def State.rowDone (s : State) (wr : Bool) (va n : Nat) (bs : List Byte) : Option (Except AErr (List Byte)) :=
  match s.trail with
  | none => none
  | some ds => some (match ds.find? fun d => d.wr == wr && d.va == va with
    | none => .error (.want wr n bs)
    | some d => match d.fail with
      | some e => .error e
      | none => .ok d.bytes)

/-- A read of n bytes from va, row by row; the address of the row that failed. `fuel` bounds the rows. -/
def readVA (s : State) (v : Via) (b : Burner) (va n : Nat) : Nat → Except (AErr × Nat) (State × List Byte)
  | 0 => .ok (s, [])
  | fuel + 1 =>
    if n = 0 then .ok (s, [])
    else
      let k := min n (256 - va % 256)
      match s.rowDone false va k [] with
      | some (.error e) => .error (e, va)
      | some (.ok xs) =>
        match readVA s v b (va + xs.length) (n - xs.length) fuel with
        | .error c => .error c
        | .ok (s', bs) => .ok (s', xs.take n ++ bs)
      | none => match locate s v b false va k with
        | .error c => .error (c, va)
        | .ok (s', l) =>
          match readVA s' v b (va + k) (n - k) fuel with
          | .error c => .error c
          | .ok (s'', bs) => .ok (s'', s'.locBytes l va k ++ bs)
/-- At most as many rows as n bytes from any address meet; words of 8 bytes where the accesses are of host memory. -/
def rowFuel (s : State) (n : Nat) : Nat := if s.trail.isSome then n + 2 else n / 256 + 2
def rdVA (s : State) (v : Via) (b : Burner) (va n : Nat) : Except (AErr × Nat) (State × List Byte) :=
  readVA s v b va n (rowFuel s n)

/-- A write of bytes from va, row by row: the state so far and, on a fault, the reason, its address and the bytes done. -/
def writeVA (s : State) (v : Via) (b : Burner) (va : Nat) (bs : List Byte) :
    Nat → Nat → State × Option (AErr × Nat × Nat)
  | 0, _ => (s, none)
  | fuel + 1, done =>
    if bs.length = 0 then (s, none)
    else
      let k := min bs.length (256 - va % 256)
      match s.rowDone true va k (bs.take k) with
      | some (.error e) => (s, some (e, va, done))
      | some (.ok xs) => writeVA s v b (va + xs.length) (bs.drop xs.length) fuel (done + xs.length)
      | none => match locate s v b true va k with
        | .error c => (s, some (c, va, done))
        | .ok (s', l) => writeVA (s'.locWrite l va (bs.take k)) v b (va + k) (bs.drop k) fuel (done + k)
def wrVA (s : State) (v : Via) (b : Burner) (va : Nat) (bs : List Byte) : State × Option (AErr × Nat × Nat) :=
  writeVA s v b va bs (rowFuel s bs.length) 0

/-! ## Operations that stand between their accesses (R162) -/

/-- Why a read or write stopped, and the address presented. -/
abbrev EStop := AErr × Nat
/-- Whether a location is of host memory, where it is one aligned 8-byte word. -/
def Loc.host (l : Loc) : Bool :=
  match l with
  | .phys pa _ => decide (0x800000000000 ≤ pa)
  | _ => false
/-- How many of n bytes from an address lie in one location. -/
def Loc.span (l : Loc) (va n : Nat) : Nat := min n (if l.host then 8 - va % 8 else 256 - va % 256)
/-- One access of the device, a read or a write of as much of n bytes as its location holds. -/
def State.access (v : Via) (wr : Bool) (va n : Nat) (bs : List Byte) (s : State) : State × RowDone :=
  match locate s v s.b wr va n with
  | .error e => (s, { wr := wr, va := va, fail := some e })
  | .ok (s1, l) =>
    let k := l.span va n
    if wr then (s1.locWrite l va (bs.take k), { wr := wr, va := va, bytes := bs.take k })
    else (s1, { wr := wr, va := va, bytes := s1.locBytes l va k })
/-- The accesses of an operation made one by one, at most `fuel` of them in this act, after those made before: `want` tells the
access that it stops for, none where it has them all. A row is matched by a watch filter once (R386). -/
def inParts (v : Via) (want : State → Option EStop) : Nat → List RowDone → State → State × List RowDone × Bool
  | 0, ds, s => (s, ds, (want { s with trail := some ds }).isNone)
  | fuel + 1, ds, s => match want { s with trail := some ds } with
    | some (.want wr n bs, va) =>
      let again := ds.any fun d => d.wr == wr && d.va / 256 == va / 256
      let r := s.access (if again then { v with watch := false } else v) wr va n bs
      inParts v want fuel (ds ++ [r.2]) r.1
    | _ => (s, ds, true)
/-- The access that an operation stops for. -/
def wanted {α : Type} (r : Except EStop α) : Option EStop :=
  match r with
  | .error (.want wr n bs, va) => some (.want wr n bs, va)
  | _ => none

/-! ## Tokens, stores, cuts -/

/-- Tokens in the FIFO that a selector 1-6 names (R19). -/
def Burner.tokens (b : Burner) (sel : Nat) : Nat := if h : sel - 1 < 6 then b.tok[sel - 1] else 0
def Burner.setTokens (b : Burner) (sel n : Nat) : Burner :=
  if h : sel - 1 < 6 then { b with tok := b.tok.set (sel - 1) n h } else b

/-- The store buffer's oldest store performed (R168). -/
def State.performStore (s : State) : State :=
  match s.b.sbuf with
  | [] => s
  | e :: t => { s with mesh := s.mesh.setWord e.addr e.val, b := { s.b with sbuf := t } }
/-- The store buffer emptied, oldest first. -/
def State.drain (s : State) : State :=
  { s with mesh := s.b.sbuf.foldl (fun m e => m.setWord e.addr e.val) s.mesh, b := { s.b with sbuf := [] } }

/-- Buffered stores earlier in ko than a queue access, down to the last that stores to a row it accesses, are performed first
(R166, R168). -/
def State.drainTo (s : State) (ko : Nat) (here : SBuf → Bool) : State :=
  let early := ((s.b.sbuf.takeWhile fun e => e.ko < ko).reverse.dropWhile fun e => !here e).reverse
  { s with mesh := early.foldl (fun m e => m.setWord e.addr e.val) s.mesh, b := { s.b with sbuf := s.b.sbuf.drop early.length } }

def Burner.queue (b : Burner) : Queue → List Entry
  | .l => b.ql
  | .x => b.qx
  | .s => b.qs
def Burner.setQueue (b : Burner) (q : Queue) (es : List Entry) : Burner :=
  match q with
  | .l => { b with ql := es }
  | .x => { b with qx := es }
  | .s => { b with qs := es }
def Burner.qn (b : Burner) : Queue → Word
  | .l => b.nl
  | .x => b.nx
  | .s => b.ns
def Burner.bumpQ (b : Burner) (q : Queue) : Burner :=
  match q with
  | .l => { b with nl := b.nl + 1 }
  | .x => { b with nx := b.nx + 1 }
  | .s => { b with ns := b.ns + 1 }
def Burner.slot (b : Burner) : Queue → Nat
  | .l => b.slotL
  | .x => b.slotX
  | .s => b.slotS
def Burner.bumpSlot (b : Burner) (q : Queue) : Burner :=
  match q with
  | .l => { b with slotL := b.slotL + 1 }
  | .x => { b with slotX := b.slotX + 1 }
  | .s => { b with slotS := b.slotS + 1 }
def headUpc (es : List Entry) : Nat :=
  match es with
  | [] => 0
  | e :: _ => e.upc

/-- The cut vector (R218). -/
def Burner.cut (b : Burner) (pc : Word) : BitVec 256 :=
  (pc.setWidth 64) ++ b.nl ++ b.nx ++ b.ns ++ BitVec.ofNat 16 (headUpc b.ql) ++ BitVec.ofNat 16 (headUpc b.qx) ++
    BitVec.ofNat 16 (headUpc b.qs) ++ 0#48

/-! ## Engine status (R339) -/

def cmdOpc (c : Cmd) : Nat := (c.extractLsb' 0 8).toNat
def cmdWaitM (c : Cmd) : DWord := c.extractLsb' 320 64
def cmdSigM (c : Cmd) : DWord := c.extractLsb' 384 64
def EItem.opc : EItem → Nat
  | .cmd c => cmdOpc c
  | .commit .. => 2
  | .publish .. => 3
def EItem.waitM : EItem → DWord
  | .cmd c => cmdWaitM c
  | _ => 0
def Burner.unit (b : Burner) (u : Nat) : Eng := if h : u < 4 then b.eng[u] else {}
def Burner.setUnit (b : Burner) (u : Nat) (e : Eng) : Burner := if h : u < 4 then { b with eng := b.eng.set u e h } else b
/-- Waiting for its wait mask: some bit of the head's mask is not set (R337). -/
def Burner.maskWaits (b : Burner) (p : EPush) : Bool := !p.started && (p.item.waitM &&& b.ev) != p.item.waitM
/-- Pushed and not started, and outstanding (R336). -/
def Eng.outstanding (e : Eng) : Nat := e.fifo.length + e.out.length
def Burner.engStatus (b : Burner) (u : Nat) : Word :=
  let e := b.unit u
  let inq := (e.fifo.filter fun p => !p.started).length - e.ovf
  let st : BitVec 2 := match e.fifo with
    | [] => 0
    | p :: _ => if e.flt.isSome then 2 else if b.maskWaits p then 3 else 1
  let opc := match e.fifo with
    | [] => 0
    | p :: _ => p.item.opc
  st ++ BitVec.ofNat 5 (min inq 16) ++ BitVec.ofNat 5 e.out.length ++ BitVec.ofNat 8 opc ++ 0#12
def Burner.engProgress (b : Burner) (u : Nat) : Word :=
  let e := b.unit u
  if e.flt.isSome then w32 e.prog else 0
def Burner.engSeq (b : Burner) (u : Nat) : Word :=
  match (b.unit u).fifo with
  | [] => (b.unit u).next
  | p :: _ => p.seq

/-- Whether a cause is one of R54, whose TADDR is the presented address (R368). -/
def isAddrCause (c : Cause) : Bool := 0x10 ≤ c.code && c.code ≤ 0x1B

/-! ## Trace records (R389-R391) -/

def State.traceU (s : State) (die : Nat) : TraceU := (s.trace.find? (·.die == die)).getD { die := die }
def State.modTrace (die : Nat) (f : TraceU → TraceU) (s : State) : State :=
  { s with trace := s.trace.map fun x => if x.die == die then f x else x }
/-- A record that is lost: in its burner's TRLOST, on its core or off it, and in the die's next LOST record (R391). -/
def loseRec (r : TrcRec) (s : State) : State :=
  let count (b : Burner) : Burner := { b with trlost := if b.trlost = 0xFFFFFFFF then b.trlost else b.trlost + 1 }
  let s1 := s.modAt r.core r.bur count
  let s2 : State := { s1 with saved := s1.saved.map fun b => if b.is r.core r.bur then count b else b }
  s2.modTrace (r.core % 1024 / 160) fun u => { u with lost := u.lost + 1 }

/-- A record of the acting burner when its TRCTL enable bit is set: into the 64-record buffer of its die's unit, or lost when
the buffer is full (R391), a ring named or not (log 104). -/
def State.traceEv (s : State) (bit kind : Nat) (pc a bb c : Word) : State :=
  if !s.b.trctl.getLsbD bit then s
  else
    let r : TrcRec := ⟨s.cycle, s.b.core, s.b.bur, BitVec.ofNat 64 s.cycle ++ pc ++ a ++ bb ++ c ++ 0#32 ++
      BitVec.ofNat 10 s.b.core ++ BitVec.ofNat 1 s.b.bur ++ 0#17 ++ BitVec.ofNat 4 kind⟩
    let u := s.traceU s.b.die
    if 64 ≤ u.buf.length then loseRec r s else s.modTrace s.b.die fun u => { u with buf := u.buf ++ [r] }

/-- Whether an act that has made n row accesses has made its share (log 107). -/
def State.enough (s : State) (n : Nat) : Bool := s.pace != 0 && decide (s.pace ≤ n)

/-! ## Fronts (R217) -/

/-- A cut withdraws the waiting request of a WAIT load at the head of the S queue: it counts as not begun (R116, R440). A load
that is resolved is resolved again when it goes on (R123). A SENDT that holds reads its row again (R218, R274). -/
def Burner.withdrawLoad (b' : Burner) : Burner :=
  let b := { b' with carry := none }
  match b.qs with
  | [] => b
  | e :: es =>
    let e1 : Entry := { e with load := e.load.map fun l => { l with cut := true }, trail := [] }
    match e.ins with
    | .wloadWait _ => { b with qs := { e1 with waited := false } :: es }
    | _ => { b with qs := e1 :: es }

/-- The acting burner gives up its array lease at a cut when another requester waits (R328). -/
def State.surrender (s : State) : State :=
  let q := s.b.core / 4
  let hit := s.leases.any fun l => l.quad == q && l.holder == some (s.b.core, s.b.bur) && !l.reqs.isEmpty
  if hit then
    { s with b := { s.b with slotM := s.b.slotM + 16 }
             leases := s.leases.map fun l => if l.quad == q then { l with holder := none } else l }
  else s

/-- The acting burner ceases to be front; `why` is the SWITCH record's B field (R390). -/
def State.leaveFront (s : State) (why : Nat) : State :=
  let t := { s with b := { s.b with front := false } }.surrender
  if s.b.front then t.traceEv 2 3 t.b.pc 0 (w32 why) 0 else t
/-- The acting burner leaves the front: its store buffer is emptied (R218), and the other burner of the core, if runnable,
becomes front. -/
def State.passFront (s : State) (why : Nat) : State :=
  let s := (s.modB Burner.withdrawLoad).drain.leaveFront why
  match s.other with
  | none => s
  | some o =>
    if o.runnable then
      let s := s.modAt o.core o.bur fun x => { x with front := true, lend := false }
      ((s.focus o.core o.bur).traceEv 2 3 o.pc 1 (w32 why) 0).focus s.b.core s.b.bur
    else s

/-! ## Taking a trap (R371-R376) and leaving the handler (R374) -/

/-- The parts of a fault that the record keeps (R370, R372). -/
structure TrapInfo where
  c : Cause
  src : Src := .cc
  addr : DWord := 0
  iaddr : Word := 0xFFFFFFFF
  cutPc : Word := 0
  tseq : Word := 0
  upc : Nat := 0
  rinfo : BitVec 16 := 0
  inner : Nat := 0
deriving DecidableEq, Repr

/-- TCAUSE (R370). -/
def TrapInfo.tcause (t : TrapInfo) : Word :=
  BitVec.ofNat 8 t.inner ++ 0#13 ++ BitVec.ofNat 3 t.src.code ++ BitVec.ofNat 8 t.c.code

/-- The trap record (R372). -/
def State.trapRecord (s : State) (t : TrapInfo) (ntrap : Word) : TRec :=
  let b := s.b
  b.cut t.cutPc ++
    (b.engProgress 3 ++ b.engProgress 2 ++ b.engProgress 1 ++ b.engProgress 0) ++
    (b.engStatus 3 ++ b.engStatus 2 ++ b.engStatus 1 ++ b.engStatus 0) ++
    (b.engSeq 3 ++ b.engSeq 2 ++ b.engSeq 1 ++ b.engSeq 0) ++
    t.addr ++ t.iaddr ++ t.tseq ++ BitVec.ofNat 16 t.upc ++ t.rinfo ++ t.tcause ++ b.flags ++ b.satcnt ++
    BitVec.ofNat 64 s.cycle ++ ntrap ++ 0x0C645452#32

/-- Taking a trap: the one shared operation. With TE = 0 the record goes to TREC0, TCAUSE, TADDR and TEPC are set, TE := 1 and
decoding goes on at TVEC with bits 1:0 taken as 0. With TE = 1 the record goes to TREC1 and the burner becomes FROZEN. -/
def takeTrap (t : TrapInfo) (s : State) : State :=
  let s := s.drain.modB Burner.withdrawLoad
  let n := s.b.ntrap + 1
  if s.b.te then
    let s := { s with b := { s.b with trec1 := s.trapRecord t n, t1v := true, ntrap := n, status := .frozen, wait := none
                                      lend := false, pfx := none } }
    (s.traceEv 1 1 t.iaddr t.tcause (lo32 t.addr) n).passFront 3
  else
    let r := s.trapRecord t n
    let s := { s with b := { s.b with trec0 := r, tcause := t.tcause, taddr := t.addr, tepc := t.cutPc, te := true
                                      ntrap := n, pc := s.b.tvec &&& 0xFFFFFFFC, pfx := none, wait := none } }
    s.traceEv 1 1 t.iaddr t.tcause (lo32 t.addr) n

/-- A fault of the control core at the instruction it is executing; the cut's PC is that instruction (R373). -/
def ccTrap (c : Cause) (addr : DWord) (s : State) : State :=
  takeTrap { c := c, addr := addr, iaddr := s.b.pc, cutPc := s.b.pc } s

/-- One queue's head marked skipped on RFT: its partial results are discarded (R374). -/
def skipHead (on : Bool) (es : List Entry) : List Entry :=
  match es with
  | [] => []
  | e :: t => if on then { e with skip := true, part := [], imgs := [], out := none } :: t else e :: t

/-- A faulted command goes on from its progress, unless its fault is still to be taken (R371, R374). -/
def Eng.goOn (e : Eng) : Eng := if e.fltDue then e else { e with flt := none }

/-- Leaving the handler (R374), with its trace record (R390; log 137): skips, clearing, resumption at TEPC with bits 1:0 taken
as 0. Faulted engine commands resume;
WONE arms one watch bypass for the entry or command of TCAUSE.SRC, beside those that stand unused (R387). -/
def leaveHandler (s : State) : State :=
  let b := s.b
  let s := s.traceEv 1 2 b.tepc (w32 ((if b.skl then 1 else 0) + (if b.skx then 2 else 0) + (if b.sks then 4 else 0))) 0 0
  let b := s.b
  let src : Src := match (b.tcause.extractLsb' 8 3).toNat with
    | 1 => .l
    | 2 => .x
    | 3 => .s
    | 4 => .copy
    | 5 => .gather
    | 6 => .coll
    | 7 => .wport
    | _ => .cc
  let wone := b.dctl.getLsbD 10
  { s with b := { b with
      ql := skipHead b.skl b.ql, qx := skipHead b.skx b.qx, qs := skipHead b.sks b.qs
      te := false, skl := false, skx := false, sks := false
      pc := b.tepc &&& 0xFFFFFFFC, pfx := none, wait := none, skipStop := true
      bypass := if wone && !b.bypass.contains src then src :: b.bypass else b.bypass
      eng := b.eng.map Eng.goOn } }

end Sys2Proof.Machine
end

