-- ==== Sys2Proof/Machine/Operands.lean ====
section
/-! DEFINITION. Operand forms and what every instruction shares: retiring a control-core instruction, scalar interlock, stalls,
releases, lending, branches (spec/09_core_and_queues.md R202, R217; spec/11_control_core_instructions.md R253, R254, R263;
spec/07_consistency_model.md R168, R169), forwarding to a queue (R201, R204), vector registers by slot (R213), the run pool
(R222) and the event log (R394-R397). -/
namespace Sys2Proof.Machine

/-! ## Control-core instructions -/

/-- Literal words of an operand (R16). -/
def litN : Opnd → Nat
  | .lit _ => 1
  | .lit2 _ => 2
  | _ => 0

/-- Bytes of an instruction of n words, with its prefix (R22). -/
def Burner.ilen (b : Burner) (n : Nat) : Word := w32 (4 * n + if b.pfx.isSome then 4 else 0)
/-- The address after an instruction of n words (R254). -/
def Burner.after (b : Burner) (n : Nat) : Word := b.pc + b.ilen n

/-- A control-core instruction retires and decoding goes on at `pc`: ko and the count of decoded instructions advance. -/
def retireAt (pc : Word) (s : State) : State :=
  { s with b := { s.b with pc := pc, pfx := none, wait := none, skipStop := false, ko := s.b.ko + 1
                           rpseq := if s.b.te then s.b.rpseq else s.b.rpseq + 1 } }
/-- It retires at the next instruction. -/
def retire (n : Nat) (s : State) : State := retireAt (s.b.after n) s

/-- Whether an unretired queue entry has scalar destination r (R202). -/
def Burner.busy (b : Burner) (r : BitVec 6) : Bool := (b.ql ++ b.qx ++ b.qs).any fun e => e.sd.contains r
/-- The scalar interlock: an instruction reading or writing rs is held at decode; it does not apply to a handler (R371). -/
def Burner.held (b : Burner) (rs : List (BitVec 6)) : Bool := !b.te && rs.any b.busy

/-- A control-core instruction of n words over the registers rs that changes only the burner. -/
def ccOp (rs : List (BitVec 6)) (n : Nat) (f : Burner → Burner) (s : State) : Outcome :=
  if s.b.held rs then .next s else .next (retire n (s.modB f))

/-- One whose effect is on the whole state, or a trap, or a stall. -/
def ccDo (rs : List (BitVec 6)) (f : State → Outcome) (s : State) : Outcome :=
  if s.b.held rs then .next s else f s

/-- A trap taken at the control core's own instruction. -/
def ccFault (c : Cause) (addr : DWord) (s : State) : Outcome := .next (ccTrap c addr s)

/-- Two 32-bit sources (R255, R258). -/
def op2 (d : BitVec 6) (a b : Opnd) (f : Word → Word → Word) (s : State) : Outcome :=
  ccOp (d :: (opRegs a ++ opRegs b)) (1 + litN a + litN b) (fun x => x.setS d (f (x.op32 a) (x.op32 b))) s
/-- One 32-bit source. -/
def op1 (d : BitVec 6) (a : Opnd) (f : Word → Word) (s : State) : Outcome :=
  ccOp (d :: opRegs a) (1 + litN a) (fun x => x.setS d (f (x.op32 a))) s
/-- Two 64-bit sources and a pair (R257). -/
def opW2 (d : BitVec 6) (a b : Opnd) (f : DWord → DWord → DWord) (s : State) : Outcome :=
  ccOp ((d &&& 62) :: (d ||| 1) :: (opRegs64 a ++ opRegs64 b)) (1 + litN a + litN b)
    (fun x => x.setW d (f (x.op64 a) (x.op64 b))) s

/-! ## Stores, releases -/

/-- Whether an S-queue store is unretired (R169): a VST form (log 144). -/
def Burner.storesLeft (b : Burner) : Bool := b.qs.any (·.store)
/-- A control-core release: held while the S queue has an unretired store; the store buffer is emptied first (R168, R169). -/
def ccRelease (f : State → Outcome) (s : State) : Outcome :=
  if s.b.storesLeft then .next s else f s.drain

/-- Whether every L, X and S queue entry has retired (R72). -/
def Burner.queuesEmpty (b : Burner) : Bool := b.ql.isEmpty && b.qx.isEmpty && b.qs.isEmpty
/-- Whether every engine command and weight request has completed or faulted (R188 bit 4): behind a faulted one none waits. -/
def Burner.enginesDone (b : Burner) : Bool := b.eng.all fun e => e.fifo.isEmpty || (e.flt.isSome && e.fifo.length == 1)

/-- A serialising instruction (R72): held until every queue entry has retired. -/
def serialise (f : State → Outcome) (s : State) : Outcome :=
  if !s.b.queuesEmpty then .next s else f s

/-! ## Waiting and lending (R217) -/

/-- The front burner waits for k and lends its issue slots when the other burner is runnable; one that waits too lends again
(R217, R438). -/
def lendWait (k : WaitK) (s : State) : State :=
  let s := s.modB fun x => { x with wait := some k }
  match s.other with
  | none => s
  | some o =>
    if o.runnable && s.b.front then (s.passFront 1).modB fun x => { x with lend := true } else s

/-! ## Branches (R24, R25, R263) -/

/-- R24's test of the word before a target; a word beyond the text is not tested. -/
def orphan (b : Burner) (t : Word) : Bool :=
  t != 0 && decide (t.toNat ≤ b.tlen) && b.text.get (t.toNat - 4) == 0xFA

/-- A taken branch to t with effect f: none at all when it raises ORPHAN_PREFIX. -/
def branchTo (t : Word) (f : State → State) (s : State) : Outcome :=
  if orphan s.b t then ccFault .orphanPfx 0 s else .next (retireAt t (f s))

/-- A branch that falls through after n words unless taken. -/
def branchIf (c : Bool) (n : Nat) (t : Word) (f : State → State) (s : State) : Outcome :=
  if c then branchTo t f s else .next (retire n (f s))

/-- Target of a CB branch (R15). -/
def cbTarget (b : Burner) (o : BitVec 13) : Word := b.pc + 4 * o.signExtend 32
def cjTarget (b : Burner) (o : BitVec 24) : Word := b.pc + 4 * o.signExtend 32

/-! ## Queue state (R201-R205) -/

/-- What forwarding captures. -/
structure Fwd where
  q : Queue
  ins : Instr
  n : Nat
  ws : BitVec 3
  ps : BitVec 3
  rs : List (BitVec 6) := []
  sd : List (BitVec 6) := []
  va : DWord := 0
  vb : DWord := 0
  vc : DWord := 0
  store : Bool := false
  acq : Bool := false
  mx : Bool := false
  msk : Bool := false
deriving DecidableEq, Repr

def Burner.reserved (b : Burner) : Queue → Nat
  | .l => b.resL
  | .x => b.resX
  | .s => b.resS

/-- The entry a forwarded instruction becomes, numbered after the queue's last (R218). -/
def Fwd.entry (f : Fwd) (b : Burner) (body : Option Recipe) : Entry :=
  { seq := b.qn f.q + w32 (b.queue f.q).length, ko := b.ko, ins := f.ins, pfx := b.pfx, va := f.va, vb := f.vb, vc := f.vc
    iaddr := b.pc, rseq := if b.te then b.rpseq else b.rpseq + 1, wsel := f.ws.toNat, psel := f.ps.toNat, sd := f.sd
    store := f.store, acq := f.acq, mx := f.mx, msk := f.msk, body := body, know := b.knows }

/-- The instruction enters its queue and the control core goes on. -/
def enqueue (f : Fwd) (body : Option Recipe) (s : State) : State :=
  retire f.n (s.modB fun b => b.setQueue f.q (b.queue f.q ++ [f.entry b body]))

/-- What stops forwarding before anything enters a queue: a trap, or a stall. -/
inductive Gate where
  | pass
  | stall
  | trap (c : Cause)
deriving DecidableEq, Repr

/-- HANDLER_QUEUE (R371), QUEUE_UNRESERVED (R204), the interlock (R202), a full queue (R201). -/
def fwdGate (f : Fwd) (b : Burner) : Gate :=
  if b.te then .trap .handlerQueue
  else if b.reserved f.q = 0 then .trap .queueUnreserved
  else if b.held (f.rs ++ f.sd) then .stall
  else if b.reserved f.q ≤ (b.queue f.q).length then .stall
  else .pass

/-- How performing a queue's head entry ends: it retires with the state it leaves, it has not begun, it stands between two of
its row accesses (μPC, partial result; R326), it faults. -/
inductive Res where
  | done (s : State)
  | wait (s : State)
  | pause (upc : Nat) (part : Runs) (s : State)
  | trap (c : Cause) (addr : DWord) (upc : Nat) (part : Runs) (rinfo : BitVec 16) (inner : Nat) (s : State)

def Res.fault (c : Cause) (s : State) : Res := .trap c 0 0 [] 0 0 s
def Res.faultAt (c : Cause) (addr : Nat) (s : State) : Res := .trap c (w64 addr) 0 [] 0 0 s

/-- The head entry replaced. -/
def Burner.setHead (b : Burner) (q : Queue) (f : Entry → Entry) : Burner :=
  match b.queue q with
  | [] => b
  | e :: es => b.setQueue q (f e :: es)

/-- The resolved loads of a burner that are not complete (R115). -/
def Burner.loads (b : Burner) : List WLd :=
  ((b.unit 3).load.toList ++ (match b.qs with
    | e :: _ => e.load.toList
    | [] => [])).filter (!·.gone)
/-- Whether a write of a queue or an engine to a row is issued and not performed: its pending bit (R388). -/
def Burner.pendRow (b : Burner) (row : Nat) : Bool :=
  b.stPend.contains row || (b.eng.any fun g => g.pend.contains row) || b.loads.any fun l => l.rows.contains row

/-- Work of another agent that is due: once, however often it is asked for. -/
def State.due (s : State) (a : Instr) : State := if s.pending.contains a then s else { s with pending := s.pending ++ [a] }
/-- Loads that end: the deltas only they needed are to be freed (R128). -/
def State.freeLoads (s : State) (ls : List WLd) : State := ls.foldl (fun s l => s.due (.deltaFree (w32 l.tid))) s

/-! ## Vector registers by slot (R213, R220) -/

def VReg.empty : VReg := {}
def Burner.cur (b : Burner) (r : Nat) : VReg := tabGet VReg.empty b.v r
def Burner.setV (b : Burner) (r : Nat) (x : VReg) : Burner := { b with v := tabSet b.v r x }

/-- The value after the latest write of the chain whose latency has elapsed at slot t, and `cur` after the last. -/
def winValue (t : Nat) (cur : VReg) : List Window → VReg
  | [] => cur
  | w :: ws =>
    if (w :: ws).any fun x => decide (x.due ≤ t) then
      winValue t cur ws
    else w.old

/-- The windows of one register in one queue, oldest first: those that another queue's write has, or has not, superseded. -/
def Burner.winsOf (b : Burner) (q : Queue) (sup : Bool) (r : Nat) : List Window :=
  b.win.filter fun w => w.q == q && w.reg == r && w.sup == sup

/-! ## Readers of another queue (R172, R179) -/

def Clock.of (c : Clock) : Queue → Nat
  | .l => c.l
  | .x => c.x
  | .s => c.s
def Clock.join (c d : Clock) : Clock := ⟨max c.l d.l, max c.x d.x, max c.s d.s⟩
def Clock.bump (c : Clock) : Queue → Clock
  | .l => { c with l := c.l + 1 }
  | .x => { c with x := c.x + 1 }
  | .s => { c with s := c.s + 1 }
/-- What the instructions of a queue that have retired followed; its own component counts them. -/
def Burner.know (b : Burner) : Queue → Clock
  | .l => b.knowL
  | .x => b.knowX
  | .s => b.knowS
def Burner.setKnow (b : Burner) (q : Queue) (c : Clock) : Burner :=
  match q with
  | .l => { b with knowL := c }
  | .x => { b with knowX := c }
  | .s => { b with knowS := c }
/-- What the token at the front of a selector's FIFO carries. -/
def Burner.tokenClock (b : Burner) (sel : Nat) : Clock := if h : sel - 1 < 6 then b.tokc[sel - 1].headD {} else {}
def Burner.setTokenClocks (b : Burner) (sel : Nat) (f : List Clock → List Clock) : Burner :=
  if h : sel - 1 < 6 then { b with tokc := b.tokc.set (sel - 1) (f b.tokc[sel - 1]) h } else b

/-- An instruction that reads registers: its queue, its ko position, and what it follows in happens-before. -/
structure Rd where
  q : Queue
  ko : Nat
  know : Clock
deriving DecidableEq, Repr
/-- An entry of queue q as a reader: what its queue and its forwarding followed, and the token it pops (R170, R171). -/
def Burner.reader (b : Burner) (q : Queue) (e : Entry) : Rd :=
  ⟨q, e.ko, ((b.know q).join e.know).join (if e.wsel = 0 then {} else b.tokenClock e.wsel)⟩

/-- The oldest of the writes of other queues, newest first, that the reader does not follow and whose old value it takes (log
23); its own queue's write ends the search, and one that R302 has shown. -/
def pastOf (b : Burner) (k : Rd) (r : Nat) : List Past → Option Past → Option Past
  | [], acc => acc
  | h :: hs, acc =>
    if h.reg != r then pastOf b k r hs acc
    else if h.q == k.q || h.shown.contains k.q || decide (h.n < k.know.of h.q) || !Config.older b.core b.bur k.ko r then acc
    else pastOf b k r hs (some h)

/-- What a reader obtains at its queue's slot: Visible(slot) of R213, or the old value of another queue's write (R179). -/
def Burner.readAt (b : Burner) (k : Rd) (r : Nat) : VReg :=
  match pastOf b k r b.hist none with
  | none => winValue (b.slot k.q) (b.cur r) (b.winsOf k.q false r)
  | some x => winValue (b.slot k.q) x.old (b.winsOf k.q true r)

/-- A reader has obtained v(r) no older than the write `t` (none: the newest): a write of v(r + 1) by an instruction that wrote
both, at or before that moment, is old to its queue no more (R302). -/
def showPairs (q : Queue) (r : Nat) (t : Option Past) : Bool → List Past → List Past
  | _, [] => []
  | seen, h :: hs =>
    (if seen && h.pair && h.reg == r + 1 && !h.shown.contains q then { h with shown := q :: h.shown } else h) :: showPairs q r t (seen || some h == t) hs
def Burner.obtain (b : Burner) (k : Rd) (rs : List Nat) : Burner :=
  { b with hist := rs.foldl (fun hist r =>
      let t := match (b.cur r).st with
        | .dropped _ => none
        | _ => pastOf b k r hist none
      showPairs k.q r t t.isNone hist) b.hist }

/-- Windows of elapsed writes and of every earlier write they supersede are freed (R214). -/
def settleWin (slot : Queue → Nat) : List Window → List Window
  | [] => []
  | w :: ws =>
    if (w :: ws).any fun x => x.q == w.q && x.reg == w.reg && decide (x.due ≤ slot x.q) then settleWin slot ws
    else w :: settleWin slot ws

/-- The same for the accumulator and operand-slot windows, by matrix-command slot. -/
def settleMx {α : Type} (slot : Nat) : List (Nat × Nat × α) → List (Nat × Nat × α)
  | [] => []
  | w :: ws =>
    if (w :: ws).any fun x => x.1 == w.1 && decide (x.2.1 ≤ slot) then settleMx slot ws else w :: settleMx slot ws

def Burner.settle (b : Burner) : Burner :=
  { b with win := settleWin b.slot b.win, accWin := settleMx b.slotM b.accWin, opWin := settleMx b.slotM b.opWin }

/-! ## The run pool (R222, R223) -/

def sumNat (xs : List Nat) : Nat := xs.foldl (· + ·) 0
def partOf (es : List Entry) : Nat :=
  match es with
  | [] => 0
  | e :: _ => e.part.length
/-- RUNU: runs of present registers, of exposure windows and of head entries' partial results. -/
def Burner.runUsed (b : Burner) : Nat :=
  sumNat (b.v.map fun p => p.2.runs.length) + sumNat (b.win.map fun w => w.old.runs.length) + partOf b.ql + partOf b.qx +
    partOf b.qs

/-- Vector registers a recipe instruction reads, by the fields of its syntax (R225). -/
def vsrcs : Instr → List Nat
  | .vadd f | .vsub f | .vmul f | .vmulh f | .vmin f | .vmax f | .vand f | .vor f | .vxor f | .vshl f | .vshr f | .vsra f
  | .vfadd f | .vfsub f | .vfmul f | .vfmin f | .vfmax f | .vdiv f | .vcmpEq f | .vcmpNe f | .vcmpLt f | .vcmpLe f
  | .vcmpGt f | .vcmpGe f | .vcmpLtu f | .vcmpGeu f | .vdqnt f => [f.a.toNat, f.b.toNat]
  | .vmad f | .vfma f | .vsel f => [f.a.toNat, f.b.toNat, f.d.toNat]
  | .vabs f | .vneg f | .vnot f | .vpopc f | .vclz f | .vsqrt f | .vrcp f | .vrsq f | .vexp2 f | .vlog2 f | .vtanh f
  | .vsin f | .vcos f | .vcvt f | .vscale f | .vqnt f | .vredr f | .vredc f | .vreda f | .vcoal f | .vocc f | .mpush f
  | .vcq f => [f.a.toNat]
  | .vrotr f | .vrotc f | .vbcr f | .vbcc f | .vext f | .vlen f => [f.a.toNat]
  | .vins f => [f.a.toNat, f.d.toNat]
  | .vst f | .vstRot f | .vstz f | .vstm f => [f.d.toNat]
  | .awr f => [f.d.toNat]
  | _ => []

/-- The vector register an instruction writes. -/
def vdst : Instr → Option Nat
  | .vadd f | .vsub f | .vmul f | .vmulh f | .vmin f | .vmax f | .vand f | .vor f | .vxor f | .vshl f | .vshr f | .vsra f
  | .vfadd f | .vfsub f | .vfmul f | .vfmin f | .vfmax f | .vdiv f | .vcmpEq f | .vcmpNe f | .vcmpLt f | .vcmpLe f
  | .vcmpGt f | .vcmpGe f | .vcmpLtu f | .vcmpGeu f | .vdqnt f | .vmad f | .vfma f | .vsel f
  | .vabs f | .vneg f | .vnot f | .vpopc f | .vclz f | .vsqrt f | .vrcp f | .vrsq f | .vexp2 f | .vlog2 f | .vtanh f
  | .vsin f | .vcos f | .vcvt f | .vscale f | .vqnt f | .vredr f | .vredc f | .vreda f | .vcoal f | .vocc f | .mtest f | .vtag f
  | .vuntag f | .vdrop f => some f.d.toNat
  | .vrotr f | .vrotc f | .vbcr f | .vbcc f | .vext f | .vins f | .vlen f | .viota f | .vspl f => some f.d.toNat
  | .vld f | .vldRot f | .vldz f | .vldm f => some f.d.toNat
  | .ard f => some f.d.toNat
  | _ => none

/-- A recipe table entry; `none` while undefined (R315). -/
def Burner.recipe (b : Burner) (k : Nat) : Option Recipe := (b.recipes.find? fun p => p.1 == k).map (·.2)

/-- Registers a recipe reads from outside itself: sources not written by an earlier instruction of the recipe. -/
def recipeReads : List RSlot → List Nat → List Nat
  | [], _ => []
  | r :: rs, done =>
    (vsrcs r.ins).filter (fun x => !done.contains x) ++ recipeReads rs (match vdst r.ins with
      | some d => d :: done
      | none => done)
def Recipe.reads (r : Recipe) : List Nat := recipeReads r.slots []

/-- Depth of a register: 0 unless DROPPED, else one more than the deepest DROPPED register its recipe reads (R227). `fuel`
bounds the chain. -/
def depthOf (b : Burner) (extra : List Nat) : Nat → Nat → Nat
  | 0, _ => 0
  | fuel + 1, r =>
    let x := b.cur r
    let dropped := match x.st with
      | .dropped k => some k
      | .tagged k => if extra.contains r then some k else none
      | .plain => none
    match dropped with
    | none => 0
    | some k => 1 + ((b.recipe k).map Recipe.reads |>.getD []).foldl (fun m y => max m (depthOf b extra fuel y)) 0

/-- Whether dropping r keeps every chain within depth 4. -/
def dropDepthOk (b : Burner) (r : Nat) : Bool :=
  (r :: b.v.map (·.1)).all fun y => decide (depthOf b [r] 6 y ≤ 4)

def isTagged : VSt → Bool
  | .tagged _ => true
  | _ => false

/-- A register's runs freed and its state DROPPED. -/
def VReg.drop (x : VReg) : VReg :=
  match x.st with
  | .tagged k => { x with runs := [], st := .dropped k }
  | _ => x

/-- R223's candidates: TAGGED, not in use, no write in a window, chains within depth 4; the smallest last-read count, and the
lowest number on a tie. -/
def dropVictim (b : Burner) (inUse : List Nat) : Option Nat :=
  let ok := b.v.filter fun p => isTagged p.2.st && !inUse.contains p.1 && !(b.win.any fun w => w.reg == p.1) &&
    dropDepthOk b p.1
  (ok.foldl (fun m p => match m with
    | none => some p
    | some x => if p.2.last < x.2.last then some p else m) (none : Option (Nat × VReg))).map (·.1)

/-- Make room for n slots: the burner after the drops, and the slots that are free. `fuel` bounds the drops. -/
def makeRoom (n : Nat) (inUse : List Nat) : Nat → Burner → Burner × Nat
  | 0, b => (b, b.runq - b.runUsed)
  | fuel + 1, b =>
    if b.runUsed + n ≤ b.runq then (b, b.runq - b.runUsed)
    else match dropVictim b inUse with
      | none => (b, b.runq - b.runUsed)
      | some r => makeRoom n inUse fuel (b.setV r (b.cur r).drop)

/-! ## Record and replay (R394-R397) -/

def Burner.rpMode (b : Burner) : Nat := (b.rpctl.extractLsb' 1 2).toNat

/-- The causes of page faults that PFWAIT accepts (R377). -/
def pageCode (c : Nat) : Bool := c == 0x17 || c == 0x1A || c == 0x1B
/-- Whether the burner is in the handler of a page fault, whose events are not logged (R394). -/
def Burner.unlogged (b : Burner) : Bool := b.te && pageCode (b.tcause.extractLsb' 0 8).toNat
/-- SEQ of an event of the instruction that the control core executes: those decoded with TE = 0, itself among them (R395; log
29). -/
def Burner.eventSeq (b : Burner) : Word := if b.te then b.rpseq else b.rpseq + 1

/-- How an event meets the log: the value in force and the rows that follow, or a divergence, or a fault of the log's access. -/
inductive LogRes where
  | ok (s : State) (data : BitVec 128) (rows : List Byte)
  | bad (c : Cause) (addr : DWord)

/-- The first four digest bytes after absorbing bs, little-endian. -/
def digest4 (bs : List Byte) : Word := (Config.sha3 bs).extractLsb' 0 32

/-- An event of one kind at an instruction address and sequence: nothing while off; recorded; or matched. -/
def logEvent (kind : Nat) (pc seq : Word) (data : BitVec 128) (rows : List Byte) (s : State) : LogRes :=
  let b := s.b
  let off := b.rpbytes.length + 4 * b.rppos.toNat
  let xlen := rows.length / 256
  let va := b.rplog.toNat + off
  let entry (d : BitVec 128) (x : Nat) : List Byte :=
    bytesOfNat 16 d.toNat ++ bytesOfNat 3 x ++ bytesOfNat 1 kind ++ bytesOfNat 4 seq.toNat ++ bytesOfNat 4 pc.toNat
  if b.rpMode = 1 then
    if off + 32 + rows.length > 256 * b.rplen.toNat then .bad .replayDiverged (1#32 ++ b.rppos)
    else
      let bytes := b.rpbytes ++ entry data xlen ++ rows
      let img := entry data xlen ++ wordBytes (digest4 bytes) ++ rows
      match wrVA s { s.viaB with eng := false } b va img with
      | (_, some (.poisoned row, _, _)) => .ok (s.due (.uncorrectedError row b.region.fd)) data rows
      | (s', none) => .ok { s' with b := { s'.b with rpbytes := bytes, rppos := b.rppos + 1 } } data rows
      | (_, some (.cause c, a, _)) => .bad c (w64 a)
      | (_, some (_, _, _)) => .bad .replayDiverged (0#32 ++ b.rppos)
  else if b.rpMode = 2 then
    let div : LogRes := .bad .replayDiverged (0#32 ++ b.rppos)
    if off + 32 > 256 * b.rplen.toNat then div
    else match rdVA s { s.viaB with eng := false } b va 32 with
      | .error (.poisoned row, _) => .ok (s.due (.uncorrectedError row b.region.fd)) data rows
      | .error (.cause c, a) => .bad c (w64 a)
      | .error _ => div
      | .ok (s1, e) =>
        let x := natOfBytes ((e.drop 16).take 3)
        let d := BitVec.ofNat 128 (natOfBytes (e.take 16))
        if e.drop 19 |>.take 9 |> (· != bytesOfNat 1 kind ++ bytesOfNat 4 seq.toNat ++ bytesOfNat 4 pc.toNat) then div
        else if off + 32 + 256 * x > 256 * b.rplen.toNat then div
        else match rdVA s1 { s1.viaB with eng := false } b (va + 32) (256 * x) with
          | .error (.poisoned row, _) => .ok (s.due (.uncorrectedError row b.region.fd)) data rows
          | .error (.cause c, a) => .bad c (w64 a)
          | .error _ => div
          | .ok (s2, rs) =>
            let bytes := b.rpbytes ++ e.take 28 ++ rs
            if wordBytes (digest4 bytes) != e.drop 28 then div
            else .ok { s2 with b := { s2.b with rpbytes := bytes, rppos := b.rppos + 1 } } d rs
  else .ok s data rows

end Sys2Proof.Machine
end

