-- ==== Sys2Proof/Machine/RowAccess.lean ====
section
/-! DEFINITION. LDW, STW, the row atomics, WAITF's read and FENCE (spec/07_consistency_model.md R186-R189). -/
namespace Sys2Proof.Machine

/-- Lane b<5:0> (R186). -/
def laneOf (x : Word) : Nat := (x.extractLsb' 0 6).toNat

/-- The burner's buffered stores performed when one of them is to this row (R168). -/
def State.drainRow (s : State) (core row : Nat) : State :=
  if s.b.sbuf.any fun e => e.addr / 256 == rowAddr core row / 256 then s.drain else s

/-- A lane word written as raw bits, with R66's cleared bits in an FP6 bank. -/
def State.rawWord (s : State) (core row : Nat) (w : Word) : Word := fp6Mask (bfFmt (s.bfmtAt core row)) w

/-- A read of the control core that R388 traps: a buffered store of its own to the row is earlier in ko and performed first. -/
def ccEarly (s : State) (core row : Nat) : Bool := s.b.dbg && core == s.b.core && s.b.pendRow row

/-- The word an access of a remote row returns: logged in record and replay (R394 kind 4), but for a page fault
handler's. -/
def remoteWord (core : Nat) (w : Word) (s : State) : LogRes :=
  if core = s.b.core || s.b.unlogged then .ok s (w.setWidth 128) []
  else logEvent 4 s.b.pc s.b.eventSeq (w.setWidth 128) [] s

/-- LDW (R187): one read of the row, after a buffered store to it is performed. -/
def execLdw (d : BitVec 6) (a b : Opnd) (s : State) : Outcome :=
  ccDo (d :: (opRegs a ++ opRegs b)) (fun s =>
    let addr := s.b.op32 a
    match meshCheck s s.b false addr.toNat with
    | .error c => ccFault c (addr.setWidth 64) s
    | .ok (core, row) =>
      if ccEarly s core row then ccFault .earlyRead (addr.setWidth 64) s else
      let s1 := s.drainRow core row
      match remoteWord core (s1.lane core row (laneOf (s.b.op32 b))) s1 with
      | .bad c t => ccFault c t s
      | .ok s2 x _ => .next (retire (1 + litN a + litN b) (s2.modB fun y => y.setS d (x.setWidth 32)))) s

/-- STW (R187): through the store buffer when the row is local, else performed before the control core goes on. -/
def execStw (d : BitVec 6) (a b : Opnd) (s : State) : Outcome :=
  ccDo (d :: (opRegs a ++ opRegs b)) (fun s =>
    let addr := s.b.op32 a
    match meshCheck s s.b true addr.toNat with
    | .error c => ccFault c (addr.setWidth 64) s
    | .ok (core, row) =>
      let w := s.rawWord core row (s.b.getS d)
      let lane := laneOf (s.b.op32 b)
      if core = s.b.core then
        if s.b.sbuf.length < 8 then
          .next (retire (1 + litN a + litN b)
            (s.modB fun y => { y with sbuf := y.sbuf ++ [⟨rowAddr core row + 4 * lane, w, y.ko⟩] }))
        else .next s
      else .next (retire (1 + litN a + litN b) (s.drain.setLane core row lane w))) s

/-- A row atomic: `f old` is the new word, none when nothing is written (R186, R187). -/
def atomicOp (rs : List (BitVec 6)) (d : BitVec 6) (a b : Opnd) (f : Burner → Word → Option Word) (s : State) : Outcome :=
  ccDo (d :: (rs ++ opRegs a ++ opRegs b)) (fun s =>
    let addr := s.b.op32 a
    match meshCheck s s.b true addr.toNat with
    | .error c => ccFault c (addr.setWidth 64) s
    | .ok (core, row) =>
      if ccEarly s core row then ccFault .earlyRead (addr.setWidth 64) s else
      let s1 := s.drain
      let lane := laneOf (s.b.op32 b)
      let old := s1.lane core row lane
      match remoteWord core old s1 with
      | .bad c t => ccFault c t s
      | .ok s2 x _ =>
        let s3 := match f s.b old with
          | none => s2
          | some w => s2.setLane core row lane (s.rawWord core row w)
        .next (retire (1 + litN a + litN b) (s3.modB fun y => y.setS d (x.setWidth 32)))) s

/-- AADD (R186): old + s(d). -/
def execAadd (d : BitVec 6) (a b : Opnd) (s : State) : Outcome :=
  atomicOp [] d a b (fun y old => some (old + y.getS d)) s
/-- AMAX (R186): the signed maximum. -/
def execAmax (d : BitVec 6) (a b : Opnd) (s : State) : Outcome :=
  atomicOp [] d a b (fun y old => some (if old.slt (y.getS d) then y.getS d else old)) s
/-- AMIN (R186): the signed minimum. -/
def execAmin (d : BitVec 6) (a b : Opnd) (s : State) : Outcome :=
  atomicOp [] d a b (fun y old => some (if (y.getS d).slt old then y.getS d else old)) s
/-- AXCHG (R186). -/
def execAxchg (d : BitVec 6) (a b : Opnd) (s : State) : Outcome :=
  atomicOp [] d a b (fun y _ => some (y.getS d)) s
/-- ACAS (R186): s(d + 1) is written when the lane word equals s(d); a failing one writes nothing (R174). -/
def execAcas (d : BitVec 6) (a b : Opnd) (s : State) : Outcome :=
  atomicOp [d ||| 1] d a b (fun y old => if old = y.getS d then some (y.getS (d ||| 1)) else none) s
/-- AOR (R186). -/
def execAor (d : BitVec 6) (a b : Opnd) (s : State) : Outcome :=
  atomicOp [] d a b (fun y old => some (old ||| y.getS d)) s

/-- Whether what FENCE's mask names has retired or completed (R188): C is met by emptying the store buffer. -/
def fenceMet (m : BitVec 5) (b : Burner) : Bool :=
  (!m.getLsbD 1 || b.ql.isEmpty) && (!m.getLsbD 2 || b.qx.isEmpty) && (!m.getLsbD 3 || b.qs.isEmpty) &&
    (!m.getLsbD 4 || b.enginesDone)

/-- What a FENCE's mask adds to what later instructions follow: the queues it waited for (R166, R172). -/
def fenceKnows (m : BitVec 5) (b : Burner) : Burner :=
  let add (k : Nat) (q : Queue) (c : Clock) : Clock := if m.getLsbD k then c.join (b.know q) else c
  { b with knows := add 3 .s (add 2 .x (add 1 .l b.knows)) }

/-- FENCE (R189): held until the mask is met; the scope changes nothing here, since every write of a completed command is
performed before its completion. -/
def execFence (m : BitVec 5) (_sys : BitVec 1) (s : State) : Outcome :=
  if fenceMet m s.b then .next (retire 1 ((if m.getLsbD 0 then s.drain else s).modB (fenceKnows m))) else .next s

end Sys2Proof.Machine
end

