-- ==== Sys2Proof/Machine/Branch.lean ====
section
/-! DEFINITION. Branches and loops (spec/11_control_core_instructions.md R263-R268). -/
namespace Sys2Proof.Machine

/-- BC.nz (R264). -/
def execBcNz (a : Opnd) (o : BitVec 13) (s : State) : Outcome :=
  ccDo (opRegs a) (fun s => branchIf (s.b.op32 a != 0) (1 + litN a) (cbTarget s.b o) id s) s
/-- BC.z (R264). -/
def execBcZ (a : Opnd) (o : BitVec 13) (s : State) : Outcome :=
  ccDo (opRegs a) (fun s => branchIf (s.b.op32 a == 0) (1 + litN a) (cbTarget s.b o) id s) s

/-- The bits of a condition-queue entry that selector k covers: some is 1 (R266). -/
def bcqHit (k : Word) (e : DWord) : Bool := if k = 0 then e != 0 else e.getLsbD (k.toNat - 1)

/-- BCQ: pops the head entry and branches when its covered bits answer `any`; it stalls on an empty queue and lends nothing
(R207, R266). -/
def bcq (any : Bool) (k : Opnd) (o : BitVec 13) (s : State) : Outcome :=
  ccDo (opRegs k) (fun s =>
    let sel := s.b.op32 k
    if sel.toNat > 64 then ccFault .illegalOperand 0 s
    else match s.b.cq with
      | [] => .next s
      | e :: es =>
        branchIf (bcqHit sel e == any) (1 + litN k) (cbTarget s.b o) (fun s => s.modB fun b =>
          { b with cq := es, cqc := b.cqc.drop 1, knows := b.knows.join (b.cqc.headD {}) }) s) s
/-- BCQ.any (R266). -/
def execBcqAny (k : Opnd) (o : BitVec 13) (s : State) : Outcome := bcq true k o s
/-- BCQ.none (R266). -/
def execBcqNone (k : Opnd) (o : BitVec 13) (s : State) : Outcome := bcq false k o s

/-- BEV.set (R264). -/
def execBevSet (e : BitVec 6) (o : BitVec 13) (s : State) : Outcome :=
  branchIf (s.b.ev.getLsbD e.toNat) 1 (cbTarget s.b o) id s
/-- BEV.clr (R264). -/
def execBevClr (e : BitVec 6) (o : BitVec 13) (s : State) : Outcome :=
  branchIf (!s.b.ev.getLsbD e.toNat) 1 (cbTarget s.b o) id s

/-- JR: to a with bits 1:0 ignored (R25, R264). -/
def execJr (a : Opnd) (s : State) : Outcome :=
  ccDo (opRegs a) (fun s => branchTo (s.b.op32 a &&& 0xFFFFFFFC) id s) s
/-- RET: to s63 with bits 1:0 ignored (R264). -/
def execRet (s : State) : Outcome := ccDo [63] (fun s => branchTo (s.b.getS 63 &&& 0xFFFFFFFC) id s) s
/-- B (R264). -/
def execB (o : BitVec 24) (s : State) : Outcome := branchTo (cjTarget s.b o) id s
/-- CALL: s63 := the address of the word after it (R264). -/
def execCall (o : BitVec 24) (s : State) : Outcome :=
  ccDo [63] (fun s => branchTo (cjTarget s.b o) (fun s => s.modB fun b => b.setS 63 (s.b.after 1)) s) s

/-! ## Loops (R267, R268) -/

/-- LTR fields: items and stages minus one. -/
def ltrN (w : Word) : Nat := (w.extractLsb' 0 27).toNat
def ltrS1 (w : Word) : Nat := (w.extractLsb' 27 2).toNat
/-- Whether a value may arm a loop: bits 31:29 are 0 and N + S − 1 fits 27 bits. -/
def ltrOk (w : Word) : Bool := w.extractLsb' 29 3 == 0 && decide (ltrN w + ltrS1 w ≤ 2 ^ 27 - 1)
/-- SP: bit k is 1 when k < S and 0 ≤ ITER − k < N. -/
def loopSP (ltr : Word) (iter : Nat) : BitVec 4 :=
  BitVec.ofNat 4 (sumNat ((List.range 4).map fun k =>
    if k ≤ ltrS1 ltr && k ≤ iter && iter - k < ltrN ltr then 2 ^ k else 0))
/-- LST of an active loop. -/
def lstWord (ltr : Word) (iter : Nat) : Word := 1#1 ++ loopSP ltr iter ++ BitVec.ofNat 27 iter

/-- LTRk and LSTk as the loop's identifier names them. -/
def Burner.getLtr (b : Burner) (k : BitVec 4) : Word := b.ltr[k.toNat]
def Burner.getLst (b : Burner) (k : BitVec 4) : Word := b.lst[k.toNat]
def Burner.setLoop (b : Burner) (k : BitVec 4) (ltr lst : Word) : Burner :=
  { b with ltr := b.ltr.set k.toNat ltr k.isLt, lst := b.lst.set k.toNat lst k.isLt }

/-- The loop word of R385: taken, the SP of the ended pass, the new ITER. -/
def loopWord (taken : Bool) (sp : BitVec 4) (iter : Nat) : Word := BitVec.ofBool taken ++ sp ++ BitVec.ofNat 27 iter

/-- DCTL fields (R384). -/
def Burner.dLse (b : Burner) : Bool := b.dctl.getLsbD 6
def Burner.dLae (b : Burner) : Bool := b.dctl.getLsbD 7
def Burner.dPce (b : Burner) : Bool := b.dctl.getLsbD 8
def Burner.dQd (b : Burner) : Bool := b.dctl.getLsbD 9
def Burner.dDm (b : Burner) : Bool := b.dctl.getLsbD 11
def Burner.dLid (b : Burner) : BitVec 4 := b.dctl.extractLsb' 0 4

/-- Whether a LOOP of identifier k that reaches ITER `iter` stops (R385). -/
def Burner.loopStops (b : Burner) (k : BitVec 4) (iter : Nat) : Bool :=
  !b.te && b.dLse && b.dLid == k && (b.dLae || (b.diter.extractLsb' 0 27).toNat == iter)

/-- A stop (R385): with DM = 0 the trap is taken; with DM = 1 the record goes to TREC0, TE stays 0 and the burner is held. -/
def debugStop (addr : DWord) (iaddr cutPc : Word) (s : State) : State :=
  let t : TrapInfo := { c := .debugStop, addr := addr, iaddr := iaddr, cutPc := cutPc }
  if s.b.dDm then
    let s := s.drain
    let n := s.b.ntrap + 1
    let s := { s with b := { s.b with trec0 := s.trapRecord t n, tcause := t.tcause, taddr := addr, tepc := cutPc
                                      ntrap := n, pc := cutPc, pfx := none, status := .held } }
    (s.traceEv 1 1 iaddr t.tcause (lo32 addr) n).passFront 3
  else takeTrap t s

/-- LOOP (R268): arms at the end of the first pass, advances ITER, branches while passes remain; writes a LOOP record (R390)
and stops as R385 gives. With QD the stop first waits for the queues. -/
def execLoop (k : BitVec 4) (a : Opnd) (o : BitVec 13) (s : State) : Outcome :=
  let b := s.b
  let act := (b.getLst k).getLsbD 31
  ccDo (if act then [] else opRegs a) (fun s =>
    let v := b.op32 a
    if !act && !ltrOk v then ccFault .illegalOperand 0 s
    else
      let ltr := if act then b.getLtr k else v
      let sp := if act then (b.getLst k).extractLsb' 27 4 else 0
      let iter := ((if act then ((b.getLst k).extractLsb' 0 27).toNat else 0) + 1) % 2 ^ 27
      let taken := decide (iter < ltrN ltr + ltrS1 ltr)
      let t := cbTarget b o
      let stops := b.loopStops k iter
      if taken && orphan b t then ccFault .orphanPfx 0 s
      else if stops && b.dQd && !b.queuesEmpty then .next s
      else
        let lst := if taken then lstWord ltr iter else 0
        let lw := loopWord taken sp iter
        let s1 := (s.modB fun x => x.setLoop k ltr lst).traceEv 0 0 b.pc (w32 k.toNat) lw 0
        let s2 := retireAt (if taken then t else b.after (1 + litN a)) s1
        .next (if stops then debugStop (w32 k.toNat ++ lw) b.pc s2.b.pc s2 else s2)) s

end Sys2Proof.Machine
end

