-- ==== Sys2Proof/Machine/Leases.lean ====
section
/-! DEFINITION. The array lease of each quad (spec/14_matrix_and_engines.md R328; spec/09_core_and_queues.md R211). -/
namespace Sys2Proof.Machine

/-- The lease record of a quad. -/
def State.lease (s : State) (quad : Nat) : Lease := (s.leases.find? (·.quad == quad)).getD { quad := quad }
def State.setLease (s : State) (l : Lease) : State :=
  { s with leases := if s.leases.any (·.quad == l.quad) then s.leases.map fun x => if x.quad == l.quad then l else x
                     else s.leases ++ [l] }

/-- The lease order: ascending core, then burner. -/
def leaseKey (p : Nat × Nat) : Nat := 2 * p.1 + p.2
/-- The requester with the smallest key that satisfies p. -/
def leastReq (p : Nat → Bool) (rs : List (Nat × Nat)) : Option (Nat × Nat) :=
  rs.foldl (fun m x => if !p (leaseKey x) then m else match m with
    | none => some x
    | some y => if leaseKey x < leaseKey y then some x else some y) none
/-- The next requester in turn after the last holder. -/
def Lease.nextReq (l : Lease) : Option (Nat × Nat) :=
  let after := match l.last with
    | some h => leastReq (fun k => decide (leaseKey h < k)) l.reqs
    | none => none
  match after with
  | some x => some x
  | none => leastReq (fun _ => true) l.reqs

/-- The array grants a free lease to the next requester, with a new count. -/
def Lease.grant (l : Lease) : Lease :=
  match l.holder with
  | some _ => l
  | none => match l.nextReq with
    | none => l
    | some x => { l with holder := some x, last := some x, cmds := 0, reqs := l.reqs.filter (· != x) }
def grantLease (quad : Nat) (s : State) : State := s.setLease (s.lease quad).grant

/-- The holder loses the lease, which counts 16 matrix slots of it (R211). -/
def passLease (quad : Nat) (s : State) : State :=
  let l := s.lease quad
  match l.holder with
  | none => s
  | some (c, r) => (s.modAt c r fun b => { b with slotM := b.slotM + 16 }).setLease { l with holder := none, cmds := 0 }

/-- Whether the acting burner holds its quad's lease. -/
def State.holdsLease (s : State) : Bool := (s.lease (s.b.core / 4)).holder == some (s.b.core, s.b.bur)

/-- The acting burner asks for the lease; a holder that is not front surrenders it, and a free lease is granted in turn. -/
def askLease (s : State) : State :=
  let quad := s.b.core / 4
  let me := (s.b.core, s.b.bur)
  let l := s.lease quad
  let s1 := if l.reqs.contains me then s else s.setLease { l with reqs := l.reqs ++ [me] }
  let idle := match l.holder with
    | some (c, r) => match s1.find c r with
      | some h => !h.front
      | none => true
    | none => false
  grantLease quad (if idle then passLease quad s1 else s1)

/-- A burner that leaves the array: it holds the lease no longer and waits for it no longer (R328). -/
def dropLease (core bur : Nat) (s : State) : State :=
  let quad := core / 4
  let l := s.lease quad
  let me := (core, bur)
  if l.holder == some me || l.reqs.contains me then
    (s.setLease { l with holder := if l.holder == some me then none else l.holder, reqs := l.reqs.filter (· != me) }).modAt
      core bur fun b => { b with enrolled := false }
  else s.modAt core bur fun b => { b with enrolled := false }

/-- A matrix command counted: after the 64th the lease passes on when another requester waits, else the count restarts. -/
def countLease (s : State) : State :=
  let quad := s.b.core / 4
  let l := s.lease quad
  if l.cmds + 1 < 64 then s.setLease { l with cmds := l.cmds + 1 }
  else if l.reqs.isEmpty then s.setLease { l with cmds := 0 }
  else grantLease quad (passLease quad s)

/-- LEASE_GRANT (R328): the array grants the lease to the next waiting requester in turn. -/
def execLeaseGrant (quad : Nat) (s : State) : Outcome := .next (grantLease quad s)

/-- LEASE_PASS (R328): with 64 commands counted the lease passes on when another requester waits, or its count restarts. -/
def execLeasePass (quad : Nat) (s : State) : Outcome :=
  let l := s.lease quad
  if l.holder.isNone || l.cmds < 64 then .next s
  else if l.reqs.isEmpty then .next (s.setLease { l with cmds := 0 })
  else .next (grantLease quad (passLease quad s))

end Sys2Proof.Machine
end

