-- ==== Sys2Proof/Machine/Real.lean ====
section
/-! DEFINITION. The special functions (spec/12_vector_arithmetic.md R293-R295): exact values as magnitudes known to a prefix,
by interval arithmetic on fixed-point numbers of Q = 400 fraction bits, and the reference sine and cosine. -/
namespace Sys2Proof.Machine

/-- Fraction bits of the fixed-point intervals. -/
def qBits : Nat := 400

/-- A fixed-point interval: lo ≤ x × 2^Q ≤ hi. -/
structure Iv where
  lo : Nat
  hi : Nat
deriving DecidableEq, Repr

def Iv.mul (a b : Iv) : Iv := ⟨a.lo * b.lo / 2 ^ qBits, a.hi * b.hi / 2 ^ qBits + 1⟩

/-- The interval of 2^(2^−k), by repeated square roots of 2. -/
def rootTwo : Nat → Iv
  | 0 => ⟨2 * 2 ^ qBits, 2 * 2 ^ qBits⟩
  | k + 1 => let r := rootTwo k; ⟨isqrt (r.lo * 2 ^ qBits), isqrt (r.hi * 2 ^ qBits) + 1⟩

/-- Product of the roots 2^(2^−k) over the bits of a fraction f of 2^Q, for k = 1, 2, … -/
def exp2Go (f : Nat) : Nat → Nat → Iv → Iv → Iv
  | 0, _, _, acc => acc
  | n + 1, k, root, acc =>
    let root' : Iv := ⟨isqrt (root.lo * 2 ^ qBits), isqrt (root.hi * 2 ^ qBits) + 1⟩
    let acc' := if f / 2 ^ (qBits - k) % 2 = 1 then acc.mul root' else acc
    exp2Go f n (k + 1) root' acc'

/-- The interval of 2^f for a fraction f of 2^Q. -/
def exp2Frac (f : Nat) : Iv := exp2Go f qBits 1 (rootTwo 0) ⟨2 ^ qBits, 2 ^ qBits⟩

/-- A magnitude known from an interval when both ends share their first 100 bits; otherwise the undecided prefix. -/
def Iv.mag (v : Iv) (e : Int) (fn m : Nat) (xe : Int) : Mag :=
  let k := Nat.log2 v.hi - 100
  if v.lo / 2 ^ k == v.hi / 2 ^ k then ⟨v.lo / 2 ^ k, e + k, true⟩
  else ⟨2 ^ 100 + Config.undecided fn m xe % 2 ^ 100, e + k, true⟩

/-- 2^x for a finite x, exact when x is an integer (R293). -/
def exp2Mag (neg : Bool) (m : Nat) (e : Int) : Mag :=
  if m = 0 then ⟨1, 0, false⟩
  else
    let L := (Nat.log2 m : Int) + e
    if L ≥ 20 then (if neg then ⟨1, -2 ^ 20, true⟩ else ⟨1, 2 ^ 20, true⟩)
    else
      let v : Int := if e ≥ -(qBits : Int) then (m : Int) * p2 (e + qBits) else 0
      let v := if neg then -v else v
      let i := v / 2 ^ qBits
      let f := (v % 2 ^ qBits).toNat
      if f = 0 then ⟨1, i, false⟩ else (exp2Frac f).mag (i - qBits) 1 m e

/-- The bits of log2 of a value in [1, 2), digit by digit: n bits, with the squares kept as an interval. -/
def log2Go : Nat → Iv → Nat → Option Nat
  | 0, _, acc => some acc
  | n + 1, y, acc =>
    let s := y.mul y
    if s.lo ≥ 2 * 2 ^ qBits then log2Go n ⟨s.lo / 2, s.hi / 2 + 1⟩ (acc * 2 + 1)
    else if s.hi < 2 * 2 ^ qBits then log2Go n s (acc * 2)
    else none

/-- log2 of a positive magnitude: its sign and magnitude; exact when it is a power of two (R293). -/
def log2Mag (m : Nat) (e : Int) : Bool × Option Mag :=
  let k := Nat.log2 m
  let L := (k : Int) + e
  if m == 2 ^ k then
    if L = 0 then (false, none) else (L < 0, some ⟨L.natAbs, 0, false⟩)
  else
    let y := m * 2 ^ (qBits - k)
    let nb := 160
    let fr := match log2Go nb ⟨y, y⟩ 0 with
      | some b => b
      | none => 2 ^ 80 + Config.undecided 2 m e % 2 ^ 80
    let v : Int := L * 2 ^ nb + fr
    if v ≥ 0 then (false, some ⟨v.natAbs, -(nb : Int), true⟩) else (true, some ⟨(v + 1).natAbs, -(nb : Int), true⟩)

/-- ln 2 as Σ 1/(k·2^k). -/
def ln2Go : Nat → Nat → Nat → Nat
  | 0, _, acc => acc
  | n + 1, k, acc => ln2Go n (k + 1) (acc + 2 ^ qBits / (k * 2 ^ k))
def ln2Iv : Iv := let l := ln2Go qBits 1 0; ⟨l, l + qBits + 2⟩

/-- tanh of a positive magnitude (R293). -/
def tanhMag (m : Nat) (e : Int) : Mag :=
  let L := (Nat.log2 m : Int) + e
  if L < -60 then ⟨m * 2 ^ 200 - 1, e - 200, true⟩
  else if L ≥ 6 then ⟨2 ^ 100 - 1, -100, true⟩
  else
    -- y = 2x·log2 e lies between the two quotients
    let x2 := if e + 1 + qBits ≥ 0 then m * p2 (e + 1 + qBits) else m / p2 (-(e + 1 + qBits))
    let ylo := x2 * 2 ^ qBits / ln2Iv.hi
    let yhi := (x2 + 1) * 2 ^ qBits / ln2Iv.lo + 1
    let ex (y : Nat) : Iv := let v := exp2Frac (y % 2 ^ qBits); let s := 2 ^ (y / 2 ^ qBits); ⟨v.lo * s, v.hi * s⟩
    let one := 2 ^ qBits
    let elo := (ex ylo).lo
    let ehi := (ex yhi).hi
    let t (v : Nat) : Nat := (v - one) * one / (v + one)
    (⟨t elo, t ehi + 1⟩ : Iv).mag (-(qBits : Int)) 3 m e

/-! ## The reference sine and cosine (R294) -/

def rne : RMode := {}
def mul32 (p q : Word) : Word := w32 (ffFP32.deliver rne (mulFV (fp32 p) (fp32 q)).1).1
def fma32 (p q t : Word) : Word := w32 (ffFP32.deliver rne (fmaFV false (fp32 p) (fp32 q) (fp32 t)).1).1
def neg32 (x : Word) : Word := x ^^^ 0x80000000#32

/-- The nearest integer, ties to even, of a finite FP32 value. -/
def rint32 (t : Word) : Int :=
  match fp32 t with
  | .num n m e =>
    if m = 0 then 0 else let (N, _) := (⟨m, e, false⟩ : Mag).toGrid 0 rne n; if n then -N else N
  | _ => 0

/-- The FP32 value R294 selects before its final rounding, for 0 < |x| < 2^15. -/
def sinCos32 (cos : Bool) (x : Word) : Word :=
  let t := mul32 x 0x3F22F983#32
  let k := rint32 t
  let nk := match fp32 t with
    | .num n _ _ => w32 (ffFP32.deliver rne (.num (!n) k.natAbs 0)).1
    | _ => 0
  let q := (k % 4).toNat
  let r := fma32 nk 0x3FC90FDA#32 x
  let r := fma32 nk 0x33A22168#32 r
  let r := fma32 nk 0x27C234C4#32 r
  let z := mul32 r r
  let ps := fma32 z 0xB94CA1F9#32 0x3C08839E#32
  let ps := fma32 z ps 0xBE2AAAA3#32
  let u := mul32 r z
  let sn := fma32 u ps r
  let pc := fma32 z 0x37CCF5B2#32 0xBAB6061A#32
  let pc := fma32 z pc 0x3D2AAAA5#32
  let h := fma32 0xBF000000#32 z 0x3F800000#32
  let w := mul32 z z
  let cs := fma32 w pc h
  match cos, q with
  | false, 0 => sn
  | false, 1 => cs
  | false, 2 => neg32 sn
  | false, _ => neg32 cs
  | true, 0 => cs
  | true, 1 => neg32 sn
  | true, 2 => neg32 cs
  | true, _ => sn

/-- VSIN and VCOS of one element of format f (R294, R295). -/
def sinCosEl (f : FF) (cos : Bool) (o : RMode) (x : Nat) : Nat × Fx :=
  match f.val x with
  | .nan => (f.nanCode, {})
  | .inf _ => (f.nanCode, ⟨fNV, false⟩)
  | .num n m e =>
    if m = 0 then (if cos then (f.deliver rne (.num false 1 0)).1 else f.signed n 0, {})
    else if (Nat.log2 m : Int) + e ≥ 15 then (f.nanCode, ⟨fRNG, false⟩)
    else
      let v := sinCos32 cos (w32 (ffFP32.deliver rne (.num n m e)).1)
      let (y, _) := f.deliver o (fp32 v)
      let uf := match fp32 v with
        | .num _ vm ve => vm = 0 || decide ((Nat.log2 vm : Int) + ve < f.emin)
        | _ => false
      (y, ⟨fNX ||| (if uf then fUF else 0), false⟩)

/-! ## Correctly rounded functions (R293) -/

/-- A finite nonzero result: a sign and a magnitude, rounded into f. -/
def deliverMag (f : FF) (o : RMode) (neg : Bool) (x : Mag) : Nat × Fx := f.round o neg x
def one (f : FF) (neg : Bool) : Nat := (f.deliver rne (.num neg 1 0)).1

def divEl (f : FF) (o : RMode) (x y : Nat) : Nat × Fx :=
  match f.val x, f.val y with
  | .nan, _ => (f.nanCode, {})
  | _, .nan => (f.nanCode, {})
  | .inf _, .inf _ => (f.nanCode, ⟨fNV, false⟩)
  | .inf a, .num b _ _ => (f.signed (a != b) f.infCode, {})
  | .num a _ _, .inf b => (f.signed (a != b) 0, {})
  | .num a m e, .num b n g =>
    if n = 0 then (if m = 0 then (f.nanCode, ⟨fNV, false⟩) else (f.signed (a != b) f.infCode, ⟨fDZ, false⟩))
    else if m = 0 then (f.signed (a != b) 0, {})
    else deliverMag f o (a != b) (divMag m e n g)

def sqrtEl (f : FF) (o : RMode) (x : Nat) : Nat × Fx :=
  match f.val x with
  | .nan => (f.nanCode, {})
  | .inf n => if n then (f.nanCode, ⟨fNV, false⟩) else (f.infCode, {})
  | .num n m e =>
    if m = 0 then (f.signed n 0, {})
    else if n then (f.nanCode, ⟨fNV, false⟩) else deliverMag f o false (sqrtMag m e)

def rcpEl (f : FF) (o : RMode) (x : Nat) : Nat × Fx :=
  match f.val x with
  | .nan => (f.nanCode, {})
  | .inf n => (f.signed n 0, {})
  | .num n m e => if m = 0 then (f.signed n f.infCode, ⟨fDZ, false⟩) else deliverMag f o n (divMag 1 0 m e)

def rsqEl (f : FF) (o : RMode) (x : Nat) : Nat × Fx :=
  match f.val x with
  | .nan => (f.nanCode, {})
  | .inf n => if n then (f.nanCode, ⟨fNV, false⟩) else (0, {})
  | .num n m e =>
    if m = 0 then (f.signed n f.infCode, ⟨fDZ, false⟩)
    else if n then (f.nanCode, ⟨fNV, false⟩) else deliverMag f o false (rsqMag m e)

def exp2El (f : FF) (o : RMode) (x : Nat) : Nat × Fx :=
  match f.val x with
  | .nan => (f.nanCode, {})
  | .inf n => (if n then 0 else f.infCode, {})
  | .num n m e => deliverMag f o false (exp2Mag n m e)

def log2El (f : FF) (o : RMode) (x : Nat) : Nat × Fx :=
  match f.val x with
  | .nan => (f.nanCode, {})
  | .inf n => if n then (f.nanCode, ⟨fNV, false⟩) else (f.infCode, {})
  | .num n m e =>
    if m = 0 then (f.signed true f.infCode, ⟨fDZ, false⟩)
    else if n then (f.nanCode, ⟨fNV, false⟩)
    else match log2Mag m e with
      | (_, none) => (0, {})
      | (neg, some g) => deliverMag f o neg g

def tanhEl (f : FF) (o : RMode) (x : Nat) : Nat × Fx :=
  match f.val x with
  | .nan => (f.nanCode, {})
  | .inf n => (one f n, {})
  | .num n m e => if m = 0 then (f.signed n 0, {}) else deliverMag f o n (tanhMag m e)

end Sys2Proof.Machine
end

