-- ==== Sys2Proof/Machine/ScalarFloat.lean ====
section
/-! DEFINITION. Scalar floating point, major 0x04 (spec/11_control_core_instructions.md R259-R262). -/
namespace Sys2Proof.Machine

/-- FLAGS and SATCNT after an instruction raises f (R76-R78). -/
def Burner.raise (b : Burner) (f : FSum) : Burner :=
  { b with flags := b.flags ||| f.fl.setWidth 32, satcnt := w32 (min (b.satcnt.toNat + f.sat) 0xFFFFFFFF) }

/-- The prefix in force, all fields at no override when there is none. -/
def pfxOf (p : Option (BitVec 24)) : Pfx :=
  match p with
  | some w => Pfx.ofWord w
  | none => Pfx.none

/-- The rounding code a control-core, L-queue or S-queue instruction rounds under: `rm`, replaced by a prefix's code, 110 by
BCTL.DRM; none where R82 raises ILLEGAL_ROUNDING. -/
def roundNoSr (p : Pfx) (rm drm : BitVec 3) : Option (BitVec 3) :=
  let c := p.rnd.getD rm
  let m := if c = 6 then drm else c
  if m = 5 || m = 6 || m = 7 then none else some m

/-- A scalar float instruction over the registers rs: its rounding mode is resolved first (R280 step 2), then the result and
its flags are delivered together. -/
def floatOp (rs : List (BitVec 6)) (d : BitVec 6) (n : Nat) (f : RMode → Burner → Word × Fx) (s : State) : Outcome :=
  ccDo (d :: rs) (fun s =>
    let p := pfxOf s.b.pfx
    match roundNoSr p 0 s.b.drm with
    | none => ccFault .illegalRounding 0 s
    | some m =>
      let r := f { rm := m, sat := p.sat } s.b
      .next (retire n (s.modB fun b => (b.setS d r.1).raise (({} : FSum).add r.2)))) s

/-- The FP32 delivery of an exact result with its invalid flag (R260). -/
def deliver32 (o : RMode) (x : FV × BitVec 7) : Word × Fx :=
  let r := ffFP32.deliver o x.1
  (w32 r.1, { r.2 with fl := r.2.fl ||| x.2 })

/-- RoundTo(FP32, a + b) (R260). -/
def execFadd (d : BitVec 6) (a b : Opnd) (s : State) : Outcome :=
  floatOp (opRegs a ++ opRegs b) d (1 + litN a + litN b)
    (fun o x => deliver32 o (addFV (o.rm == 2) (fp32 (x.op32 a)) (fp32 (x.op32 b)))) s
/-- RoundTo(FP32, a − b) (R260). -/
def execFsub (d : BitVec 6) (a b : Opnd) (s : State) : Outcome :=
  floatOp (opRegs a ++ opRegs b) d (1 + litN a + litN b)
    (fun o x => deliver32 o (addFV (o.rm == 2) (fp32 (x.op32 a)) (negFV (fp32 (x.op32 b))))) s
/-- RoundTo(FP32, a × b) (R260). -/
def execFmul (d : BitVec 6) (a b : Opnd) (s : State) : Outcome :=
  floatOp (opRegs a ++ opRegs b) d (1 + litN a + litN b)
    (fun o x => deliver32 o (mulFV (fp32 (x.op32 a)) (fp32 (x.op32 b)))) s
/-- RoundTo(FP32, a × b + s(d)), one rounding (R260). -/
def execFfma (d : BitVec 6) (a b : Opnd) (s : State) : Outcome :=
  floatOp (opRegs a ++ opRegs b) d (1 + litN a + litN b)
    (fun o x => deliver32 o (fmaFV (o.rm == 2) (fp32 (x.op32 a)) (fp32 (x.op32 b)) (fp32 (x.getS d)))) s

/-- FMIN: the smaller, −0 below +0; a NaN gives the other operand (R261). -/
def execFmin (d : BitVec 6) (a b : Opnd) (s : State) : Outcome :=
  op2 d a b (fun x y => w32 (minMaxF ffFP32 false x.toNat y.toNat)) s
/-- FMAX (R261). -/
def execFmax (d : BitVec 6) (a b : Opnd) (s : State) : Outcome :=
  op2 d a b (fun x y => w32 (minMaxF ffFP32 true x.toNat y.toNat)) s

/-- FCMP's relation bits (R261). -/
def fcmp32 (x y : Word) : Word :=
  if isNaN (fp32 x) || isNaN (fp32 y) then 8
  else
    let c := cmpFV (fp32 x) (fp32 y)
    if c = 0 then 1 else if c < 0 then 2 else 4
/-- FCMP (R261). -/
def execFcmp (d : BitVec 6) (a b : Opnd) (s : State) : Outcome := op2 d a b fcmp32 s

/-- One element of format cs in the low bits of x converted to format cd (R262). -/
def fcvt32 (cs cd : Nat) (o : RMode) (x : Word) : Word × Fx :=
  if cs = 0 || cd = 0 then (x, {})
  else
    let r := convEl cs cd o (sub cs (fp6Mask cs x) 0)
    (w32 r.1, r.2)

/-- FCVT from the format of field b to the prefix's format, FP32 without one (R262). -/
def execFcvt (d : BitVec 6) (a : Opnd) (f : BitVec 5) (s : State) : Outcome :=
  floatOp (opRegs a) d (1 + litN a)
    (fun o x => fcvt32 f.toNat (((pfxOf x.pfx).fmt.getD 1).toNat) o (x.op32 a)) s
/-- FCVTI: FP32 to INT32 (R262). -/
def execFcvti (d : BitVec 6) (a : Opnd) (s : State) : Outcome :=
  floatOp (opRegs a) d (1 + litN a) (fun o x => fcvt32 1 9 o (x.op32 a)) s
/-- FCVTF: INT32 to FP32 (R262). -/
def execFcvtf (d : BitVec 6) (a : Opnd) (s : State) : Outcome :=
  floatOp (opRegs a) d (1 + litN a) (fun o x => fcvt32 9 1 o (x.op32 a)) s

end Sys2Proof.Machine
end

