-- ==== Sys2Proof/Machine/VView.lean ====
section
/-! DEFINITION. Views of vector sources, segments and how lane-wise results are formed (spec/12_vector_arithmetic.md R281-R288;
spec/09_core_and_queues.md R221). A computation reads an environment, so that a queue entry and a recipe replay share it. -/
namespace Sys2Proof.Machine

/-- A list of segments: a value and how many lanes it covers. -/
abbrev Seg (α : Type) := List (α × Nat)

/-- The first n lanes. -/
def takeSeg {α : Type} : Nat → Seg α → Seg α
  | _, [] => []
  | n, (x, k) :: t => if n = 0 then [] else if n ≤ k then [(x, n)] else (x, k) :: takeSeg (n - k) t
/-- All but the first n lanes. -/
def dropSeg {α : Type} : Nat → Seg α → Seg α
  | _, [] => []
  | n, (x, k) :: t => if n = 0 then (x, k) :: t else if n < k then (x, k - n) :: t else dropSeg (n - k) t
def lenSeg {α : Type} (s : Seg α) : Nat := sumNat (s.map (·.2))
/-- The value at lane i. -/
def atSeg {α : Type} (d : α) : Seg α → Nat → α
  | [], _ => d
  | (x, k) :: t, i => if i < k then x else atSeg d t (i - k)
/-- Two segment lists cut at the boundaries of both; `fuel` bounds the cuts. -/
def zipGo {α β : Type} : Nat → Seg α → Seg β → Seg (α × β)
  | 0, _, _ => []
  | _, [], _ => []
  | _, _, [] => []
  | fuel + 1, (x, n) :: s, (y, m) :: t =>
    let k := min n m
    ((x, y), k) :: zipGo fuel (if n = k then s else (x, n - k) :: s) (if m = k then t else (y, m - k) :: t)
def zipSeg {α β : Type} (s : Seg α) (t : Seg β) : Seg (α × β) := zipGo (s.length + t.length) s t
/-- Lanes beyond the list read d, up to n lanes. -/
def padSeg {α : Type} (d : α) (n : Nat) (s : Seg α) : Seg α :=
  let s := takeSeg n s
  if lenSeg s < n then s ++ [(d, n - lenSeg s)] else s
/-- Maximal segments of equal values: the canonical form of R221. -/
def canon {α : Type} [DecidableEq α] : Seg α → Seg α
  | [] => []
  | (x, n) :: t => match canon t with
    | [] => [(x, n)]
    | (y, m) :: u => if x = y then (x, n + m) :: u else (x, n) :: (y, m) :: u
def canonWords (ws : List Word) : Runs := canon (ws.map fun w => (w, 1))
/-- The lane words of a register, its first L. -/
def lanesOf (rs : Runs) : List Word := rs.flatMap fun r => List.replicate r.2 r.1

/-! ## Views (R281, R282) -/

/-- A view: runs of lane words, length, the source's tag. -/
structure View where
  runs : Runs
  len : Nat
  tag : Nat
deriving DecidableEq, Repr

/-- Which sub-element of the source sub-element j of the view takes. -/
def swzIdx (code n j : Nat) : Nat :=
  if n = 1 then 0
  else match code with
    | 0 => j
    | 1 => j ^^^ 1
    | 2 => 0
    | _ => n - 1 - j
def swzWord (tag code : Nat) (w : Word) : Word :=
  if code = 0 then w else packWord tag ((List.range (elN tag)).map fun j => sub tag w (swzIdx code (elN tag) j))
def viewOf (x : VReg) (h swz : Nat) : View :=
  let runs := if h = 0 then x.runs else dropSeg 512 x.runs
  { runs := runs.map fun r => (swzWord x.tag.toNat swz r.1, r.2), len := if h = 0 then x.len else x.len - 512
    tag := x.tag.toNat }

/-! ## The environment and the outcome of a computation -/

/-- What a vector computation reads: registers at the reader's slot, the top mask as segments, the prefix, BCTL.DRM, the
generator, and the captured scalar operands. -/
structure VEnv where
  rd : Nat → VReg
  mask : Seg Bool
  p : Pfx
  drm : BitVec 3
  sr : DWord
  va : Word
  vb : Word

abbrev VRes := Except Cause VOut

def VEnv.viewA (e : VEnv) (f : VF) : View := viewOf (e.rd f.a.toNat) f.ha.toNat f.swza.toNat
def VEnv.viewB (e : VEnv) (f : VF) : View := viewOf (e.rd f.b.toNat) f.hb.toNat f.swzb.toNat
def VEnv.viewD (e : VEnv) (f : VF) : View := viewOf (e.rd f.d.toNat) 0 0
def VEnv.viewS (e : VEnv) (f : VSF) : View := viewOf (e.rd f.a.toNat) f.ha.toNat f.swza.toNat

/-- Every lane enabled. -/
def allLanes : Seg Bool := [(true, 1024)]
/-- A mask entry as maximal segments. -/
def maskSeg (m : BitVec 1024) : Seg Bool := canon ((List.range 1024).map fun i => (m.getLsbD i, 1))
def Burner.topMask (b : Burner) : Seg Bool :=
  match b.mask with
  | [] => allLanes
  | m :: _ => maskSeg m

/-- The rounding mode of a rounding X-queue instruction (R20, R287): none where it raises ILLEGAL_ROUNDING. -/
def VEnv.round (e : VEnv) (rm : BitVec 3) : Option RMode :=
  let c := e.p.rnd.getD rm
  let m := if c = 6 then e.drm else c
  if m.toNat ≥ 6 then none else some { rm := m, sat := e.p.sat }

/-- R81: a register of L lanes advances the generator ceil(L / 64) times. -/
def advances (L : Nat) : Nat := (L + 63) / 64

/-- A computation on the lane words of one lane; r gives the draw of a sub-element. -/
abbrev LaneFn := List Word → (Nat → Nat) → Word × FSum

/-- The segments of several views over L lanes. -/
def zipViews (L : Nat) : List View → Seg (List Word)
  | [] => [([], L)]
  | v :: vs => (zipSeg (takeSeg L v.runs) (zipViews L vs)).map fun s => (s.1.1 :: s.1.2, s.2)

/-- One enabled segment from lane p: one run, or under SR a run per lane word (R221, R284). -/
def laneSeg (ws : List Word) (sr : Bool) (words : List Word) (op : LaneFn) (p n : Nat) : Runs × FSum :=
  if sr then
    (List.range n).foldr (fun k acc =>
      let i := p + k
      let x := op ws fun j => srDraw (words.getD (i / 64) 0) i j
      ((x.1, 1) :: acc.1, acc.2.join x.2)) ([], {})
  else
    let x := op ws fun _ => 0
    ([(x.1, n)], { x.2 with sat := x.2.sat * n })

/-- Every segment from lane p on: computed where enabled, the destination's old words elsewhere (R284, R285). -/
def laneGo (old : Runs) (sr : Bool) (words : List Word) (op : LaneFn) : Nat → Seg (List Word × Bool) → Runs × FSum
  | _, [] => ([], {})
  | p, ((ws, en), n) :: t =>
    let here := if en then laneSeg ws sr words op p n else (takeSeg n (dropSeg p old), {})
    let rest := laneGo old sr words op (p + n) t
    (here.1 ++ rest.1, here.2.join rest.2)

/-- Runs written by each segment of an SR computation: one per lane where enabled, the old runs elsewhere (R284). -/
def srSegs (old : Runs) : Nat → Seg (List Word × Bool) → List Nat
  | _, [] => []
  | p, ((_, en), n) :: t =>
    (if en then [n] else List.replicate (takeSeg n (dropSeg p old)).length 1) ++ srSegs old (p + n) t

/-- The frame of majors 0x20 to 0x22 (R283-R286): L the smallest view length, segments, mask, the result's tag after the
prefix, FP6 bits cleared. -/
def laneOp (e : VEnv) (d : BitVec 11) (vs : List View) (tag : Nat) (o : RMode) (op : LaneFn) : VOut :=
  let L := vs.foldl (fun m v => min m v.len) 1024
  let sr := o.rm = 5
  let words := if sr then srWords (advances L) e.sr else []
  let segs := zipSeg (zipViews L vs) e.mask
  let old := padSeg 0 L (e.rd d.toNat).runs
  let r := laneGo old sr words op 0 segs
  let t := match e.p.fmt with
    | some c => c.toNat
    | none => tag
  { runs := r.1.map fun x => (fp6Mask t x.1, x.2), len := L, tag := t, fs := r.2, adv := if sr then advances L else 0
    segs := if sr then srSegs old 0 segs else [] }

/-- Element by element over the sub-elements of the lane words, under element format c. -/
def elemwise (c : Nat) (f : List Nat → (Nat → Nat) → Nat → Nat × Fx) : LaneFn := fun ws r =>
  let ys := (List.range (elN c)).map fun j => f (ws.map fun w => sub c w j) r j
  (packWord c (ys.map (·.1)), ys.foldl (fun acc y => acc.add y.2) {})

/-- The sources' tags agree and lie in a set (R286). -/
def tagsOk (set : Nat → Bool) (vs : List View) : Bool :=
  match vs with
  | [] => true
  | v :: t => set v.tag && t.all fun x => x.tag == v.tag
def anyTag (_ : Nat) : Bool := true

end Sys2Proof.Machine
end

