-- ==== Sys2Proof/Machine/VArith.lean ====
section
/-! DEFINITION. What vector arithmetic computes: majors 0x20, 0x21 and 0x22 (spec/12_vector_arithmetic.md R289-R297). -/
namespace Sys2Proof.Machine

/-! ## Integer (R289, R290) -/

/-- The frame of R289: sources agreeing in set I, an exact integer result per element, saturated where the prefix asks and the
instruction can. -/
def intOp (e : VEnv) (f : VF) (vs : List View) (canSat : Bool) (t : Nat → List Nat → Int) : VRes :=
  if !tagsOk inI vs then .error .formatMismatch
  else
    let c := (e.viewA f).tag
    .ok (laneOp e f.d vs c {} (elemwise c fun xs _ _ => intDeliver c (canSat && e.p.sat == 1) (t c xs)))

/-- Element i of the sources as a value, as a k-bit pattern, and as stored. -/
def xv (c : Nat) (xs : List Nat) (i : Nat) : Int := intEl c (xs.getD i 0)
def valW (c : Nat) : Nat := match intOf c with
  | some (k, _) => k
  | none => 32
def xu (c : Nat) (xs : List Nat) (i : Nat) : Nat := xs.getD i 0 % 2 ^ valW c
/-- A shift amount: the low log2(w) bits of the stored pattern. -/
def shn (c : Nat) (xs : List Nat) : Nat := xs.getD 1 0 % elW c
def popN : Nat → Nat → Nat
  | 0, _ => 0
  | k + 1, x => x % 2 + popN k (x / 2)
def clzN : Nat → Nat → Nat
  | 0, _ => 0
  | k + 1, x => if x / 2 ^ k % 2 = 1 then 0 else 1 + clzN k x


/-- x + y (R290). -/
def compVadd (f : VF) (e : VEnv) : VRes := intOp e f [e.viewA f, e.viewB f] true fun c xs => xv c xs 0 + xv c xs 1

/-- x − y (R290). -/
def compVsub (f : VF) (e : VEnv) : VRes := intOp e f [e.viewA f, e.viewB f] true fun c xs => xv c xs 0 - xv c xs 1

/-- x × y (R290). -/
def compVmul (f : VF) (e : VEnv) : VRes := intOp e f [e.viewA f, e.viewB f] true fun c xs => xv c xs 0 * xv c xs 1

/-- floor(x × y / 2^k) (R290). -/
def compVmulh (f : VF) (e : VEnv) : VRes := intOp e f [e.viewA f, e.viewB f] false fun c xs => Int.fdiv (xv c xs 0 * xv c xs 1) (2 ^ valW c)

/-- x × y + c, c the element of vd (R290). -/
def compVmad (f : VF) (e : VEnv) : VRes :=
  intOp e f [e.viewA f, e.viewB f, e.viewD f] true fun c xs => xv c xs 0 * xv c xs 1 + xv c xs 2

/-- The smaller (R290). -/
def compVmin (f : VF) (e : VEnv) : VRes := intOp e f [e.viewA f, e.viewB f] false fun c xs => min (xv c xs 0) (xv c xs 1)

/-- The larger (R290). -/
def compVmax (f : VF) (e : VEnv) : VRes := intOp e f [e.viewA f, e.viewB f] false fun c xs => max (xv c xs 0) (xv c xs 1)

/-- |x| (R290). -/
def compVabs (f : VF) (e : VEnv) : VRes := intOp e f [e.viewA f] true fun c xs => (xv c xs 0).natAbs

/-- −x (R290). -/
def compVneg (f : VF) (e : VEnv) : VRes := intOp e f [e.viewA f] true fun c xs => -(xv c xs 0)

/-- The frame of VAND, VOR, VXOR and VNOT: any tags, whole lane words, a's tag (R289, R290). -/
def bitOp (e : VEnv) (f : VF) (vs : List View) (g : Word → Word → Word) : VRes :=
  .ok (laneOp e f.d vs (e.viewA f).tag {} fun ws _ => (g (ws.getD 0 0) (ws.getD 1 0), {}))

/-- Bitwise AND (R290). -/
def compVand (f : VF) (e : VEnv) : VRes := bitOp e f [e.viewA f, e.viewB f] fun x y => x &&& y

/-- Bitwise OR (R290). -/
def compVor (f : VF) (e : VEnv) : VRes := bitOp e f [e.viewA f, e.viewB f] fun x y => x ||| y

/-- Bitwise XOR (R290). -/
def compVxor (f : VF) (e : VEnv) : VRes := bitOp e f [e.viewA f, e.viewB f] fun x y => x ^^^ y

/-- Bitwise NOT (R290). -/
def compVnot (f : VF) (e : VEnv) : VRes := bitOp e f [e.viewA f] fun x _ => ~~~x

/-- x × 2^n (R290). -/
def compVshl (f : VF) (e : VEnv) : VRes := intOp e f [e.viewA f, e.viewB f] true fun c xs => xv c xs 0 * 2 ^ shn c xs

/-- floor(u(x) / 2^n) (R290). -/
def compVshr (f : VF) (e : VEnv) : VRes := intOp e f [e.viewA f, e.viewB f] false fun c xs => (xu c xs 0 / 2 ^ shn c xs : Nat)

/-- floor(x / 2^n) (R290). -/
def compVsra (f : VF) (e : VEnv) : VRes := intOp e f [e.viewA f, e.viewB f] false fun c xs => Int.fdiv (xv c xs 0) (2 ^ shn c xs)

/-- The number of 1 bits of u(x) (R290). -/
def compVpopc (f : VF) (e : VEnv) : VRes := intOp e f [e.viewA f] false fun c xs => (popN (valW c) (xu c xs 0) : Nat)

/-- The leading 0 bits of u(x) (R290). -/
def compVclz (f : VF) (e : VEnv) : VRes := intOp e f [e.viewA f] false fun c xs => (clzN (valW c) (xu c xs 0) : Nat)

/-! ## Floating point (R291-R295) -/

/-- The frame of R291: sources agreeing in set F; rounding resolved first; the element function on codes. -/
def floatVOp (e : VEnv) (f : VF) (vs : List View) (g : FF → RMode → List Nat → Nat × Fx) : VRes :=
  match e.round f.rm with
  | none => .error .illegalRounding
  | some o =>
    if !tagsOk inF vs then .error .formatMismatch
    else
      let c := (e.viewA f).tag
      match ffOf c with
      | none => .error .formatMismatch
      | some ff => .ok (laneOp e f.d vs c o (elemwise c fun xs r j => g ff { o with r := r j } xs))

/-- An exact result with its invalid flag, delivered in the format (R292). -/
def delFF (ff : FF) (o : RMode) (x : FV × BitVec 7) : Nat × Fx :=
  let r := ff.deliver o x.1
  (r.1, { r.2 with fl := r.2.fl ||| x.2 })
def fe (ff : FF) (xs : List Nat) (i : Nat) : FV := ff.val (xs.getD i 0)

/-- a + b (R292). -/
def compVfadd (f : VF) (e : VEnv) : VRes :=
  floatVOp e f [e.viewA f, e.viewB f] fun ff o xs => delFF ff o (addFV (o.rm == 2) (fe ff xs 0) (fe ff xs 1))
/-- a − b (R292). -/
def compVfsub (f : VF) (e : VEnv) : VRes :=
  floatVOp e f [e.viewA f, e.viewB f] fun ff o xs => delFF ff o (addFV (o.rm == 2) (fe ff xs 0) (negFV (fe ff xs 1)))
/-- a × b (R292). -/
def compVfmul (f : VF) (e : VEnv) : VRes :=
  floatVOp e f [e.viewA f, e.viewB f] fun ff o xs => delFF ff o (mulFV (fe ff xs 0) (fe ff xs 1))
/-- a × b + vd, one rounding (R292). -/
def compVfma (f : VF) (e : VEnv) : VRes :=
  floatVOp e f [e.viewA f, e.viewB f, e.viewD f] fun ff o xs =>
    delFF ff o (fmaFV (o.rm == 2) (fe ff xs 0) (fe ff xs 1) (fe ff xs 2))
/-- FMIN of the elements (R292). -/
def compVfmin (f : VF) (e : VEnv) : VRes :=
  floatVOp e f [e.viewA f, e.viewB f] fun ff _ xs => (minMaxF ff false (xs.getD 0 0) (xs.getD 1 0), {})
/-- FMAX of the elements (R292). -/
def compVfmax (f : VF) (e : VEnv) : VRes :=
  floatVOp e f [e.viewA f, e.viewB f] fun ff _ xs => (minMaxF ff true (xs.getD 0 0) (xs.getD 1 0), {})
/-- a / b (R293). -/
def compVdiv (f : VF) (e : VEnv) : VRes :=
  floatVOp e f [e.viewA f, e.viewB f] fun ff o xs => divEl ff o (xs.getD 0 0) (xs.getD 1 0)

/-- √a (R293). -/
def compVsqrt (f : VF) (e : VEnv) : VRes := floatVOp e f [e.viewA f] fun ff o xs => sqrtEl ff o (xs.getD 0 0)

/-- 1 / a (R293). -/
def compVrcp (f : VF) (e : VEnv) : VRes := floatVOp e f [e.viewA f] fun ff o xs => rcpEl ff o (xs.getD 0 0)

/-- 1 / √a (R293). -/
def compVrsq (f : VF) (e : VEnv) : VRes := floatVOp e f [e.viewA f] fun ff o xs => rsqEl ff o (xs.getD 0 0)

/-- 2^a (R293). -/
def compVexp2 (f : VF) (e : VEnv) : VRes := floatVOp e f [e.viewA f] fun ff o xs => exp2El ff o (xs.getD 0 0)

/-- log2 a (R293). -/
def compVlog2 (f : VF) (e : VEnv) : VRes := floatVOp e f [e.viewA f] fun ff o xs => log2El ff o (xs.getD 0 0)

/-- tanh a (R293). -/
def compVtanh (f : VF) (e : VEnv) : VRes := floatVOp e f [e.viewA f] fun ff o xs => tanhEl ff o (xs.getD 0 0)

/-- The sine by the reference algorithm (R294, R295). -/
def compVsin (f : VF) (e : VEnv) : VRes :=
  floatVOp e f [e.viewA f] fun ff o xs => sinCosEl ff false o (xs.getD 0 0)

/-- The cosine by the reference algorithm (R294, R295). -/
def compVcos (f : VF) (e : VEnv) : VRes :=
  floatVOp e f [e.viewA f] fun ff o xs => sinCosEl ff true o (xs.getD 0 0)

/-! ## Compare and select (R296, R297) -/

/-- The integer tag of the same element width. -/
def maskTag (c : Nat) : Nat :=
  match elW c with
  | 32 => 9
  | 16 => 0x0A
  | 8 => 0x0B
  | _ => 0x0D

/-- VCMP: all ones where the condition holds; `ci` on integer values and patterns, `cf` on floats given their order or
unordered. -/
def cmpOp (e : VEnv) (f : VF) (ci : Int → Int → Nat → Nat → Bool) (cf : Option Int → Bool) : VRes :=
  let vs := [e.viewA f, e.viewB f]
  if !tagsOk (fun c => inI c || inF c) vs then .error .formatMismatch
  else
    let c := (e.viewA f).tag
    .ok (laneOp e f.d vs (maskTag c) {} (elemwise c fun xs _ _ =>
      let hit := match ffOf c with
        | some ff =>
          let a := fe ff xs 0
          let b := fe ff xs 1
          cf (if isNaN a || isNaN b then none else some (cmpFV a b))
        | none => ci (xv c xs 0) (xv c xs 1) (xu c xs 0) (xu c xs 1)
      (if hit then 2 ^ elW c - 1 else 0, {})))
/-- The order holds and p of it. -/
def ord (p : Int → Bool) : Option Int → Bool
  | none => false
  | some c => p c
/-- Unordered, or p of the order. -/
def unord (p : Int → Bool) : Option Int → Bool
  | none => true
  | some c => p c

/-- x = y (R296). -/
def compVcmpEq (f : VF) (e : VEnv) : VRes := cmpOp e f (fun x y _ _ => x == y) (ord (· == 0))

/-- x ≠ y, or unordered (R296). -/
def compVcmpNe (f : VF) (e : VEnv) : VRes := cmpOp e f (fun x y _ _ => x != y) (unord (· != 0))

/-- x < y (R296). -/
def compVcmpLt (f : VF) (e : VEnv) : VRes := cmpOp e f (fun x y _ _ => decide (x < y)) (ord fun c => decide (c < 0))

/-- x ≤ y (R296). -/
def compVcmpLe (f : VF) (e : VEnv) : VRes := cmpOp e f (fun x y _ _ => decide (x ≤ y)) (ord fun c => decide (c ≤ 0))

/-- x > y (R296). -/
def compVcmpGt (f : VF) (e : VEnv) : VRes := cmpOp e f (fun x y _ _ => decide (y < x)) (ord fun c => decide (0 < c))

/-- x ≥ y (R296). -/
def compVcmpGe (f : VF) (e : VEnv) : VRes := cmpOp e f (fun x y _ _ => decide (y ≤ x)) (ord fun c => decide (0 ≤ c))

/-- u(x) < u(y), or less or unordered (R296). -/
def compVcmpLtu (f : VF) (e : VEnv) : VRes := cmpOp e f (fun _ _ x y => decide (x < y)) (unord fun c => decide (c < 0))

/-- u(x) ≥ u(y), or greater-equal or unordered (R296). -/
def compVcmpGeu (f : VF) (e : VEnv) : VRes := cmpOp e f (fun _ _ x y => decide (y ≤ x)) (unord fun c => decide (0 ≤ c))

/-- a's element where vd's element is not 0, else b's (R297). DESIGN CHOICE (log 157): a BPIk element whose 8-bit container is no
sign extension of its k bits is judged by the 8 bits. -/
def compVsel (f : VF) (e : VEnv) : VRes :=
  let a := e.viewA f
  let b := e.viewB f
  let d := e.viewD f
  if a.tag != b.tag || !inI d.tag || elW d.tag != elW a.tag then .error .formatMismatch
  else .ok (laneOp e f.d [a, b, d] a.tag {} (elemwise a.tag fun xs _ _ =>
    (if xs.getD 2 0 != 0 then xs.getD 0 0 else xs.getD 1 0, {})))

end Sys2Proof.Machine
end

