-- ==== Sys2Proof/Machine/VConv.lean ====
section
/-! DEFINITION. What conversions, shape instructions, reductions and run instructions compute: majors 0x23, 0x24 and 0x25
(spec/12_vector_arithmetic.md R298-R301; spec/13_vector_shape_masks_recipes.md R303-R309). -/
namespace Sys2Proof.Machine

/-! ## Elements in order -/

/-- Lane words with the index of the run each draws from. -/
def tagRuns : Nat → Runs → List (Word × Nat)
  | _, [] => []
  | i, (w, n) :: t => List.replicate n (w, i) ++ tagRuns (i + 1) t
/-- The first L lane words of a view, padded with absent lanes, each with its run. -/
def View.lanes (v : View) : List (Word × Nat) := (tagRuns 0 v.runs).take v.len
/-- The elements of a view in order, each with the run it draws from. -/
def View.els (v : View) : List (Nat × Nat) := v.lanes.flatMap fun p => (subs v.tag p.1).map fun x => (x, p.2)

/-- Lists cut into pieces of n, `fuel` bounding the pieces. -/
def chunkGo {α : Type} (n : Nat) : Nat → List α → List (List α)
  | 0, _ => []
  | _, [] => []
  | fuel + 1, x :: t => (x :: t).take n :: chunkGo n fuel ((x :: t).drop n)
def chunks {α : Type} (n : Nat) (xs : List α) : List (List α) := chunkGo n xs.length xs

/-- Words with labels merged into runs: a word continues the segment before it when both carry one and the same label and the
values are bit-identical (R298, R304). -/
def mergeLab : List (Word × Option (List Nat)) → List (Word × Nat × Option (List Nat))
  | [] => []
  | (w, l) :: t => match mergeLab t with
    | [] => [(w, 1, l)]
    | (x, n, m) :: u => if l.isSome && l == m && w == x then (w, n + 1, l) :: u else (w, 1, l) :: (x, n, m) :: u
def labRuns (ws : List (Word × Option (List Nat))) : Runs := (mergeLab ws).map fun x => (x.1, x.2.1)
/-- The same, or a run per word under SR. -/
def outRuns (sr : Bool) (ws : List (Word × Option (List Nat))) : Runs := if sr then ws.map fun w => (w.1, 1) else labRuns ws
/-- The runs of each segment: under SR as many as it has words (R298). -/
def outSegs (sr : Bool) (ws : List (Word × Option (List Nat))) : List Nat := if sr then (mergeLab ws).map (·.2.1) else []

/-- Result words of format c from elements with labels (the runs and the block they draw from), packed in order. -/
def packEls (c : Nat) (es : List (Nat × List Nat)) : List (Word × Option (List Nat)) :=
  (chunks (elN c) es).map fun ch =>
    (packWord c (ch.map (·.1)), match ch with
      | [] => none
      | x :: t => if t.all fun y => y.2 == x.2 then some x.2 else none)

/-- The draw of result element e in format c. -/
def drawEl (ws : List Word) (c e : Nat) : Nat :=
  let i := e / elN c
  srDraw (ws.getD (i / 64) 0) i (e % elN c)

/-- Elements converted one by one, the i-th with its draw: codes, labels and flags. -/
def mapEls (es : List (Nat × List Nat)) (f : Nat → Nat → Nat × Fx) : List (Nat × List Nat) × FSum :=
  let ys := es.zipIdx.map fun p => ((f p.1.1 p.2), p.1.2)
  (ys.map fun y => (y.1.1, y.2), ys.foldl (fun acc y => acc.add y.1.2) {})

/-! ## Conversion (R298, R299) -/

/-- VCVT (R299). -/
def compVcvt (f : VF) (e : VEnv) : VRes :=
  match e.round f.rm with
  | none => .error .illegalRounding
  | some o =>
    let a := e.viewA f
    let ct := f.b.toNat % 32
    let sr := o.rm = 5
    if a.tag = 0 || ct = 0 then
      let ws := a.lanes.map fun p => (fp6Mask ct p.1, some [p.2])
      .ok { runs := outRuns sr ws, segs := outSegs sr ws, len := a.len, tag := ct, adv := if sr then advances a.len else 0 }
    else
      let Eo := min (a.len * elN a.tag) (1024 * elN ct)
      let L := (Eo + elN ct - 1) / elN ct
      let words := if sr then srWords (advances L) e.sr else []
      let (es, fs) := mapEls ((a.els.take Eo).map fun p => (p.1, [p.2])) fun x i =>
        convEl a.tag ct { o with r := if sr then drawEl words ct i else 0 } x
      .ok { runs := outRuns sr (packEls ct es), segs := outSegs sr (packEls ct es), len := L, tag := ct, fs := fs, adv := if sr then advances L else 0 }

/-! ## Block scaling (R298, R300, R301) -/

def blockOf (f : VF) : Nat := if f.hb = 0 then 32 else 64

/-- Every block of view a quantised to format c: scale codes, element codes with labels, flags. -/
def quantAll (c B : Nat) (o : RMode) (draw : Nat → Nat) (a : View) : List Nat × List (Nat × List Nat) × FSum :=
  let bs := (chunks B a.els).zipIdx.map fun p =>
    let q := quantBlock c o (fun i => draw (p.2 * B + i)) (p.1.map fun x => elVal a.tag x.1)
    (q.1, (q.2.1.zip p.1).map fun y => (y.1, [p.2, y.2.2]), q.2.2)
  (bs.map (·.1), bs.flatMap (·.2.1), bs.foldl (fun acc x => acc.join x.2.2) {})

/-- Scale words: four codes each, unused ones 0x7F; each draws from blocks of its own, so each is a run. -/
def scaleRuns (codes : List Nat) : Runs := (chunks 4 codes).map fun c => (packWord 0x0E (c ++ List.replicate (4 - c.length) 0x7F), 1)

/-- What VSCALE and VQNT share: mode, element results and scales. -/
def quantOp (f : VF) (e : VEnv) : Except Cause (List Nat × List (Nat × List Nat) × FSum × Nat × Bool) :=
  match e.round f.rm with
  | none => .error .illegalRounding
  | some o =>
    let a := e.viewA f
    let c := f.b.toNat % 32
    if !inF a.tag then .error .formatMismatch
    else
      let L := (a.len * elN a.tag + elN c - 1) / elN c
      let sr := o.rm = 5
      let words := if sr then srWords (advances L) e.sr else []
      let q := quantAll c (blockOf f) o (fun i => if sr then drawEl words c i else 0) a
      .ok (q.1, q.2.1, q.2.2, L, sr)

/-- VSCALE (R300): the scales alone, no flags. -/
def compVscale (f : VF) (e : VEnv) : VRes :=
  match quantOp f e with
  | .error c => .error c
  | .ok (codes, _, _, L, sr) =>
    .ok { runs := scaleRuns codes, len := (codes.length + 3) / 4, tag := 0x0E, adv := if sr then advances L else 0 }

/-- VQNT (R300): elements in v(d), scales in v(d + 1). -/
def compVqnt (f : VF) (e : VEnv) : VRes :=
  match quantOp f e with
  | .error c => .error c
  | .ok (codes, es, fs, L, sr) =>
    let c := f.b.toNat % 32
    .ok { runs := outRuns sr (packEls c es), segs := outSegs sr (packEls c es), len := L, tag := c, fs := fs, adv := if sr then advances L else 0
          snd := some (scaleRuns codes, (codes.length + 3) / 4, 0x0E) }

/-- VDQNT (R301). -/
def compVdqnt (f : VF) (e : VEnv) : VRes :=
  match e.round f.rm with
  | none => .error .illegalRounding
  | some o =>
    let a := e.viewA f
    let sc := viewOf (e.rd f.b.toNat) 0 0
    if !inQ a.tag || sc.tag != 0x0E then .error .formatMismatch
    else
      let ct := match e.p.fmt with
        | some c => c.toNat
        | none => 1
      let B := blockOf f
      let Eo := min (a.len * elN a.tag) (1024 * elN ct)
      let L := (Eo + elN ct - 1) / elN ct
      let sr := o.rm = 5
      let words := if sr then srWords (advances L) e.sr else []
      let scales := sc.els
      let es := (a.els.take Eo).zipIdx.map fun p =>
        let s := scales.getD (p.2 / B) (0, 1024)
        ((p.1.1, s.1), [p.1.2, s.2, p.2 / B], p.2)
      let ys := es.map fun p => (convVal ct { o with r := if sr then drawEl words ct p.2.2 else 0 }
        (dequant a.tag p.1.1 p.1.2), p.2.1)
      let ws := packEls ct (ys.map fun y => (contain ct y.1.1, y.2))
      .ok { runs := outRuns sr ws, segs := outSegs sr ws, len := L, tag := ct
            fs := ys.foldl (fun acc y => acc.add y.1.2) {}, adv := if sr then advances L else 0 }

/-! ## Shape (R304, R305, R308, R309) -/

/-- The result with the prefix's tag and FP6 bits cleared. -/
def shapeOut (e : VEnv) (runs : Runs) (len tag : Nat) : VOut :=
  let t := match e.p.fmt with
    | some c => c.toNat
    | none => tag
  { runs := runs.map fun x => (fp6Mask t x.1, x.2), len := len, tag := t }

/-- A result of L lanes, lane m taken from lane src m of the view; lanes at or beyond the view's length read 0 (R304, R305). -/
def gatherLanes (v : View) (L : Nat) (src : Nat → Nat) : Runs :=
  let ls := v.lanes.toArray
  labRuns ((List.range L).map fun m => match ls[src m]? with
    | some p => (p.1, some [p.2])
    | none => (0, some []))

/-- VROTR (R305). -/
def compVrotr (f : VSF) (e : VEnv) : VRes :=
  let a := e.viewS f
  .ok (shapeOut e (gatherLanes a a.len fun m => (m / 64 + e.vb.toNat) % 16 * 64 + m % 64) a.len a.tag)
/-- VROTC (R305). -/
def compVrotc (f : VSF) (e : VEnv) : VRes :=
  let a := e.viewS f
  .ok (shapeOut e (gatherLanes a a.len fun m => m / 64 * 64 + (m % 64 + e.vb.toNat) % 64) a.len a.tag)
/-- VBCR (R305). -/
def compVbcr (f : VSF) (e : VEnv) : VRes :=
  let a := e.viewS f
  .ok (shapeOut e (gatherLanes a 1024 fun m => e.vb.toNat % 16 * 64 + m % 64) 1024 a.tag)
/-- VBCC (R305). -/
def compVbcc (f : VSF) (e : VEnv) : VRes :=
  let a := e.viewS f
  let L := 64 * ((a.len + 63) / 64)
  .ok (shapeOut e (gatherLanes a L fun m => m / 64 * 64 + e.vb.toNat % 64) L a.tag)
/-- VIOTA (R308). -/
def compViota (_ : VSF) (e : VEnv) : VRes :=
  let n := e.vb.toNat
  if n > 1024 then .error .illegalOperand
  else .ok (shapeOut e ((List.range n).map fun i => (w32 i, 1)) n 9)
/-- VSPL (R308). -/
def compVspl (_ : VSF) (e : VEnv) : VRes := .ok (shapeOut e [(e.vb, 1024)] 1024 0)
/-- VEXT (R308). -/
def compVext (f : VSF) (e : VEnv) : VRes :=
  let a := e.viewS f
  let k := e.vb.toNat
  .ok (shapeOut e (gatherLanes a (a.len - k) fun m => k + m) (a.len - k) a.tag)
/-- VINS (R308): the old vd is a source. -/
def compVins (f : VSF) (e : VEnv) : VRes :=
  let a := e.viewS f
  let d := viewOf (e.rd f.d.toNat) 0 0
  let k := e.vb.toNat
  if d.len != 0 && d.tag != a.tag then .error .formatMismatch
  else if k ≥ 1024 then .ok (shapeOut e d.runs d.len a.tag)
  else
    let L := max d.len (min (k + a.len) 1024)
    let la := a.lanes.toArray
    let ld := d.lanes.toArray
    .ok (shapeOut e (labRuns ((List.range L).map fun i =>
      if k ≤ i && i < k + a.len then (match la[i - k]? with
        | some p => (p.1, some [0, p.2])
        | none => (0, some []))
      else match ld[i]? with
        | some p => (p.1, some [1, p.2])
        | none => (0, some []))) L a.tag)
/-- VCOAL (R309). -/
def compVcoal (f : VF) (e : VEnv) : VRes :=
  let a := e.viewA f
  .ok { runs := canon (takeSeg a.len a.runs), len := a.len, tag := a.tag }
/-- VLEN (R309). -/
def compVlen (f : VSF) (e : VEnv) : VRes :=
  let a := e.viewS f
  let n := e.vb.toNat
  if n > 1024 then .error .illegalOperand
  else .ok { runs := if n ≤ a.len then takeSeg n a.runs else a.runs ++ [(0, n - a.len)], len := n, tag := a.tag }
/-- VOCC (R309). -/
def compVocc (f : VF) (e : VEnv) : VRes :=
  let a := e.viewA f
  .ok { runs := canonWords [w32 a.runs.length, w32 a.len], len := 2, tag := 9 }

/-! ## Reductions (R306, R307) -/

/-- One level of the tree: nodes 2m and 2m + 1 combined, a single last node passed on. -/
def treeLevel (op : Word → Word → Word × FSum) : List Word → List Word × FSum
  | [] => ([], {})
  | [x] => ([x], {})
  | x :: y :: t =>
    let r := op x y
    let u := treeLevel op t
    (r.1 :: u.1, r.2.join u.2)
/-- The tree over the present leaves, `fuel` levels at most. -/
def treeGo (op : Word → Word → Word × FSum) : Nat → List Word → List Word × FSum
  | 0, xs => (xs, {})
  | fuel + 1, xs =>
    if xs.length ≤ 1 then (xs, {})
    else
      let r := treeLevel op xs
      let u := treeGo op fuel r.1
      (u.1, r.2.join u.2)

/-- The combination of two nodes under op code k and tag c (R307). -/
def redNode (k c : Nat) (o : RMode) (x y : Word) : Word × FSum :=
  match k with
  | 6 => (x ||| y, {})
  | 7 => (x &&& y, {})
  | _ =>
    elemwise c (fun xs _ _ =>
      match k with
      | 0 => intDeliver c (o.sat == 1) (xv c xs 0 + xv c xs 1)
      | 1 => intDeliver c false (max (xv c xs 0) (xv c xs 1))
      | 2 => intDeliver c false (min (xv c xs 0) (xv c xs 1))
      | _ => match ffOf c with
        | none => (0, {})
        | some ff => match k with
          | 3 => delFF ff o (addFV (o.rm == 2) (fe ff xs 0) (fe ff xs 1))
          | 4 => (minMaxF ff true (xs.getD 0 0) (xs.getD 1 0), {})
          | _ => (minMaxF ff false (xs.getD 0 0) (xs.getD 1 0), {})) [x, y] fun _ => 0

/-- The tags op k accepts. -/
def redTagOk (k c : Nat) : Bool := if k ≤ 2 then inI c else if k ≤ 5 then inF c else true

/-- A reduction whose result lanes have the leaves given (R306). -/
def redOp (f : VF) (e : VEnv) (leaves : List Word → List (List Word)) : VRes :=
  let k := f.b.toNat % 8
  let a := e.viewA f
  let m := if k = 3 then roundNoSr e.p f.rm e.drm else some 0
  match m with
  | none => .error .illegalRounding
  | some m =>
    if !redTagOk k a.tag then .error .formatMismatch
    else
      let rs := (leaves (a.lanes.map (·.1))).map fun ls => treeGo (redNode k a.tag { rm := m, sat := e.p.sat }) 10 ls
      let ws := rs.flatMap (·.1)
      let out := shapeOut e (canonWords ws) ws.length a.tag
      .ok { out with runs := canon out.runs, fs := rs.foldl (fun acc r => acc.join r.2) {} }

/-- VREDC: each row over its columns (R306). -/
def compVredc (f : VF) (e : VEnv) : VRes := redOp f e fun ls => chunks 64 ls
/-- VREDR: each column over the rows (R306). -/
def compVredr (f : VF) (e : VEnv) : VRes :=
  redOp f e fun ls => (List.range (min ls.length 64)).map fun j => (chunks 64 ls).filterMap fun row => row[j]?
/-- VREDA: the whole register (R306). -/
def compVreda (f : VF) (e : VEnv) : VRes := redOp f e fun ls => if ls.isEmpty then [] else [ls]

end Sys2Proof.Machine
end

