-- ==== Sys2Proof/Machine/VRows.lean ====
section
/-! DEFINITION. Rows read and written by vector memory instructions and OFILL: control words, row plans, tile positions, bit
planes (spec/14_matrix_and_engines.md R323-R326, R330; spec/03_number_formats.md R62, R63; spec/04_data_on_the_move.md R107;
spec/17_debug_trace_replay.md R388). -/
namespace Sys2Proof.Machine

/-! ## Tile positions (R107) -/

/-- Bit k of a number. -/
def nbit (x k : Nat) : Nat := x / 2 ^ k % 2
/-- P(r, c). -/
def zpos (r c : Nat) : Nat :=
  16 * sumNat ((List.range 4).map fun k => nbit r (k + 2) * 2 ^ (2 * k + 1) + nbit c (k + 2) * 2 ^ (2 * k)) + 4 * (r % 4) + c % 4
/-- The position of element (r, c) in a tile: Z-order or linear, exchanged when transposed. -/
def tilePos (z tr : Bool) (r c : Nat) : Nat :=
  let (r, c) := if tr then (c, r) else (r, c)
  if z then zpos r c else 64 * r + c

/-! ## Bit planes (R62, R63) -/

/-- Bit `i` of a row image of 64 words. -/
def rowBit (ws : List Word) (i : Nat) : Nat := nbit (ws.getD (i / 32) 0).toNat (i % 32)
/-- Element `i` (0-2047) of a group whose first j plane rows are given: a BPIj element in its container. -/
def planeEl (j : Nat) (rows : List (List Word)) (i : Nat) : Nat :=
  contain (0x10 + j) (sumNat ((List.range j).map fun p => rowBit (rows.getD p []) i * 2 ^ (j - 1 - p)))
/-- Plane p (of k) of a group's 2,048 elements, as a row image. -/
def planeRow (k p : Nat) (es : Nat → Nat) : List Word :=
  (List.range 64).map fun w => w32 (sumNat ((List.range 32).map fun i => nbit (es (32 * w + i)) (k - 1 - p) * 2 ^ i))

/-! ## Reading a row -/

/-- Buffered local stores earlier in ko to the row are performed first (R166, R168). -/
def State.drainFor (s : State) (ko core row : Nat) : State :=
  s.drainTo ko fun e => e.addr / 256 == rowAddr core row / 256

/-- A local read by a queue entry of position ko: EARLY_READ in debug mode when the row's pending bit is set: a store not
earlier in ko stands in the store buffer, or a queue's or engine's write is issued and not performed (R388). -/
def earlyRead (s : State) (ko core row : Nat) : Bool :=
  s.b.dbg && core == s.b.core &&
    (s.b.pendRow row || s.b.sbuf.any fun e => !(e.ko < ko) && e.addr / 256 == rowAddr core row / 256)

/-- What one row of a plan answered: the core, the bank's format and PL, the image. -/
structure RowImg where
  core : Nat
  fmt : Nat
  pl : Nat
  ws : List Word
deriving DecidableEq, Repr

/-- One row read for position ko; `early` where R388 lists the instruction. -/
def rowRead (early : Bool) (s : State) (ko addr : Nat) : Except Cause (State × RowImg) :=
  match meshCheck s s.b false addr with
  | .error c => .error c
  | .ok (core, row) =>
    if early && earlyRead s ko core row then .error .earlyRead
    else
      let s1 := if core = s.b.core then s.drainFor ko core row else s
      let bf := s1.bfmtAt core row
      .ok (s1, ⟨core, bfFmt bf, bfPl bf, s1.row core row⟩)

/-- A read that stopped: its cause, none where it stands between two rows, address, rows completed, their images. -/
structure RowStop where
  c : Option Cause
  addr : Nat
  upc : Nat
  imgs : List (List Word)
  s : State

/-- The rows of a plan read in order, each under the first row's format (R324, R326, R330); `done` holds the images so far,
`pl` is the PL that BPIk banks must agree in, and `n` counts the rows of this act, which ends with its share of them. Each address is the presented one, with
its ignored low bits (R56). -/
def rowsRead (ko fmt : Nat) (pl : Option Nat) (s : State) (done : List (List Word)) (rem : Bool) (n : Nat) :
    List Nat → Except RowStop (State × List (List Word) × Bool)
  | [] => if s.enough n then .error ⟨none, 0, done.length, done, s⟩ else .ok (s, done, rem)
  | a :: t =>
    if s.enough n then .error ⟨none, 0, done.length, done, s⟩
    else match rowRead true s ko a with
      | .error c => .error ⟨some c, a, done.length, done, s⟩
      | .ok (s1, r) =>
        if r.fmt != fmt || (isBPI fmt && pl.any (· != r.pl)) then .error ⟨some .formatMismatch, 0, done.length, done, s⟩
        else rowsRead ko fmt pl s1 (done ++ [r.ws]) (rem || r.core != s.b.core) (n + 1) t

/-! ## Control words (R323) -/

/-- The row address a + 256 × off as it is presented (R18); its bits 7:0 are ignored, and kept for TADDR (R56). -/
def rowBase (a : Word) (off : BitVec 8) : Nat := (a + 256 * off.signExtend 32).toNat
def rowPlus (base : Nat) (k : Int) : Nat := ((base + 256 * k) % 2 ^ 32).toNat

/-- The forms of vector memory. -/
inductive MForm where
  | lin | rot | tile | strided
deriving DecidableEq, Repr

/-- N, K, stride, TR, Q of a control word. -/
structure MCtl where
  n : Nat := 0
  k : Nat := 0
  str : Int := 0
  tr : Bool := false
  q : Nat := 0
deriving DecidableEq, Repr

/-- The control word of a form; none where a bit or value is outside R323. -/
def mctl (f : MForm) (ld : Bool) (w : Word) : Option MCtl :=
  let low := (w.extractLsb' 0 11).toNat
  let mid := w.extractLsb' 11 5
  let high := w.extractLsb' 16 16
  let nOk := if ld then low ≤ 1024 else low = 0
  if mid != 0 then none
  else match f with
    | .lin => if high = 0 && nOk then some { n := low } else none
    | .rot => if high.toNat < 64 && nOk then some { n := low, k := high.toNat } else none
    | .tile => if high = 0 && low < 8 then some { tr := low % 2 == 1, q := low / 2 } else none
    | .strided => if nOk then some { n := low, str := high.toInt } else none

/-! ## Row plans -/

/-- Planes a load reads from a bank of format BPIk with PL. -/
def planesOf (fmt pl : Nat) : Nat := if pl = 0 then fmt - 0x10 else pl

/-- Element e of the linear tile of element width w: its position (R324). -/
def elPos (z tr : Bool) (e : Nat) : Nat := tilePos z tr (e / 64) (e % 64)
/-- The number of lanes of quarter Q of a tile of element width w. -/
def quarterLanes (w q : Nat) : Nat := min 1024 (128 * w - 1024 * q)
/-- Tile row of a position. -/
def posRow (w p : Nat) : Nat := p * w / 2048
/-- Distinct numbers in order of first appearance. -/
def firstSeen : List Nat → List Nat
  | [] => []
  | x :: t => x :: (firstSeen t).filter (· != x)
/-- Tile rows a quarter touches, in ascending order of lanes. -/
def tileRows (z : Bool) (c : MCtl) (w : Nat) : List Nat :=
  firstSeen ((List.range (quarterLanes w c.q * (32 / w))).map fun i => posRow w (elPos z c.tr (1024 * c.q * (32 / w) + i)))

/-- Row offsets from the base row that a load of n lane words touches, in order, in a bank of format fmt. A BPIk bank gives
element e of group g from rows k·g on, whatever the form's offset and stride (R324). -/
def planRows (f : MForm) (c : MCtl) (fmt pl n : Nat) (z : Bool) : List Int :=
  if isBPI fmt then
    (List.range (if f = .tile then 2 else (4 * n + 2047) / 2048)).flatMap fun (g : Nat) =>
      (List.range (planesOf fmt pl)).map fun (p : Nat) => (((fmt - 0x10) * g + p : Nat) : Int)
  else if f = .tile then (tileRows z c (elW fmt)).map fun (r : Nat) => (r : Int)
  else (List.range ((c.k + n + 63) / 64)).map fun (i : Nat) => (i : Int) * (if f = .strided then c.str else 1)

/-- The lane words a load at row address `base` forms from the images of its plan (R324). -/
def loadWords (f : MForm) (c : MCtl) (fmt pl : Nat) (z : Bool) (base : Nat) (imgs : List (List Word)) : List Word :=
  if isBPI fmt then
    let j := planesOf fmt pl
    let groups := chunks j imgs
    let el (e : Nat) : Nat := planeEl j (groups.getD (e / 2048) []) (e % 2048)
    let n := if f = .tile then 1024 else c.n
    (List.range n).map fun i =>
      if f != .tile && 512 * groups.length ≤ c.k + i then Config.pastRows base (c.k + i)
      else packWord fmt ((List.range 4).map fun x =>
        if f = .tile then el (elPos false c.tr (4 * i + x)) else el (4 * (c.k + i) + x))
  else if f = .tile then
    let w := elW fmt
    let rows := tileRows z c w
    let m := 32 / w
    let table := rows.zip imgs
    (List.range (quarterLanes w c.q)).map fun i => packWord fmt ((List.range m).map fun x =>
      let p := elPos z c.tr (m * (1024 * c.q + i) + x)
      let img := ((table.find? fun t => t.1 == posRow w p).map (·.2)).getD []
      sub fmt (img.getD (p * w % 2048 / 32) 0) (p % m))
  else ((imgs.flatten).drop c.k).take c.n

/-! ## Loads -/

/-- A load's outcome: the state, what the register receives, whether a remote row was touched, the row images; a stop; or a
pause between two rows. -/
inductive LdRes where
  | ok (s : State) (out : VOut) (rem : Bool) (imgs : List (List Word)) (mk : List (List Word) → VOut)
  | bad (c : Cause) (addr upc : Nat) (imgs : List (List Word))
  | pause (s : State) (imgs : List (List Word))

/-- Lane words of format cs as the register receives them: canonical, converted to the prefix's format when there is one
(R324, R299). -/
def loadOut (p : Pfx) (o : RMode) (cs : Nat) (ws : List Word) : VOut :=
  match p.fmt with
  | none => { runs := canonWords (ws.map (fp6Mask cs)), len := ws.length, tag := cs }
  | some c =>
    let ct := c.toNat
    if cs = 0 || ct = 0 then { runs := canonWords (ws.map (fp6Mask ct)), len := ws.length, tag := ct }
    else
      let es := (ws.flatMap (subs cs)).take (1024 * elN ct)
      let ys := es.map (convEl cs ct o)
      let out := (chunks (elN ct) (ys.map (·.1))).map (packWord ct)
      { runs := canonWords out, len := out.length, tag := ct, fs := ys.foldl (fun acc y => acc.add y.2) {} }

/-- BFMT of the bank of a row that the burner may access so; none where the access faults. -/
def baseFmt (wr : Bool) (base : Nat) (s : State) : Option Word :=
  match meshCheck s s.b wr base with
  | .ok (core, row) => some (s.bfmtAt core row)
  | .error _ => none
/-- Whether a tile form's Q is out of range in a bank (R324). -/
def quarterBad (f : MForm) (c : MCtl) (bf : Word) : Bool :=
  let w := if isBPI (bfFmt bf) then 8 else elW (bfFmt bf)
  f == .tile && decide ((128 * w + 1023) / 1024 ≤ c.q)

/-- The format word of an access's first row: the one held since that row was accessed (R73), or the bank's. -/
def firstFmt (held : Option Word) (wr : Bool) (base : Nat) (s : State) : Except Cause Word :=
  match held with
  | some w => .ok w
  | none => match meshCheck s s.b wr base with
    | .error c => .error c
    | .ok (core, row) => .ok (s.bfmtAt core row)

/-- A load from position ko with images `done` already read, the first of them under the format word held (R324, R326). -/
def loadFrom (held : Option Word) (f : MForm) (mf : MF) (p : Pfx) (drm : BitVec 3) (ko : Nat) (a b : Word)
    (done : List (List Word)) (s : State) : LdRes :=
  let base := rowBase a mf.off
  match mctl f true b with
  | none => .bad .illegalOperand 0 0 []
  | some c =>
    if held.isNone && (baseFmt false base s).any (quarterBad f c) then .bad .illegalOperand 0 0 []
    else match roundNoSr p mf.rm drm with
    | none => .bad .illegalRounding 0 0 []
    | some m =>
      let o : RMode := { rm := m, sat := p.sat }
      if f != .tile && c.n = 0 then .ok s { tag := (p.fmt.map (·.toNat)).getD 0 } false [] fun _ => { tag := (p.fmt.map (·.toNat)).getD 0 }
      else match firstFmt held false base s with
        | .error e => .bad e base 0 []
        | .ok bf =>
          let fmt := bfFmt bf
          let plan := (planRows f c fmt (bfPl bf) c.n (bfZ bf)).map (rowPlus base)
          match rowsRead ko fmt (some (bfPl bf)) s done false 0 (plan.drop done.length) with
          | .error x => match x.c with
            | none => .pause x.s x.imgs
            | some k => .bad k x.addr x.upc x.imgs
          | .ok (s1, imgs, rem) =>
            let cs := if isBPI fmt then 0x10 + planesOf fmt (bfPl bf) else fmt
            let mk := fun im => loadOut p o cs (loadWords f c fmt (bfPl bf) (bfZ bf) base im)
            .ok s1 (mk imgs) (rem || plan.any fun x => match meshResolve s.b.core x with
              | .ok (k, _) => k != s.b.core
              | .error _ => false) imgs mk

/-- A load from its first row, or with images read under the formats as they stand. -/
def loadRun (f : MForm) (mf : MF) (p : Pfx) (drm : BitVec 3) (ko : Nat) (a b : Word) (done : List (List Word)) (s : State) :
    LdRes := loadFrom none f mf p drm ko a b done s

/-! ## Stores -/

/-- What a store writes to one row: the row's address and its new image from the old one. -/
structure RowPut where
  addr : Nat
  put : List Word → List Word

/-- Words i of `ws` placed from lane `lo` of a row image. -/
def putLanes (lo : Nat) (ws : List Word) (old : List Word) : List Word := old.take lo ++ ws ++ old.drop (lo + ws.length)

/-- The elements a store delivers and their flags, in the bank's format (R325). -/
def storeWords (x : VReg) (f : Nat) (o : RMode) : List Word × FSum :=
  let ws := (lanesOf x.runs).take x.len
  let t := x.tag.toNat
  if t = f || t = 0 || f = 0 then (ws.map (fp6Mask f), {})
  else
    let ys := (ws.flatMap (subs t)).map (convEl t f o)
    ((chunks (elN f) (ys.map (·.1))).map (packWord f), ys.foldl (fun acc y => acc.add y.2) {})

/-- The rows a store writes, in order (R325). -/
def storePlan (f : MForm) (c : MCtl) (fmt : Nat) (z : Bool) (base E : Nat) (ws : List Word) : List RowPut :=
  let n := ws.length
  if isBPI fmt then
    let k := fmt - 0x10
    let lo := if f = .tile then 0 else 4 * c.k
    let groups := if f = .tile then (List.range 2).filter fun g => (List.range 2048).any fun i => decide (elPos false c.tr (2048 * g + i) < E)
      else List.range ((4 * (c.k + n) + 2047) / 2048)
    let src (i : Nat) : Nat := if i < E then sub fmt (ws.getD (i / 4) 0) (i % 4) else 0
    let el (e : Nat) : Nat := if f = .tile then src (elPos false c.tr e) else src (e - lo)
    groups.flatMap fun (g : Nat) => (List.range k).map fun (p : Nat) =>
      ⟨rowPlus base ((k * g + p : Nat) : Int), fun old =>
        let new := planeRow k p fun i => el (2048 * g + i)
        if 2048 * g < lo then
          (List.range 64).map fun w =>
            w32 (sumNat ((List.range 32).map fun i =>
              (if 2048 * g + 32 * w + i < lo then rowBit old (32 * w + i) else rowBit new (32 * w + i)) * 2 ^ i))
        else new⟩
  else if f = .tile then
    let w := elW fmt
    let m := 32 / w
    let cnt := min n (quarterLanes w c.q)
    let es := (List.range (cnt * m)).map fun i => (elPos z c.tr (m * 1024 * c.q + i), sub fmt (ws.getD (i / m) 0) (i % m))
    (firstSeen (es.map fun e => posRow w e.1)).map fun (r : Nat) =>
      ⟨rowPlus base (r : Int), fun old =>
        (es.filter fun e => posRow w e.1 == r).foldl (fun img e =>
          let l := e.1 * w % 2048 / 32
          let word := img.getD l 0
          img.set l (packWord fmt ((List.range m).map fun j => if j = e.1 % m then e.2 else sub fmt word j))) old⟩
  else
    let st : Int := if f = .strided then c.str else 1
    (List.range ((c.k + n + 63) / 64)).map fun (i : Nat) =>
      ⟨rowPlus base ((i : Int) * st), fun old =>
        let lo := if i = 0 then c.k else 0
        let part := if i = 0 then ws.take (64 - c.k) else (ws.drop (64 * i - c.k)).take 64
        putLanes lo part old⟩

/-- Whether every row of a plan may be written, in row order, and then whether every one lies in a bank of format fmt (R326). -/
def rowsCheck (s : State) (fmt : Nat) (rows : List RowPut) : Except (Cause × Nat) Unit :=
  match rows.findSome? fun r => match meshCheck s s.b true r.addr with
      | .error c => some (c, r.addr)
      | .ok _ => none with
  | some x => .error x
  | none => if rows.all fun r => (baseFmt true r.addr s).all fun w => bfFmt w == fmt then .ok () else .error (.formatMismatch, 0)

/-- Rows written in turn from row k, each checked as it is reached, `n` of them in this act so far: the state, and where it
stopped, with no cause when the act's share is made, be it with the last row (R215, R325, R326). Buffered stores earlier in ko to the row come first. -/
def rowsWrite (ko fmt : Nat) : List RowPut → Nat → Nat → State → State × Option (Option Cause × Nat × Nat)
  | [], n, k, s => (s, if s.enough n then some (none, 0, k) else none)
  | r :: t, n, k, s =>
    if s.enough n then (s, some (none, 0, k))
    else match meshCheck s s.b true r.addr with
      | .error c => (s, some (some c, r.addr, k))
      | .ok (core, row) =>
        if bfFmt (s.bfmtAt core row) != fmt then (s, some (some .formatMismatch, 0, k))
        else
          let s1 := if core = s.b.core then s.drainFor ko core row else s
          rowsWrite ko fmt t (n + 1) (k + 1) (s1.setLanes core row 0 (r.put (s1.row core row)))

/-- Rows of the burner's own slice among those a store has issued and not performed (R388). -/
def ownRows (s : State) (rows : List RowPut) : List Nat :=
  rows.filterMap fun r => match meshResolve s.b.core r.addr with
    | .ok (core, row) => if core = s.b.core then some row else none
    | .error _ => none

end Sys2Proof.Machine
end

