-- ==== Sys2Proof/Machine/Replay.lean ====
section
/-! DEFINITION. Recipe replay, the dependent-register rule and vector register writes (spec/09_core_and_queues.md R212, R223,
R226-R229, R445; spec/22_program_sharded_loss.md R434). -/
namespace Sys2Proof.Machine

/-- What a vector instruction of majors 0x20 to 0x25 computes. -/
def compOf : Instr → Option (VEnv → VRes)
  | .vadd f => some (compVadd f)
  | .vsub f => some (compVsub f)
  | .vmul f => some (compVmul f)
  | .vmulh f => some (compVmulh f)
  | .vmad f => some (compVmad f)
  | .vmin f => some (compVmin f)
  | .vmax f => some (compVmax f)
  | .vabs f => some (compVabs f)
  | .vneg f => some (compVneg f)
  | .vand f => some (compVand f)
  | .vor f => some (compVor f)
  | .vxor f => some (compVxor f)
  | .vnot f => some (compVnot f)
  | .vshl f => some (compVshl f)
  | .vshr f => some (compVshr f)
  | .vsra f => some (compVsra f)
  | .vpopc f => some (compVpopc f)
  | .vclz f => some (compVclz f)
  | .vfadd f => some (compVfadd f)
  | .vfsub f => some (compVfsub f)
  | .vfmul f => some (compVfmul f)
  | .vfma f => some (compVfma f)
  | .vfmin f => some (compVfmin f)
  | .vfmax f => some (compVfmax f)
  | .vdiv f => some (compVdiv f)
  | .vsqrt f => some (compVsqrt f)
  | .vrcp f => some (compVrcp f)
  | .vrsq f => some (compVrsq f)
  | .vexp2 f => some (compVexp2 f)
  | .vlog2 f => some (compVlog2 f)
  | .vtanh f => some (compVtanh f)
  | .vsin f => some (compVsin f)
  | .vcos f => some (compVcos f)
  | .vcmpEq f => some (compVcmpEq f)
  | .vcmpNe f => some (compVcmpNe f)
  | .vcmpLt f => some (compVcmpLt f)
  | .vcmpLe f => some (compVcmpLe f)
  | .vcmpGt f => some (compVcmpGt f)
  | .vcmpGe f => some (compVcmpGe f)
  | .vcmpLtu f => some (compVcmpLtu f)
  | .vcmpGeu f => some (compVcmpGeu f)
  | .vsel f => some (compVsel f)
  | .vcvt f => some (compVcvt f)
  | .vscale f => some (compVscale f)
  | .vqnt f => some (compVqnt f)
  | .vdqnt f => some (compVdqnt f)
  | .vrotr f => some (compVrotr f)
  | .vrotc f => some (compVrotc f)
  | .vbcr f => some (compVbcr f)
  | .vbcc f => some (compVbcc f)
  | .vredr f => some (compVredr f)
  | .vredc f => some (compVredc f)
  | .vreda f => some (compVreda f)
  | .viota f => some (compViota f)
  | .vspl f => some (compVspl f)
  | .vext f => some (compVext f)
  | .vins f => some (compVins f)
  | .vcoal f => some (compVcoal f)
  | .vlen f => some (compVlen f)
  | .vocc f => some (compVocc f)
  | _ => none

/-- Exposed latency in X slots of an instruction of majors 0x20 to 0x25 (R212). -/
def latencyOf : Instr → Nat
  | .vrotr _ | .vbcr _ | .vredc _ => 3
  | .vfadd _ | .vfsub _ | .vfmul _ | .vfma _ | .vfmin _ | .vfmax _ | .vcvt _ | .vscale _ | .vqnt _ | .vdqnt _ => 4
  | .vredr _ => 6
  | .vdiv _ | .vsqrt _ | .vrcp _ | .vrsq _ | .vexp2 _ | .vlog2 _ | .vtanh _ | .vsin _ | .vcos _ => 8
  | .vreda _ => 9
  | _ => 2

/-! ## The value being built -/

/-- The register v2047 names inside a body (R317). -/
def bodyReg : Nat := 2047

/-- The descriptor and runs of an outcome. -/
def VOut.reg (o : VOut) : VReg := { runs := o.runs, len := o.len, tag := BitVec.ofNat 5 o.tag }

def VReg.isDropped (x : VReg) : Bool :=
  match x.st with
  | .dropped _ => true
  | _ => false

/-- A register as a reader sees it. -/
def Burner.look (b : Burner) (k : Rd) (r : Nat) : VReg :=
  match (b.cur r).st with
  | .dropped _ => b.cur r
  | _ => b.readAt k r

/-- An operand as a replay of register r reads it: as VTAG read it, where that was inside the operand's exposure window, else as
it stands, since no later write leaves r TAGGED or DROPPED (R226, R228; log 21). -/
def Burner.opFor (b : Burner) (r x : Nat) : VReg :=
  match (tabGet {} b.tagOps r).ops.find? (·.1 == x) with
  | some p => p.2
  | none => b.cur x

/-- A state whose acting burner's banks have the formats under which register r's recipe read its rows (R73, R226), and the
formats as they stand put back. -/
def State.tagFmts (r : Nat) (s : State) : State :=
  match (tabGet {} s.b.tagOps r).fmts with
  | [] => s
  | ws => s.modB fun b => { b with bfmt := Vector.ofFn fun i => ws.getD i.val 0 }
def State.ownFmts (old s : State) : State := s.modB fun b => { b with bfmt := old.b.bfmt }

/-- The last-read count of a register set by a read of it (R220). DESIGN CHOICE (log 156): the burner's count goes up by one for
each vector source field of an instruction, and for each operand of a replay or a VTAG. -/
def touch (r : Nat) (b : Burner) : Burner :=
  { b.setV r { b.cur r with last := b.reads + 1 } with reads := b.reads + 1 }

/-- A fault of a replay or of a body: its cause, TADDR, RINFO and inner code (R229, R370, R372). -/
structure RFault where
  c : Cause
  addr : Nat := 0
  rinfo : BitVec 16 := 0
  inner : Nat := 0
deriving DecidableEq, Repr

/-- One body instruction on the built value, operands read by `op`: the state, and its outcome or a fault (R225, R317). -/
def bodyStep (op : Burner → Nat → VReg) (x : RSlot) (drm : BitVec 3) (built : VReg) (s : State) : State × Except RFault VOut :=
  let rd (r : Nat) : VReg := if r = bodyReg then built else op s.b r
  let p := pfxOf x.pfx
  let ld (f : MForm) (m : MF) : State × Except RFault VOut :=
    match loadRun f m p drm 0 x.va x.vb [] { s with pace := 0 } with
    | .ok s1 out _ _ _ => ({ s1 with pace := s.pace }, .ok out)
    | .bad c a _ _ => (s, .error { c := c, addr := a })
    | .pause .. => (s, .error { c := .recipeIllegal })
  match x.ins with
  | .vld m => ld .lin m
  | .vldRot m => ld .rot m
  | .vldz m => ld .tile m
  | .vldm m => ld .strided m
  | i => match compOf i with
    | none => (s, .error { c := .recipeIllegal })
    | some f => match f ⟨rd, allLanes, p, drm, s.b.sr, x.va, x.vb⟩ with
      | .error c => (s, .error { c := c })
      | .ok out => (s, .ok out)

/-- A body's instructions in order (R434): `hold` slots are held besides the burner's own, `inUse` registers are not dropped.
Answers the last result and the flags of all, or a fault with the slot it came from. -/
def bodyGo (op : Burner → Nat → VReg) (drm : BitVec 3) (hold : Nat) (inUse : List Nat) :
    List RSlot → Nat → VReg → FSum → State → State × Except (RFault × Nat) (VReg × FSum)
  | [], _, built, fs, s => (s, .ok (built, fs))
  | x :: xs, k, built, fs, s =>
    match bodyStep op x drm built s with
    | (s1, .error e) => (s1, .error (e, k))
    | (s1, .ok out) =>
      let n := hold + built.runs.length + out.runs.length
      let r := makeRoom n inUse 2048 s1.b
      if r.2 < n then ({ s1 with b := r.1 }, .error ({ c := .runOverflow }, k))
      else bodyGo op drm hold inUse xs (k + 1) out.reg (fs.join out.fs) { s1 with b := r.1 }

/-- Distinct numbers, ascending. -/
def insertNat (x : Nat) : List Nat → List Nat
  | [] => [x]
  | y :: t => if x < y then x :: y :: t else if x = y then y :: t else y :: insertNat x t
def sortNat (xs : List Nat) : List Nat := xs.foldr insertNat []

/-- Acts on registers in turn, stopping at the first fault. -/
def eachReg (f : Nat → State → State × Option RFault) : List Nat → State → State × Option RFault
  | [], s => (s, none)
  | r :: rs, s => match f r s with
    | (s1, some e) => (s1, some e)
    | (s1, none) => eachReg f rs s1

/-- A recipe's operand registers but the built value. -/
def Recipe.ops (r : Recipe) : List Nat := sortNat (r.reads.filter (· != bodyReg))

/-- R226, R229: a DROPPED register replayed, its DROPPED operands first; `fuel` bounds the nesting (R227). -/
def replayReg (hold : Nat) : Nat → List Nat → Nat → State → State × Option RFault
  | 0, _, _, s => (s, none)
  | fuel + 1, inUse, r, s =>
    match (s.b.cur r).st with
    | .dropped k =>
      match s.b.recipe k with
      | none => (s, none)
      | some rc =>
        let inner := r :: rc.ops ++ inUse
        match eachReg (replayReg hold fuel inner) rc.ops s with
        | (s1, some e) => (s1, some e)
        | (s1, none) =>
          let s1 := s1.modB fun b => rc.ops.foldl (fun b x => touch x b) b
          match bodyGo (fun b x => b.opFor r x) rc.drm hold inner rc.slots 0 VReg.empty {} (s1.tagFmts r) with
          | (s2, .error (e, j)) =>
            (State.ownFmts s1 s2, some { c := .recipeReplay, rinfo := 0x8000 ||| BitVec.ofNat 16 (j % 4 * 64 + k % 64)
                                         inner := e.c.code })
          | (s2, .ok (x, _)) =>
            ((State.ownFmts s1 s2).modB fun b => b.setV r { x with st := .tagged k, last := (b.cur r).last }, none)
    | _ => (s, none)

/-- Replays of the DROPPED registers among rs. -/
def replayAll (hold : Nat) (inUse rs : List Nat) (s : State) : State × Option RFault :=
  eachReg (replayReg hold 5 inUse) rs s

/-! ## Writing a vector register -/

/-- Registers whose recipe reads r, TAGGED or DROPPED, ascending (R228). -/
def Burner.dependents (b : Burner) (r : Nat) : List Nat :=
  (b.v.filter fun p => match p.2.st with
    | .tagged k | .dropped k => match b.recipe k with
      | some rc => rc.ops.contains r
      | none => false
    | .plain => false).map (·.1)

/-- A register made PLAIN. -/
def makePlain (r : Nat) (b : Burner) : Burner :=
  { b.setV r { b.cur r with st := .plain } with tagOps := b.tagOps.filter (·.1 != r) }

/-- R228, before register d is written: each dependent register replayed and made PLAIN. -/
def freeDependents (d hold : Nat) (inUse : List Nat) (s : State) : State × Option RFault :=
  eachReg (fun r s => match replayReg hold 5 inUse r s with
    | (s1, some e) => (s1, some e)
    | (s1, none) => (s1.modB (makePlain r), none)) (s.b.dependents d) s

/-- R228, then R445 when `old` says the old lane words stay readable; a fault, and whether it is one of R445, which leaves the
writing instruction without effect. -/
def beforeWrite (d : Nat) (old : Bool) (hold : Nat) (inUse : List Nat) (s : State) : State × Option (RFault × Bool) :=
  match freeDependents d hold inUse s with
  | (s1, some e) => (s1, some (e, false))
  | (s1, none) =>
    if !old then (s1, none)
    else match replayReg hold 5 inUse d s1 with
      | (s2, some e) => (s2, some (e, true))
      | (s2, none) => (s2, none)

/-- The write itself by queue q with exposed latency lat (R212-R214, R224): a window keeps the old value, and a write without
latency hides every earlier one of the queue; earlier writes of the other queues are superseded, and those queues' readers may
take the value before this one (R179), unless it is DROPPED and the write needed no replay of it (R445). -/
def putV (q : Queue) (d lat : Nat) (x : VReg) (b : Burner) : Burner :=
  let old := { b.cur d with st := VSt.plain }
  let w0 := b.win.map fun w => if w.reg == d && w.q != q then { w with sup := true } else w
  let w := if lat = 0 then w0.filter fun w => !(w.reg == d && w.q == q)
    else w0 ++ [{ q := q, reg := d, due := b.slot q + lat, old := old }]
  { b.setV d { x with last := old.last } with
    win := w, tagOps := b.tagOps.filter (·.1 != d)
    hist :=
      let n := (b.know q).of q
      let rest := b.hist.filter fun h => !(h.q == q && h.reg == d)
      { q := q, reg := d, n := n, old := old, pair := rest.any fun h => h.q == q && h.reg + 1 == d && h.n == n
        shown := if (b.cur d).isDropped then [.l, .x, .s] else [] } :: rest }

/-- Whole segments that fit in n free slots: how many, and their runs. -/
def segsFit : List Nat → Nat → Nat × Nat
  | [], _ => (0, 0)
  | k :: t, n => if k ≤ n then let r := segsFit t (n - k); (r.1 + 1, k + r.2) else (0, 0)

/-- A fault of a replay as a queue entry's trap, at its μPC with its partial result. -/
def Res.replay (e : RFault) (upc : Nat) (part : Runs) (s : State) : Res := .trap e.c (w64 e.addr) upc part e.rinfo e.inner s
/-- A fault before a register is written: one of R445 leaves no effect, so nothing of the entry is done (R229). -/
def Res.unwritten (e : RFault × Bool) (upc : Nat) (part : Runs) (s : State) : Res :=
  if e.2 then .replay e.1 0 [] s else .replay e.1 upc part s

end Sys2Proof.Machine
end

