-- ==== Sys2Proof/Machine/VIssue.lean ====
section
/-! DEFINITION. How the X queue performs vector instructions, mask instructions and recipe instructions (majors 0x20 to 0x27;
spec/12_vector_arithmetic.md R283-R288; spec/13_vector_shape_masks_recipes.md R303-R320). -/
namespace Sys2Proof.Machine

/-- R228 and R445 for each register of a list that an instruction writes. -/
def beforeWrites (old : Bool) (hold : Nat) (inUse : List Nat) : List Nat → State → State × Option (RFault × Bool)
  | [], s => (s, none)
  | d :: ds, s => match beforeWrite d old hold inUse s with
    | (s1, some x) => (s1, some x)
    | (s1, none) => beforeWrites old hold inUse ds s1

/-- The result of a vector instruction placed in v(d), and its second result in v(d + 1): R228 and R445, while the entry's held
segments `part` keep their slots, then slots found by R223, RUN_OVERFLOW with the segments completed, or with the μPC given
where segments do not count (R322), then the write, flags and the generator (R287, R288). `upc` and `part` are the entry's own,
for a fault that leaves it where it stood. An act with a share stops when it has completed that many segments (R215). DESIGN
CHOICE (log 159): the dependents are PLAIN before slots are found, so that they are not dropped for the result's segments, and
they stay PLAIN after its RUN_OVERFLOW. -/
def placeOut (q : Queue) (d lat : Nat) (inUse : List Nat) (upc : Nat) (part : Runs) (bySeg : Bool) (out : VOut) (s : State) : Res :=
  let more := match out.snd with
    | some (r, _, _) => r
    | none => []
  let runs := out.runs ++ more
  let segs := (if out.segs.isEmpty then List.replicate out.runs.length 1 else out.segs) ++ List.replicate more.length 1
  let stop := bySeg && s.pace != 0 && decide (upc < segs.length)
  let k := min (upc + s.pace) segs.length
  let n := if stop then sumNat (segs.take k) else runs.length
  match beforeWrites (decide (0 < lat)) part.length inUse (d :: if out.snd.isSome then [d + 1] else []) s with
  | (s1, some x) => .unwritten x upc part s1
  | (s1, none) =>
    let r := makeRoom n inUse 2048 s1.b
    let s2 := { s1 with b := r.1 }
    if r.2 < n then
      let f := segsFit segs r.2
      .trap .runOverflow 0 (if bySeg then f.1 else upc) (if bySeg then runs.take f.2 else part) 0 0 s2
    else if stop then .pause k (runs.take n) s2
    else
      let fin (b : Burner) : Burner := { b.raise out.fs with sr := srAfter out.adv b.sr }
      match out.snd with
      | none => .done (s2.modB fun b => fin (putV q d lat out.reg b))
      | some (r2, l2, t2) => .done (s2.modB fun b =>
          fin (putV q (d + 1) lat { runs := r2, len := l2, tag := BitVec.ofNat 5 t2 } (putV q d lat out.reg b)))

/-- What a vector instruction at the X queue's slot reads; `old` stands for the destination (R445). -/
def vecEnv (e : Entry) (d : Nat) (old : VReg) (s : State) : VEnv :=
  ⟨fun r => if r = d then old else s.b.look (s.b.reader .x e) r, s.b.topMask, pfxOf e.pfx, s.b.drm, s.b.sr, lo32 e.va, lo32 e.vb⟩

/-- Majors 0x20 to 0x25: formats tested on the descriptors before any replay, sources replayed, a DROPPED destination replayed
after its dependents (R228, R445), then computed. Between two segments the result stands with the entry (R215). -/
def issueVec (i : Instr) (e : Entry) (s : State) : Res :=
  match compOf i, vdst i with
  | some f, some d =>
    let srcs := vsrcs i
    let inUse := (match i with
      | .vqnt _ => [d, d + 1]
      | _ => [d]) ++ srcs
    let place (out : VOut) (s : State) : Res := placeOut .x d (latencyOf i) inUse e.upc e.part true out s
    let hold (out : VOut) (s : State) : State :=
      s.modB fun b => (b.setHead .x fun h => { h with out := some out }).obtain (b.reader .x e) srcs
    match e.out with
    | some out => place out s
    | none =>
    let old (s : State) : VReg := s.b.look (s.b.reader .x e) d
    match f (vecEnv e d (old s) s) with
    | .error c => .fault c s
    | .ok _ =>
      match replayAll e.part.length inUse srcs s with
      | (s1, some x) => .replay x e.upc e.part s1
      | (s1, none) =>
        let s2 := s1.modB fun b => srcs.foldl (fun b r => touch r b) b
        match (if (s2.b.cur d).isDropped then beforeWrite d true e.part.length inUse s2 else (s2, none)) with
        | (t, some x) => .unwritten x e.upc e.part t
        | (t, none) => match f (vecEnv e d (old t) t) with
          | .error c => .fault c t
          | .ok out => match place out t with
            | .pause u p t => .pause u p (hold out t)
            | .trap c a u p ri inn t => .trap c a u p ri inn (if u = 0 then t else hold out t)
            | r => r
  | _, _ => .done s

/-! ## The mask stack (R310-R314) -/

/-- 1,024 bits. -/
def bitsOf (f : Nat → Bool) : BitVec 1024 :=
  BitVec.ofNat 1024 ((List.range 1024).foldr (fun i n => 2 * n + if f i then 1 else 0) 0)
def segBits (s : Seg Bool) : BitVec 1024 :=
  let xs := (s.flatMap fun p => List.replicate p.2 p.1).toArray
  bitsOf fun i => xs.getD i false
/-- The entry below the top and the top. -/
def Burner.topBits (b : Burner) : BitVec 1024 := b.mask.headD (BitVec.allOnes 1024)
/-- True lane words of a view (R312), as segments. -/
def View.trueSeg (v : View) : Seg Bool := (takeSeg v.len v.runs).map fun r => (r.1 != 0, r.2)

/-- A source of a mask instruction, replayed when DROPPED. -/
def maskSource (f : VF) (e : Entry) (s : State) : State × Except RFault View :=
  match replayAll 0 [f.a.toNat] [f.a.toNat] s with
  | (s1, some x) => (s1, .error x)
  | (s1, none) =>
    let s2 := s1.modB (touch f.a.toNat)
    (s2, .ok (viewOf (s2.b.look (s2.b.reader .x e) f.a.toNat) f.ha.toNat f.swza.toNat))

/-- MPUSH (R311). -/
def issueMpush (f : VF) (e : Entry) (s : State) : Res :=
  if 8 ≤ s.b.mask.length then .fault .maskDepth s
  else match maskSource f e s with
    | (s1, .error x) => .replay x 0 [] s1
    | (s1, .ok v) => .done (s1.modB fun b => { b with mask := (b.topBits &&& segBits v.trueSeg) :: b.mask })
/-- MINV (R311). -/
def issueMinv (_ : VF) (_ : Entry) (s : State) : Res :=
  match s.b.mask with
  | [] => .fault .maskDepth s
  | m :: ms => .done (s.modB fun b => { b with mask := (ms.headD (BitVec.allOnes 1024) &&& ~~~m) :: ms })
/-- MPOP (R311). -/
def issueMpop (_ : VF) (_ : Entry) (s : State) : Res :=
  match s.b.mask with
  | [] => .fault .maskDepth s
  | _ :: ms => .done (s.modB fun b => { b with mask := ms })
/-- MTEST (R311). -/
def issueMtest (f : VF) (_ : Entry) (s : State) : Res :=
  placeOut .x f.d.toNat 0 [f.d.toNat] 0 [] false
    { runs := s.b.topMask.map fun p => (if p.1 then 0xFFFFFFFF else 0, p.2), len := 1024, tag := 9 } s

/-- The condition-queue entry of VCQ (R313). -/
def vcqEntry (sel : Nat) (part hit : BitVec 1024) : DWord :=
  match sel with
  | 0 => if hit != 0 then 1 else 0
  | 1 => if hit == part then 1 else 0
  | _ => w64 (sumNat ((List.range 64).map fun t => if hit.extractLsb' (16 * t) 16 != 0 then 2 ^ t else 0))
/-- VCQ (R313). -/
def issueVcq (f : VF) (e : Entry) (s : State) : Res :=
  match maskSource f e s with
  | (s1, .error x) => .replay x 0 [] s1
  | (s1, .ok v) =>
    let top := s1.b.topBits
    let part := top &&& bitsOf fun i => decide (i < v.len)
    let hit := top &&& segBits v.trueSeg
    .done (s1.modB fun b => { b with
      cq := b.cq ++ [vcqEntry (f.b.toNat % 4) part hit], cqc := b.cqc ++ [(b.reader .x e).know.bump .x] })

/-! ## Recipes (R315-R320) -/

/-- The registers attached to an entry, ascending. -/
def Burner.attached (b : Burner) (k : Nat) : List Nat :=
  (b.v.filter fun p => p.2.st == .tagged k || p.2.st == .dropped k).map (·.1)

/-- RDEF at the X queue (R318). -/
def issueRdef (f : VF) (e : Entry) (s : State) : Res :=
  let k := f.d.toNat % 64
  if s.b.rcp ≤ k then .fault .illegalOperand s
  else match eachReg (fun r s => match replayReg 0 5 [r] r s with
      | (s1, some x) => (s1, some x)
      | (s1, none) => (s1.modB (makePlain r), none)) (s.b.attached k) s with
    | (s1, some x) => .replay x 0 [] s1
    | (s1, none) => .done (match e.body with
      | none => s1
      | some rc => s1.modB fun b => { b with recipes := tabSet b.recipes k rc })

/-- The first fault of a body's instructions that no replay and no room decides (R322's ranks 1, 2 and 5): it is found with
every DROPPED operand standing for its descriptor, one run of its length. -/
def bodyCause (op : Burner → Nat → VReg) (drm : BitVec 3) : List RSlot → VReg → State → Option RFault
  | [], _, _ => none
  | x :: xs, built, s =>
    let shape (b : Burner) (r : Nat) : VReg :=
      let v := op b r
      if v.isDropped && v.len != 0 then { v with runs := [(0, v.len)] } else v
    match bodyStep shape x drm built s with
    | (_, .error e) => if e.c == .illegalOperand || e.c == .illegalRounding || e.c == .formatMismatch then some e else none
    | (_, .ok out) => bodyCause op drm xs out.reg s

/-- The body instructions that read rows (R317). -/
def readsRows : Instr → Bool
  | .vld _ | .vldRot _ | .vldz _ | .vldm _ => true
  | _ => false

/-- VTAG (R319): operands as they stand at its slot, the body, then the write with R228; where an operand was read inside an
exposure window, or before another queue's write, the value read is kept for later replays (R226; log 21). -/
def issueVtag (f : VF) (e : Entry) (s : State) : Res :=
  let k := f.a.toNat % 64
  let d := f.d.toNat
  if s.b.rcp ≤ k then .fault .illegalOperand s
  else match s.b.recipe k with
    | none => .fault .recipeState s
    | some rc =>
      if rc.ops.contains d then .fault .recipeState s
      else
        let inUse := d :: rc.ops
        let rd (b : Burner) (r : Nat) : VReg := b.look (b.reader .x e) r
        match bodyCause rd rc.drm rc.slots VReg.empty s with
        | some x => .replay x 0 [] s
        | none => match replayAll 0 inUse rc.ops s with
          | (s1, some x) => .replay x 0 [] s1
          | (s1, none) =>
            let seen := (rc.ops.map fun r => (r, rd s1.b r)).filter fun p => !(p.2.runs == (s1.b.cur p.1).runs &&
              p.2.len == (s1.b.cur p.1).len && p.2.tag == (s1.b.cur p.1).tag)
            match bodyGo rd rc.drm 0 inUse rc.slots 0 VReg.empty {} (s1.modB fun b => rc.ops.foldl (fun b r => touch r b) b) with
            | (s2, .error (x, _)) => .replay x 0 [] s2
            | (s2, .ok (x, fs)) => match beforeWrite d false x.runs.length inUse s2 with
              | (s3, some y) => .unwritten y 0 [] s3
              | (s3, none) => .done (s3.modB fun b =>
                let b1 := (putV .x d 0 { x with st := .tagged k } b).raise fs
                let kept : TagIn := ⟨seen, if rc.slots.any fun y => readsRows y.ins then b.bfmt.toList else []⟩
                if kept = {} then b1 else { b1 with tagOps := tabSet b1.tagOps d kept })

/-- VUNTAG (R320). -/
def issueVuntag (f : VF) (_ : Entry) (s : State) : Res :=
  match replayReg 0 5 [f.d.toNat] f.d.toNat s with
  | (s1, some x) => .replay x 0 [] s1
  | (s1, none) => .done (s1.modB (makePlain f.d.toNat))

/-- VDROP (R320). -/
def issueVdrop (f : VF) (_ : Entry) (s : State) : Res :=
  let d := f.d.toNat
  let b := s.b
  if isTagged (b.cur d).st && !(b.win.any fun w => w.reg == d) && dropDepthOk b d then
    .done (s.modB fun b => b.setV d (b.cur d).drop)
  else .done s

end Sys2Proof.Machine
end

