-- ==== Sys2Proof/Machine/VMem.lean ====
section
/-! DEFINITION. How the L and S queues perform vector loads and stores (spec/14_matrix_and_engines.md R323-R326). -/
namespace Sys2Proof.Machine

/-- The partial result of a load whose completed rows have these images: the lane words they give, and in a tile or a BPIk bank
the words of the rows (R215; log 22). -/
def loadPart (f : MForm) (c : MCtl) (fmt : Nat) (imgs : List (List Word)) : Runs :=
  canonWords (if f = .tile || isBPI fmt then imgs.flatten else ((imgs.flatten).drop c.k).take c.n)
/-- How many of the rows read have a partial result that fits in n slots. -/
def rowsFit (part : List (List Word) → Runs) (imgs : List (List Word)) (n : Nat) : Nat :=
  (List.range (imgs.length + 1)).foldl (fun m k => if (part (imgs.take k)).length ≤ n then k else m) 0
/-- A load of v(d) that traps after rows it has read: their partial result takes slots by R223, and the rows that find none are
read again; `whole`: a row without slots is itself the fault, RUN_OVERFLOW. `keep` holds the rows with the entry. -/
def stopLoad (d : Nat) (part : List (List Word) → Runs) (keep : List (List Word) → State → State) (whole : Bool)
    (imgs : List (List Word)) (c : Cause) (a : DWord) (ri : BitVec 16) (inn : Nat) (s : State) : Res :=
  let r := makeRoom (part imgs).length [d] 2048 s.b
  let k := rowsFit part imgs r.2
  let s1 := keep (imgs.take k) { s with b := r.1 }
  if whole && decide (k < imgs.length) then .trap .runOverflow 0 k (part (imgs.take k)) 0 0 s1
  else .trap c a k (part (imgs.take k)) ri inn s1

/-- The format word that an entry's rows so far were accessed under (R73), none where it has none yet. -/
def Entry.heldFmt (e : Entry) (fresh : Bool) : Option Word := if fresh then none else some e.bf
/-- The format word of the first row kept with the head of a queue that has `n` rows, as it was held or stood before the act. -/
def State.keepFmt (s : State) (q : Queue) (held : Option Word) (wr : Bool) (base n : Nat) (was : State) : State :=
  match firstFmt held wr base was with
  | .ok w => if n = 0 then s else s.modB fun b => b.setHead q fun h => { h with bf := w }
  | .error _ => s

/-- A load (R324): rows from the μPC on, a remote access logged when it retires (R394 kind 4), then slots and the write. The
event is met first, so that replay delivers the logged rows, and only a load that retires keeps it. It stands between two rows
where their partial result finds slots. -/
def issueLoad (form : MForm) (f : MF) (e : Entry) (s : State) : Res :=
  let d := f.d.toNat
  let base := rowBase (lo32 e.va) f.off
  let held := e.heldFmt e.imgs.isEmpty
  let fmt := match firstFmt held false base s with
    | .ok w => bfFmt w
    | .error _ => 0
  let part (imgs : List (List Word)) : Runs := loadPart form ((mctl form true (lo32 e.vb)).getD {}) fmt imgs
  let keep (imgs : List (List Word)) (s1 : State) : State :=
    (s1.keepFmt .l held false base imgs.length s).modB fun b => b.setHead .l fun h => { h with imgs := imgs }
  let stop (whole : Bool) (imgs : List (List Word)) (c : Cause) (a : DWord) (ri : BitVec 16) (inn : Nat) (s1 : State) : Res :=
    stopLoad d part keep whole imgs c a ri inn s1
  let run (s : State) : LdRes := loadFrom held form f (pfxOf e.pfx) s.b.drm e.ko (lo32 e.va) (lo32 e.vb) e.imgs s
  let room (imgs : List (List Word)) (s1 : State) : Burner × Nat := makeRoom (part imgs).length [d] 2048 s1.b
  let got := match run s with
    | .pause s1 imgs => if (room imgs s1).2 < (part imgs).length then run { s with pace := 0 } else .pause s1 imgs
    | r => r
  match got with
  | .bad c a _ imgs => stop true imgs c (w64 a) 0 0 s
  | .pause s1 imgs => .pause imgs.length (part imgs) (keep imgs { s1 with b := (room imgs s1).1 })
  | .ok s1 out rem imgs mk =>
    let place (lat : Nat) (out : VOut) (s2 : State) : Res := placeOut .l d lat [d] imgs.length [] false out s2
    let landed (r : Res) : Res := match r with
      | .trap c a n _ ri inn t => stop false (imgs.take n) c a ri inn t
      | r => r
    if rem then
      match logEvent 4 e.iaddr e.rseq (BitVec.ofNat 128 imgs.length) (imgs.flatten.flatMap wordBytes) s1 with
      | .bad c t => stop false imgs c t 0 0 s1
      | .ok s2 _ rows =>
        let lg := chunks 64 (wordsOfBytes rows (rows.length / 4))
        let o := if s2.b.rpMode = 2 then mk lg else out
        match place 0 o s1 with
        | .done _ => place 0 o s2
        | r => landed r
    else landed (place 6 out s1)

/-- A store (R325): rows from the μPC on; a DROPPED source is replayed after every row was checked (R326). The register is taken
when the store begins (R179), and rows it has issued and not performed have their pending bits set (R388). -/
def issueStore (form : MForm) (f : MF) (e : Entry) (s : State) : Res :=
  let p := pfxOf e.pfx
  let base := rowBase (lo32 e.va) f.off
  match mctl form false (lo32 e.vb) with
  | none => .fault .illegalOperand s
  | some c =>
    let held := e.heldFmt (e.upc == 0)
    if held.isNone && (baseFmt true base s).any (quarterBad form c) then .fault .illegalOperand s
    else match roundNoSr p f.rm s.b.drm with
    | none => .fault .illegalRounding s
    | some m =>
      let o : RMode := { rm := m, sat := p.sat }
      let d := f.d.toNat
      let look (s : State) : VReg := s.b.look (s.b.reader .s e) d
      let x := e.src.getD (look s)
      if x.len = 0 then .done s
      else match firstFmt held true base s with
        | .error k => .trap k (w64 base) e.upc [] 0 0 s
        | .ok bf =>
          let fmt := bfFmt bf
          let plan (x : VReg) : List RowPut × FSum :=
            let r := storeWords x fmt o
            let n := if x.tag.toNat = fmt || x.tag.toNat = 0 || fmt = 0 then x.len * elN fmt else x.len * elN x.tag.toNat
            (storePlan form c fmt (bfZ bf) base n r.1, r.2)
          let go (x : VReg) (s : State) : Res :=
            let r := plan x
            let seen (b : Burner) : Burner := b.obtain (b.reader .s e) (if e.src.isNone then [d] else [])
            let g := s.modB fun b => { b.setHead .s fun h => { h with src := some x } with stPend := [] }
            match rowsWrite e.ko fmt (r.1.drop e.upc) (if e.begun then 0 else 1) e.upc g with
            | (s1, some (none, _, n)) =>
              .pause n [] ((s1.keepFmt .s held true base n s).modB fun b => { seen b with stPend := ownRows s1 (r.1.drop n) })
            | (s1, some (some k, a, n)) => .trap k (w64 a) n [] 0 0 ((s1.keepFmt .s held true base n s).modB seen)
            | (s1, none) => .done (s1.modB fun b => (touch d b).raise r.2)
          match e.src, x.st with
          | none, .dropped _ =>
            match rowsCheck s fmt (plan { x with runs := [(0, x.len)] }).1 with
            | .error (k, a) => .trap k (w64 a) 0 [] 0 0 s
            | .ok () => match replayReg 0 5 [d] d s with
              | (s1, some y) => .replay y 0 [] s1
              | (s1, none) => go (look s1) s1
          | _, _ => go x s

end Sys2Proof.Machine
end

