-- ==== Sys2Proof/Machine/Matrix.lean ====
section
/-! DEFINITION. How the X queue performs matrix instructions, majors 0x36 to 0x39 (spec/14_matrix_and_engines.md R327-R334). -/
namespace Sys2Proof.Machine

/-! ## Slots, tiles and their windows -/

def Burner.oslot (b : Burner) (k : Nat) : OSlot := if h : k < 8 then b.ops[k] else {}
def Burner.setOslot (b : Burner) (k : Nat) (o : OSlot) : Burner := if h : k < 8 then { b with ops := b.ops.set k o h } else b
def Burner.tile (b : Burner) (k : Nat) : AccTile := if h : k < 4 then b.acc[k] else {}
def Burner.setTile (b : Burner) (k : Nat) (t : AccTile) : Burner := if h : k < 4 then { b with acc := b.acc.set k t h } else b

/-- The value of the latest earlier write whose latency has elapsed at matrix slot t, from windows oldest first (R213). -/
def mxValue {α : Type} (t : Nat) (cur : α) : List (Nat × Nat × α) → α
  | [] => cur
  | w :: ws => if (w :: ws).any fun x => decide (x.2.1 ≤ t) then mxValue t cur ws else w.2.2

/-- A tile as an ARD sees it, and a slot as an MMA sees it (R332). -/
def Burner.tileAt (b : Burner) (k : Nat) : AccTile := mxValue b.slotM (b.tile k) (b.accWin.filter (·.1 == k))
def Burner.oslotAt (b : Burner) (k : Nat) : OSlot := mxValue b.slotM (b.oslot k) (b.opWin.filter (·.1 == k))

/-- A tile write visible to ARD after lat matrix slots (R212). -/
def Burner.writeTile (b : Burner) (k lat : Nat) (t : AccTile) : Burner :=
  { b.setTile k t with accWin := b.accWin ++ [(k, b.slotM + lat, b.tile k)] }

/-- A tile's words: 4,096 of them, 0 where nothing was written. -/
def AccTile.word (t : AccTile) (i : Nat) : Word := t.ws.getD i 0

/-! ## Leases -/

/-- Waits for the lease and counts a matrix command when it is performed (R328). -/
def leased (f : State → Res) (s : State) : Res :=
  if !s.b.enrolled then .fault .matrixLease s
  else
    let s1 := if s.holdsLease then s else askLease s
    if s1.holdsLease then
      match f s1 with
      | .done s2 => .done (countLease s2)
      | r => r
    else .wait s1

/-- MLEASE (R328): stalls until the lease is granted; no effect while enrolled. -/
def issueMlease (_ : XF) (_ : Entry) (s : State) : Res :=
  if s.b.enrolled then .done s
  else
    let s1 := if s.holdsLease then s else askLease s
    if s1.holdsLease then .done (s1.modB fun b => { b with enrolled := true }) else .wait s1

/-- MFREE (R328): leaves the rotation; it counts 16 matrix slots (R211), one of which is its own issue. -/
def issueMfree (_ : XF) (_ : Entry) (s : State) : Res :=
  let s1 := if s.b.enrolled then grantLease (s.b.core / 4) (dropLease s.b.core s.b.bur s) else s
  .done (s1.modB fun b => { b with slotM := b.slotM + 15 })

/-- OTAKE (R329): the contents of a newly bound slot are free values. -/
def issueOtake (f : XF) (_ : Entry) (s : State) : Res :=
  let k := f.oa.toNat
  if s.b.resOps ≤ k then .fault .illegalOperand s
  else if (s.b.oslot k).bound then .fault .matrixSlot s
  else
    let t := s.tick
    .done { s with
      tick := t + 1
      b := s.b.setOslot k { bound := true, tag := Config.slotTag t
                            els := (List.range 64).map fun r => (List.range 64).map fun c => Config.slotEl t r c } }

/-- OGIVE (R329). -/
def issueOgive (f : XF) (_ : Entry) (s : State) : Res :=
  let k := f.oa.toNat
  if s.b.resOps ≤ k then .fault .illegalOperand s
  else if !(s.b.oslot k).bound then .fault .matrixSlot s
  else .done (s.modB fun b => { b.setOslot k {} with opWin := b.opWin.filter (·.1 != k) })

/-! ## OFILL (R330) -/

/-- Columns of an operand of an element width. -/
def operandK (w : Nat) : Nat := if w = 32 then 32 else 64

/-- The 64 × Kt elements of a tile from its row images: for a BPIk bank `pl` planes a group. -/
def fillEls (fmt pl : Nat) (z tr : Bool) (kh : Nat) (imgs : List (List Word)) : List (List Nat) :=
  let w := elW fmt
  let groups := chunks pl imgs
  let rows := imgs.toArray
  (List.range 64).map fun r => (List.range (operandK w)).map fun c =>
    let p := tilePos z tr r (c + 32 * kh)
    if isBPI fmt then planeEl pl (groups.getD (p / 2048) []) (p % 2048)
    else sub fmt ((rows.getD (posRow w p) []).getD (p * w % 2048 / 32) 0) (p % (32 / w))

/-- A slot retagged by a prefix (R330): the codes stand where the element width is the same; spec/ gives no value else. -/
def retag (cs ct : Nat) (els : List (List Nat)) : List (List Nat) :=
  if elW cs = elW ct then els
  else (List.range 64).map fun r => (List.range (operandK (elW ct))).map fun c => Config.retagEl cs ct els r c % 2 ^ elW ct

/-- OFILL. A tile that lies in remote rows is visible at once (R40). DESIGN CHOICE (log 161): PK not 0 in a bank whose format is no
BPI format raises ILLEGAL_OPERAND. -/
def issueOfill (f : XF) (e : Entry) (s : State) : Res :=
  let k := f.oa.toNat
  let lay := lo32 e.vb
  let base := rowBase (lo32 e.va) 0
  let pk := (lay.extractLsb' 1 3).toNat
  let kh := (lay.extractLsb' 4 1).toNat
  let bad (bf : Word) : Bool :=
    let fmt := bfFmt bf
    (!isBPI fmt && pk != 0) || (isBPI fmt && decide (fmt - 0x10 < pk)) || (kh == 1 && elW fmt != 32)
  let held := e.heldFmt e.imgs.isEmpty
  if s.b.resOps ≤ k || lay.extractLsb' 5 27 != 0 || pk = 1 || (held.isNone && (baseFmt false base s).any bad) then
    .fault .illegalOperand s
  else leased (fun s =>
    if !(s.b.oslot k).bound then .fault .matrixSlot s
    else match firstFmt held false base s with
      | .error c => .faultAt c base s
      | .ok bf =>
        let fmt := bfFmt bf
        let w := elW fmt
        let kk := fmt - 0x10
        let pl := if !isBPI fmt then 1 else if pk = 0 then planesOf fmt (bfPl bf) else pk
        let plan := (List.range (2 * if isBPI fmt then kk else w)).map fun (i : Nat) => rowPlus base (i : Int)
        match rowsRead e.ko fmt none s e.imgs false 0 (plan.drop e.imgs.length) with
        | .error x => match x.c with
          | some c => .faultAt c x.addr (s.modB fun b => b.setHead .x fun h => { h with imgs := [] })
          | none => .pause 0 [] (x.s.modB fun b => b.setHead .x fun h => { h with imgs := x.imgs, bf := bf })
        | .ok (s1, imgs, _) =>
          let cs := if isBPI fmt then 0x10 + pl else fmt
          let read := if isBPI fmt then (chunks kk imgs).flatMap (·.take pl) else imgs
          let els := fillEls fmt pl (bfZ bf && !isBPI fmt) (lay.getLsbD 0) kh read
          let (ct, els) := match (pfxOf e.pfx).fmt with
            | some t => (t.toNat, retag cs t.toNat els)
            | none => (cs, els)
          let far := plan.any fun a => match meshResolve s.b.core a with
            | .ok (c, _) => c != s.b.core
            | .error _ => false
          .done (s1.modB fun b =>
            { b.setOslot k { bound := true, tag := BitVec.ofNat 5 ct, els := els } with
              opWin := if far then b.opWin.filter (·.1 != k) else b.opWin ++ [(k, b.slotM + 8, b.oslot k)] })) s

/-! ## MMA (R331) -/

/-- Integer tags of at most 8 bits, float tags of at most 8 bits, and those of the depth-16 class. -/
def mmaInt (c : Nat) : Bool := c == 0x0B || c == 0x0C || c == 0x0D || isBPI c
def mmaF8 (c : Nat) : Bool := 4 ≤ c && c ≤ 8
def mmaSmall (c : Nat) : Bool := c == 0x0D || c == 8 || (0x12 ≤ c && c ≤ 0x14)

/-- The chunk depth of a pairing and whether it accumulates integers. -/
def mmaPair (x y : Nat) : Option (Nat × Bool) :=
  if mmaInt x && mmaInt y then some (if mmaSmall x && mmaSmall y then 16 else 8, true)
  else if mmaF8 x && mmaF8 y then some (if mmaSmall x && mmaSmall y then 16 else 8, false)
  else if (x == 2 || x == 3) && (y == 2 || y == 3) then some (4, false)
  else if x == 1 && y == 1 then some (1, false)
  else none

/-- One chunk added to a float accumulator: a product 0 × ±inf and opposite infinities in the chunk raise NV. -/
def mmaF (o : RMode) (x y : Nat) (acc : Nat × Fx) (ps : List (Nat × Nat)) : Nat × Fx :=
  let p : List (FV × BitVec 7) := ps.map fun q => mulFV (elVal x q.1) (elVal y q.2)
  let invalid : BitVec 7 := if p.any (·.1 == .inf false) && p.any (·.1 == .inf true) then fNV else 0
  let t := match p with
    | [] => (FV.num false 0 0, (0 : BitVec 7))
    | h :: r => r.foldl (fun (t q : FV × BitVec 7) => ((addFV false t.1 q.1).1, t.2 ||| q.2)) (h.1, h.2 ||| invalid)
  let u := addFV false (ffFP32.val acc.1) t.1
  let r := ffFP32.deliver o u.1
  (r.1, ⟨acc.2.fl ||| r.2.fl ||| t.2 ||| u.2, acc.2.sat || r.2.sat⟩)
/-- One chunk added to an integer accumulator. -/
def mmaI (o : RMode) (x y : Nat) (acc : Nat × Fx) (ps : List (Nat × Nat)) : Nat × Fx :=
  let t := ps.foldl (fun (n : Int) (q : Nat × Nat) => n + intEl x q.1 * intEl y q.2) 0
  let r := intDeliver 9 (o.sat == 1) (intEl 9 acc.1 + t)
  (r.1, ⟨acc.2.fl ||| r.2.fl, acc.2.sat || r.2.sat⟩)

/-- One output element: the chunks of a row of A and a row of B in ascending k. -/
def mmaEl (q : Nat) (int : Bool) (o : RMode) (x y : Nat) (acc : Nat) (ra rb : List Nat) : Nat × Fx :=
  (chunks q (ra.zip rb)).foldl (if int then mmaI o x y else mmaF o x y) (acc, {})

/-- Every output element, row by row. -/
def mmaTile (q : Nat) (int : Bool) (o : RMode) (a b : OSlot) (acc : Nat → Nat) : List (Nat × Fx) :=
  a.els.zipIdx.flatMap fun ra => b.els.zipIdx.map fun rb =>
    mmaEl q int o a.tag.toNat b.tag.toNat (acc (64 * ra.2 + rb.2)) ra.1 rb.1

/-- MMA and MMAZ, the latter on a zeroed tile. -/
def mmaOp (zero : Bool) (f : XF) (e : Entry) (s : State) : Res :=
  let n := f.acc.toNat
  if s.b.resOps ≤ f.oa.toNat || s.b.resOps ≤ f.ob.toNat || s.b.resAcc ≤ n then .fault .illegalOperand s
  else leased (fun s =>
    if !(s.b.oslot f.oa.toNat).bound || !(s.b.oslot f.ob.toNat).bound then .fault .matrixSlot s
    else
      let a := s.b.oslotAt f.oa.toNat
      let b := s.b.oslotAt f.ob.toNat
      let t := s.b.tile n
      match mmaPair a.tag.toNat b.tag.toNat with
      | none => .fault .formatMismatch s
      | some (q, int) =>
        if !zero && t.int != int then .fault .formatMismatch s
        else
          let rs := mmaTile q int { rm := 0, sat := (pfxOf e.pfx).sat } a b fun i => if zero then 0 else (t.word i).toNat
          let fs := rs.foldl (fun acc r => acc.add r.2) ({} : FSum)
          .done (s.modB fun b => (b.writeTile n 16 { int := int, ws := rs.map fun r => w32 r.1 }).raise fs)) s

/-- MMA (R331). -/
def issueMma (f : XF) (e : Entry) (s : State) : Res := mmaOp false f e s
/-- MMAZ (R331). -/
def issueMmaz (f : XF) (e : Entry) (s : State) : Res := mmaOp true f e s

/-! ## Accumulator access (R333) -/

/-- ARD. -/
def issueArd (f : XF) (e : Entry) (s : State) : Res :=
  let q := e.vb.toNat
  if s.b.resAcc ≤ f.acc.toNat || 3 < q then .fault .illegalOperand s
  else leased (fun s =>
    let t := s.b.tileAt f.acc.toNat
    placeOut .x f.d.toNat 4 [f.d.toNat] 0 [] false
      { runs := canonWords ((List.range 1024).map fun i => t.word (1024 * q + i)), len := 1024, tag := if t.int then 9 else 1 } s)
    s

/-- AWR. -/
def issueAwr (f : XF) (e : Entry) (s : State) : Res :=
  let q := e.vb.toNat
  let d := f.d.toNat
  if s.b.resAcc ≤ f.acc.toNat || 3 < q then .fault .illegalOperand s
  else leased (fun s =>
    let t := s.b.tile f.acc.toNat
    let tag := (s.b.look (s.b.reader .x e) d).tag.toNat
    if tag != 0 && tag != (if t.int then 9 else 1) then .fault .formatMismatch s
    else match replayReg 0 5 [d] d s with
      | (s1, some y) => .replay y 0 [] s1
      | (s1, none) =>
        let x := s1.b.look (s1.b.reader .x e) d
        let ws := ((lanesOf x.runs).take x.len).toArray
        let new := (List.range 4096).map fun i =>
          if i / 1024 = q then ws.getD (i % 1024) 0 else t.word i
        .done (s1.modB fun b => (touch d b).writeTile f.acc.toNat 4 { t with ws := new })) s

/-- AZERO. -/
def issueAzero (f : XF) (e : Entry) (s : State) : Res :=
  if s.b.resAcc ≤ f.acc.toNat then .fault .illegalOperand s
  else leased (fun s => .done (s.modB fun b => b.writeTile f.acc.toNat 4 { int := e.vb == 9, ws := [] })) s

end Sys2Proof.Machine
end

