-- ==== Sys2Proof/Machine/Blocks.lean ====
section
/-! DEFINITION. Compressed blocks (spec/04_data_on_the_move.md R96-R98, R101) and the in-bank transform units (R103-R107). -/
namespace Sys2Proof.Machine

/-! ## Decoding a block (R98) -/

/-- Field i of w bits of a payload, packed from bit 0 of the first word upward. -/
def packedField (ws : List Word) (w i : Nat) : Word :=
  w32 (natOfBytes ((ws.drop (i * w / 32)).take 2 |>.flatMap wordBytes) / 2 ^ (i * w % 32) % 2 ^ w)

/-- LZT groups, at most `fuel` of them: the decoded words, none where a group breaks the rules or the payload runs out. Fill
bits after the last literal are ignored: R98 lists no failure for them (log 110). -/
def lztGo : Nat → List Word → Option (List Word)
  | _, [] => some []
  | 0, _ => none
  | fuel + 1, c :: ws =>
    let z := (c.extractLsb' 21 11).toNat
    let n := (c.extractLsb' 10 11).toNat
    let w1 := (c.extractLsb' 5 5).toNat
    let k := (n * (w1 + 1) + 31) / 32
    if c.extractLsb' 0 5 != 0 || (z = 0 && n = 0) || (n = 0 && w1 != 0) || ws.length < k then none
    else match lztGo fuel (ws.drop k) with
      | none => none
      | some t => some (List.replicate z 0 ++ (List.range n).map (packedField (ws.take k) (w1 + 1)) ++ t)

/-- RV pairs. -/
def rvGo : List Word → Option (List Word)
  | [] => some []
  | [_] => none
  | v :: c :: ws =>
    if c.extractLsb' 11 21 != 0 || c = 0 then none
    else match rvGo ws with
      | none => none
      | some t => some (List.replicate c.toNat v ++ t)

/-- A block of a codec from its payload: 1,024 words, or none for DECOMP_ERROR. -/
def decodeBlock (codec clen : Nat) (pay : List Word) : Option (List Word) :=
  let ok : Bool := if codec = 0 then clen == 1024 else 1 ≤ clen && clen ≤ 2048
  let out := match codec with
    | 0 => some pay
    | 1 => lztGo clen pay
    | 2 => rvGo pay
    | _ => none
  match out with
  | none => none
  | some ws => if ok && ws.length == 1024 then some ws else none

/-! ## The canonical codings (R101) -/

/-- The bit length of a word. -/
def bitLen (w : Word) : Nat := if w = 0 then 0 else Nat.log2 w.toNat + 1
/-- Words spread as fields of w bits from bit 0 of the first word upward. -/
def packFields (w : Nat) (xs : List Word) : List Word :=
  let n := xs.zipIdx.foldl (fun acc p => acc + p.1.toNat * 2 ^ (w * p.2)) 0
  (List.range ((xs.length * w + 31) / 32)).map fun i => w32 (n / 2 ^ (32 * i))
/-- Canonical LZT: maximal runs of zeros, each followed by a maximal run of nonzero words. -/
def lztCode : Nat → List Word → List Word
  | 0, _ => []
  | _, [] => []
  | fuel + 1, ws =>
    let z := (ws.takeWhile (· == 0)).length
    let r := ws.drop z
    let lits := r.takeWhile (· != 0)
    let n := lits.length
    let w := max 1 (lits.foldl (fun m x => max m (bitLen x)) 0)
    let ctl := w32 (z * 2 ^ 21 + n * 2 ^ 10 + (if n = 0 then 0 else (w - 1) * 2 ^ 5))
    ctl :: packFields w lits ++ lztCode fuel (r.drop n)
/-- Canonical RV: maximal runs of identical words. -/
def rvCode (ws : List Word) : List Word := (canonWords ws).flatMap fun r => [r.1, w32 r.2]
/-- The codec and payload the controller chooses. -/
def encodeBlock (ws : List Word) : Nat × List Word :=
  let l := lztCode 1025 ws
  let r := rvCode ws
  let (k, p) := if l.length ≤ r.length then (1, l) else (2, r)
  if p.length < 1024 then (k, p) else (0, ws)

/-! ## Transform requests (R103, R104) -/

/-- The element (r, c) at a Z-order position. -/
def zcoord (p : Nat) : Nat × Nat :=
  let l := p / 16
  (sumNat ((List.range 4).map fun k => nbit l (2 * k + 1) * 2 ^ (k + 2)) + p % 16 / 4,
   sumNat ((List.range 4).map fun k => nbit l (2 * k) * 2 ^ (k + 2)) + p % 4)
/-- The coordinates of a position in a tile of a layout. -/
def tileCoord (z : Bool) (p : Nat) : Nat × Nat := if z then zcoord p else (p / 64, p % 64)

/-- Source position of each destination position: ZTRANS, TOZ, TOLIN. -/
def xformPos (op p : Nat) : Nat :=
  match op with
  | 1 => let (r, c) := zcoord p; zpos c r
  | 2 => let (r, c) := zcoord p; 64 * r + c
  | _ => zpos (p / 64) (p % 64)

/-- Elements of w bits of consecutive rows, as positions. -/
def tileEls (w : Nat) (ws : List Word) : List Nat := ws.flatMap fun x => (List.range (32 / w)).map fun j => x.toNat / 2 ^ (w * j) % 2 ^ w
def packEl (w : Nat) (xs : List Nat) : List Word :=
  (chunks (32 / w) xs).map fun c => w32 (c.zipIdx.foldl (fun a p => a + p.1 * 2 ^ (w * p.2)) 0)

/-- Rows of a bank's own slice. -/
def rowsAt (s : State) (core row n : Nat) : List Word := (List.range n).flatMap fun i => s.row core (row + i)
/-- Rows written; into an FP6 bank with bits 7:6 of each element 0 (R66). -/
def putRows (core row : Nat) (ws : List Word) (s : State) : State :=
  (chunks 64 ws).zipIdx.foldl (fun s p =>
    s.setLanes core (row + p.2) 0 (p.1.map (fp6Mask (bfFmt (s.bfmtAt core (row + p.2)))))) s

/-- The destination rows of a request: the first and how many (R103). -/
def xfDst (r : DWord) : Nat × Nat :=
  ((r.extractLsb' 0 11).toNat, if r.extractLsb' 60 4 = 0 then 16 else 8 * 2 ^ (r.extractLsb' 58 2).toNat)
/-- The source rows of a request: the first and how many (R103). -/
def xfSrc (r : DWord) : Nat × Nat :=
  ((r.extractLsb' 11 11).toNat,
   if r.extractLsb' 60 4 = 0 then ((r.extractLsb' 44 12).toNat + 63) / 64 else 8 * 2 ^ (r.extractLsb' 58 2).toNat)
/-- Whether a buffered store lies in a row that a request in the slice of `core` reads or writes. -/
def xfTouches (r : DWord) (core : Nat) (e : SBuf) : Bool :=
  [xfSrc r, xfDst r].any fun p => decide (rowAddr core p.1 ≤ e.addr ∧ e.addr < rowAddr core (p.1 + p.2))
/-- The ownership and write rules of rows a to a + n − 1, in row order: the first that fails, with its address (R35-R37, R104). -/
def rowsAllowed (s : State) (wr : Bool) (core a : Nat) : Nat → Except (Cause × Nat) Unit
  | 0 => .ok ()
  | n + 1 => match meshAllowed s s.b wr core a with
    | .error c => .error (c, rowAddr core a)
    | .ok () => rowsAllowed s wr core (a + 1) n

/-- A request performed in the slice of `core` under the burner's rights, at one point of the bank's order; the cause and its
address where it is refused: of several rows that fail, the first source row's, then the first destination row's (log 128). -/
def transform (r : DWord) (core : Nat) (s : State) : Except (Cause × Nat) State :=
  let op := (r.extractLsb' 60 4).toNat
  let ew := (r.extractLsb' 58 2).toNat
  let codec := (r.extractLsb' 56 2).toNat
  let clen := (r.extractLsb' 44 12).toNat
  let t := 8 * 2 ^ ew
  let (sr, ns) := xfSrc r
  let (dr, nd) := xfDst r
  let inBank (a n : Nat) : Bool := a < 1536 && (n == 0 || (bankOf a == bankOf (a + n - 1) && a + n ≤ 1536))
  let bankOff (a : Nat) : Nat := a - 96 * bankOf a
  let tiled (a : Nat) : Bool := op == 0 || bankOff a % (min t 32) == 0
  if op > 3 || r.extractLsb' 22 22 != 0 || (op = 0 && ew != 0) || (op != 0 && (codec != 0 || clen != 0)) ||
      !inBank sr ns || !inBank dr nd || !tiled sr || (op != 0 && !tiled dr) ||
      (ns != 0 && !(sr == dr && ns == nd) && sr < dr + nd && dr < sr + ns) then .error (.xformSpec, 0)
  else
    match rowsAllowed s false core sr ns, rowsAllowed s true core dr nd with
    | .error k, _ => .error k
    | _, .error k => .error k
    | .ok (), .ok () =>
      let src := rowsAt s core sr ns
      if op = 0 then
        match decodeBlock codec clen (src.take clen) with
        | none => .error (.decompError, 0)
        | some ws => .ok (putRows core dr ws s)
      else
        let w := 4 * 2 ^ ew
        let els := (tileEls w src).toArray
        .ok (putRows core dr (packEl w ((List.range 4096).map fun p => els.getD (xformPos op p) 0)) s)

end Sys2Proof.Machine
end

