-- ==== Sys2Proof/Machine/Groups.lean ====
section
/-! DEFINITION. Completion elements (spec/14_matrix_and_engines.md R345), barrier groups and their members
(spec/11_control_core_instructions.md R271, R272; R348, R363), events, WAITF, the barrier instructions and SENDT (R269-R274). -/
namespace Sys2Proof.Machine

/-! ## Completion elements -/

/-- What a finished command reports (R345). -/
structure Comp where
  csum : Word := 0
  satn : Nat := 0
  fl : BitVec 7 := 0
  nf : Bool := false
  res : BitVec 3 := 0
  status : Byte := 0
deriving DecidableEq, Repr

def stDone : Byte := 0x00
def stCheckFail : Byte := 0x08
def stDropped : Byte := 0x09
def stPeerLost : Byte := 0x0A
def stMismatch : Byte := 0x0B

/-- The element's 16 bytes. -/
def Comp.element (c : Comp) (u opc : Nat) (seq : Word) : BitVec 128 :=
  c.csum ++ w32 (min c.satn 0xFFFFFFFF) ++ c.fl ++ BitVec.ofBool c.nf ++ c.res ++ 0#21 ++ seq.extractLsb' 0 16 ++ c.status ++
    BitVec.ofNat 4 opc ++ BitVec.ofNat 4 u
def elemStatus (e : BitVec 128) : Byte := e.extractLsb' 8 8
def elemCsum (e : BitVec 128) : Word := e.extractLsb' 96 32

/-- The head command of unit u is finished: its element is posted, then its signal bits are set (R345). -/
def Burner.finishHead (b : Burner) (u : Nat) (e : BitVec 128) (sigm : DWord) : Burner :=
  let g := b.unit u
  { b.setUnit u { g with fifo := g.fifo.drop 1, out := g.out ++ [e], last := elemCsum e, prog := 0, sum := 0, fl := 0, satn := 0
                         tw := [], pos := none, part := 0, seen := [], maps := [], pend := [], img := [], cov := []
                         load := none, reread := none, redo := [], waitFrom := false, ovf := min g.ovf (g.fifo.length - 1)
                         flt := none, fltDue := false } with ev := b.ev ||| sigm }

/-- The same at any burner that is there, with its ENG trace record (R390). -/
def finishAt (core bur u : Nat) (e : BitVec 128) (sigm : DWord) (s : State) : State :=
  let c := s.b.core
  let r := s.b.bur
  if (s.find core bur).isNone then s else
  let s1 := s.focus core bur
  let seq := s1.b.engSeq u
  let s2 := (s1.modB fun b => b.finishHead u e sigm).traceEv 3 4 0 (w32 u) seq ((elemStatus e).setWidth 32)
  s2.focus c r

/-! ## Groups -/

def State.group (s : State) (id : Nat) : Group := (s.groups.find? (·.id == id)).getD { id := id }
def State.setGroup (s : State) (g : Group) : State :=
  { s with groups := if s.groups.any (·.id == g.id) then s.groups.map fun x => if x.id == g.id then g else x
                     else s.groups ++ [g] }
def Group.member (g : Group) (core bur : Nat) : Option GMem := g.mems.find? fun m => m.core == core && m.bur == bur && !m.killed
def Group.modMem (g : Group) (core bur : Nat) (f : GMem → GMem) : Group :=
  { g with mems := g.mems.map fun m => if m.core == core && m.bur == bur then f m else m }
def Group.live (g : Group) : Nat := (g.mems.filter fun m => !m.killed).length
def Group.departed (g : Group) : Nat := (g.mems.filter fun m => m.departed && !m.killed).length

/-- When arrivals reach c, the waiters of the phase are released and the phase advances (R272). -/
def Group.settle (g : Group) : Group :=
  if g.st = .armed && g.c ≤ g.arrivals then
    { g with phase := g.phase + 1, arrivals := g.departed, mems := g.mems.map fun m => { m with arrived := false } }
  else g

/-- BARM with count c (R272, R348). -/
def Group.arm (g : Group) (c : Nat) : Group :=
  let mems (again : Bool) := (g.mems.filter fun m => !m.killed).map fun m =>
    { m with arrived := false, barr := none, pushed := if again then 0 else m.pushed, cx := m.departed }
  let arrivals := ((mems false).filter (·.departed)).length
  match g.lost with
  | none => { g with st := .armed, c := c, phase := 0, mems := mems false, arrivals := arrivals }
  | some n => { g with
      st := .armed, c := c, phase := 0, mems := mems true, arrivals := arrivals, lost := none, era := g.era + 1
      past := ⟨g.era, n, (g.mems.filter fun m => !m.cx).map fun m => (m.core, m.bur)⟩ :: g.past }

/-- What the BWAITs that wait come to at an event: 0 when their phase has completed, BROKEN when the group broke (R272). -/
def Group.answer (g : Group) : Group :=
  { g with mems := g.mems.map fun m =>
      if !m.waits then m
      else if m.barr.any fun p => decide (p < g.phase) then { m with waits := false, res := some false }
      else if g.st = .broken then { m with waits := false, res := some true } else m }

/-- BARR by a member (R272). -/
def Group.arrive (g : Group) (core bur : Nat) : Group :=
  ({ g.modMem core bur fun m => { m with arrived := true, barr := some g.phase, waits := false, res := none } with arrivals := g.arrivals + 1 }).settle

/-- A member departs (R272): an arrival of an ARMED group when it had not arrived in this phase. After it, `f`; while the group
is not ARMED only the departure is recorded. -/
def Group.depart (g : Group) (core bur : Nat) (f : Group → Group) : Group :=
  match g.member core bur with
  | none => g
  | some m =>
    let g1 := g.modMem core bur fun m => { m with departed := true }
    if g.st = .armed && !m.departed then f (if m.arrived then g1 else { g1 with arrivals := g.arrivals + 1 }) else g1
/-- BLEAVE by a member (R272). -/
def Group.leave (g : Group) (core bur : Nat) : Group := g.depart core bur Group.settle
/-- HALT of a member, which counts as a BLEAVE (R363), but ends no phase in which no member has arrived (R442; log 24). -/
def Group.halt (g : Group) (core bur : Nat) : Group :=
  g.depart core bur fun x => if x.mems.any (·.arrived) then x.settle else x

/-- A killed member (R272, R363): an ARMED group breaks when the member had not departed; one that had departed goes on being
counted while the group stays ARMED. -/
def Group.killMem (g : Group) (core bur : Nat) : Group :=
  match g.member core bur with
  | none => g
  | some m =>
    if g.st = .armed && m.departed then g.modMem core bur fun m => { m with gone := true }
    else
      let g1 := g.modMem core bur fun m => { m with killed := true }
      if g.st = .armed then { g1 with st := .broken, mems := g1.mems.map fun m => { m with killed := m.killed || m.gone } } else g1

/-- Members whose burner has left its BWAIT no longer wait, and the others are answered. -/
def Group.answerIn (s : State) (g : Group) : Group :=
  Group.answer { g with mems := g.mems.map fun m =>
    { m with waits := m.waits && (s.find m.core m.bur).any fun b => b.wait == some .bwait } }
/-- A group as it stands after an event of one member, and every group after an event of many. -/
def State.putGroup (s : State) (g : Group) : State := s.setGroup (g.answerIn s)
def State.answerGroups (s : State) : State := { s with groups := s.groups.map (Group.answerIn s) }

/-- A contribution's command completes PEER_LOST and writes nothing (R348); an arrival-mode ALLRED's posting is a log event
(R394). -/
def peerLostAt (k : Contrib) (s : State) : State :=
  let c := s.b.core
  let r := s.b.bur
  if (s.find k.core k.bur).isNone then s else
  let s1 := s.focus k.core k.bur
  let e := ({ csum := (s1.b.unit 2).sum, status := stPeerLost } : Comp).element 2 (cmdOpc k.cmd) k.seq
  match (if cmdOpc k.cmd = 7 && !k.cmd.getLsbD 27 then logEvent 2 0xFFFFFFFF s1.b.rpseq (k.seq.setWidth 128) [] s1 else .ok s1 0 []) with
  | .bad x a => (s1.modB fun b => b.setUnit 2 { b.unit 2 with flt := some (x, a), fltDue := true }).focus c r
  | .ok s2 _ _ => (finishAt k.core k.bur 2 e (cmdSigM k.cmd) s2).focus c r

/-- Commands of the pairings from n on complete PEER_LOST (R348). -/
def loseFrom (id n : Nat) (s : State) : State :=
  let g := s.group id
  let n := match g.lost with
    | some k => min k n
    | none => n
  let out (p : Pairing) : Bool := p.era == g.era && !p.formed && decide (n ≤ p.n)
  let gone := g.pairs.filter out
  let s1 := s.setGroup { g with lost := some n, pairs := g.pairs.filter fun p => !out p }
  (gone.flatMap (·.cs)).foldl (fun s k => peerLostAt k s) s1

/-- A member that is lost to collectives: killed, halted, or unbound while FROZEN: to those it has not pushed (R348). -/
def loseMember (core bur : Nat) (s : State) : State :=
  (s.groups.map (·.id)).foldl (fun s id =>
    match (s.group id).mems.find? fun m => m.core == core && m.bur == bur with
    | none => s
    | some m => if m.cx then s else loseFrom id m.pushed s) s

/-! ## Events (R269) -/

/-- EVWAIT: waits, lending, until the bit is 1. -/
def execEvwait (e : BitVec 6) (s : State) : Outcome :=
  if s.b.ev.getLsbD e.toNat then .next (retire 1 s) else .next (lendWait .evwait s)
/-- EVSET: a release. -/
def execEvset (e : BitVec 6) (s : State) : Outcome :=
  ccRelease (fun s => .next (retire 1 (s.modB fun b => { b with ev := b.ev ||| BitVec.ofNat 64 (2 ^ e.toNat) }))) s
/-- EVCLR. -/
def execEvclr (e : BitVec 6) (s : State) : Outcome :=
  .next (retire 1 (s.modB fun b => { b with ev := b.ev &&& ~~~(BitVec.ofNat 64 (2 ^ e.toNat)) }))

/-- WAITF (R270): rereads the row, lending, until the lane word differs from s(d). -/
def execWaitf (d : BitVec 6) (a b : Opnd) (s : State) : Outcome :=
  ccDo (d :: (opRegs a ++ opRegs b)) (fun s =>
    let addr := s.b.op32 a
    match meshCheck s s.b false addr.toNat with
    | .error c => ccFault c (addr.setWidth 64) s
    | .ok (core, row) =>
      let s1 := s.drainRow core row
      let w := s1.lane core row (laneOf (s.b.op32 b))
      if ccEarly s core row then ccFault .earlyRead (addr.setWidth 64) s
      else if w = s.b.getS d then .next (lendWait .waitf s1)
      else match remoteWord core w s1 with
        | .bad c t => ccFault c t s
        | .ok s2 x _ => .next (retire (1 + litN a + litN b) (s2.modB fun y => y.setS d (x.setWidth 32)))) s

/-! ## Barriers (R273) -/

/-- A barrier instruction on the group that operand a names, of which the burner is a member. -/
def barOp (rs : List (BitVec 6)) (a : Opnd) (f : Group → GMem → State → Outcome) (s : State) : Outcome :=
  ccDo (rs ++ opRegs a) (fun s =>
    let id := (s.b.op32 a).toNat
    if id > 511 then ccFault .illegalOperand 0 s
    else
      let g := s.group id
      match g.member s.b.core s.b.bur with
      | none => ccFault .barrierState 0 s
      | some m => f g m s) s

/-- BARM: arms with count b (R272, R273). -/
def execBarm (a b : Opnd) (s : State) : Outcome :=
  barOp (opRegs b) a (fun g _ s =>
    let c := (s.b.op32 b).toNat
    if g.st = .armed then ccFault .barrierState 0 s
    else if c = 0 || c > 65535 || c > g.live then ccFault .barrierCount 0 s
    else .next (retire (1 + litN a + litN b) (s.setGroup (g.arm c)))) s

/-- BARR: a release, then arrival. DESIGN CHOICE (log 24): in a BROKEN group a departed member's BARR raises BARRIER_BROKEN, and
only one that has arrived in the phase raises BARRIER_STATE. -/
def execBarr (a : Opnd) (s : State) : Outcome :=
  barOp [] a (fun g m s =>
    if g.st = .unarmed || m.arrived || (g.st = .armed && m.departed) then ccFault .barrierState 0 s
    else if g.st = .broken then ccFault .barrierBroken 0 s
    else ccRelease (fun s => .next (retire (1 + litN a) (s.putGroup (g.arrive s.b.core s.b.bur)))) s) s

/-- BWAIT: 0 once the phase of the latest BARR has completed; on BROKEN it writes 1, retires and raises BARRIER_BROKEN with the
cut at the next instruction (R273, R373). One that waits takes what an event made of it, whatever follows the event (R272). -/
def execBwait (d : BitVec 6) (a : Opnd) (s : State) : Outcome :=
  barOp [d] a (fun g m s =>
    let note (f : GMem → GMem) (s : State) : State := s.setGroup (g.modMem s.b.core s.b.bur f)
    let passed (s : State) : Outcome := .next (retire (1 + litN a) (s.modB fun b => b.setS d 0))
    let broken (s : State) : Outcome :=
      let pc := s.b.pc
      let nx := s.b.after (1 + litN a)
      .next (takeTrap { c := .barrierBroken, iaddr := pc, cutPc := nx } (retire (1 + litN a) (s.modB fun b => b.setS d 1)))
    match m.res, m.barr with
    | some r, _ => (if r then broken else passed) (note (fun m => { m with res := none }) s)
    | none, none => ccFault .barrierState 0 s
    | none, some p =>
      if g.st = .unarmed then ccFault .barrierState 0 s
      else if p < g.phase then passed s
      else if g.st = .broken then broken s
      else .next (lendWait .bwait (note (fun m => { m with waits := true }) s))) s

/-- BLEAVE: a release, then permanent departure. -/
def execBleave (a : Opnd) (s : State) : Outcome :=
  barOp [] a (fun g _ s =>
    if g.st = .unarmed then ccFault .barrierState 0 s
    else if g.st = .broken then ccFault .barrierBroken 0 s
    else ccRelease (fun s => .next (retire (1 + litN a) (s.putGroup (g.leave s.b.core s.b.bur)))) s) s

/-! ## SENDT (R209, R274) -/

/-- The token word (R209). -/
def tokenWord (core bur rowOff : Nat) (tag : BitVec 16) : Word :=
  BitVec.ofNat 10 core ++ BitVec.ofNat 1 bur ++ BitVec.ofNat 5 rowOff ++ tag

/-- Whether the target's ring has a free row (R209, R210). -/
def Burner.ringFree (b : Burner) : Bool := b.inbox.length + b.inbPopped < b.inbCnt

/-- One delivery: the payload into the next free row of the target's ring and the token into its inbox FIFO. -/
def deliver (core bur : Nat) (tok : Nat → Word) (row : List Word) (s : State) : State :=
  match s.find core bur with
  | none => s
  | some t =>
    let off := t.inbBase + t.inbNext
    (s.setLanes core (1504 + off) 0 row).modAt core bur fun x =>
      { x with inbox := x.inbox ++ [tok off], inbNext := (x.inbNext + 1) % x.inbCnt }

/-- SENDT (R274). The row is read once, at the delivery, or where the act's share is one row access before it, and then held
with the control core (R162). -/
def execSendt (a b : Opnd) (s : State) : Outcome :=
  ccDo (opRegs a ++ opRegs b) (fun s =>
    let addr := s.b.op32 a
    let t := s.b.op32 b
    if t.extractLsb' 16 5 != 0 then ccFault .illegalOperand 0 s
    else
      match (if s.b.carry.isSome then .ok (0, 0) else meshCheck s s.b false addr.toNat) with
      | .error c => ccFault c (addr.setWidth 64) s
      | .ok (core, row) =>
        let tc := (t.extractLsb' 22 10).toNat
        let tb := (t.extractLsb' 21 1).toNat
        if tc ≥ 640 then ccFault .meshHole (t.setWidth 64) s
        else match s.find tc tb with
          | none => ccFault .meshDenied (t.setWidth 64) s
          | some x =>
            if !x.bound || x.inbCnt == 0 || x.region.fd != s.b.region.fd then ccFault .meshDenied (t.setWidth 64) s
            else ccRelease (fun s =>
              let xs := s.b.carry.getD (s.row core row)
              if s.enough 1 && s.b.carry.isNone then .next (s.modB fun b => { b with carry := some xs })
              else if x.ringFree then
                .next (retire (1 + litN a + litN b) ((deliver tc tb (fun off => tokenWord s.b.core s.b.bur off (t.extractLsb' 0 16))
                  xs s).modB fun b => { b with carry := none }))
              else .next s) s) s

/-- INBOX_DELIVERY (R209): another package's token word and payload row reach the ring once a row is free; the ROW field is
filled at the delivery. -/
def execInboxDelivery (core bur : Nat) (tok : Word) (row : List Word) (s : State) : Outcome :=
  match s.find core bur with
  | none => .next s
  | some x =>
    if x.bound && x.ringFree then
      .next (deliver core bur (fun off => tok.extractLsb' 21 11 ++ BitVec.ofNat 5 off ++ tok.extractLsb' 0 16) row s)
    else if x.bound then .next { s with pending := s.pending ++ [.inboxDelivery core bur tok row] }
    else .next s

/-- ENGINE_COMPLETION (R345): the head command of unit u posts its element and then sets its signal bits. -/
def execEngineCompletion (u : Nat) (e : BitVec 128) (sigm : DWord) (s : State) : Outcome :=
  .next (finishAt s.b.core s.b.bur u e sigm s)

end Sys2Proof.Machine
end

