-- ==== Sys2Proof/Machine/System.lean ====
section
/-! DEFINITION. System instructions of major 0x3D but CTLR and CTLW (spec/11_control_core_instructions.md R275-R279;
spec/16_traps_preemption_checkpoint.md R374, R375), the prefix word, and ending a burner. -/
namespace Sys2Proof.Machine

/-! ## Launch bookkeeping shared with dispatch -/

/-- The slot of a burner over the whole package (R358): 320 slots a die. -/
def slotOf (core bur : Nat) : Nat := 2 * core + bur

/-- OP of a bind record set; STAT with it (R358). -/
def setOp (slot op stat : Nat) (s : State) : State :=
  let r := (tabGet 0 s.slots slot).toNat
  { s with slots := tabSet s.slots slot (BitVec.ofNat 512 (stat * 2 ^ 480 + r % 2 ^ 480 / 4 * 4 + op)) }

/-- A launch completes with a status: it leaves the list and its completion record is due (R355). -/
def finishLaunch (l : Launch) (status detail : Nat) (s : State) : State :=
  { s with launches := s.launches.filter (·.id != l.id)
           pending := s.pending ++ [.completionRecord l.q l.op l.tag.toNat status detail] }

/-- Whether a burner's region lies in the subtree of an RCB (R351). -/
def Burner.under (b : Burner) (rcb : Nat) : Bool := b.region.chain.contains rcb

/-- Requests that have nothing left to wait for complete (R354): a YIELDREQ when no burner of its subtree that was asked is
left, an EVICT when every eviction it asked for is done, a RESUME when no burner of its subtree is off its core. -/
def requestDone (s : State) (l : Launch) : Bool :=
  match l.op with
  | 4 => !(s.all ++ s.saved).any fun b => b.yrq && b.under l.rcb && b.status != .halted
  | 5 => !l.slots.any fun k => s.pending.contains (.dispatchEvict k)
  | 6 => !s.saved.any fun b => b.under l.rcb && b.status != .unbound
  | _ => false
def checkRequests (s : State) : State :=
  (s.launches.filter (requestDone s)).foldl (fun s l => finishLaunch l 0 0 s) s

/-- A burner becomes front by dispatch, with its SWITCH record (R217, R390). -/
def becomeFront (core bur : Nat) (s : State) : State :=
  let c := s.b.core
  let r := s.b.bur
  let s1 := (s.modAt core bur fun b => { b with front := true, lend := false }).focus core bur
  (s1.traceEv 2 3 s1.b.pc 1 2 0).focus c r

/-- A stopped burner runs again, and is front when no burner of its core is. -/
def wake (core bur : Nat) (s : State) : State :=
  let busy := s.all.any fun o => o.core == core && o.front
  let s1 := s.modAt core bur fun b => { b with status := .running }
  if busy then s1 else becomeFront core bur s1

/-- Every burner of a launch stopped at a cut for a page of its region's overflow area (R336, R362), those too that stand at
another stop or are evicted: none runs before the page is served. -/
def suspendLaunch (launch page : Nat) (s : State) : State :=
  let c := s.b.core
  let r := s.b.bur
  let mine (b : Burner) : Bool := b.launch == launch && b.status != .unbound && b.status != .halted && b.status != .frozen
  let stop (b : Burner) : Burner := { b with ovPage := page }
  let hit := s.all.filter fun b => mine b && b.status == .running
  let s1 := { s.modWhere mine stop with saved := s.saved.map fun b => if mine b then stop b else b }
  (hit.foldl (fun s b =>
    let s1 := (s.focus b.core b.bur).modB fun x => { x with status := .suspended }
    if b.front then s1.passFront 2 else s1) s1).focus c r

/-- Cells of a range removed: every byte of it reads 0. -/
def Memory.clear (m : Memory) (lo n : Nat) : Memory := m.filter fun c => !(decide (lo ≤ c.1) && decide (c.1 < lo + n))

/-- Rows of a burner's banks and of its inbox range set to 0 (R359, R361), whole, so that none stays poisoned (R418). -/
def clearPartition (b : Burner) (s : State) : State :=
  let m := (List.range 16).foldl (fun m k =>
    if b.owns k then Memory.clear m (rowAddr b.core (96 * k)) (256 * if k = 15 then 64 else 96) else m) s.mesh
  let cleared (row : Nat) : Bool := row / 2048 == 2 ^ 29 + b.core && b.owns (bankOf (row % 2048))
  { s with mesh := Memory.clear m (rowAddr b.core (1504 + b.inbBase)) (256 * b.inbCnt)
           poison := s.poison.filter fun row => !cleared row }

/-- A burner with its bind values (R359), unbound. -/
def Burner.fresh (core bur : Nat) : Burner := { core := core, bur := bur }

/-- A core number that no burner has had. -/
def takeKey (core : Nat) (s : State) : Nat × State :=
  (1024 * s.nextLaunch + core, { s with nextLaunch := s.nextLaunch + 1 })

/-- Everything that names burner (core, bur) names (core2, bur2): the pantry, groups and their collectives, page waits, trace
records. -/
def renameBurner (core bur core2 bur2 : Nat) (s : State) : State :=
  let party (p : Party) : Party := if p = .bur core bur then .bur core2 bur2 else p
  let me (c r : Nat) : Bool := c == core && r == bur
  { s with
    pantry := s.pantry.map fun e => { e with maker := e.maker.map party, waiters := e.waiters.map party }
    groups := s.groups.map fun g => { g with
      mems := g.mems.map fun m => if me m.core m.bur then { m with core := core2, bur := bur2 } else m
      pairs := g.pairs.map fun p => { p with
        cs := p.cs.map fun k => if me k.core k.bur then { k with core := core2, bur := bur2 } else k }
      past := g.past.map fun p => { p with mems := p.mems.map fun m => if me m.1 m.2 then (core2, bur2) else m } }
    tensors := s.tensors.map fun t => { t with
      stale := t.stale.map fun k => if me k.2.1 k.2.2.1 then (k.1, core2, bur2, k.2.2.2) else k }
    faultTab := s.faultTab.map fun e => { e with waiters := e.waiters.map fun w => if me w.1 w.2 then (core2, bur2) else w }
    trace := s.trace.map fun u => { u with buf := u.buf.map fun r => if me r.core r.bur then { r with core := core2, bur := bur2 } else r } }

/-- The acting burner leaves its core, saved as `keep` under a core number of its own; its place is free. -/
def leaveCore (keep : Burner) (s : State) : State :=
  let c := s.b.core
  let r := s.b.bur
  let k := takeKey c s
  let s1 := renameBurner c r k.1 r (clearPartition s.b k.2)
  { s1 with b := Burner.fresh c r, saved := s1.saved ++ [{ keep with core := k.1, front := false, lend := false }] }

/-! ## Instructions -/

/-- TRAP: TRAP_INSN with TADDR := a; it resumes at the next instruction (R279, R373). -/
def execTrap (a : Opnd) (s : State) : Outcome :=
  ccDo (opRegs a) (fun s =>
    .next (takeTrap { c := .trapInsn, addr := (s.b.op32 a).setWidth 64, iaddr := s.b.pc, cutPc := s.b.after (1 + litN a) }
      (retire (1 + litN a) s))) s
/-- BKPT: BREAKPOINT with TADDR := a (R279, R373). -/
def execBkpt (a : Opnd) (s : State) : Outcome :=
  ccDo (opRegs a) (fun s =>
    .next (takeTrap { c := .breakpoint, addr := (s.b.op32 a).setWidth 64, iaddr := s.b.pc, cutPc := s.b.after (1 + litN a) }
      (retire (1 + litN a) s))) s
/-- RFT: leaves the handler; RFT_STATE while TE = 0 (R279, R374). -/
def execRft (s : State) : Outcome :=
  if s.b.te then .next (leaveHandler (retire 1 s)) else ccFault .rftState 0 s
/-- NOP (R275). -/
def execNop (s : State) : Outcome := .next (retire 1 s)

/-- PFX (R22): kept for the next instruction, with which it forms one unit. -/
def execPfx (w : BitVec 24) (s : State) : Outcome := .next (s.modB fun b => { b with pfx := some w })

/-- BSWITCH (R277): the other burner becomes front when it is runnable; either outcome is a log event (R394 kind 5), and in
replay the logged outcome is taken (R397). -/
def execBswitch (s : State) : Outcome :=
  let can := match s.other with
    | some o => o.runnable
    | none => false
  let did : BitVec 128 := if can then 1 else 0
  match (if s.b.unlogged then LogRes.ok s did [] else logEvent 5 s.b.pc s.b.eventSeq did [] s) with
  | .bad c t => ccFault c t s
  | .ok s1 x _ =>
    if x = 1 && !can then ccFault .replayDiverged (s.b.rppos.setWidth 64) s
    else if x = 1 then .next ((retire 1 s1).passFront 0)
    else .next (retire 1 s1)

/-- Unstarted items of an engine discarded (R375). -/
def Eng.dropUnstarted (e : Eng) : Eng := { e with fifo := e.fifo.filter (·.started) }

/-- The burner stops: it leaves its barrier groups as BLEAVE does (R363), is lost to collectives it has not contributed to
(R348), leaves the array (R328), the front passes on (R217), and a bind record with OP 10 unbinds it (R361). -/
def stopBurner (s : State) : State :=
  let c := s.b.core
  let r := s.b.bur
  let s1 := s.drain
  let s2 := dropLease c r (loseMember c r (State.answerGroups { s1 with groups := s1.groups.map fun g => g.halt c r }))
  let s3 := (s2.modB fun b => { b with status := .halted, pfx := none, wait := none }).passFront 3
  setOp (slotOf c r) 2 0 { s3 with pending := s3.pending ++ [.dispatchUnbind (slotOf c r)] }

/-- HALT (R278, R375): waits for every queue entry, store and engine command; with TE = 1 it first discards the unretired
entries and the commands that have not started. -/
def execHalt (s : State) : Outcome :=
  if s.b.te then
    let s1 := (s.freeLoads s.b.loads).modB fun b => { b with ql := [], qx := [], qs := [], eng := b.eng.map Eng.dropUnstarted }
    if s1.b.enginesDone then .next (stopBurner s1) else .next s1
  else if s.b.queuesEmpty && s.b.enginesDone && !(s.b.eng.any fun e => e.fltDue) then .next (stopBurner s)
  else .next s

end Sys2Proof.Machine
end

