-- ==== Sys2Proof/Machine/Regions.lean ====
section
/-! DEFINITION. Region control blocks: layout, inheritance, validity and budgets (spec/15_scheduling.md R349-R352; R400). -/
namespace Sys2Proof.Machine

/-! ## Uncorrected errors (R398, R418) -/

/-- The die that counts the errors of a row: LPDDR 6 by its range, CXL ports 0 and 1 on die 1, 2 and 3 on die 3 (R41, R409). Rows
from 2^40 on are those of scratchpads, 2,048 numbers to a core (R417; log 135). -/
def rowDie (row : Nat) : Fin 4 :=
  let pa := 256 * row
  if 2 ^ 40 ≤ row then ⟨(row - 2 ^ 40) / 2048 / 160 % 4, Nat.mod_lt _ (by decide)⟩
  else if pa < 0xC000000000 then ⟨pa / 0x3000000000 % 4, Nat.mod_lt _ (by decide)⟩
  else if pa < 0x50000000000 then 1 else if pa < 0x90000000000 then 3 else 0
/-- An uncorrected error found: counted, and its row poisoned (R398, R418). -/
def State.foundUnc (row : Nat) (s : State) : State :=
  let d := rowDie row
  { s with errUnc := s.errUnc.set d (min (s.errUnc[d] + 1) 0xFFFFFFFFFFFFFFFF)
           poison := if s.poison.contains row then s.poison else row :: s.poison }

/-! ## The layout of an RCB (R349, R350) -/

/-- Bits [lo, lo + w) of a number. -/
def fld (n lo w : Nat) : Nat := n / 2 ^ lo % 2 ^ w

/-- The 256 bytes of an RCB as a number; none when the read faults (R350). -/
def State.rcbAt (s : State) (pa : Nat) : Option Nat :=
  if pa % 256 = 0 && s.physKind pa == some .lpddr && !s.poison.contains (pa / 256) then
    some (natOfBytes ((List.range 256).map fun i => s.physByte 0 (pa + i)))
  else none

/-- The chain from a region to its root: addresses and contents, at most `fuel` nodes. -/
def rcbChain (s : State) : Nat → Nat → Option (List (Nat × Nat))
  | 0, _ => none
  | fuel + 1, pa =>
    match s.rcbAt pa with
    | none => none
    | some n =>
      if fld n 64 64 = 0 then some [(pa, n)]
      else match rcbChain s fuel (fld n 64 64) with
        | none => none
        | some t => some ((pa, n) :: t)

/-- The first poisoned row that reading a region's chain meets. -/
def rcbPoison (s : State) : Nat → Nat → Option Nat
  | 0, _ => none
  | fuel + 1, pa =>
    if pa % 256 = 0 && s.physKind pa == some .lpddr && s.poison.contains (pa / 256) then some (pa / 256)
    else match s.rcbAt pa with
      | none => none
      | some n => if fld n 64 64 = 0 then none else rcbPoison s fuel (fld n 64 64)
/-- The management core's read of a region finds the error of a poisoned row again (R418); no domain is charged for it. -/
def State.rcbFound (pa : Nat) (s : State) : State :=
  match rcbPoison s 8 pa with
  | none => s
  | some row => s.foundUnc row

def rcbOvr (n k : Nat) : Bool := fld n (832 + k) 1 == 1

/-- The node that governs field group k (R350). -/
def effNode (k : Nat) : List (Nat × Nat) → Nat
  | [] => 0
  | (_, n) :: t => if rcbOvr n k then n else effNode k t

/-- A node by itself: MAGIC, VER and the must-be-0 fields (R349, R350). -/
def rcbNodeOk (n : Nat) : Bool :=
  fld n 0 32 == 0x0C645243 && fld n 32 16 == 1 && fld n 48 16 == 0 && fld n 512 27 == 0 && fld n 576 43 == 0 &&
    fld n 640 18 == 0 && fld n 704 25 == 0 && fld n 768 29 == 0 && n / 2 ^ 845 == 0

/-- A chain's rules: every node, the root's OVR, PRIO and SYS against the parent (R350). -/
def chainOk : List (Nat × Nat) → Bool
  | [] => false
  | [(_, n)] => rcbNodeOk n && fld n 832 13 == 0x1FFF
  | (_, n) :: p :: t =>
    let up := effNode 10 (p :: t)
    rcbNodeOk n && (!rcbOvr n 10 || (decide (fld n 540 4 ≤ fld up 540 4) && (fld n 539 1 == 0 || fld up 539 1 == 1))) &&
      chainOk (p :: t)

/-- A stored address lies in translated space (R444). -/
def inTranslated (va : Nat) : Bool := decide (0x40000000 ≤ va) && decide (va < 2 ^ 57)

/-- The budgets of groups 3 to 9 that a node gives, in order (R349). -/
def budgetFields (g : Nat → Nat) : List Nat :=
  [fld (g 3) 384 64, fld (g 4) 619 10, fld (g 5) 629 11, fld (g 6) 658 20, fld (g 7) 678 26, fld (g 8) 729 18, fld (g 9) 747 21]
/-- The effective budgets at every node of a chain (R350, R351). -/
def chainBudgets : List (Nat × Nat) → List (Nat × List Nat)
  | [] => []
  | (pa, n) :: t => (pa, budgetFields fun k => effNode k ((pa, n) :: t)) :: chainBudgets t
/-- A region's budget of group k, 3 to 9, at a node of its chain. -/
def Region.budget (g : Region) (pa k : Nat) : Nat := ((g.bud.find? fun x => x.1 == pa).map fun x => x.2.getD (k - 3) 0).getD 0

/-- The region an RCB names; none for RCB_INVALID (R350, R400). -/
def State.readRegion (s : State) (pa : Nat) : Option Region :=
  match rcbChain s 8 pa with
  | none => none
  | some ns =>
    let g (k : Nat) : Nat := effNode k ns
    let r : Region := {
      rcb := pa, asn := fld (g 0) 560 16, ptroot := fld (g 0) 192 64, evq := fld (g 1) 256 64, evqn := fld (g 1) 480 32
      ovfl := fld (g 2) 320 64, ovfln := fld (g 2) 448 32, prio := fld (g 10) 540 4, sys := fld (g 10) 539 1 == 1
      fd := fld (g 11) 544 16, bgBase := fld (g 12) 797 9, bgCnt := fld (g 12) 806 10, rankBase := fld (g 12) 816 16
      chain := ns.map (·.1), bud := chainBudgets ns }
    if !chainOk ns || r.bgBase + r.bgCnt > 512 || !inTranslated r.evq || (r.ovfln != 0 && !inTranslated r.ovfl) ||
        (r.sys && !s.feat 7) then none
    else some r

/-- The tables that translate the page-fault report ring, those of the RCB in HRCB, which the device aperture's are (R401). -/
def State.hostVia (s : State) : Option Via :=
  match s.readRegion s.hrcb with
  | none => none
  | some r => some (Via.dev r 0)

end Sys2Proof.Machine
end

