-- ==== Sys2Proof/Machine/EngineIO.lean ====
section
/-! DEFINITION. How an engine command reads and writes elements, its SUM32 and how it ends (spec/14_matrix_and_engines.md
R341-R345; R56, R62, R67, R82, R96-R101). -/
namespace Sys2Proof.Machine

/-! ## Command fields (R341) -/

def cf (c : Cmd) (lo w : Nat) : Nat := (c.extractLsb' lo w).toNat
def cSfmt (c : Cmd) : Nat := cf c 8 5
def cDfmt (c : Cmd) : Nat := cf c 13 5
def cRnd (c : Cmd) : Nat := cf c 18 3
def cSat (c : Cmd) : Nat := cf c 21 2
def cTrn (c : Cmd) : Bool := c.getLsbD 23
def cChn (c : Cmd) : Bool := c.getLsbD 24
def cCkc (c : Cmd) : Bool := c.getLsbD 25
def cRawb (c : Cmd) : Bool := c.getLsbD 26
def cTm (c : Cmd) : Bool := c.getLsbD 27
def cRop (c : Cmd) : Nat := cf c 28 3
def cBs (c : Cmd) : Bool := c.getLsbD 31
def cGrp (c : Cmd) : Nat := cf c 32 9
def cDpkg (c : Cmd) : Nat := cf c 42 10
def cRmt (c : Cmd) : Bool := c.getLsbD 52
def cCms (c : Cmd) : Bool := c.getLsbD 53
def cCmd (c : Cmd) : Bool := c.getLsbD 54
def cLv (c : Cmd) : Bool := c.getLsbD 55
def cWmd (c : Cmd) : Nat := cf c 56 2
def cSrc (c : Cmd) : Nat := cf c 64 64
def cDst (c : Cmd) : Nat := cf c 128 64
def cAux (c : Cmd) : Nat := cf c 192 64
def cStep (c : Cmd) : Nat := cf c 256 64
def cDim (c : Cmd) (k : Nat) : Nat := cf c (448 + 32 * k) 32
def cSstr (c : Cmd) (k : Nat) : Int := (c.extractLsb' (544 + 32 * k) 32).toInt
def cDstr (c : Cmd) (k : Nat) : Int := (c.extractLsb' (640 + 32 * k) 32).toInt
def cCsum (c : Cmd) : Word := c.extractLsb' 768 32
def cCexp (c : Cmd) : Word := c.extractLsb' 800 32
def cSeed (c : Cmd) : Word := c.extractLsb' 832 32

/-! ## Where elements lie (R62, R64, R67, R342) -/

/-- How elements stand in bytes. -/
inductive Lay where
  | flat (w : Nat)
  | fp6
  | fp6x4
  | bpi (k : Nat)
deriving DecidableEq, Repr

/-- The layout of a format: FP6 packed outside the scratchpad, bit planes. -/
def layOf (fmt : Nat) (outside : Bool) : Lay :=
  if isFP6 fmt && outside then .fp6 else if isBPI fmt then .bpi (fmt - 0x10) else .flat (elW fmt)
/-- Layouts of a command's two sides: with RAW32 on one side, elements of the source's size on both (R74), a RAW32 element of a
packed FP6 destination being four FP6 elements (R67; log 111); host memory is outside the scratchpad too (log 127). -/
def sideLays (sf df : Nat) (so dout : Bool) : Lay × Lay :=
  let ls := layOf sf so
  if (sf == 0) != (df == 0) then (ls, if sf == 0 && isFP6 df && dout then .fp6x4 else .flat (elW sf)) else (ls, layOf df dout)

/-- One of FP6's 6-bit fields at a bit offset, in one byte or two, from a bit of the value. -/
def fp6Piece (b vb : Nat) : List (Nat × Nat × Nat × Nat) :=
  let lo := min 6 (8 - b % 8)
  (b / 8, b % 8, lo, vb) :: if lo < 6 then [(b / 8 + 1, 0, 6 - lo, vb + lo)] else []

/-- The pieces of element i0 of an inner row: byte offset, bit in the byte, number of bits, bit of the value. -/
def Lay.pieces (l : Lay) (i0 : Nat) : List (Nat × Nat × Nat × Nat) :=
  match l with
  | .flat w => if w = 4 then [(i0 / 2, 4 * (i0 % 2), 4, 0)] else (List.range (w / 8)).map fun k => (i0 * (w / 8) + k, 0, 8, 8 * k)
  | .fp6 => fp6Piece (6 * i0) 0
  | .fp6x4 => (List.range 4).flatMap fun j => fp6Piece (24 * i0 + 6 * j) (8 * j)
  | .bpi k => (List.range k).map fun p => (256 * (k * (i0 / 2048) + p) + i0 % 2048 / 8, i0 % 8, 1, k - 1 - p)
/-- Bits an element takes in memory. -/
def Lay.bits : Lay → Nat
  | .flat w => w
  | .fp6 => 6
  | .fp6x4 => 24
  | .bpi k => k
/-- How many elements lie together in whole bytes. -/
def Lay.grain : Lay → Nat
  | .flat w => if w = 4 then 2 else 1
  | .fp6 => 4
  | .fp6x4 => 1
  | .bpi _ => 8
/-- The stored code from the bits read. -/
def Lay.code (l : Lay) (x : Nat) : Nat :=
  match l with
  | .bpi k => contain (0x10 + k) x
  | _ => x

/-- Element e of a tensor: the base of its inner row and its index there (R342). -/
def elemAt (base : Nat) (str : Nat → Int) (dim : Nat → Nat) (e : Nat) : Int × Nat :=
  let r := e / dim 0
  ((base : Int) + (r % dim 1 : Nat) * str 1 + (r / dim 1 % dim 2 : Nat) * str 2 + (r / dim 1 / dim 2 : Nat) * str 3, e % dim 0)
def elemCount (dim : Nat → Nat) : Nat := dim 0 * dim 1 * dim 2 * dim 3
def va64 (x : Int) : Nat := (x % 2 ^ 64).toNat

/-! ## The running state of a command -/

/-- The machine, the uncompressed image of a destination buffer and the bytes written to it, the words written by address,
newest first (R344), the rows seen (R181) and the row addresses that named them, how many rows of the group in hand, and words
of the next one where it lies in host memory, are written, and the rows still to be (R388), the rows to another package not yet sent, the row accesses made in this act, the source
block last expanded, and the flags and saturations. -/
structure EAcc where
  s : State
  img : Memory := []
  cov : List Nat := []
  tw : List (Nat × Option Word) := []
  seen : List RowSeen := []
  maps : List (Nat × Bool × Nat) := []
  part : Nat := 0
  sub : Nat := 0
  pend : List Nat := []
  rows : List FarRow := []
  used : Nat := 0
  cache : Option (Nat × List Byte) := none
  fs : FSum := {}

/-- Whether the act has made its share of row accesses (log 107). -/
def EAcc.spent (x : EAcc) : Bool := x.s.pace != 0 && decide (x.s.pace ≤ x.used)
def estop (c : Cause) : EStop := (.cause c, 0)

/-- An access of an instruction that stops: its fault, with μPC; a poisoned row is found (R418). -/
def accessFail (k : EStop) (upc : Nat) (s : State) : Res :=
  match k.1 with
  | .cause c => .trap c (w64 (if isAddrCause c then k.2 else 0)) upc [] 0 0 s
  | .poisoned row => .wait (s.due (.uncorrectedError row s.b.region.fd))
  | .pause | .want _ _ _ => .wait s

/-- Where destination bytes go: this package's address space, another package's, or a buffer's image. -/
inductive Dest where
  | va
  | far (pkg : Nat)
  | image
deriving DecidableEq, Repr

/-- The party of a command: the tables and the burner whose rights it has. -/
def State.party (s : State) : Via × Burner := (s.viaB, s.b)

def farOf (s : State) (pkg : Nat) : Memory := tabGet [] s.far pkg

/-! ## Rows (R38, R162, R181) -/

/-- Bytes of a location: a row, or a word of host memory (R162). -/
def Loc.size (l : Loc) : Nat := if l.host then 8 else 256
/-- A location moved to another address of its row. -/
def Loc.moved (l : Loc) (old new : Nat) : Loc :=
  match l with
  | .phys pa key => .phys (pa - old % 256 + new % 256) key
  | l => l
/-- The location's number, and the offset there of an address; `none` for what no location holds. -/
def locRow (l : Loc) (va : Nat) : Option (Bool × Nat × Nat) :=
  match l with
  | .mesh core row => some (false, core * 2048 + row, va % 256)
  | .phys pa key => some (true, if l.host then 2 ^ 64 + pa / 8 else pa / 256 * 16 + key, pa % l.size)
  | .hidden => none
/-- The bytes of the location. -/
def rowBytes (l : Loc) (s : State) : List Byte :=
  match l with
  | .mesh core row => s.mesh.bytes (rowAddr core row) 256
  | .phys pa key => (List.range l.size).map fun i => s.physByte key (pa / l.size * l.size + i)
  | .hidden => List.replicate 256 0xFF
def RowSeen.at (r : RowSeen) (k : Bool × Nat × Nat) : Bool := r.phys == k.1 && r.row == k.2.1
/-- The row of a location read whole by the command's one access to it: the first time from memory, then as it then stood. -/
def EAcc.see (l : Loc) (va : Nat) (x : EAcc) : EAcc × List Byte :=
  match locRow l va with
  | none => (x, rowBytes l x.s)
  | some k => match x.seen.find? (·.at k) with
    | some r => (x, r.bytes)
    | none =>
      let bs := rowBytes l x.s
      ({ x with seen := { phys := k.1, row := k.2.1, bytes := bs } :: x.seen, used := x.used + 1 }, bs)
/-- Before the command writes a row: what it may still read of it is the row as it now stands (R181). -/
def EAcc.keepOld (l : Loc) (va : Nat) (x : EAcc) : EAcc :=
  match locRow l va with
  | none => x
  | some k =>
    if x.seen.any (·.at k) then { x with seen := x.seen.map fun r => if r.at k then { r with own := true } else r }
    else { x with seen := { phys := k.1, row := k.2.1, own := true, bytes := rowBytes l x.s } :: x.seen }

/-- The name of an address's row among those a command has presented, and of its word where it lies in host memory. -/
def mapRow (a : Nat) : Nat := a / 256
def mapWord (a : Nat) : Nat := 2 ^ 64 + a / 8
/-- The party of an access to a row: of several words of host memory in it, the first is matched by a watch filter (R386). -/
def EAcc.via (a : Nat) (x : EAcc) : Via :=
  { x.s.viaB with watch := !x.maps.any fun m => decide (2 ^ 64 ≤ m.1) && (m.1 - 2 ^ 64) / 32 == a / 256 }
/-! ## Units of several rows (R102) -/

/-- A location's number as a command's reads know it. -/
def Loc.key (l : Loc) : Option (Bool × Nat) := (locRow l 0).map fun k => (k.1, k.2.1)
/-- The locations that n bytes from an address lie in, for a party; those it cannot reach are left out. -/
def unitLocs (v : Via) (a n : Nat) (s : State) : List Loc :=
  (List.range ((a + n + 255) / 256 - a / 256)).flatMap fun i =>
    let lo := max a ((a / 256 + i) * 256)
    match locate s v s.b true lo 1 with
    | .error _ => []
    | .ok (_, l) =>
      if l.host then (List.range ((min (a + n) ((a / 256 + i + 1) * 256) + 7) / 8 - lo / 8)).map fun j => l.moved lo (8 * (lo / 8 + j))
      else [l]
/-- A command that has read one of the rows of a unit reads the others as they stood with it. -/
def Eng.holdUnit (rows : List (Bool × Nat × List Byte)) (g : Eng) : Eng :=
  let has (r : Bool × Nat × List Byte) : Bool := g.seen.any fun q => q.phys == r.1 && q.row == r.2.1
  if rows.any has then
    { g with seen := (rows.filter fun r => !has r).map (fun r => { phys := r.1, row := r.2.1, bytes := r.2.2 }) ++ g.seen }
  else g
/-- Before a unit, ranges of a party's addresses, is written: its rows as they stand for every command that has begun to read
them. -/
def holdUnit (v : Via) (rs : List (Nat × Nat)) (s : State) : State :=
  if !(s.all ++ s.saved).any fun b => b.eng.any fun g => !g.seen.isEmpty then s
  else
    let rows := (rs.flatMap fun r => unitLocs v r.1 r.2 s).filterMap fun l => l.key.map fun k => (k.1, k.2, rowBytes l s)
    let hold (b : Burner) : Burner := { b with eng := b.eng.map (Eng.holdUnit rows) }
    { s.modWhere (fun _ => true) hold with saved := s.saved.map hold }

/-- One byte read by a command: of a location that it has read already, or by its access to it (R52, R162). -/
def byteAt (a : Nat) (x : EAcc) : Except EStop (EAcc × Byte) :=
  let known := (x.maps.find? fun m => m.1 == mapRow a || m.1 == mapWord a).bind fun m =>
    x.seen.find? fun r => r.phys == m.2.1 && r.row == m.2.2
  match known with
  | some r => .ok (x, r.bytes.getD (a % r.bytes.length) 0)
  | none =>
    if x.spent then .error (.pause, 0)
    else match locateBy x.s (x.via a) x.s.b { rd := true } a with
      | .error e => .error (e, a)
      | .ok (s1, l) =>
        let r := EAcc.see l a { x with s := s1 }
        .ok (match locRow l a with
          | some k => ({ r.1 with maps := (if l.host then mapWord a else mapRow a, k.1, k.2.1) :: r.1.maps }, r.2.getD k.2.2 0)
          | none => (r.1, 0xFF))
/-- Bytes read by a command from this package or another. -/
def bytesAt (d : Dest) : Nat → Nat → EAcc → Except EStop (EAcc × List Byte)
  | _, 0, x => .ok (x, [])
  | a, n + 1, x =>
    let r : Except EStop (EAcc × Byte) := match d with
      | .far p => if vaBad a then .error (.cause .vaRange, a) else .ok (x, (farOf x.s p).get a)
      | _ => byteAt a x
    match r with
    | .error e => .error e
    | .ok (x1, b) => match bytesAt d (a + 1) n x1 with
      | .error e => .error e
      | .ok (x2, bs) => .ok (x2, b :: bs)

/-- A destination word as it stands, once part of it is written (R344). -/
def noteWord (a : Nat) (w : Word) (tw : List (Nat × Option Word)) : List (Nat × Option Word) :=
  if tw.any (·.1 == a) then tw.map fun p => if p.1 == a then (a, some w) else p else (a, some w) :: tw
/-- Words that are to be written, in their order: each has its place from now on, whatever order rows are written in. -/
def orderWords (ks : List Nat) (tw : List (Nat × Option Word)) : List (Nat × Option Word) :=
  ks.foldl (fun tw a => if tw.any (·.1 == a) then tw else (a, none) :: tw) tw

/-! ## Row writes (R38, R49, R52, R56) -/

/-- Bits of one destination byte to write: where, the address, the mask, the bits, the first element in it, and whether its word
enters SUM32 (R344). -/
structure PutB where
  d : Dest
  a : Nat
  mask : Byte
  v : Byte
  el : Nat
  counts : Bool := true

/-- The name of its word: an image's words have names of their own. -/
def PutB.word (p : PutB) : Nat := (if p.d == .image then 2 ^ 64 else 0) + p.a / 4 * 4

/-- One piece of an element in its byte: the mask and the bits. -/
def pieceByte (v sh n vb : Nat) : Byte × Byte := (BitVec.ofNat 8 ((2 ^ n - 1) * 2 ^ sh), BitVec.ofNat 8 (v / 2 ^ vb % 2 ^ n * 2 ^ sh))
def addPiece (p : PutB) (xs : List PutB) : List PutB :=
  if xs.any (·.a == p.a) then xs.map fun q => if q.a == p.a then { q with mask := q.mask ||| p.mask, v := (q.v &&& ~~~p.mask) ||| (p.v &&& p.mask) } else q
  else xs ++ [p]
/-- The bytes that elements e, e + 1, … make, in order of their first piece; those of a repeated place take the last (R343). -/
def piecesOf (d : Dest) (place : Nat → Int × List (Nat × Nat × Nat × Nat)) (e : Nat) (vs : List Nat) : List PutB :=
  let recent (xs : List PutB) : List PutB × List PutB := (xs.take (xs.length - 256), xs.drop (xs.length - 256))
  (vs.zipIdx.foldl (fun (acc : List PutB) p =>
    let q := place (e + p.2)
    q.2.foldl (fun acc (o, sh, n, vb) =>
      let b := pieceByte p.1 sh n vb
      let r := recent acc
      r.1 ++ addPiece ⟨d, va64 (q.1 + o), b.1, b.2, e + p.2, true⟩ r.2) acc) [])
/-- Whole bytes from an address on. -/
def wholeBytes (d : Dest) (el : Nat) (counts : Bool) (a : Nat) (bs : List Byte) : List PutB :=
  bs.zipIdx.map fun p => ⟨d, a + p.2, 0xFF, p.1, el, counts⟩

/-- Bytes by the row they lie in, rows in the order of their first byte: each is one access. -/
def rowGroups (ps : List PutB) : List (List PutB) :=
  let add (gs : List (List PutB)) (p : PutB) : List (List PutB) :=
    let mine (g : List PutB) : Bool := g.head?.any fun q => q.d == p.d && q.a / 256 == p.a / 256
    if gs.any mine then gs.map fun g => if mine g then p :: g else g else gs ++ [[p]]
  (ps.foldl add []).map List.reverse

def PutB.over (p : PutB) (old : Byte) : Byte := (old &&& ~~~p.mask) ||| (p.v &&& p.mask)
/-- Bytes of one row written in one step: a whole row at once, or the enabled bytes. -/
def writeRow (l : Loc) (a : Nat) (g : List PutB) (s : State) : State :=
  let row := a / 256 * 256
  if g.length = 256 then s.locWrite (l.moved a row) row ((List.range 256).map fun i => (g.find? fun p => p.a % 256 == i).elim 0 (·.v))
  else g.foldl (fun s p => s.locWrite (l.moved a p.a) p.a [p.over ((s.locBytes (l.moved a p.a) p.a 1).headD 0)]) s

/-- A row on its way to another package. -/
def farRow (pkg u : Nat) (g : List PutB) (s : State) : List FarRow :=
  match g with
  | [] => []
  | p :: _ => [⟨pkg, p.a / 256 * 256, g.map fun q => (q.a % 256, q.mask, q.v), p.el, p.counts, s.b.core, s.b.bur, u, s.b.engSeq u⟩]

/-- Bytes by the word of host memory they lie in, in the order of their first byte. -/
def wordGroups (g : List PutB) : List (List PutB) :=
  (firstSeen (g.map (·.a / 8))).map fun k => g.filter fun q => q.a / 8 == k
/-- A location written in one access: its bytes, and the words that count as they then stand (R344). -/
def putLoc (l : Loc) (a : Nat) (g : List PutB) (x : EAcc) : EAcc :=
  match g with
  | [] => x
  | q :: _ =>
    let l1 := l.moved a q.a
    let x1 := EAcc.keepOld l1 q.a x
    let s1 := writeRow l1 q.a g x1.s
    let word (q1 : PutB) : Word := w32 (natOfBytes (s1.locBytes (l.moved a (q1.a / 4 * 4)) (q1.a / 4 * 4) 4))
    { x1 with s := s1, used := x1.used + 1
              tw := g.foldl (fun tw q => if q.counts then noteWord q.word (word q) tw else tw) x1.tw }
/-- Words of a row in host memory written in turn; `sub` counts them, and a pause falls before any but the first of an act. -/
def putWords (l : Loc) (a : Nat) : List (List PutB) → EAcc → EAcc × Bool
  | [], x => ({ x with sub := 0 }, true)
  | w :: ws, x =>
    let x1 := putLoc l a w x
    if x1.spent && !ws.isEmpty then ({ x1 with sub := x1.sub + 1 }, false) else putWords l a ws { x1 with sub := x1.sub + 1 }
/-- One row written: its byte enables in one access, which reads the row too where it takes part of a byte (R49, R386); a row of
host memory word by word (R162). Whether all of it is written. -/
def putRow (u : Nat) (g : List PutB) (x : EAcc) : Except EStop (EAcc × Bool) :=
  match g with
  | [] => .ok (x, true)
  | p :: _ => match p.d with
    | .image => .ok (g.foldl (fun x q => { x with img := x.img.set q.a (q.over (x.img.get q.a)), cov := q.a :: x.cov }) x, true)
    | .far k => if vaBad p.a then .error (.cause .vaRange, p.a) else .ok ({ x with rows := farRow k u g x.s ++ x.rows }, true)
    | .va =>
      match locateBy x.s { x.s.viaB with watch := x.sub = 0 } x.s.b { rd := g.any (·.mask != 0xFF), wr := g.map (·.a % 256) } p.a with
      | .error e => .error (e, p.a)
      | .ok (s1, l) =>
        if l.host then .ok (putWords l p.a ((wordGroups g).drop x.sub) { x with s := s1 })
        else .ok (putLoc l p.a g { x with s := s1 }, true)

/-- Rows written in turn, after the `n` that are. A pause falls before any access; where it stopped, the first element that is
not wholly written, and how many rows are. -/
def storeRows (u : Nat) : Nat → List (List PutB) → EAcc → EAcc × Option (EStop × Nat × Nat)
  | _, [], x => (x, none)
  | n, g :: gs, x =>
    let el (x : EAcc) : Nat := (if x.sub = 0 then g.head?.map (·.el) else (((wordGroups g).drop x.sub).flatten.head?.map (·.el))).getD 0
    if x.spent && g.any (·.d == .va) then (x, some ((.pause, 0), el x, n))
    else match putRow u g x with
      | .error k => (x, some (k, el x, n))
      | .ok (x1, true) => storeRows u (n + 1) gs x1
      | .ok (x1, false) => (x1, some ((.pause, 0), el x1, n))

/-- Scratchpad rows of a core that rows still to be written name (R176, R388). -/
def producedRows (core : Nat) (gs : List (List PutB)) : List Nat :=
  gs.filterMap fun g => match g with
    | p :: _ => match p.d, meshResolve core p.a with
      | .va, .ok (k, row) => if k = core then some row else none
      | _, _ => none
    | [] => none

/-! ## Sources -/

/-- A source: addresses, or the uncompressed data of a buffer of a length. -/
inductive SrcK where
  | va
  | buf (base ulen : Nat)
deriving DecidableEq, Repr

/-- The 4,096 bytes of block k of a buffer (R97, R98): its payload is read whole before its codec is judged (log 108). -/
def readBlock (base k : Nat) (x : EAcc) : Except EStop (EAcc × List Byte) :=
  match bytesAt .va (base + 64 + 8 * k) 8 x with
  | .error e => .error e
  | .ok (x1, db) =>
    let d := natOfBytes db
    let clen := fld d 48 12
    let poff := fld d 0 48
    if fld d 60 2 != 0 || poff % 4 != 0 || clen = 0 || clen > 2048 then .error (estop .decompError)
    else match bytesAt .va (base + poff) (4 * clen) x1 with
      | .error e => .error e
      | .ok (x2, pb) => match decodeBlock (fld d 62 2) clen (wordsOfBytes pb clen) with
        | none => .error (estop .decompError)
        | some ws => .ok (x2, ws.flatMap wordBytes)

/-- One byte of a source. -/
def srcByte (k : SrcK) (a : Int) (x : EAcc) : Except EStop (EAcc × Byte) :=
  match k with
  | .va => byteAt (va64 a) x
  | .buf base ulen =>
    if a < 0 || (ulen : Int) ≤ a then .error (estop .engCommand)
    else
      let o := a.toNat
      let hit := match x.cache with
        | some (j, bs) => if j = o / 4096 then some bs else none
        | none => none
      match hit with
      | some bs => .ok (x, bs.getD (o % 4096) 0)
      | none => match readBlock base (o / 4096) x with
        | .error e => .error e
        | .ok (x1, bs) => .ok ({ x1 with cache := some (o / 4096, bs) }, bs.getD (o % 4096) 0)

/-- An element read piece by piece. -/
def getPieces (k : SrcK) (base : Int) : List (Nat × Nat × Nat × Nat) → Nat → EAcc → Except EStop (EAcc × Nat)
  | [], v, x => .ok (x, v)
  | (o, sh, n, vb) :: t, v, x =>
    match srcByte k (base + o) x with
    | .error e => .error e
    | .ok (x1, b) => getPieces k base t (v + b.toNat / 2 ^ sh % 2 ^ n * 2 ^ vb) x1

/-- What a buffer's header says (R96). -/
structure BufHdr where
  ulen : Nat
  nblk : Nat
  fmt : Nat
  xp : Nat
deriving DecidableEq, Repr
/-- The header of a buffer (R96), wherever it lies (log 129); BUF_HEADER where it breaks a rule. -/
def readHeader (d : Dest) (base : Nat) (x : EAcc) : Except EStop (EAcc × BufHdr) :=
  if vaBad base then .error (.cause .vaRange, base)
  else if base % 256 != 0 then .error (estop .bufHeader)
  else match bytesAt d base 64 x with
    | .error e => .error e
    | .ok (x1, bs) =>
      let h := natOfBytes bs
      let nblk := fld h 0 24
      let ulen := fld h 64 64
      if h / 2 ^ 128 != 0 || fld h 56 8 != 0 || fld h 48 8 != 1 || fld h 37 9 != 0 || fld h 24 8 != 0 || nblk = 0 ||
          ulen % 4 != 0 || ulen ≤ 4096 * (nblk - 1) || 4096 * nblk < ulen || !fmtAssigned (fld h 32 5) then
        .error (estop .bufHeader)
      else .ok (x1, ⟨ulen, nblk, fld h 32 5, fld h 46 2⟩)

/-! ## Rounding and conversion of one element (R74, R82) -/

/-- The rounding mode of destination element e. -/
def cmdMode (c : Cmd) (words : List Word) (e : Nat) : RMode :=
  { rm := BitVec.ofNat 3 (cRnd c), sat := BitVec.ofNat 2 (cSat c)
    r := if cRnd c = 5 then srElem words (elN (cDfmt c)) e else 0 }
/-- The generator words of a command that writes n elements. -/
def cmdWords (c : Cmd) (n : Nat) : List Word :=
  if cRnd c = 5 then srWords (n / (64 * elN (cDfmt c)) + 1) (srCmdSeed (cSeed c)) else []

/-- Bits that pass unchanged, but bits 7:6 into an FP6 format. -/
def rawPass (df v : Nat) : Nat := if isFP6 df then (fp6Mask df (w32 v)).toNat else v
/-- An element converted from sf to df. -/
def copyEl (sf df : Nat) (o : RMode) (v : Nat) : Nat × Fx :=
  if sf = 0 || df = 0 || sf = df then (rawPass df v, {}) else convEl sf df o v

/-! ## Rows to another package (R403, R407, R408) -/

/-- Ports whose link is up, by number (R403). -/
def State.upPorts (s : State) : List Nat := (s.ports.filter (·.up)).map (·.id)
/-- The port a row to a package leaves on: what the firmware's route table gives; none without a route (R403, R408; log 105). -/
def State.routeTo (s : State) (pkg : Nat) : Option Nat :=
  match s.upPorts with
  | [] => none
  | p :: ps =>
    if Config.noRoute (p :: ps) pkg then none
    else some ((p :: ps).getD (Config.route (p :: ps) pkg % (p :: ps).length) p)

/-- The header of a flit: SEQ, ACK, DPKG, SPKG, TYPE, CRD (R404). -/
def flitHead (p : Port) (dpkg spkg type' : Nat) : BitVec 64 :=
  p.tx.extractLsb' 0 16 ++ (p.rx - 1).extractLsb' 0 16 ++ BitVec.ofNat 10 dpkg ++ BitVec.ofNat 10 spkg ++ BitVec.ofNat 4 type' ++ 0#8

/-- One step of CRC-32 with polynomial 0x04C11DB7: the next bit of the message enters at the top (R404; log 105). -/
def crcBit (c : BitVec 32) (b : Bool) : BitVec 32 :=
  let t := c.getLsbD 31 ^^ b
  if t then (c <<< 1) ^^^ 0x04C11DB7 else c <<< 1
/-- CRC-32 over bytes, each from its high bit down, from 0. -/
def crc32 (bs : List Byte) : BitVec 32 :=
  bs.foldl (fun c b => (List.range 8).foldl (fun c i => crcBit c (b.getLsbD (7 - i))) c) 0
/-- The low n bytes of a flit. -/
def flitBytes (f : BitVec 2048) (n : Nat) : List Byte := (List.range n).map fun i => f.extractLsb' (8 * i) 8

/-- The direction bit of a link's nonce: the end with the lower package number sends 0 (R406; log 105). -/
def Port.dir (p : Port) (self : Nat) : BitVec 1 := if self < p.peer then 0 else 1

/-- A flit with its header, sealed payload and CRC (R404, R406). -/
def buildFlit (p : Port) (self : Nat) (head : BitVec 64) (text : List Byte) : BitVec 2048 :=
  let body : BitVec 2016 := Config.sealFlit p.key p.id (p.dir self) p.epoch p.tx head text ++ head
  crc32 ((List.range 252).map fun i => body.extractLsb' (8 * i) 8) ++ body

/-- A sequenced flit sent: into the replay buffer and onto the wire (R405). -/
def Port.send (p : Port) (self spkg dpkg type' : Nat) (text : List Byte) (row : Option FarRow) : Port :=
  let f := buildFlit p self (flitHead p dpkg spkg type') text
  { p with tx := p.tx + 1, replay := p.replay ++ [⟨f, row⟩], wire := p.wire ++ [f] }

def State.port (s : State) (id : Nat) : Port := (s.ports.find? (·.id == id)).getD { id := id }
def State.setPort (s : State) (p : Port) : State := { s with ports := s.ports.map fun x => if x.id == p.id then p else x }

/-- A row sent in two flits; it is performed with the acknowledgement of the second. -/
def sendRow (r : FarRow) (id : Nat) (s : State) : State :=
  let text (k : Nat) : List Byte := Config.rowText k r.pkg r.va r.bytes
  s.setPort (((s.port id).send s.pkg s.pkg r.pkg 1 (text 0) none).send s.pkg s.pkg r.pkg 1 (text 1) (some r))

/-- Whether a row may go to a destination now: to another package it takes a route, and room for it in the replay buffer of 512
flits. -/
def mayCarry (d : Dest) (s : State) : Bool :=
  match d with
  | .far pkg => match s.routeTo pkg with
    | none => false
    | some id => decide ((s.port id).replay.length + 8 ≤ 512)
  | _ => true
/-- The rows a group made, sent in order. -/
def sendRows (x : EAcc) : EAcc :=
  let s := x.rows.reverse.foldl (fun s r => match s.routeTo r.pkg with
    | none => s
    | some id => sendRow r id s) x.s
  { x with s := s, rows := [] }

/-! ## Elements in turn -/

/-- The elements from e on that one access to a destination row takes: up to the first that is a multiple of B, counted from 0,
and lies in another row; at most `fuel` of n. -/
def groupEnd (rowOf : Nat → Nat) (B n e0 : Nat) : Nat → Nat → Nat
  | 0, e => e
  | fuel + 1, e =>
    if n ≤ e then n else if e0 < e && e % B = 0 && rowOf e != rowOf e0 then e else groupEnd rowOf B n e0 fuel (e + 1)

/-- Elements read: those got, and why it stopped. A command may stand before its access to a row when its act's share is used
up. -/
def readEls {α : Type} (get : Nat → EAcc → Except EStop (EAcc × α)) : List Nat → EAcc → EAcc × List α × Option EStop
  | [], x => (x, [], none)
  | e :: es, x => match get e x with
    | .error k => (x, [], some k)
    | .ok (x1, v) =>
      let r := readEls get es x1
      (r.1, v :: r.2.1, r.2.2)

/-- Whether an act stops short without a fault. -/
def isPause : Option EStop → Bool
  | some (.pause, _) => true
  | _ => false

/-- How a command of unit u writes n elements: the groups that it takes together (of one destination row, in multiples of
`grain`), how one is read, the bytes that elements make and the flags they raise. Of a group that a fault cuts, multiples of
`keep` are written. `one`: each group is written at one point, or not at all (R105). -/
structure Emit (α : Type) where
  u : Nat
  n : Nat
  rowOf : Nat → Nat
  grain : Nat
  keep : Nat := 1
  one : Bool := false
  get : Nat → EAcc → Except EStop (EAcc × α)
  bytes : Nat → List α → List PutB
  flags : Nat → List α → FSum

/-- A group of elements from e on written, row by row; to another package once its rows can be sent. -/
def Emit.write {α : Type} (p : Emit α) (e : Nat) (vs : List α) (x : EAcc) : EAcc × Option (EStop × Nat) :=
  let bs := p.bytes e vs
  let gs := rowGroups bs
  let x := { x with tw := orderWords ((bs.filter (·.counts)).map (·.word)) x.tw }
  let out (x : EAcc) (k : Nat) : EAcc := sendRows { x with fs := x.fs.join (p.flags e (vs.take (k / p.keep * p.keep))) }
  if !(bs.all fun b => mayCarry b.d x.s) then (x, some ((.pause, 0), e))
  else if p.one then
    if x.spent then ({ x with pend := producedRows x.s.b.core gs }, some ((.pause, 0), e))
    else match storeRows p.u 0 gs { x with s := { x.s with pace := 0 } } with
      | (x1, none) => (out { x1 with s := { x1.s with pace := x.s.pace } } vs.length, none)
      | (_, some (k, _, _)) => (x, some (k, e))
  else match storeRows p.u x.part (gs.drop x.part) x with
    | (x1, none) => (out { x1 with part := 0, sub := 0 } vs.length, none)
    | (x1, some ((.pause, a), _, k)) => ({ x1 with part := k, pend := producedRows x1.s.b.core (gs.drop k) }, some ((.pause, a), e))
    | (x1, some (t, el, k)) =>
      (out { x1 with part := if t.1 == .cause .watchHit && el = e then k else 0, sub := 0 } (el - e), some (t, el))

/-- Elements e to n − 1, group by group: a group's elements are read, then written (R38, R162, R181). How many elements are done
and where it stopped. `fuel` bounds the groups. -/
def emitGo {α : Type} (p : Emit α) : Nat → Nat → EAcc → EAcc × Nat × Option EStop
  | 0, e, x => (x, e, none)
  | fuel + 1, e, x =>
    if p.n ≤ e then (x, e, none)
    else
      let z := groupEnd p.rowOf p.grain p.n e (p.n - e) (e + 1)
      let r := readEls p.get ((List.range (z - e)).map (e + ·)) x
      if isPause r.2.2 then (r.1, e, r.2.2)
      else
        let vs := if r.2.2.isNone then r.2.1 else r.2.1.take (r.2.1.length / p.keep * p.keep)
        match p.write e vs r.1 with
        | (x2, some (k, el)) => (x2, el, some k)
        | (x2, none) => match r.2.2 with
          | some k => (x2, e + vs.length, some k)
          | none => emitGo p fuel z x2
/-- A command's elements from where it stands. -/
def Emit.run {α : Type} (p : Emit α) (x : EAcc) : EAcc × Nat × Option EStop :=
  let e0 := (x.s.b.unit p.u).pos.getD 0
  emitGo p (p.n - e0 + 1) e0 x

/-- The destination row of an element's first byte. -/
def rowOfPlace (place : Nat → Int × List (Nat × Nat × Nat × Nat)) (e : Nat) : Nat :=
  let p := place e
  va64 (p.1 + (match p.2 with
    | q :: _ => q.1
    | [] => 0)) / 256

/-! ## How a command ends -/

/-- The SUM32 a command starts from (R344). -/
def startSum (b : Burner) (u : Nat) (c : Cmd) : Word := if cChn c then (b.unit u).last else cCsum c
def sumWords (c : Word) (ws : List Word) : Word := ws.foldl (fun c w => rotl32 c 1 + w) c
/-- The words a command has written, in order of their first written byte (R344). -/
def twWords (tw : List (Nat × Option Word)) : List Word := (tw.filterMap (·.2)).reverse

/-- A finished command posts its element (R344, R345). -/
def endCmd (u : Nat) (c : Cmd) (sum : Word) (nf : Bool) (res : BitVec 3) (fs : FSum) (s : State) : Outcome :=
  let g := s.b.unit u
  let st := if cCkc c && sum != cCexp c then stCheckFail else stDone
  let k : Comp := { csum := sum, satn := g.satn + fs.sat, fl := g.fl ||| fs.fl, nf := nf, res := res, status := st }
  .next (finishAt s.b.core s.b.bur u (k.element u (cmdOpc c) (s.b.engSeq u)) (cmdSigM c) s)

/-- A command to another package to which no route leads (R408). -/
def State.noRoute (s : State) (c : Cmd) : Bool := cRmt c && cDpkg c != s.pkg && (s.routeTo (cDpkg c)).isNone
/-- It completes PEER_LOST at once and writes no more. -/
def peerLost (u : Nat) (c : Cmd) (s : State) : Outcome :=
  let k : Comp := { csum := startSum s.b u c, status := stPeerLost }
  .next (finishAt s.b.core s.b.bur u (k.element u (cmdOpc c) (s.b.engSeq u)) (cmdSigM c) s)

/-- What a unit keeps of a command that stands at element e: between two accesses, or faulted (R56, R342). Rows it only read are
read again after a fault, but for one that the watch test stopped, whose next matching access may pass (R387). -/
def keepRun (u e : Nat) (flt : Option (Cause × DWord)) (prog : Nat) (x : EAcc) : State :=
  let again : Bool := flt.any fun k => k.1 != .watchHit
  x.s.modB fun b =>
    let g := b.unit u
    b.setUnit u { g with
      prog := prog, pos := some e, part := x.part, sub := x.sub, tw := x.tw, img := x.img, cov := x.cov
      pend := if flt.isSome then [] else x.pend
      seen := if again then x.seen.filter (·.own) else x.seen, maps := if again then [] else x.maps
      fl := g.fl ||| x.fs.fl, satn := g.satn + x.fs.sat, flt := flt, fltDue := flt.isSome }

/-- A command that stops: its fault, to be taken at the burner's next cut, with the progress it reports (R56, R342). A poisoned
row kills the domain that found it (R418); a pause keeps the command where it stands. -/
def stopRun (u e prog : Nat) (k : EStop) (x : EAcc) : Outcome :=
  match k.1 with
  | .cause c => .next (keepRun u e (some (c, w64 (if isAddrCause c || c == .replayDiverged then k.2 else 0))) prog x)
  | .poisoned row => let s1 := keepRun u e none prog x; .next (s1.due (.uncorrectedError row s1.b.region.fd))
  | .pause | .want _ _ _ => .next (keepRun u e none (x.s.b.unit u).prog x)
/-- A command that stops before it has done more than it had. -/
def stopCmd (u : Nat) (k : EStop) (x : EAcc) : Outcome := stopRun u ((x.s.b.unit u).pos.getD 0) (x.s.b.unit u).prog k x

/-- Progress in bytes of e elements of so many bits; elements themselves where 0 bits are given (R339). -/
def progOf (bits e : Nat) : Nat := if bits = 0 then e else e * bits / 8

/-- The head command started: its SUM32 begins (R337, R344). -/
def beginCmd (u : Nat) (c : Cmd) (b : Burner) : Burner :=
  let g := b.unit u
  match g.fifo with
  | [] => b
  | p :: t => if p.started then b else b.setUnit u { g with fifo := { p with started := true } :: t, sum := startSum b u c }

/-- The running state a command goes on from; one that has not stopped has no part of a group done and no translation in use. -/
def accOf (u : Nat) (s : State) : EAcc :=
  let g := s.b.unit u
  { s := s, tw := g.tw, img := g.img, cov := g.cov, seen := g.seen
    maps := if g.pos.isNone then [] else g.maps, part := if g.pos.isNone then 0 else g.part
    sub := if g.pos.isNone then 0 else g.sub }

/-- Whether rows of the head command of unit u stand unacknowledged. -/
def State.inFlight (u : Nat) (s : State) : Bool :=
  s.ports.any fun p => p.replay.any fun f => match f.row with
    | some r => r.core == s.b.core && r.bur == s.b.bur && r.unit == u && r.seq == s.b.engSeq u
    | none => false

/-- The end of a command that wrote n elements to d, of `bits` each and taken up again in blocks of q; one to another package
ends once its rows are performed. -/
def finishRun (u : Nat) (c : Cmd) (d : Dest) (bits q n : Nat) (r : EAcc × Nat × Option EStop) : Outcome :=
  match r with
  | (x, e, some k) => stopRun u (e / q * q) (progOf bits e) k x
  | (x, _, none) => match d with
    | .far _ => if x.s.inFlight u then stopRun u n (progOf bits n) (.pause, 0) x
      else endCmd u c (sumWords (x.s.b.unit u).sum (twWords x.tw)) false 0 x.fs x.s
    | _ => endCmd u c (sumWords (x.s.b.unit u).sum (twWords x.tw)) false 0 x.fs x.s

end Sys2Proof.Machine
end

