-- ==== Sys2Proof/Machine/EngineCmds.lean ====
section
/-! DEFINITION. Commands of the copy and gather engines (spec/14_matrix_and_engines.md R343, R448;
spec/04_data_on_the_move.md R99-R110). -/
namespace Sys2Proof.Machine

/-! ## Destinations -/

/-- Where a command's bytes go when DST is no buffer. -/
def cmdSpace (c : Cmd) (s : State) : Dest := if cRmt c && cDpkg c != s.pkg then .far (cDpkg c) else .va
/-- Whether DST names a buffer that is compressed on the way (R101, R448). -/
def cBuf (c : Cmd) : Bool := cCmd c && !cRawb c
def inMesh (a : Nat) : Bool := a < 0x20000000
/-- Whether an operand of the command lies outside the scratchpad, this package's or another's. -/
def srcOutside (c : Cmd) : Bool := !inMesh (cSrc c) || (cCms c && !cRawb c)
def dstOutside (c : Cmd) : Bool := cBuf c || !inMesh (cDst c)

/-- A block of a buffer compressed and written with its descriptor as one unit (R101, R102), all of its rows or none (R56); SUM32
is over the words of the uncompressed data, which the command writes (log 119). -/
def writeBlock (d : Dest) (u base nblk k el : Nat) (ws : List Word) (x : EAcc) : Except EStop EAcc :=
  let slot := (base + 64 + 8 * nblk + 255) / 256 * 256 + 4096 * k
  let e := encodeBlock ws
  let gs := rowGroups (wholeBytes d el false slot (e.2.flatMap wordBytes) ++
    wholeBytes d el false (base + 64 + 8 * k) (bytesOfNat 8 (e.1 * 2 ^ 62 + e.2.length * 2 ^ 48 + (slot - base))))
  let s1 := if d = .va then holdUnit x.s.viaB [(slot, 4 * e.2.length), (base + 64 + 8 * k, 8)] x.s else x.s
  match storeRows u 0 gs { x with s := { s1 with pace := 0 } } with
  | (_, some (t, _, _)) => .error t
  | (x1, none) => .ok (sendRows { x1 with s := { x1.s with pace := x.s.pace } })

/-- Whether every byte of block k up to ULEN is written. -/
def blockWhole (ulen k : Nat) (cov : List Nat) : Bool :=
  let hi := min ulen (4096 * (k + 1))
  4096 * k < hi && (List.range (hi - 4096 * k)).all fun i => cov.contains (4096 * k + i)
/-- Whether a byte at or beyond ULEN of block k is written. -/
def blockPast (ulen k : Nat) (cov : List Nat) : Bool := cov.any fun a => a / 4096 == k && decide (ulen ≤ a)

/-- The words of an image from one offset to another, as a block of them is performed (R344). -/
def noteBlock (lo hi : Nat) (img : Memory) (tw : List (Nat × Option Word)) : List (Nat × Option Word) :=
  tw.map fun p => if 2 ^ 64 + lo ≤ p.1 ∧ p.1 < 2 ^ 64 + hi then (p.1, some (img.word (p.1 - 2 ^ 64))) else p
/-- Blocks of the image in the order they were begun, after the `n` that are written. Each is wholly covered up to ULEN: a block
that is not, or is written past ULEN, is ENG_COMMAND at its turn (R101; log 112); `all` is false while elements are still to
come. How many are written, and why it stopped. -/
def flushGo (d : Dest) (u base ulen nblk : Nat) (all : Bool) : List Nat → Nat → EAcc → EAcc × Nat × Option EStop
  | [], n, x => (x, n, none)
  | k :: ks, n, x =>
    if blockPast ulen k x.cov || !blockWhole ulen k x.cov then (x, n, if all then some (estop .engCommand) else none)
    else if x.spent || !mayCarry d x.s then (x, n, some (.pause, 0))
    else
      let hi := min ulen (4096 * (k + 1))
      let ws := wordsOfBytes (x.img.bytes (4096 * k) (hi - 4096 * k) ++ List.replicate (4096 * (k + 1) - hi) 0) 1024
      match writeBlock d u base nblk k n ws x with
      | .error e => (x, n, some e)
      | .ok x1 => flushGo d u base ulen nblk all ks (n + 1) { x1 with tw := noteBlock (4096 * k) hi x1.img x1.tw }

/-- The progress of a command that pauses. -/
def setProg (u p : Nat) (x : EAcc) : EAcc := { x with s := x.s.modB fun b => b.setUnit u { b.unit u with prog := p } }
/-- A run whose image is compressed: blocks are written in order once the elements are done or a fault stops them, and their
bytes are the progress (R98, R101). -/
def flushRun (u : Nat) (c : Cmd) (d : Dest) (ulen nblk q n : Nat) (r : EAcc × Nat × Option EStop) : Outcome :=
  match r with
  | (x, e, stop) =>
    let at' := e / q * q
    let done := (x.s.b.unit u).prog / 4096
    if isPause stop then stopRun u at' (4096 * done) (.pause, 0) x
    else match flushGo d u (cDst c) ulen nblk stop.isNone ((firstSeen (x.cov.reverse.map (· / 4096))).drop done) done x with
      | (y, m, some k) => stopRun u at' (4096 * m) k (setProg u (4096 * m) y)
      | (y, m, none) => match stop with
        | some k => stopRun u at' (4096 * m) k y
        | none =>
          if y.s.inFlight u then stopRun u n (4096 * m) (.pause, 0) (setProg u (4096 * m) y)
          else endCmd u c (sumWords (y.s.b.unit u).sum (twWords y.tw)) false 0 y.fs y.s

/-- The frame of a command that writes elements of `bits` each in blocks of q to DST: `run` says how into a destination from a
base. A compressed destination is an image first; its header's format is DFMT (R101). DESIGN CHOICE (log 153): the destination's
header is read after the source's. -/
def runDst {α : Type} (u : Nat) (c : Cmd) (bits q : Nat) (run : Dest → Nat → Emit α) (x : EAcc) : Outcome :=
  let d := cmdSpace c x.s
  if cBuf c then
    match readHeader d (cDst c) x with
    | .error k => stopCmd u k x
    | .ok (x1, h) =>
      let p := run .image 0
      if h.fmt != cDfmt c then stopCmd u (estop .engCommand) x1 else flushRun u c d h.ulen h.nblk q p.n (p.run x1)
  else
    let p := run d (cDst c)
    finishRun u c d bits q p.n (p.run x)

/-- Destination elements at the strides of R342, relative to DST. -/
def dstAt (c : Cmd) (e : Nat) : Int × Nat := elemAt 0 (cDstr c) (cDim c) e
/-- The pieces of destination element e of a tensor at a base. -/
def placeIn (lay : Lay) (at' : Nat → Int × Nat) (base e : Nat) : Int × List (Nat × Nat × Nat × Nat) :=
  ((at' e).1 + base, lay.pieces (at' e).2)

/-- The flags of converted elements. -/
def fxSum (_ : Nat) (vs : List (Nat × Fx)) : FSum := vs.foldl (fun f v => f.add v.2) {}
/-- How n converted elements are written: `lay` and `at'` place them from a base of d. -/
def emitTo (d : Dest) (u : Nat) (lay : Lay) (n : Nat) (at' : Nat → Int × Nat) (base : Nat)
    (get : Nat → EAcc → Except EStop (EAcc × Nat × Fx)) : Emit (Nat × Fx) :=
  { u := u, n := n, rowOf := rowOfPlace (placeIn lay at' base), grain := lay.grain, get := get, flags := fxSum
    bytes := fun e vs => piecesOf d (placeIn lay at' base) e (vs.map (·.1)) }
/-- A command that writes n elements in the order of R342, in groups of `blk` where a level-3 expansion takes blocks (R99,
R105). -/
def runTo (u : Nat) (c : Cmd) (lay : Lay) (n : Nat) (blk : Option (Nat → Nat)) (get : Nat → EAcc → Except EStop (EAcc × Nat × Fx))
    (x : EAcc) : Outcome :=
  runDst u c lay.bits 1 (fun d base =>
    let p := emitTo d u lay n (dstAt c) base get
    match blk with
    | none => p
    | some f => { p with rowOf := f, one := true }) x

/-! ## Layouts by opcode -/

def srcLay (c : Cmd) : Lay := (sideLays (cSfmt c) (cDfmt c) (srcOutside c) (dstOutside c)).1
def dstLay (c : Cmd) : Lay := (sideLays (cSfmt c) (cDfmt c) (srcOutside c) (dstOutside c)).2
/-- FILL's word is of DFMT alone. -/
def fillLay (c : Cmd) : Lay := layOf (cDfmt c) (dstOutside c)
/-- The layout of the destination by opcode: FILL's, WDELTA's words, or that of a copy. -/
def outLay (c : Cmd) : Lay := if cmdOpc c = 4 then fillLay c else if cmdOpc c = 12 then .flat 32 else dstLay c
/-- Whether inner rows of n elements cover whole bytes (R342). -/
def Lay.whole (l : Lay) (n : Nat) : Bool :=
  match l with
  | .flat w => w * n % 8 == 0
  | .fp6 => n % 4 == 0
  | _ => true
/-- Inner rows of both sides: GATHER's source and SCATTER's destination are tables of DIM1 elements (R342, R343). -/
def rowsWhole (c : Cmd) : Bool :=
  (srcLay c).whole (cDim c (if cmdOpc c = 5 then 1 else 0)) && (outLay c).whole (cDim c (if cmdOpc c = 6 then 1 else 0))

/-! ## COPY and COPYQ -/

/-- The source element that destination element e reads: exchanged within its tile under TRN (R107). -/
def trnIdx (z trn : Bool) (e : Nat) : Nat :=
  if trn then
    let (r, k) := tileCoord z (e % 4096)
    e / 4096 * 4096 + tilePos z true r k
  else e

/-- The source of a COPY or COPYQ: addresses, or an expanded buffer whose FMT is SFMT, with its expansion point (R448). -/
def openSrc (c : Cmd) (x : EAcc) : Except EStop (EAcc × SrcK × Nat × Nat) :=
  if cCms c && !cRawb c then
    match readHeader .va (cSrc c) x with
    | .error k => .error k
    | .ok (x1, h) =>
      if h.fmt != cSfmt c then .error (estop .engCommand) else .ok (x1, .buf (cSrc c) h.ulen, 0, h.xp)
  else .ok (x, .va, cSrc c, 0)

/-- BFMT of the bank a mesh address names for the burner. -/
def bankFmt (a : Nat) (s : State) : Word :=
  match meshResolve s.b.core a with
  | .ok (core, row) => s.bfmtAt core row
  | .error _ => 0
/-- BFMT of the bank a destination address names, in this package or another (log 126). -/
def dstFmt (c : Cmd) (a : Nat) (s : State) : Word :=
  match cmdSpace c s with
  | .far p => w32 (Config.farBfmt p (a / 256))
  | _ => bankFmt a s
/-- The blocks that a level-3 expansion takes, by destination element: one transform of the destination bank each, where the copy
only moves the elements to the scratchpad (R99, R105). A transposed tile takes its blocks together (log 130). -/
def expandAt (c : Cmd) (k : SrcK) (xp : Nat) (same : Bool) (l : Lay) (base e : Nat) : Option Nat :=
  let raw := cSfmt c = 0 || cDfmt c = 0 || cSfmt c = cDfmt c
  if k != .va && xp = 3 && same && raw && !isFP6 (cSfmt c) && !isFP6 (cDfmt c) && !dstOutside c then
    let p := elemAt base (cSstr c) (cDim c) (if cTrn c then e / 4096 * 4096 else e)
    some (va64 (p.1 + ((l.pieces p.2).headD (0, 0, 0, 0)).1) / 4096)
  else none
/-- Block size of a scale mode: 32 elements in 1 × 32 blocks, 64 in 8 × 8. -/
def smBlock (sm : Nat) : Nat := if sm = 2 then 64 else 32

/-- Scale modes of the two sides of a COPY (R108, R110): a bank's SM, but of a RAW32 source, whose bits pass unchanged (R74); a
source elsewhere is scaled when AUX names its scales, in blocks of 1 × 32 unless the destination's bank has a shape; a
destination elsewhere keeps the scaling of its source when its format can (log 15). -/
def copyModes (c : Cmd) (s : State) : Nat × Nat :=
  let dm := if dstOutside c then 0 else bfSm (dstFmt c (cDst c) s)
  let sm := if cSfmt c = 0 then 0 else if !srcOutside c then bfSm (bankFmt (cSrc c) s)
    else if cAux c != 0 && inQ (cSfmt c) then (if dm = 0 then 1 else dm) else 0
  (sm, if dstOutside c && sm != 0 && inQ (cDfmt c) then sm else dm)

/-- R108 of a scaled tensor as a whole: its format, 1 × 32 with rows of whole blocks, 8 × 8 with whole blocks (log 113). -/
def scaledOk (c : Cmd) (fmt sm : Nat) : Bool :=
  inQ fmt && (if sm = 1 then cDim c 0 % 32 == 0 else elemCount (cDim c) % 64 == 0)

/-- R108 where element data lie in a bank of format register w: its SM is the tensor's, and its layout Z-order in 8 × 8 blocks. -/
def elemOk (outside : Bool) (w : Word) (sm : Nat) : Bool := outside || (bfSm w == sm && (sm != 2 || bfZ w))
/-- R108 where scales lie: memory, or a bank of E8M0 elements. -/
def scaleOk (a : Nat) (w : Word) : Bool := !inMesh a || bfFmt w == 0x0E

/-- Scale byte k of the side tensor at `side`. DESIGN CHOICE (log 152): R108's test of the bank comes before the row's access. -/
def scaleByte (side k : Nat) (x : EAcc) : Except EStop (EAcc × Nat) :=
  let a := va64 (side + k)
  if !scaleOk a (bankFmt a x.s) then .error (estop .engCommand)
  else match byteAt a x with
    | .error e => .error e
    | .ok (x1, b) => .ok (x1, b.toNat)

/-- The layout a transposed read takes for a tile: that of the bank its first element lies in; Z-order outside the scratchpad
(R107; log 36). -/
def srcZ (c : Cmd) (e : Nat) (s : State) : Bool :=
  srcOutside c || bfZ (bankFmt (va64 (elemAt (cSrc c) (cSstr c) (cDim c) (e / 4096 * 4096)).1) s)

/-- An element of a COPY's source: its code, its value, plain or dequantised (R93), and its block's scale code. -/
structure SrcEl where
  code : Nat
  val : FV
  q : Nat := 0
  fx : Fx := {}

/-- The source index that destination element e takes. -/
def srcIdx (c : Cmd) (e : Nat) (s : State) : Nat := trnIdx (srcZ c e s) (cTrn c) e
/-- The source element that destination element e takes, where both lie as the scale modes say, in the layouts of the two
sides. DESIGN CHOICE (log 152): R108's test of the bank comes before the row's access, and so before its address causes. -/
def srcVal (c : Cmd) (k : SrcK) (base : Nat) (l : Lay × Lay) (m : Nat × Nat) (side e : Nat) (x : EAcc) : Except EStop (EAcc × SrcEl) :=
  let i := srcIdx c e x.s
  let p := elemAt base (cSstr c) (cDim c) i
  let first (q : Int × List (Nat × Nat × Nat × Nat)) : Nat := va64 (q.1 + (q.2.headD (0, 0, 0, 0)).1)
  if !elemOk (srcOutside c || cSfmt c == 0) (bankFmt (first (p.1, l.1.pieces p.2)) x.s) m.1 ||
      !elemOk (dstOutside c) (dstFmt c (first (placeIn l.2 (dstAt c) (cDst c) e)) x.s) m.2 then
    .error (estop .engCommand)
  else match getPieces k p.1 (l.1.pieces p.2) 0 x with
    | .error t => .error t
    | .ok (x1, v0) =>
      let v := l.1.code v0
      if m.1 = 0 || cDfmt c = 0 then .ok (x1, ⟨v, elVal (cSfmt c) v, 0, {}⟩)
      else match scaleByte side (i / smBlock m.1) x1 with
        | .error t => .error t
        | .ok (x2, q) => .ok (x2, ⟨v, dequant (cSfmt c) v q, q, {}⟩)

/-- A command whose destination is a scaled tensor in blocks of B: each block's elements and then its scale code at `dside`
(R109); `code` gives both and the flags. -/
def runQuant (u : Nat) (c : Cmd) (lay : Lay) (B dside : Nat) (blk : Option (Nat → Nat))
    (get : Nat → EAcc → Except EStop (EAcc × SrcEl)) (code : Nat → List SrcEl → Nat × List Nat × FSum) (x : EAcc) : Outcome :=
  let ds := cmdSpace c x.s
  let side (e : Nat) : Nat := va64 (dside + e / B)
  runDst u c lay.bits B (fun d base =>
    { u := u, n := elemCount (cDim c), grain := B, keep := B, one := blk.isSome
      rowOf := blk.getD (rowOfPlace (placeIn lay (dstAt c) base))
      get := fun e x => if scaleOk (side e) (dstFmt c (side e) x.s) then get e x else .error (estop .engCommand)
      bytes := fun e vs => (chunks B vs).zipIdx.flatMap fun b =>
        let q := code (e + B * b.2) b.1
        piecesOf d (placeIn lay (dstAt c) base) (e + B * b.2) q.2.1 ++ [⟨ds, side (e + B * b.2), 0xFF, BitVec.ofNat 8 q.1, e + B * b.2, true⟩]
      flags := fun e vs => (chunks B vs).zipIdx.foldl (fun f b => f.join (code (e + B * b.2) b.1).2.2) {} }) x

/-- A block quantised under the command's modes (R90-R92, R109). -/
def quantCode (c : Cmd) (words : List Word) (e : Nat) (xs : List SrcEl) : Nat × List Nat × FSum :=
  let q := quantBlock (cDfmt c) (cmdMode c [] 0) (fun i => (cmdMode c words (e + i)).r) (xs.map (·.val))
  (q.1, q.2.1, xs.foldl (fun f y => f.add y.fx) q.2.2)
/-- A block carried with its scale, bit for bit (R110). -/
def carryCode (c : Cmd) (_ : Nat) (xs : List SrcEl) : Nat × List Nat × FSum :=
  ((xs.headD ⟨0, .nan, 0, {}⟩).q, xs.map fun y => rawPass (cDfmt c) y.code, {})

/-- COPY (R343, R110): converted, dequantised, carried with its scales, or dequantised to FP32 and quantised again. DESIGN
CHOICE (log 153): R108's tests of the whole command come first, then the source's header, then the destination's. -/
def execCopy (c : Cmd) (s : State) : Outcome :=
  if s.noRoute c then peerLost 0 c s else
  let s := s.modB (beginCmd 0 c)
  let m := copyModes c s
  let n := elemCount (cDim c)
  let dside := Config.sideTensor c
  if (m.1 = 0 && m.2 != 0) || (m.1 != 0 && !scaledOk c (cSfmt c) m.1) || (m.2 != 0 && !scaledOk c (cDfmt c) m.2) then
    stopCmd 0 (estop .engCommand) (accOf 0 s)
  else match openSrc c (accOf 0 s) with
    | .error k => stopCmd 0 k (accOf 0 s)
    | .ok (x, k, base, xp) =>
      let l := (srcLay c, dstLay c)
      let words := cmdWords c n
      let val := srcVal c k base l m (cAux c)
      let same := m.1 = 0 || (cSfmt c = cDfmt c && m.1 = m.2 && !cTrn c)
      let blk := if (expandAt c k xp same l.1 base 0).isSome then some fun e => (expandAt c k xp same l.1 base e).getD 0 else none
      if m.1 = 0 || cDfmt c = 0 then
        runTo 0 c l.2 n blk (fun e x => match val e x with
          | .error t => .error t
          | .ok (x1, v) => .ok (x1, copyEl (cSfmt c) (cDfmt c) (cmdMode c words e) v.code)) x
      else if m.2 = 0 then
        runTo 0 c l.2 n none (fun e x => match val e x with
          | .error t => .error t
          | .ok (x1, v) =>
            let y := convVal (cDfmt c) (cmdMode c words e) v.val
            .ok (x1, contain (cDfmt c) y.1, y.2)) x
      else if same then
        runQuant 0 c l.2 (smBlock m.2) dside blk val (carryCode c) x
      else
        runQuant 0 c l.2 (smBlock m.2) dside none (fun e x => match val e x with
          | .error t => .error t
          | .ok (x1, v) =>
            let y := convVal 1 (cmdMode c words e) v.val
            .ok (x1, { v with val := elVal 1 y.1, fx := y.2 })) (quantCode c words) x

/-- COPYQ (R109): formats outside the rule's sets, no block shape or a scaled source are ENG_COMMAND when it runs (log 114). -/
def execCopyq (c : Cmd) (s : State) : Outcome :=
  if s.noRoute c then peerLost 0 c s else
  let s := s.modB (beginCmd 0 c)
  let sm := if dstOutside c then (if cBs c then 2 else 1) else bfSm (dstFmt c (cDst c) s)
  if !inF (cSfmt c) || sm = 0 || !scaledOk c (cDfmt c) sm then stopCmd 0 (estop .engCommand) (accOf 0 s)
  else match openSrc c (accOf 0 s) with
    | .error k => stopCmd 0 k (accOf 0 s)
    | .ok (x, k, base, _) =>
      let l := (srcLay c, dstLay c)
      runQuant 0 c l.2 (smBlock sm) (cAux c) none (srcVal c k base l (0, sm) 0) (quantCode c (cmdWords c (elemCount (cDim c)))) x

/-- XFORM (R343): the request performed in the bank of DST's slice; it writes the destination rows whole (R344). -/
def execXform (c : Cmd) (s : State) : Outcome :=
  let s := s.modB (beginCmd 0 c)
  let x := accOf 0 s
  if vaBad (cDst c) then stopCmd 0 (.cause .vaRange, cDst c) x
  else match meshResolve s.b.core (cDst c) with
    | .error k => stopCmd 0 (.cause k, cDst c) x
    | .ok (core, _) => match transform (w64 (cAux c)) core s with
      | .error (k, a) => stopCmd 0 (.cause k, a) x
      | .ok s1 =>
        let r := xfDst (w64 (cAux c))
        endCmd 0 c (sumWords (s1.b.unit 0).sum (rowsAt s1 core r.1 r.2)) false 0 {} s1

/-- FILL (R343). -/
def execFill (c : Cmd) (s : State) : Outcome :=
  if s.noRoute c then peerLost 0 c s else
  let s := s.modB (beginCmd 0 c)
  let df := cDfmt c
  let word := fp6Mask df (w32 (cAux c))
  let get (e : Nat) (x : EAcc) : Except EStop (EAcc × Nat × Fx) := .ok (x, sub df word (e % cDim c 0 % elN df), {})
  runTo 0 c (fillLay c) (elemCount (cDim c)) none get (accOf 0 s)

/-! ## GATHER and SCATTER (R343) -/

/-- Index e of the index tensor: ENG_COMMAND outside the table. -/
def idxAt (c : Cmd) (e : Nat) (x : EAcc) : Except EStop (EAcc × Nat) :=
  match getPieces .va (cAux c) ((Lay.flat 32).pieces e) 0 x with
  | .error t => .error t
  | .ok (x1, v) => if cDim c 1 ≤ v || 2 ^ 31 ≤ v then .error (estop .engCommand) else .ok (x1, v)

/-- Both commands: element `si e` of SRC to element `di e` of DST, progress in elements; a SCATTER's elements are written one by
one, since their rows are known only with their indices. -/
def gatherRun (c : Cmd) (scatter : Bool) (s : State) : Outcome :=
  if s.noRoute c then peerLost 1 c s else
  let s := s.modB (beginCmd 1 c)
  let l := (srcLay c, dstLay c)
  let d := cmdSpace c s
  let n := cDim c 0
  let words := cmdWords c n
  let get (e : Nat) (x : EAcc) : Except EStop (EAcc × Nat × Nat × Fx) :=
    match idxAt c e x with
    | .error t => .error t
    | .ok (x1, i) => match getPieces .va (cSrc c) (l.1.pieces (if scatter then e else i)) 0 x1 with
      | .error t => .error t
      | .ok (x2, v) => .ok (x2, if scatter then i else e, copyEl (cSfmt c) (cDfmt c) (cmdMode c words e) (l.1.code v))
  let p : Emit (Nat × Nat × Fx) :=
    { u := 1, n := n, grain := if scatter then 1 else l.2.grain, get := get
      rowOf := fun e => if scatter then e else rowOfPlace (fun i => (cDst c, l.2.pieces i)) e
      bytes := fun e vs => piecesOf d (fun k => (cDst c, l.2.pieces ((vs.map (·.1)).getD (k - e) 0))) e (vs.map (·.2.1))
      flags := fun e vs => fxSum e (vs.map (·.2)) }
  finishRun 1 c d 0 1 n (p.run (accOf 1 s))

/-- GATHER. -/
def execGather (c : Cmd) (s : State) : Outcome := gatherRun c false s
/-- SCATTER. -/
def execScatter (c : Cmd) (s : State) : Outcome := gatherRun c true s

end Sys2Proof.Machine
end

