-- ==== Sys2Proof/Machine/EngineAccess.lean ====
section
/-! DEFINITION. How the S queue performs the engine access instructions: ESEND, ERECV, ESTAT and BXFORM
(spec/14_matrix_and_engines.md R335-R342, R447, R448; spec/18_fabric_host_startup.md R400). -/
namespace Sys2Proof.Machine

/-! ## Validation (R342, R447, R448) -/

def unitOps : Nat → List Nat
  | 0 => [1, 2, 3, 4]
  | 1 => [5, 6]
  | 2 => [7, 8, 9, 10]
  | 3 => [11, 12]
  | _ => []

/-- Fields of R447. -/
inductive CFld where
  | src | dst | sfmt | dfmt | sstr | dstr | trn | cms | cmd | rmt | round | rawb | aux | bs | rop | tm | lv | grp | step | wmd
deriving DecidableEq, Repr

/-- The fields an opcode uses, and how many dimensions. -/
def opUses : Nat → List CFld × Nat
  | 1 => ([.src, .sfmt, .sstr, .trn, .cms, .dst, .dfmt, .dstr, .cmd, .rmt, .round, .rawb, .aux], 4)
  | 2 => ([.src, .sfmt, .sstr, .trn, .cms, .dst, .dfmt, .dstr, .cmd, .rmt, .round, .bs, .aux], 4)
  | 3 => ([.dst, .aux], 0)
  | 4 => ([.dst, .dfmt, .dstr, .cmd, .rmt, .aux], 4)
  | 5 => ([.src, .sfmt, .dst, .dfmt, .rmt, .round, .aux], 2)
  | 6 => ([.src, .sfmt, .dst, .dfmt, .rmt, .round, .aux], 2)
  | 7 => ([.src, .sfmt, .dst, .dfmt, .round, .rop, .tm, .lv, .grp, .aux, .sstr], 1)
  | 8 => ([.src, .sfmt, .dst, .dfmt, .round, .grp, .aux], 1)
  | 9 => ([.src, .sfmt, .dst, .dfmt, .round, .rop, .tm, .grp], 1)
  | 10 => ([.src, .sfmt, .dst, .dfmt, .round, .grp], 1)
  | 11 => ([.dst, .dfmt, .round, .aux, .step, .wmd], 1)
  | 12 => ([.dst, .rmt, .aux, .step], 0)
  | _ => ([], 0)

/-- Whether a field holds its unused value. -/
def fieldZero (c : Cmd) : CFld → Bool
  | .src => cSrc c == 0
  | .dst => cDst c == 0
  | .sfmt => cSfmt c == 0
  | .dfmt => cDfmt c == 0
  | .sstr => cf c 576 96 == 0
  | .dstr => cf c 672 96 == 0
  | .trn => !cTrn c
  | .cms => !cCms c
  | .cmd => !cCmd c
  | .rmt => !cRmt c && cDpkg c == 0
  | .round => cRnd c == 0 && cSat c == 0 && cSeed c == 0
  | .rawb => !cRawb c
  | .aux => cAux c == 0
  | .bs => !cBs c
  | .rop => cRop c == 0
  | .tm => !cTm c
  | .lv => !cLv c
  | .grp => cGrp c == 0
  | .step => cStep c == 0
  | .wmd => cWmd c == 0
def allFields : List CFld :=
  [.src, .dst, .sfmt, .dfmt, .sstr, .dstr, .trn, .cms, .cmd, .rmt, .round, .rawb, .aux, .bs, .rop, .tm, .lv, .grp, .step, .wmd]

def isColl (c : Cmd) : Bool := 7 ≤ cmdOpc c && cmdOpc c ≤ 10
def cLeaf0 (c : Cmd) : Nat := cAux c % 2 ^ 32
def cNleaf (c : Cmd) : Nat := cAux c / 2 ^ 32
def isPow2 (n : Nat) : Bool := n != 0 && 2 ^ Nat.log2 n == n

/-- A member of group g that collectives keep (R346, R348). -/
def collMember (s : State) (g : Nat) : Bool :=
  match (s.group g).member s.b.core s.b.bur with
  | some m => !m.cx
  | none => false

/-- ALLRED's and REDSCAT's own rules: strides only with LV (R447), tree mode's aligned spans (R346), features (R400). -/
def redOk (c : Cmd) (s : State) : Bool :=
  let op := cmdOpc c
  (op != 7 || ((if cLv c then cf c 608 64 == 0 else cf c 576 96 == 0) &&
      if cTm c then cLv c || (isPow2 (cNleaf c) && cLeaf0 c % cNleaf c == 0) else s.feat 3)) &&
    (op != 9 || cTm c)

/-- ESEND's rules (R342, R447, R448) for a command of unit u; COPY uses AUX only where scaled data take part (log 15). DESIGN
CHOICE (log 160): a WLOADC whose WMD is 3 raises ENG_COMMAND. -/
def cmdOk (u : Nat) (c : Cmd) (s : State) : Bool :=
  let op := cmdOpc c
  let use := opUses op
  (unitOps u).contains op && cf c 864 160 == 0 && cf c 58 6 == 0 && cf c 41 1 == 0 &&
    ((List.range 4).all fun k => cDim c k != 0 && (k < use.2 || cDim c k == 1)) &&
    fmtAssigned (cSfmt c) && fmtAssigned (cDfmt c) && cRnd c != 7 && !(cRnd c == 6 && s.b.drm == 5) &&
    !(cRnd c == 5 && !s.feat 1) && cSat c != 3 && (!isColl c || collMember s (cGrp c)) &&
    (op == 11 || rowsWhole c) &&
    (allFields.all fun f => use.1.contains f || fieldZero c f) && redOk c s &&
    (op != 1 || cAux c == 0 || copyModes c s != (0, 0)) &&
    (op != 4 || cf c 224 32 == 0) && (op != 12 || cf c 192 32 == 0) && (op != 11 || cWmd c != 3) &&
    (!cRawb c || ((cCms c || cCmd c) && cSfmt c == 0 && cDfmt c == 0)) && (!cRmt c || s.feat 8)

/-- RND 110 takes BCTL.DRM, which no later write changes for a pushed command (R72, R75). -/
def resolveRnd (c : Cmd) (drm : BitVec 3) : Cmd :=
  if cRnd c = 6 then (c &&& ~~~(BitVec.ofNat 1024 (7 * 2 ^ 18))) ||| BitVec.ofNat 1024 (drm.toNat * 2 ^ 18) else c

/-! ## The instructions -/

/-- Writes scalar destinations at retirement. -/
def setS4 (d : BitVec 6) (e : BitVec 128) (b : Burner) : Burner :=
  (((b.setS d (e.extractLsb' 0 32)).setS (d + 1) (e.extractLsb' 32 32)).setS (d + 2) (e.extractLsb' 64 32)).setS (d + 3)
    (e.extractLsb' 96 32)

/-- The command enters the unit's FIFO; its sequence number goes to s(d). A collective takes its place in its group's count
(R346, R348). -/
def pushCmd (u : Nat) (d : BitVec 6) (c : Cmd) (extra : Nat) (s : State) : State :=
  let g := s.b.unit u
  let k := s.group (cGrp c)
  let cn := match k.member s.b.core s.b.bur with
    | some m => m.pushed
    | none => 0
  let p : EPush := if isColl c then { item := .cmd c, seq := g.next, era := k.era, cn := cn } else { item := .cmd c, seq := g.next }
  let s1 := s.modB fun b => (b.setUnit u { g with fifo := g.fifo ++ [p], next := g.next + 1, ovf := g.ovf + extra }).setS d g.next
  if isColl c then s1.setGroup (k.modMem s.b.core s.b.bur fun m => { m with pushed := m.pushed + 1 }) else s1

/-- ESEND (R336). -/
def issueEsend (f : EF) (e : Entry) (s : State) : Res :=
  let u := f.unit.toNat
  let a := (lo32 e.va &&& 0xFFFFFF00).toNat
  match rowRead false s e.ko a with
  | .error c => .faultAt c (lo32 e.va).toNat s
  | .ok (s1, r) =>
    let raw : Cmd := BitVec.ofNat 1024 (natOfBytes ((r.ws.drop (32 * (f.imm8.toNat % 2))).take 32 |>.flatMap wordBytes))
    if !cmdOk u raw s1 then .fault .engCommand s1
    else
      let c := resolveRnd raw s1.b.drm
      let g := s1.b.unit u
      let rg := s1.b.region
      if g.ovf = 0 && g.outstanding < g.limit then .done (pushCmd u f.d c 0 s1.drain)
      else if rg.sys && rg.ovfln != 0 && g.ovf < rg.ovfln then
        match wrVA s1 s1.viaB s1.b (rg.ovfl + 128 * (g.next.toNat % rg.ovfln)) (bytesOfNat 128 c.toNat) with
        | (s2, none) => .done (pushCmd u f.d c 1 s2.drain)
        | (_, some (.cause _, a, _)) => .wait (suspendLaunch s1.b.launch (a / 4096) s1)
        | (_, some (k, x, _)) => accessFail (k, x) 0 s1
      else .wait s1

/-- ERECV (R338). -/
def issueErecv (f : EF) (_ : Entry) (s : State) : Res :=
  let u := f.unit.toNat
  let g := s.b.unit u
  match g.out with
  | x :: xs => .done (s.modB fun b => setS4 f.d x (b.setUnit u { g with out := xs }))
  | [] => if g.outstanding = 0 then .fault .engEmpty s else .wait s

/-- ESTAT with n = 0 (R339). -/
def issueEstatStatus (f : EF) (_ : Entry) (s : State) : Res :=
  .done (s.modB fun b => b.setS f.d (b.engStatus f.unit.toNat))
/-- ESTAT with n = 1 (R339). -/
def issueEstatProgress (f : EF) (_ : Entry) (s : State) : Res :=
  .done (s.modB fun b => b.setS f.d (b.engProgress f.unit.toNat))

def Contrib.mine (k : Contrib) (b : Burner) (seq : Word) : Bool := k.core == b.core && k.bur == b.bur && k.seq == seq
/-- The pairing that holds the acting burner's head command. -/
def myPairing (c : Cmd) (s : State) : Option Pairing :=
  (s.group (cGrp c)).pairs.find? fun p => p.cs.any (·.mine s.b (s.b.engSeq 2))
def arrivalCmd (c : Cmd) : Bool := cmdOpc c == 7 && !cTm c
/-- The event of the acting burner's arrival-mode ALLRED: the ranks in combining order, in whole rows (R394 kind 2). -/
def logArrival (ranks : List Nat) (s : State) : LogRes :=
  let bs := ranks.flatMap (bytesOfNat 2)
  logEvent 2 0xFFFFFFFF s.b.rpseq ((s.b.engSeq 2).setWidth 128) (bs ++ List.replicate ((256 - bs.length % 256) % 256) 0) s

/-- A faulted head command completes DROPPED, with no event bit (R182, R265, R339); an arrival-mode ALLRED's posting is an event
(R394). -/
def dropHead (u : Nat) (s : State) : LogRes :=
  let g := s.b.unit u
  match g.flt, g.fifo with
  | some _, { item := .cmd c, seq := q, .. } :: _ =>
    let k : Comp := { csum := sumWords g.sum (twWords g.tw), satn := g.satn, fl := g.fl, status := stDropped }
    match (if arrivalCmd c then logArrival (((myPairing c s).map (·.order)).getD []) s else .ok s 0 []) with
    | .bad x a => .bad x a
    | .ok s1 d rs => .ok ((finishAt s.b.core s.b.bur u (k.element u (cmdOpc c) q) 0 s1).freeLoads g.load.toList) d rs
  | _, _ => .ok s 0 []
/-- ESTAT with n = 2 (R339): the status word from before the drop. -/
def issueEstatDrop (f : EF) (_ : Entry) (s : State) : Res :=
  let w := s.b.engStatus f.unit.toNat
  match dropHead f.unit.toNat s with
  | .bad c a => .trap c a 0 [] 0 0 s
  | .ok s1 _ _ => .done (s1.modB fun b => b.setS f.d w)

/-- BXFORM (R106, R340), after the burner's earlier buffered stores to the rows it reads and writes (R166). -/
def issueBxform (_ : EF) (e : Entry) (s : State) : Res :=
  let s0 := s.drainTo e.ko (xfTouches e.va s.b.core)
  match transform e.va s.b.core s0 with
  | .error (c, a) => .faultAt c (if isAddrCause c then a else 0) s0
  | .ok s1 => .done s1

/-- The four transform acts as the unit of the acting burner's own slice performs them (R103-R105). -/
def unitAct (op : Nat) (r : DWord) (s : State) : Outcome :=
  if (r.extractLsb' 60 4).toNat != op then .next s
  else match transform r s.b.core s with
    | .error _ => .next s
    | .ok s1 => .next s1
/-- EXPAND (R103). -/
def execExpand (r : DWord) (s : State) : Outcome := unitAct 0 r s
/-- ZTRANS (R103). -/
def execZtrans (r : DWord) (s : State) : Outcome := unitAct 1 r s
/-- TOZ (R103). -/
def execToz (r : DWord) (s : State) : Outcome := unitAct 2 r s
/-- TOLIN (R103). -/
def execTolin (r : DWord) (s : State) : Outcome := unitAct 3 r s

end Sys2Proof.Machine
end

