-- ==== Sys2Proof/Machine/Pantry.lean ====
section
/-! DEFINITION. The pantry: slices, claims, memberships, eviction queues and removals (spec/06_pantry.md R138-R159). -/
namespace Sys2Proof.Machine

/-! ## Names, entries, tickets (R138-R143) -/

/-- A name: function id, digest, version. -/
structure PName where
  fid : Word
  dig : DWord
  ver : Word
deriving DecidableEq, Repr

/-- Channel and row in it of a die offset of LPDDR 6 (R42). -/
def channelOf (o : Nat) : Nat := o / 256 % 12
def rowInChannel (o : Nat) : Nat := o / 3072
/-- Die and channel whose controller holds a slice (R42, R139). -/
def sliceChannel (slice : Nat) : Nat × Nat := (slice / 4, 3 * (slice % 4))
/-- Slice and set of a name claimed in fault domain fd (R139). -/
def placeOf (n : PName) (fd : Nat) : Nat × Nat :=
  let x := (n.fid ^^^ lo32 n.dig ^^^ rotl32 (hi32 n.dig) 11 ^^^ rotl32 n.ver 22 ^^^ w32 fd) * 0x9E3779B1
  ((x.extractLsb' 28 4).toNat, (x.extractLsb' 15 13).toNat)

def PEntry.at' (e : PEntry) (slice set way : Nat) : Bool := e.slice == slice && e.set == set && e.way == way
/-- The entry in a way of a set. -/
def State.pent (s : State) (slice set way : Nat) : PEntry :=
  (s.pantry.find? fun e => e.at' slice set way).getD { slice := slice, set := set, way := way }
def State.setPent (s : State) (e : PEntry) : State :=
  { s with pantry := if s.pantry.any fun x => x.at' e.slice e.set e.way then
      s.pantry.map fun x => if x.at' e.slice e.set e.way then e else x else s.pantry ++ [e] }
/-- The bound entry of a name in a fault domain (R138). -/
def State.named (s : State) (n : PName) (fd : Nat) : Option PEntry :=
  s.pantry.find? fun e => e.st != .opened && e.fid == n.fid && e.dig == n.dig && e.ver == n.ver && e.fd == fd

/-- One step of a slice (R140, R141): its 64-bit step count after it. -/
def State.sliceStep (s : State) (k : Nat) : State × DWord :=
  if h : k < 16 then ({ s with pstep := s.pstep.set k (s.pstep[k] + 1) h }, s.pstep[k] + 1) else (s, 0)

/-- Ticket bits 29:0 (R142). -/
def ticketOf (slice set way gen : Nat) : Nat := gen * 2 ^ 20 + slice * 2 ^ 16 + set * 8 + way
def PEntry.ticket (e : PEntry) : Nat := ticketOf e.slice e.set e.way e.gen
def Memb.ticket (m : Memb) : Nat := ticketOf m.slice m.set m.way m.gen
/-- The entry a presented ticket names, when the ticket is not stale. -/
def State.ticketed (s : State) (t : Word) : Option PEntry :=
  let e := s.pent (t.extractLsb' 16 4).toNat (t.extractLsb' 3 13).toNat (t.extractLsb' 0 3).toNat
  if e.gen = (t.extractLsb' 20 10).toNat then some e else none

/-- Units of the pantry reservation in use (R143). -/
def Burner.unitsUsed (b : Burner) : Nat := sumNat (b.membs.map fun m => if m.kind = .hold then m.n else 1)
def Burner.unitFree (b : Burner) : Bool := b.unitsUsed < b.holdsMax

/-! ## Membership lists; an evicted burner's stay in force (R143) -/

/-- Every membership list, of bound and of saved burners, changed at one burner. -/
def modMembs (core bur : Nat) (f : List Memb → List Memb) (s : State) : State :=
  let g (b : Burner) : Burner := { b with membs := f b.membs }
  let s1 := s.modAt core bur g
  { s1 with saved := s1.saved.map fun b => if b.is core bur then g b else b }

/-- The membership of an entry that is no hold gets a kind. -/
def setKind (t : Nat) (k : MKind) (ms : List Memb) : List Memb :=
  ms.map fun m => if m.ticket == t && m.kind != .hold then { m with kind := k } else m
/-- A membership of an entry that is no hold ends. -/
def dropRole (t : Nat) (ms : List Memb) : List Memb := ms.filter fun m => !(m.ticket == t && m.kind != .hold)
/-- One hold more. -/
def addHold (new : Memb) (ms : List Memb) : List Memb :=
  if ms.any fun m => m.ticket == new.ticket && m.kind == .hold then
    ms.map fun m => if m.ticket == new.ticket && m.kind == .hold then { m with n := m.n + 1 } else m
  else ms ++ [{ new with kind := .hold, n := 1 }]
/-- One hold less. -/
def subHold (t : Nat) (ms : List Memb) : List Memb :=
  (ms.map fun m => if m.ticket == t && m.kind == .hold then { m with n := m.n - 1 } else m).filter fun m =>
    !(m.kind == .hold && m.n == 0)
def PEntry.memb (e : PEntry) (k : MKind) (n : Nat) : Memb :=
  { slice := e.slice, set := e.set, way := e.way, gen := e.gen, fid := e.fid, dig := e.dig, ver := e.ver, fd := e.fd, kind := k, n := n }
/-- A party's membership of an entry gets a kind. -/
def setParty (p : Party) (t : Nat) (k : MKind) (s : State) : State :=
  match p with
  | .bur c r => modMembs c r (setKind t k) s
  | .pot _ => s

/-! ## Eviction (R145, R146) -/

/-- The entry passes to OPEN: its name is unbound. -/
def PEntry.unbind (e : PEntry) : PEntry := { slice := e.slice, set := e.set, way := e.way, gen := e.gen }

def PEntry.via (e : PEntry) : Via := Via.dev e.owner (e.slice / 4)

/-- TAIL of the owner's eviction queue when it has space; the fault of a read that faults. DESIGN CHOICE (log 155): a queue whose
EVQN is 0, which R349 bars and no check refuses, never has space. -/
def evqTail (e : PEntry) (s : State) : Except EStop (State × Option Nat) :=
  match rdVA s e.via s.b e.owner.evq 16 with
  | .error k => .error k
  | .ok (s1, bs) =>
    let tail := natOfBytes (bs.take 8)
    let used := (tail + 2 ^ 64 - natOfBytes (bs.drop 8)) % 2 ^ 64
    .ok (s1, if e.owner.evqn = 0 || used = e.owner.evqn then none else some tail)

/-- A fault of the eviction queue: reported, and the entry stays READY and is not evictable until it is cleared (R146; a poisoned
row is such a fault: log 143). -/
def evqFault (e : PEntry) (k : EStop) (s : State) : State := (s.setPent { e with evqFault := true }).tellMgmt k
/-- Whether a way qualifies for eviction. -/
def evictable (e : PEntry) (s : State) : State × Bool :=
  if e.st != .ready || e.holds != 0 || e.evqFault then (s, false)
  else if e.pot.isSome then (s, true)
  else match evqTail e s with
    | .error k => (evqFault e k s, false)
    | .ok (s1, t) => (s1, t.isSome)

/-- The handle posted to the owner's queue, or the block given back to its stockpot (R131). -/
def evictEntry (e : PEntry) (s : State) : State × Bool :=
  let free (s : State) : State := s.setPent e.unbind
  match e.pot with
  | some tid =>
    (free { s with tensors := s.tensors.map fun t => if t.tid == tid then
      { t with memos := t.memos.filter fun m => !(m.slice == e.slice && m.set == e.set && m.way == e.way) } else t }, true)
  | none =>
    match evqTail e s with
    | .error k => (evqFault e k s, false)
    | .ok (s1, none) => (s1, false)
    | .ok (s1, some tail) =>
      let img := bytesOfNat 4 e.fid.toNat ++ bytesOfNat 4 e.size.toNat ++ bytesOfNat 8 e.addr.toNat
      match wrVA s1 e.via s1.b (e.owner.evq + 64 + 16 * (tail % e.owner.evqn)) img with
      | (s2, none) => match wrVA s2 e.via s2.b e.owner.evq (bytesOfNat 8 (tail + 1)) with
        | (s3, none) => (free s3, true)
        | (s3, some (k, a, _)) => (evqFault e (k, a) s3, false)
      | (s2, some (k, a, _)) => (evqFault e (k, a) s2, false)

/-- The qualifying ways of a set, each judged once. -/
def judgeWays (slice set : Nat) : List Nat → State → State × List PEntry
  | [], s => (s, [])
  | w :: ws, s =>
    let e := s.pent slice set w
    match evictable e s with
    | (s1, ok) => match judgeWays slice set ws s1 with
      | (s2, es) => (s2, if ok then e :: es else es)

/-- The smallest stamp, the lowest way on a tie. -/
def oldest (es : List PEntry) : Option PEntry :=
  es.foldl (fun m e => match m with
    | none => some e
    | some x => if e.stamp < x.stamp then some e else some x) none

/-- Evict one way; `fuel` bounds the ways whose post faults. -/
def evictOne : Nat → List PEntry → State → State × Option Nat
  | 0, _, s => (s, none)
  | fuel + 1, es, s => match oldest es with
    | none => (s, none)
    | some e => match evictEntry e s with
      | (s1, true) => (s1, some e.way)
      | (s1, false) => evictOne fuel (es.filter (· != e)) s1

/-- The way a new name takes. -/
def chooseWay (slice set : Nat) (s : State) : State × Option Nat :=
  match (List.range 8).find? fun w => (s.pent slice set w).st == .opened with
  | some w => (s, some w)
  | none => match judgeWays slice set (List.range 8) s with
    | (s1, es) => evictOne 8 es s1

/-! ## Steps of a slice (R144) -/

def resMaker : Nat := 0
def resWaiter : Nat := 1
def resReady : Nat := 2
def resFull : Nat := 3

/-- Waiter records of a slice in use (R141). -/
def State.waiterRecords (s : State) (slice : Nat) : Nat :=
  sumNat ((s.pantry.filter (·.slice == slice)).map (·.waiters.length))

/-- CLAIM of a name by a party of fault domain fd: the result and the entry after the step. -/
def claimStep (p : Party) (n : PName) (fd : Nat) (s : State) : State × Nat × PEntry :=
  let pl := placeOf n fd
  let (s, now) := s.sliceStep pl.1
  match s.named n fd with
  | some e =>
    if e.st = .ready then
      let e1 := { e with holds := e.holds + 1, stamp := now }
      (s.setPent e1, resReady, e1)
    else if e.maker = some p then (s, resMaker, e)
    else if e.waiters.contains p then (s, resWaiter, e)
    else if s.waiterRecords e.slice < 16384 then
      let e1 := { e with waiters := e.waiters ++ [p] }
      (s.setPent e1, resWaiter, e1)
    else (s, resFull, e)
  | none => match chooseWay pl.1 pl.2 s with
    | (s1, none) => (s1, resFull, {slice := pl.1, set := pl.2, way := 0})
    | (s1, some w) =>
      let e := { (s1.pent pl.1 pl.2 w).unbind with
        st := .making, fid := n.fid, dig := n.dig, ver := n.ver, fd := fd, gen := ((s1.pent pl.1 pl.2 w).gen + 1) % 1024
        maker := some p }
      (s1.setPent e, resMaker, e)

/-- FULFIL by the maker: READY, the waiters' memberships pending READY; how many there were. -/
def fulfilStep (e : PEntry) (addr : DWord) (size : Word) (owner : Region) (pot : Option Nat) (s : State) : State × Nat :=
  let (s, now) := s.sliceStep e.slice
  let s1 := s.setPent { e with st := .ready, maker := none, waiters := [], holds := 1 + e.waiters.length, addr := addr
                               size := size, owner := owner, pot := pot, stamp := now, evqFault := false }
  (e.waiters.foldl (fun s p => setParty p e.ticket .pendReady s) s1, e.waiters.length)

/-- The maker gives up: the oldest waiter takes the role, or the entry returns to OPEN; 0 or 1. -/
def giveUp (e : PEntry) (s : State) : State × Nat :=
  match e.waiters with
  | w :: ws => (setParty w e.ticket .pendMaker (s.setPent { e with maker := some w, waiters := ws }), 0)
  | [] => (s.setPent e.unbind, 1)

/-- A waiter's record is withdrawn. -/
def withdraw (p : Party) (e : PEntry) (s : State) : State := s.setPent { e with waiters := e.waiters.filter (· != p) }
/-- n holds fewer. -/
def lessHolds (n : Nat) (e : PEntry) (s : State) : State := s.setPent { e with holds := e.holds - n }

/-- The end of one membership of a removed burner (R158); nothing where the way has been bound anew. -/
def endMemb (core bur : Nat) (s : State) (m : Memb) : State :=
  let e := s.pent m.slice m.set m.way
  if e.gen != m.gen then s else
  match m.kind with
  | .maker | .pendMaker => (giveUp e s).1
  | .waiting => withdraw (.bur core bur) e s
  | .pendReady => lessHolds 1 e s
  | .hold => lessHolds m.n e s

/-- The removal of an unbound burner: its memberships end one after the other, and nothing of it is left (R158). -/
def removeBurner (core bur : Nat) (s : State) : State :=
  let ms := (((s.all ++ s.saved).find? (·.is core bur)).map (·.membs)).getD []
  let s1 := modMembs core bur (fun _ => []) (ms.foldl (fun s m => endMemb core bur (s.sliceStep m.slice).1 m) s)
  { s1 with saved := s1.saved.filter fun b => !(b.is core bur && b.status == .unbound) }

/-- The removal of a killed domain in one step (R158): its MAKING entries return to OPEN, its READY entries lose its holds. -/
def removeDomain (fd : Nat) (s : State) : State :=
  let bs := (s.all ++ s.saved).filter (·.region.fd == fd)
  let held (e : PEntry) : Nat :=
    sumNat (bs.map fun b => sumNat ((b.membs.filter fun m => m.ticket == e.ticket).map fun m =>
      if m.kind = .hold then m.n else if m.kind = .pendReady then 1 else 0))
  let s1 := { s with pantry := s.pantry.map fun e =>
    if e.st = .opened then e
    else if e.st = .making then (if e.fd = fd then e.unbind else e)
    else { e with holds := e.holds - held e } }
  bs.foldl (fun s b => modMembs b.core b.bur (fun _ => []) s) s1

/-! ## The instructions (R147-R157) -/

/-- The four result words of CLAIM and CLWAIT (R148). -/
def claimResult (res ticket : Nat) (e : PEntry) : BitVec 128 :=
  let rd := res = resReady
  BitVec.ofNat 128 (res * 2 ^ 30 + ticket + if rd then e.size.toNat * 2 ^ 32 + e.addr.toNat * 2 ^ 64 else 0)

/-- The result logged (R394 kind 1) and, in replay, matched (R397), then written at retirement. -/
def claimRetire (f : EF) (e : Entry) (s0 s : State) (data : BitVec 128) : Res :=
  match logEvent 1 e.iaddr e.rseq data [] s with
  | .bad c t => .trap c t 0 [] 0 0 s0
  | .ok s1 x _ =>
    if x.extractLsb' 30 98 != data.extractLsb' 30 98 then .trap .replayDiverged (s0.b.rppos.setWidth 64) 0 [] 0 0 s0
    else .done (s1.modB (setS4 f.d data))

/-- A pending membership delivered: MAKER, or READY with one hold (R151). -/
def deliverMemb (f : EF) (e : Entry) (m : Memb) (s : State) : Res :=
  let p := s.pent m.slice m.set m.way
  if m.kind = .pendMaker then
    claimRetire f e s (s.modB fun b => { b with membs := setKind m.ticket .maker b.membs }) (claimResult resMaker m.ticket p)
  else
    let (s1, now) := s.sliceStep m.slice
    let s2 := (s1.setPent { p with stamp := now }).modB fun b => { b with membs := addHold m (dropRole m.ticket b.membs) }
    claimRetire f e s s2 (claimResult resReady m.ticket p)

/-- CLAIM (R149). -/
def issueClaim (f : EF) (e : Entry) (s : State) : Res :=
  let n : PName := ⟨lo32 e.va, e.vb, lo32 e.vc⟩
  let b := s.b
  let fd := b.region.fd
  let mine := b.membs.filter fun m => m.fid == n.fid && m.dig == n.dig && m.ver == n.ver && m.fd == fd
  if 0xFFFFFF00 ≤ n.fid.toNat then .fault .pantryReserved s
  else if mine.isEmpty && !b.unitFree then .fault .pantryQuota s
  else match mine.find? fun m => m.kind == .pendMaker || m.kind == .pendReady with
    | some m => deliverMemb f e m s
    | none =>
      let ready := match s.named n fd with
        | some p => p.st == .ready
        | none => false
      let full := match s.named n fd with
        | some p => p.st == .ready && p.holds == 65535
        | none => false
      if full || (ready && !b.unitFree) then .fault .pantryQuota s
      else
        let me : Party := .bur b.core b.bur
        let r := claimStep me n fd s
        let p := r.2.2
        let s1 := r.1.modB fun x =>
          if r.2.1 = resReady then { x with membs := addHold (p.memb .hold 1) x.membs }
          else if r.2.1 = resFull || mine.any (·.kind != .hold) then x
          else { x with membs := x.membs ++ [p.memb (if r.2.1 = resMaker then .maker else .waiting) 0] }
        claimRetire f e s s1 (claimResult r.2.1 (if r.2.1 = resFull then 0 else p.ticket) p)

/-- The burner's membership that a ticket names at the entry's generation, one that is no hold first. -/
def membOf (t : Word) (s : State) : Option Memb :=
  match s.ticketed t with
  | none => none
  | some e =>
    let ms := s.b.membs.filter fun m => m.ticket == e.ticket
    match ms.find? (·.kind != .hold) with
    | some m => some m
    | none => ms.head?

/-- CLWAIT (R151, R152). -/
def issueClwait (f : EF) (e : Entry) (s : State) : Res :=
  match membOf (lo32 e.va) s with
  | none => .fault .pantryTicket s
  | some m => match m.kind with
    | .maker | .hold => .fault .pantryTicket s
    | .waiting => .wait s
    | .pendMaker | .pendReady => deliverMemb f e m s

/-- FULFIL (R153, R154): a release. -/
def issueFulfil (f : EF) (e : Entry) (s : State) : Res :=
  match membOf (lo32 e.va) s with
  | none => .fault .pantryTicket s
  | some m =>
    if m.kind != .maker then .fault .pantryRole s
    else if vaBad e.vb.toNat then .faultAt .vaRange e.vb.toNat s
    else
      let s1 := s.drain
      let r := fulfilStep (s1.pent m.slice m.set m.way) e.vb (lo32 e.vc) s1.b.region none s1
      .done (r.1.modB fun b => { b with membs := addHold m (dropRole m.ticket b.membs) }.setS f.d (w32 r.2))

/-- ABANDON (R155). -/
def issueAbandon (f : EF) (e : Entry) (s : State) : Res :=
  match membOf (lo32 e.va) s with
  | none => .fault .pantryTicket s
  | some m =>
    if m.kind = .hold then .fault .pantryRole s
    else
      let s1 := (s.sliceStep m.slice).1
      let p := s1.pent m.slice m.set m.way
      let r : State × Nat := match m.kind with
        | .maker | .pendMaker => giveUp p s1
        | .waiting => (withdraw (.bur s1.b.core s1.b.bur) p s1, 2)
        | _ => (lessHolds 1 p s1, 2)
      .done (r.1.modB fun b => { b with membs := dropRole m.ticket b.membs }.setS f.d (w32 r.2))

/-- The READY entry a ticket names at its generation. -/
def readyAt (t : Word) (s : State) : Option PEntry :=
  match s.ticketed t with
  | some e => if e.st = .ready then some e else none
  | none => none

/-- CLHOLD (R156). -/
def issueClhold (f : EF) (e : Entry) (s : State) : Res :=
  match readyAt (lo32 e.va) s with
  | none => .fault .pantryTicket s
  | some p =>
    if !s.b.unitFree || 65535 ≤ p.holds then .fault .pantryQuota s
    else
      let (s1, now) := s.sliceStep p.slice
      let s2 := s1.setPent { p with holds := p.holds + 1, stamp := now }
      .done (s2.modB fun b => { b with membs := addHold (p.memb .hold 1) b.membs }.setS f.d (w32 (p.holds + 1)))

/-- CLFREE (R156). -/
def issueClfree (f : EF) (e : Entry) (s : State) : Res :=
  match readyAt (lo32 e.va) s with
  | none => .fault .pantryTicket s
  | some p =>
    if !(s.b.membs.any fun m => m.ticket == p.ticket && m.kind == .hold) then .fault .pantryTicket s
    else
      let s1 := lessHolds 1 p (s.sliceStep p.slice).1
      .done (s1.modB fun b => { b with membs := subHold p.ticket b.membs }.setS f.d (w32 (p.holds - 1)))

/-! ## Acts -/

/-- PANTRY_REMOVAL (R158). -/
def execPantryRemoval (core bur : Nat) (s : State) : Outcome := .next (removeBurner core bur s)

/-- EVQ_FAULT_CLEAR (R146): the entry is evictable again. -/
def execEvqFaultClear (slice set way : Nat) (s : State) : Outcome :=
  let e := s.pent slice set way
  .next (if e.evqFault then s.setPent { e with evqFault := false } else s)

end Sys2Proof.Machine
end

