-- ==== Sys2Proof/Machine/Stockpot.lean ====
section
/-! DEFINITION. Registered tensors, their deltas, commits, publishes, checkpoints and memoised blocks
(spec/05_versioned_weights.md R111-R119, R125-R136, R446). -/
namespace Sys2Proof.Machine

/-! ## The registration record (R113) -/

def rFmt (n : Nat) : Nat := fld n 0 5
def rExm (n : Nat) : Bool := fld n 8 1 == 1
def rCkp (n : Nat) : Bool := fld n 9 1 == 1
def rNarrow (n : Nat) : Bool := fld n 10 1 == 1
def rRep (n : Nat) : Bool := fld n 11 1 == 1
def rD (n : Nat) : Nat := fld n 16 8
def rWlen (n : Nat) : Nat := fld n 256 32
def rRset (n : Nat) : Nat := fld n 288 32
def rNrep (n : Nat) : Nat := fld n 320 32
def rEta (n : Nat) : Nat := fld n 352 32
def rCkn (n : Nat) : Nat := fld n 384 32
def rCktime (n : Nat) : Nat := fld n 416 32
def rRinglen (n : Nat) : Nat := fld n 448 32
def rOptlen (n : Nat) : Nat := fld n 480 32
def rWbase (n : Nat) : Nat := fld n 512 64
def rS0 (n : Nat) : Nat := fld n 576 64
def rRing (n : Nat) : Nat := fld n 640 64
def rMom (n : Nat) : Nat := fld n 704 64
def rRlist (n : Nat) : Nat := fld n 768 64
def rSlot (n k : Nat) : Nat := fld n (832 + 64 * k) 64
def rOpt (n : Nat) : Nat := fld n 960 64
/-- 4 KiB blocks of the tensor, and the rows a delta may need (R114). -/
def rNblk (n : Nat) : Nat := (rWlen n + 15) / 16
def rDmax (n : Nat) : Nat := (64 + 8 * rNblk n + 4096 * rNblk n + 255) / 256
/-- Optimiser rows a slot stores (R133). -/
def rOptRows (n : Nat) : Nat := if rOpt n = 0 then 0 else if rNarrow n then (rOptlen n + 1) / 2 else rOptlen n

def Tensor.r (t : Tensor) : Nat := t.rcd.toNat
/-- The floor F (R112). -/
def Tensor.floor (t : Tensor) : Nat := max (max (t.scur - rD t.r) t.frel) t.s0
/-- The party that reads and writes for the tensor. -/
def Tensor.via (t : Tensor) : Via := { Via.dev t.region (t.tid / 4096) with eng := true }

def State.tensor (s : State) (tid : Nat) : Option Tensor := s.tensors.find? (·.tid == tid)
def State.setTensor (s : State) (t : Tensor) : State :=
  { s with tensors := s.tensors.map fun x => if x.tid == t.tid then t else x }

/-- The channel of the home die whose stockpot is the sequencer (spec/05_versioned_weights.md, before R111). -/
def Tensor.sequencer (t : Tensor) : Nat := t.tid % 4096 % 12

/-- A stockpot's own access that fails: an uncorrected error makes its tensor DIVERGED (R418), a fault is reported (R56). -/
def ownFault (tid : Nat) (k : EStop) (s : State) : State :=
  match k.1 with
  | .poisoned row =>
    let s1 := s.foundUnc row
    { s1 with tensors := s1.tensors.map fun t => if t.tid == tid then { t with diverged := true } else t }
  | _ => s.tellMgmt k

/-! ## Deltas and the ring (R118, R128, R446) -/

def xorWords (a b : List Word) : List Word := List.zipWith (· ^^^ ·) a b

/-- A delta's compressed buffer: header, descriptors, payloads packed consecutively (R96, R118). -/
def deltaImage (wlen : Nat) (ws : List Word) : List Byte :=
  let nblk := (wlen + 15) / 16
  let bs := (chunks 1024 ws).map fun b => encodeBlock (b ++ List.replicate (1024 - b.length) 0)
  let desc := bs.foldl (fun (p : List Byte × Nat) e =>
    (p.1 ++ bytesOfNat 8 (e.1 * 2 ^ 62 + e.2.length * 2 ^ 48 + p.2), p.2 + 4 * e.2.length)) ([], 64 + 8 * nblk)
  bytesOfNat 64 (nblk + 2 ^ 48 + 256 * wlen * 2 ^ 64) ++ desc.1 ++ bs.flatMap fun e => e.2.flatMap wordBytes

/-- The bytes of a delta's buffer that its blocks up to b take. -/
def deltaBytes (n b : Nat) (xs : List Word) : Nat :=
  64 + 8 * ((n + 15) / 16) + 4 * sumNat (((chunks 1024 xs).take b).map fun c => (encodeBlock (c ++ List.replicate (1024 - c.length) 0)).2.length)
/-- The ring rows that a delta being written has taken. -/
def Wip.rows (w : Wip) (n : Nat) : Nat := if w.put = 0 then 0 else (deltaBytes n w.put w.xs + 255) / 256

/-- The resolved loads of a tensor. -/
def State.loadsOf (s : State) (tid : Nat) : List WLd := ((s.all ++ s.saved).flatMap Burner.loads).filter (·.tid == tid)
/-- A delta that a resolved load, a block being made for one, a publish in progress or the checkpoint still needs (R128). -/
def Tensor.needs (s : State) (t : Tensor) (d : Delta) : Bool :=
  (match t.ckpt with
    | some c => decide (c.step < d.k)
    | none => false) || (t.making.any fun m => decide (m.step < d.k)) || (t.pubs.any fun s => decide (t.p < d.k) && decide (d.k ≤ s)) ||
    (s.loadsOf t.tid).any fun l => decide (l.base < d.k)
/-- Deltas at or below a floor freed, unless still needed. -/
def Tensor.free (s : State) (t : Tensor) (floor : Nat) : Tensor :=
  { t with ring := t.ring.filter fun d => decide (floor < d.k) || t.needs s d }

/-- Rows [r, r + n) hold no retained delta. -/
def Tensor.clearOf (t : Tensor) (r n : Nat) : Bool := t.ring.all fun d => decide (r + n ≤ d.row) || decide (d.row + d.rows ≤ r)
def least (xs : List Nat) : Option Nat := xs.foldl (fun m x => match m with
  | none => some x
  | some y => some (min x y)) none
def greatest (xs : List Nat) : Option Nat := xs.foldl (fun m x => match m with
  | none => some x
  | some y => some (max x y)) none
/-- The lowest ring row from which DMAX rows hold no retained delta. -/
def Tensor.place (t : Tensor) : Option Nat :=
  least ((0 :: t.ring.map fun d => d.row + d.rows).filter fun r =>
    decide (r + rDmax t.r ≤ rRinglen t.r) && t.clearOf r (rDmax t.r))
/-- The highest ring row, a multiple of 16, from which 16 rows hold no delta, none in part, and no memoised block. -/
def Tensor.memoRow (t : Tensor) : Option Nat :=
  let below (r : Nat) : List Nat := if 16 ≤ r then [r / 16 * 16 - 16] else []
  let top := if 16 ≤ rRinglen t.r then [rRinglen t.r / 16 * 16 - 16] else []
  let part := t.wip.toList.map fun w => (w.row, w.rows (rWlen t.r))
  let made := t.memos.map (·.row) ++ t.making.map (·.row)
  greatest ((top ++ t.ring.flatMap (fun d => below d.row) ++ part.flatMap (fun p => below p.1) ++ made.flatMap below).filter fun r =>
    t.clearOf r 16 && (part.all fun p => decide (p.1 + p.2 ≤ r) || decide (r + 16 ≤ p.1)) && made.all fun m => m != r)

/-! ## Memoised blocks (R131) -/

def memoFid : Word := 0xFFFFFF01
def memoName (tid step blk : Nat) : PName := ⟨memoFid, w64 step, w32 (tid % 2 ^ 14 * 2 ^ 18 + blk)⟩

def Memo.entry (m : Memo) (s : State) : PEntry := s.pent m.slice m.set m.way

/-- The stockpot's holds on blocks of steps below the floor dropped. -/
def dropOld (tid : Nat) (s : State) : State :=
  match s.tensor tid with
  | none => s
  | some t =>
    let old (m : Memo) : Bool := m.held && decide (m.step < t.floor)
    let s1 := (t.memos.filter old).foldl (fun s m => lessHolds 1 (m.entry s) s) s
    s1.setTensor { t with memos := t.memos.map fun m => if old m then { m with held := false } else m }

/-- What follows from a higher floor, or from the end of a use (R128, R131). -/
def settleTensor (tid : Nat) (s : State) : State :=
  match s.tensor tid with
  | none => s
  | some t => dropOld tid (s.setTensor (t.free s t.floor))

/-- Memoised blocks in rows [r, r + n) reclaimed; none while a hold other than the stockpot's stands on one, or one is being
made (R446). -/
def reclaim (t : Tensor) (r n : Nat) (s : State) : Option State :=
  let meets (row : Nat) : Bool := decide (row < r + n) && decide (r < row + 16)
  let hit := t.memos.filter fun m => meets m.row
  let busy (m : Memo) : Bool := (m.entry s).holds != (if m.held then 1 else 0)
  if hit.any busy || t.making.any fun m => meets m.row then none
  else
    let s1 := hit.foldl (fun s m => s.setPent (m.entry s).unbind) s
    some (s1.setTensor { t with memos := t.memos.filter fun m => !hit.contains m })

def Making.is (m : Making) (step blk : Nat) : Bool := m.step == step && m.block == blk
/-- The name of a block claimed for a tensor, once a slot for it is found: the state, and the ring row and pantry entry where the
stockpot is to make it. Blocks of steps below the floor are not consulted, and one in the making is waited for elsewhere
(R131). What a READY entry's slot holds is W_s, which the load has of itself, and so it is where the entry is of a tensor that is
gone (R130; log 51). -/
def claimBlock (t : Tensor) (step blk : Nat) (s : State) : State × Option (Nat × PEntry) :=
  match t.memoRow with
  | none => (s, none)
  | some row =>
    if step < t.floor || t.making.any (·.is step blk) then (s, none) else
    let r := claimStep (.pot t.tid) (memoName t.tid step blk) t.region.fd s
    if r.2.1 = resReady then (lessHolds 1 r.2.2 r.1, none)
    else if r.2.1 != resMaker then (r.1, none)
    else (r.1, some (row, r.2.2))
/-- A block that stands in its slot is fulfilled, and the tensor's. -/
def fulfilBlock (tid step blk row : Nat) (e : PEntry) (s : State) : State :=
  match s.tensor tid with
  | none => s
  | some t =>
    let s2 := (fulfilStep e (w64 (rRing t.r + 256 * row)) 4096 t.region (some tid) s).1
    let memo : Memo := ⟨row, step, blk, e.slice, e.set, e.way, true⟩
    s2.setTensor { t with memos := t.memos ++ [memo], making := t.making.filter fun m => !m.is step blk }
/-- A reconstructed block served through the pantry: its slot is sought first, then its name claimed (R131). -/
def memoise (tid step blk : Nat) (ws : List Word) (s : State) : State :=
  match s.tensor tid with
  | none => s
  | some t => match claimBlock t step blk s with
    | (s1, none) => s1
    | (s1, some (row, e)) => match wrVA s1 t.via s1.b (rRing t.r + 256 * row) (ws.flatMap wordBytes) with
      | (s2, some (k, a, _)) => (giveUp e (s2.tellBurner s2.b.who (k, a))).1
      | (s2, none) => fulfilBlock tid step blk row e s2

/-! ## Reading weights (R119) -/

/-- Rows as they stand in memory. -/
def rawRows (t : Tensor) (row n : Nat) (s : State) : Except EStop (State × List Word) :=
  match rdVA s t.via s.b (rWbase t.r + 256 * row) (256 * n) with
  | .error e => .error e
  | .ok (s1, bs) => .ok (s1, wordsOfBytes bs (64 * n))
/-- The rows of S_cur from row `row` on where a rewrite in progress has been past them: recovered from its delta (R118). -/
def Tensor.recover (t : Tensor) (row : Nat) (ws : List Word) : List Word :=
  match t.wip with
  | none => ws
  | some w =>
    let k := min ws.length (64 * (w.done - row))
    (w.old.drop (64 * row)).take k ++ ws.drop k
/-- The rows of S_cur. -/
def storedRows (t : Tensor) (row n : Nat) (s : State) : Except EStop (State × List Word) :=
  match rawRows t row n s with
  | .error e => .error e
  | .ok (s1, ws) => .ok (s1, t.recover row ws)
/-- Rows of a step at or below S_cur from the rows in memory, through the retained deltas. -/
def Tensor.back (t : Tensor) (step row : Nat) (ws : List Word) : List Word :=
  t.ring.foldl (fun ws d => if step < d.k then xorWords ws ((d.ws.drop (64 * row)).take ws.length) else ws) (t.recover row ws)
/-- Blocks of a reconstructed load memoised, in ascending order. -/
def memoBlocks (tid step : Nat) : List Nat → State → Except EStop State
  | [], s => .ok s
  | b :: bs, s => match s.tensor tid with
    | none => .ok s
    | some t =>
      let n := min 16 (rWlen t.r - 16 * b)
      match rawRows t (16 * b) n s with
      | .error e => .error e
      | .ok (s1, ws) =>
        let all := t.back step (16 * b) ws
        memoBlocks tid step bs (memoise tid step b (all ++ List.replicate (1024 - all.length) 0) s1)
/-- Rows of step s, s ≤ S_cur. -/
def stepRows (tid step row n : Nat) (s : State) : Except EStop (State × List Word) :=
  match s.tensor tid with
  | none => .ok (s, [])
  | some t => match rawRows t row n s with
    | .error e => .error e
    | .ok (s1, ws) =>
      if step = t.scur then .ok (s1, t.recover row ws)
      else match memoBlocks tid step ((List.range ((row + n - 1) / 16 + 1 - row / 16)).map (row / 16 + ·)) s1 with
        | .error e => .error e
        | .ok s2 => .ok (s2, t.back step row ws)

/-! ## A memoised block in parts (R131, R162) -/

/-- Before a load in parts reads a row of step `step`: its block's name is claimed, and where the stockpot is to make the block its
making begins. Whether the load waits for it. -/
def memoTurn (tid step row : Nat) (s : State) : State × Bool :=
  let blk := row / 16
  match s.tensor tid with
  | none => (s, false)
  | some t =>
    if t.making.any (·.is step blk) then (s, true)
    else match claimBlock t step blk s with
      | (s1, none) => (s1, false)
      | (s1, some (r, e)) =>
        let m : Making := { step := step, block := blk, ws := [], row := r, slice := e.slice, set := e.set, way := e.way, who := s.b.who }
        ({ s1 with tensors := s1.tensors.map fun t => if t.tid == tid then { t with making := t.making ++ [m] } else t }, true)
/-- A block that cannot be made is given up; the loads of the tensor read on without one. -/
def giveUpBlock (tid : Nat) (m : Making) (s : State) : State :=
  let plain (l : WLd) : WLd := if l.tid = tid then { l with plain := true } else l
  let loads (b : Burner) : Burner :=
    (b.setHead .s fun e => { e with load := e.load.map plain }).setUnit 3 { b.unit 3 with load := (b.unit 3).load.map plain }
  let s1 := { s.modWhere (fun _ => true) loads with saved := s.saved.map loads }
  (giveUp (s1.pent m.slice m.set m.way) { s1 with tensors := s1.tensors.map fun t => if t.tid == tid then
    { t with making := t.making.filter fun x => !x.is m.step m.block } else t }).1
def Tensor.setMaking (t : Tensor) (m : Making) : Tensor := { t with making := t.making.map fun x => if x.is m.step m.block then m else x }
/-- The accesses of the making of a block, at most `fuel` in this act: its rows read and rebuilt one by one, then its slot
written. -/
def makingGo (tid step blk : Nat) : Nat → State → State
  | 0, s => s
  | fuel + 1, s => match s.tensor tid with
    | none => s
    | some t => match t.making.find? (·.is step blk) with
      | none => s
      | some m =>
        let n := min 16 (rWlen t.r - 16 * m.block)
        let have' := m.ws.length / 64
        if have' < n then
          match rawRows t (16 * m.block + have') 1 s with
          | .error (.poisoned x, a) => giveUpBlock tid m (ownFault tid (.poisoned x, a) s)
          | .error k => giveUpBlock tid m (s.tellBurner m.who k)
          | .ok (s1, ws) => makingGo tid step blk fuel (s1.setTensor (t.setMaking { m with
              ws := m.ws ++ t.back m.step (16 * m.block + have') ws }))
        else if m.done < 4096 then
          let bs := ((m.ws ++ List.replicate (1024 - m.ws.length) 0).flatMap wordBytes).drop m.done
          match s.access t.via true (rRing t.r + 256 * m.row + m.done) bs.length bs with
          | (s1, { fail := some k, va := a, .. }) => giveUpBlock tid m (s1.tellBurner m.who (k, a))
          | (s1, d) => makingGo tid step blk fuel (s1.setTensor (t.setMaking { m with done := m.done + d.bytes.length }))
        else fulfilBlock tid m.step m.block m.row (s.pent m.slice m.set m.way) s
/-- The stockpot's turn at the block it makes. -/
def makingTurn (tid step blk : Nat) (s : State) : Outcome := .next (makingGo tid step blk (if s.pace = 0 then 1024 else s.pace) s)

/-- One access of a load in parts (R119, R162): the row of its step rebuilt as memory stands, or one of its momentum rows. -/
def loadAccess (t : Tensor) (l : WLd) (row j : Nat) (s : State) : Except EStop (State × List Word) :=
  if j = 0 then
    match rawRows t row 1 s with
    | .error e => .error e
    | .ok (s1, ws) => .ok (s1, t.back l.base row ws)
  else match rdVA s t.via s.b (rMom t.r + 256 * (elN (rFmt t.r) * row + j - 1)) 256 with
    | .error e => .error e
    | .ok (s1, bs) => .ok (s1, wordsOfBytes bs 64)
/-- How many rows a load reads for each of its own. -/
def rowsPer (t : Tensor) (l : WLd) : Nat := if l.k = 0 then 1 else 1 + elN (rFmt t.r)

/-- A lane word extrapolated k steps on with the momenta of its elements (R117). -/
def extrapWord (fmt k : Nat) (eta : Word) (w : Word) (ms : List Word) : Word :=
  let c := w32 (ffFP32.deliver rne (mulFV (ofInt (-(k : Int))) (fp32 eta)).1).1
  packWord fmt ((List.range (elN fmt)).map fun j =>
    let x := convEl fmt 1 rne (sub fmt w j)
    (convEl 1 fmt rne (fma32 c (ms.getD j 0) (w32 x.1)).toNat).1)
/-- A row of a load from the rows read for it. -/
def loadRow (t : Tensor) (l : WLd) (ws : List Word) : List Word :=
  if l.k = 0 then ws
  else (List.zip (ws.take 64) (chunks (elN (rFmt t.r)) (ws.drop 64))).map fun p => extrapWord (rFmt t.r) l.k l.eta p.1 p.2
/-- Rows extrapolated beyond the step S_cur was when the load was resolved; the momentum is read now. -/
def extrapRows (t : Tensor) (l : WLd) (row n : Nat) (s : State) : Except EStop (State × List Word) :=
  match rawRows t row n s with
  | .error e => .error e
  | .ok (s1, ws) =>
    let q := elN (rFmt t.r)
    match rdVA s1 t.via s1.b (rMom t.r + 256 * q * row) (256 * q * n) with
    | .error e => .error e
    | .ok (s2, bs) => .ok (s2, (List.zip (t.back l.base row ws) (chunks q (wordsOfBytes bs (64 * q * n)))).map fun p =>
        extrapWord (rFmt t.r) l.k l.eta p.1 p.2)

/-! ## Completion elements (R135, R136) -/

def wDone : Byte := 0
def wPartial : Byte := 1
def wStepOrder : Byte := 2
def wRingFull : Byte := 3
def wStepAhead : Byte := 4
def wStepGone : Byte := 5
def wSourceFault : Byte := 6
def wTensorGone : Byte := 7

/-- The head request of the weight port completes. -/
def finishWeight (op : BitVec 4) (step : DWord) (val : Nat) (tag : Word) (status evf : Byte) (s : State) : State :=
  let e : BitVec 128 := step ++ w32 val ++ tag.extractLsb' 0 16 ++ status ++ op ++ 3#4
  let keep := (s.b.unit 3).last
  let ev : DWord := if evf.getLsbD 7 then BitVec.ofNat 64 (2 ^ (evf.extractLsb' 0 6).toNat) else 0
  (finishAt s.b.core s.b.bur 3 e ev s).modB fun b => b.setUnit 3 { b.unit 3 with last := keep }

/-- The head item of unit 3 begins. -/
def beginItem (b : Burner) : Burner :=
  let g := b.unit 3
  match g.fifo with
  | [] => b
  | p :: t => b.setUnit 3 { g with fifo := { p with started := true } :: t }
def headStarted (b : Burner) : Bool :=
  match (b.unit 3).fifo with
  | [] => false
  | p :: _ => p.started

/-! ## Checkpoints (R132-R134) -/

/-- What a slot's commit record says: SEQ, STEP, weight rows, optimiser rows, NARROW (R133). -/
structure SlotRec where
  seq : Nat
  step : Nat
  wlen : Nat
  opt : Nat
  narrow : Bool
deriving DecidableEq, Repr

/-- A slot's record as the rows read tell it, or the access that is still to be made for it; a slot that cannot be read holds none
(R133; log 138). -/
def slotRead (v : Via) (a : Nat) (s : State) : Except EStop (Option SlotRec) :=
  let fails (k : EStop) : Except EStop (Option SlotRec) := match k.1 with
    | .want _ _ _ => .error k
    | _ => .ok none
  match rdVA s v s.b a 64 with
  | .error k => fails k
  | .ok (s1, bs) =>
    let n := natOfBytes bs
    if fld n 0 32 != 0x7C640C4B || fld n 37 3 != 0 || fld n 41 23 != 0 then .ok none
    else match rdVA s1 v s1.b (a + 256) (256 * (fld n 64 32 + fld n 96 32)) with
      | .error k => fails k
      | .ok (_, ds) =>
        .ok (if (Config.sha3 ds).toNat = fld n 256 256 then
          some ⟨fld n 192 64, fld n 128 64, fld n 64 32, fld n 96 32, fld n 40 1 == 1⟩
        else none)
/-- The valid commit record of a slot. -/
def readSlot (v : Via) (a : Nat) (s : State) : Option SlotRec :=
  match slotRead v a s with
  | .ok r => r
  | .error _ => none
/-- The slot with the newest valid record, and the record. -/
def newestSlot (v : Via) (r : Nat) (s : State) : Option (Nat × SlotRec) :=
  match readSlot v (rSlot r 0) s, readSlot v (rSlot r 1) s with
  | none, none => none
  | some a, none => some (0, a)
  | none, some b => some (1, b)
  | some a, some b => if a.seq < b.seq then some (1, b) else some (0, a)
/-- The access that reading both slots of a record stops for. -/
def slotsWant (v : Via) (r : Nat) (s : State) : Option EStop :=
  match wanted (slotRead v (rSlot r 0) s) with
  | some k => some k
  | none => wanted (slotRead v (rSlot r 1) s)

/-- FP32 optimiser words as they stand in a slot, and back. -/
def narrowBytes (ws : List Word) : List Byte := ws.flatMap fun w => bytesOfNat 2 (convEl 1 2 rne w.toNat).1
def widenBytes (bs : List Byte) : List Byte := (chunks 2 bs).flatMap fun p => bytesOfNat 4 (convEl 2 1 rne (natOfBytes p)).1

/-- A checkpoint's own access that fails: an uncorrected error makes the tensor DIVERGED (R418); a fault is told to the burner
whose commit began it (R56). -/
def ckptFault (tid : Nat) (w : Who) (k : EStop) (s : State) : State :=
  match k.1 with
  | .poisoned _ => ownFault tid k s
  | _ => s.tellBurner w k
/-- A checkpoint's slot chosen, its record invalidated and the optimiser state copied (R132 steps 1 to 3): the slot, or what
stops it. -/
def ckptOpen (t : Tensor) (s : State) : State × Except EStop Nat :=
  match slotsWant t.via t.r s with
  | some k => (s, .error k)
  | none =>
    let k := match newestSlot t.via t.r s with
      | some (0, _) => 1
      | _ => 0
    let a := rSlot t.r k
    let n := if rOpt t.r = 0 then 0 else rOptlen t.r
    match wrVA s t.via s.b a (List.replicate 64 0) with
    | (s1, some (k, a, _)) => (s1, .error (k, a))
    | (s1, none) => match rdVA s1 t.via s1.b (rOpt t.r) (256 * n) with
      | .error k => (s1, .error k)
      | .ok (s2, bs) =>
        let img := if rNarrow t.r then narrowBytes (wordsOfBytes bs (64 * n)) else bs
        match wrVA s2 t.via s2.b (a + 256 + 256 * rWlen t.r) img with
        | (s3, some (k, a, _)) => (s3, .error (k, a))
        | (s3, none) => (s3, .ok k)
/-- A checkpoint of step c begins, and with it its counts anew. An access that faults ends it, and is told to the burner whose
commit began it (R56). -/
def ckptBegin (tid c : Nat) (s : State) : State :=
  match s.tensor tid with
  | none => s
  | some t =>
    let t1 := { t with ckCommits := 0, ckTime := s.cycle }
    match ckptOpen t (s.setTensor t1) with
    | (s1, .error k) => ckptFault t.tid s.b.who k s1
    | (s1, .ok k) => s1.setTensor { t1 with ckpt := some { step := c, slot := k, who := s.b.who } }

/-- Whether the completion point of a commit triggers a checkpoint (R132): 1 µs is 1,800 cycles. -/
def Tensor.triggers (t : Tensor) (now : Nat) : Bool :=
  rCkp t.r && t.ckpt.isNone && ((rCkn t.r != 0 && decide (rCkn t.r ≤ t.ckCommits)) ||
    (rCktime t.r != 0 && decide (1800 * rCktime t.r ≤ now - t.ckTime)))

/-- A checkpoint ends: the pin is removed. -/
def ckptEnd (t : Tensor) (seq : Nat) (s : State) : State := settleTensor t.tid (s.setTensor { t with ckpt := none, ckSeq := seq })
/-- The commit record written, with its sequence number, once every row of the slot stands; what stops it. -/
def ckptSeal (t : Tensor) (c : Ckpt) (s : State) : State × Except EStop Nat :=
  let a := rSlot t.r c.slot
  let n := rWlen t.r
  match rdVA s t.via s.b (a + 256) (256 * (n + rOptRows t.r)) with
  | .error k => (s, .error k)
  | .ok (s1, ds) =>
    let seq := t.ckSeq + 1
    let rec' := 0x7C640C4B + rFmt t.r * 2 ^ 32 + (if rNarrow t.r then 2 ^ 40 else 0) + n * 2 ^ 64 + rOptRows t.r * 2 ^ 96 +
      c.step * 2 ^ 128 + seq * 2 ^ 192 + (Config.sha3 ds).toNat * 2 ^ 256
    match wrVA s1 t.via s1.b a (bytesOfNat 256 rec') with
    | (s2, some (k, a, _)) => (s2, .error (k, a))
    | (s2, none) => (s2, .ok seq)
/-- A checkpoint ends with its record, or without one where an access fails. -/
def ckptRecord (t : Tensor) (c : Ckpt) (s : State) : State :=
  match ckptSeal t c s with
  | (s1, .error k) => ckptFault t.tid c.who k (ckptEnd t t.ckSeq s1)
  | (s1, .ok seq) => ckptEnd t seq s1
/-- CHECKPOINT_COMPLETE (R132): the weights of the pinned step, then the commit record; the pin is removed. -/
def execCheckpointComplete (tid : Word) (s : State) : Outcome :=
  match s.tensor tid.toNat with
  | none => .next s
  | some t => match t.ckpt with
    | none => .next s
    | some c => match storedRows t 0 (rWlen t.r) s with
      | .error e => .next (ckptFault t.tid c.who e (ckptEnd t t.ckSeq s))
      | .ok (s1, ws) => match wrVA s1 t.via s1.b (rSlot t.r c.slot + 256) ((t.back c.step 0 ws).flatMap wordBytes) with
        | (s2, some (k, a, _)) => .next (ckptFault t.tid c.who (k, a) (ckptEnd t t.ckSeq s2))
        | (s2, none) => .next (ckptRecord t c s2)

/-! ## A checkpoint in parts (R132, R162) -/

/-- The burner's commit whose checkpoint has read the optimiser state completes (R132 step 3). -/
def postCommit (p : OwedElem) (s : State) : State :=
  let mine (b : Burner) : Bool := b.who == p.who && (match (b.unit 3).fifo with
    | x :: _ => x.started && x.seq == p.tag
    | [] => false)
  match s.all.find? mine with
  | none => s
  | some b => (finishWeight 2 p.step p.rows p.tag wDone p.evf (s.focus b.core b.bur)).focus s.b.core s.b.bur
/-- The accesses of a part of the checkpoint of `c`, at most `fuel` in this act: how it ends, or none while some remain. -/
def ckptPart {α : Type} (tid : Nat) (f : State → State × Except EStop α) (fuel : Nat) (c : Ckpt) (s : State) :
    State × Option (Except EStop α) :=
  match s.tensor tid with
  | none => (s, none)
  | some t =>
    let (s1, ds, all) := inParts t.via (fun s => wanted (f s).2) fuel c.trail s
    let keep (ds : List RowDone) (s : State) : State :=
      { s with trail := none, tensors := s.tensors.map fun t => if t.tid == tid then { t with ckpt := t.ckpt.map fun c => { c with trail := ds } } else t }
    if all then
      let r := f { s1 with trail := some ds }
      (keep [] r.1, some r.2)
    else (keep ds s1, none)
/-- A row of the checkpoint's weights written in its slot: rebuilt as memory stands, and the same whenever it is read. -/
def ckptRow (t : Tensor) (c : Ckpt) (s : State) : State × Except EStop Unit :=
  match rawRows t c.done 1 { s with trail := none } with
  | .error k => (s, .error k)
  | .ok (_, ws) => match wrVA s t.via s.b (rSlot t.r c.slot + 256 + 256 * c.done) ((t.back c.step c.done ws).flatMap wordBytes) with
    | (s1, some (k, a, _)) => (s1, .error (k, a))
    | (s1, none) => (s1, .ok ())
/-- A checkpoint's turn: its opening, after which the commit's element is posted; then its weights, row by row and lazily; then its
record. `fuel` bounds the parts. -/
def ckptGo (tid : Nat) : Nat → State → State
  | 0, s => s
  | fuel + 1, s => match s.tensor tid with
    | none => s
    | some t => match t.ckpt with
      | none => s
      | some c =>
        let share := if s.pace = 0 then 2 ^ 32 else 1
        let fails (k : EStop) (s : State) : State := match s.tensor tid with
          | none => s
          | some t => ckptFault tid c.who k (ckptEnd t t.ckSeq s)
        let goes (f : Ckpt → Ckpt) (s : State) : State := match s.tensor tid with
          | none => s
          | some t => s.setTensor { t with ckpt := t.ckpt.map f }
        match c.posts with
        | some p => match ckptPart tid (ckptOpen t) share c s with
          | (s1, none) => ckptGo tid fuel s1
          | (s1, some (.error k)) => postCommit p (fails k s1)
          | (s1, some (.ok k)) => ckptGo tid fuel (postCommit p (goes (fun c => { c with slot := k, posts := none }) s1))
        | none =>
          if rWlen t.r ≤ c.done then match ckptPart tid (ckptSeal t c) share c s with
            | (s1, none) => ckptGo tid fuel s1
            | (s1, some (.error k)) => fails k s1
            | (s1, some (.ok seq)) => (s1.tensor tid).elim s1 fun t => ckptEnd t seq s1
          else match ckptPart tid (ckptRow t c) share c s with
            | (s1, none) => ckptGo tid fuel s1
            | (s1, some (.error k)) => fails k s1
            | (s1, some (.ok ())) => ckptGo tid fuel (goes (fun c => { c with done := c.done + 1 }) s1)
/-- A checkpoint's turn: to its end, or as many accesses as the act has. -/
def ckptTurn (tid : Nat) (s : State) : Outcome :=
  match s.tensor tid with
  | none => .next s
  | some t =>
    let fresh (c : Ckpt) : Bool := c.posts.isNone && c.done == 0 && c.trail.isEmpty
    if s.pace = 0 && t.wip.isNone && t.ckpt.any fresh then execCheckpointComplete (w32 tid) s
    else .next (ckptGo tid (if s.pace = 0 then rWlen t.r + 3 else s.pace) s)

/-! ## Committing (R118, R446) -/

/-- Block b of a delta's buffer in the ring: the bytes its payload and its descriptor take, which are written as one unit
(R102). -/
def deltaUnit (t : Tensor) (row b : Nat) (xs : List Word) : List (Nat × Nat) :=
  let n := rWlen t.r
  let a := rRing t.r + 256 * row
  [(a + deltaBytes n b xs, deltaBytes n (b + 1) xs - deltaBytes n b xs), (a + 64 + 8 * b, 8)]
/-- A step's delta written to ring rows and the new weights over the old. -/
def rewrite (t : Tensor) (row : Nat) (xs : List Word) (img : List Byte) (ws : List Word) (s0 : State) : Except EStop State :=
  let s := (List.range (rNblk t.r)).foldl (fun s b => holdUnit t.via (deltaUnit t row b xs) s) s0
  match wrVA s t.via s.b (rRing t.r + 256 * row) img with
  | (_, some (k, a, _)) => .error (k, a)
  | (s1, none) => match wrVA s1 t.via s1.b (rWbase t.r) (ws.flatMap wordBytes) with
    | (_, some (k, a, _)) => .error (k, a)
    | (s2, none) => .ok s2

/-- A load that waits: the head of the S queue or of the weight port, with its tensor and step (R116). -/
def Burner.waitingLoads (b : Burner) : List (Bool × Nat × Nat) :=
  (match b.qs with
    | e :: _ => if e.waited && e.load.isNone then (match e.ins with
      | .wloadWait _ => [(false, (hi32 e.va).toNat, e.vb.toNat)]
      | _ => []) else []
    | [] => []) ++
  (match (b.unit 3).fifo with
    | p :: _ => if (b.unit 3).waitFrom && (b.unit 3).load.isNone then (match p.item with
      | .cmd c => [(true, cf c 224 32, cStep c)]
      | _ => []) else []
    | [] => [])
/-- The loads of a burner that wait for a step that S_cur has reached are resolved: stored bits, having waited (R115, R116). -/
def wakeLoads (tid scur : Nat) (b : Burner) : Burner :=
  b.waitingLoads.foldl (fun b w =>
    if w.2.1 = tid && decide (w.2.2 ≤ scur) then
      let l : WLd := { tid := tid, base := w.2.2, code := (if w.2.2 = scur then 0 else 1) + 4 }
      if w.1 then b.setUnit 3 { b.unit 3 with load := some l } else b.setHead .s fun e => { e with load := some l }
    else b) b
/-- S_cur has advanced: the loads that wait for it end their wait; those of a tensor that counts as unregistered have ended (R130). -/
def State.wakeAll (s : State) (tid : Nat) : State :=
  match s.tensor tid with
  | none => s
  | some t => if t.unreg then s else s.modWhere (fun _ => true) (wakeLoads tid t.scur)

/-- Words 11 to 13 of the record, read once as a commit starts, and kept with it (R113). -/
def reread (t : Tensor) (s : State) : Except EStop (State × Nat) :=
  match (s.b.unit 3).reread with
  | some n => .ok (s, n)
  | none => match rdVA s t.via s.b (t.rec_ + 44) 12 with
    | .error k => .error k
    | .ok (s1, bs) => .ok (s1.modB fun b => b.setUnit 3 { b.unit 3 with reread := some (natOfBytes bs) }, natOfBytes bs)

/-- How a commit stands before its first block: it ends with a status, stalls, or has the tensor with its freed ring, words 11 to
13 of the record, and a place for its delta (R113, R118). -/
inductive CommitStart where
  | ends (status : Byte) (s : State)
  | stalls (s : State)
  | go (s : State) (t : Tensor) (n row : Nat)

def commitStart (id k : Nat) (started : Bool) (s : State) : CommitStart :=
  match s.tensor id with
  | none => .ends wTensorGone s
  | some t =>
    if t.unreg && !started then .ends wTensorGone s
    else match reread t s with
      | .error e => .ends wSourceFault (ownFault id e s)
      | .ok (s1, n) =>
        let pinned := match t.ckpt with
          | some c => decide (c.step < k - rD t.r)
          | none => false
        if k != t.scur + 1 then .ends wStepOrder s1
        else if pinned then .stalls s1
        else
          let t1 := t.free s1 (max (max (k - rD t.r) t.frel) t.s0)
          match t1.place with
          | none => .ends wRingFull s1
          | some row => .go s1 t1 n row

/-- What a failed access of a commit does: the burner's own row is reported as its own, another as the stockpot's; SOURCE_FAULT
(R136). -/
def sourceFault (k : EStop) (s : State) : State :=
  match k.1 with
  | .poisoned row => s.due (.uncorrectedError row s.b.region.fd)
  | _ => s
/-- The completion point of a commit (R118): S_cur is the step, and its delta is retained. -/
def commitPoint (id k row rows n : Nat) (xs new : List Word) (t : Tensor) (s : State) : State × Tensor :=
  let r := (t.rcd &&& ~~~(BitVec.ofNat 1024 ((2 ^ 96 - 1) * 2 ^ 352))) ||| BitVec.ofNat 1024 (n * 2 ^ 352)
  let t1 := { t with scur := k, eta := w32 n, rcd := r, ckCommits := t.ckCommits + 1, wip := none
                     ring := t.ring ++ [⟨k, row, rows, xs, sumWords 0 new⟩] }
  (settleTensor id ((s.setTensor t1).wakeAll id), t1)
/-- It may begin a checkpoint (R132). -/
def commitDone (id k row rows n : Nat) (xs new : List Word) (t : Tensor) (s : State) : State :=
  let (s1, t1) := commitPoint id k row rows n xs new t s
  if t1.triggers s1.cycle then ckptBegin id k s1 else s1
/-- The same for a commit in parts: the element waits for the checkpoint that it begins. -/
def commitEnds (id k row rows n : Nat) (xs new : List Word) (p : OwedElem) (t : Tensor) (s : State) : State :=
  let (s1, t1) := commitPoint id k row rows n xs new t s
  if t1.triggers s1.cycle then match s1.tensor id with
    | none => s1
    | some t2 => s1.setTensor { t2 with ckpt := some { step := k, who := p.who, posts := some p }, ckCommits := 0, ckTime := s1.cycle }
  else finishWeight 2 p.step rows p.tag wDone p.evf s1

/-- STOCKPOT_COMMIT (R118): the acting burner's head request, its blocks one after the other with nothing between. -/
def execStockpotCommit (tid : Word) (src step : DWord) (evf : Byte) (tag : Word) (s : State) : Outcome :=
  let id := tid.toNat
  let k := step.toNat
  let ends (status : Byte) (val : Nat) (s : State) : Outcome := .next (finishWeight 2 step val tag status evf s)
  match commitStart id k (headStarted s.b) (s.modB beginItem) with
  | .ends status s1 => ends status 0 s1
  | .stalls s1 => .next s1
  | .go s1 t n row => match rdVA s1 s1.viaB s1.b src.toNat (256 * rWlen t.r) with
    | .error e => ends wSourceFault 0 (sourceFault e s1)
    | .ok (s2, bs) => match storedRows t 0 (rWlen t.r) s2 with
      | .error e => ends wSourceFault 0 (ownFault id e s2)
      | .ok (s3, old) =>
        let new := wordsOfBytes bs (64 * rWlen t.r)
        let xs := xorWords old new
        let img := deltaImage (rWlen t.r) xs
        let rows := (img.length + 255) / 256
        match reclaim t row rows (s3.setTensor t) with
        | none => .next s3
        | some s4 => match rewrite t row xs img new s4, s4.tensor id with
          | .ok s5, some t2 => ends wDone rows (commitDone id k row rows n xs new t2 s5)
          | .error e, _ => ends wSourceFault 0 (ownFault id e s3)
          | _, none => ends wTensorGone 0 s3

/-! ## A rewrite in parts (R118, R126, R162) -/

/-- The rows of a rewrite up to the end of the block in hand. -/
def Wip.upTo (w : Wip) (n : Nat) : Nat := min n (16 * (w.done / 16 + 1))
/-- The whole delta's words: those made so far, zeros after them. -/
def Wip.words (w : Wip) (n : Nat) : List Word := w.xs ++ List.replicate (64 * n - w.xs.length) 0

/-- Why a step of a rewrite stops: the source's row or one of the stockpot's own fails, or a hold stands on a memoised block. -/
inductive WipStop where
  | source (k : EStop)
  | own (k : EStop)
  | held

/-- The block in hand written to the ring: its payload, its descriptor, and with the first the header, as one unit. -/
def wipBlock (t : Tensor) (w : Wip) (s : State) : Except WipStop (State × Wip) :=
  let n := rWlen t.r
  let xs := w.words n
  let img := deltaImage n xs
  let b := w.put
  let lo := deltaBytes n b xs
  let hi := deltaBytes n (b + 1) xs
  let a := rRing t.r + 256 * w.row
  match reclaim t w.row ((hi + 255) / 256) s with
  | none => .error .held
  | some s1 =>
    let s1 := holdUnit t.via (deltaUnit t w.row b xs) s1
    match wrVA s1 t.via s1.b (a + lo) ((img.drop lo).take (hi - lo)) with
    | (_, some (k, x, _)) => .error (.own (k, x))
    | (s2, none) =>
      let from' := if b = 0 then 0 else 64 + 8 * b
      match wrVA s2 t.via s2.b (a + from') ((img.drop from').take (64 + 8 * b + 8 - from')) with
      | (_, some (k, x, _)) => .error (.own (k, x))
      | (s3, none) => .ok (s3, { w with put := b + 1 })

/-- The next row access of a rewrite: rows of the source block, then of the current block, its delta, then its new rows. -/
def wipStep (src : Nat) (t : Tensor) (w : Wip) (s : State) : Except WipStop (State × Wip) :=
  let n := rWlen t.r
  let m := w.upTo n
  if w.own.isSome && w.new.length < 64 * m then
    match s.access s.viaB false (src + w.got.length) (256 * m - w.got.length) [] with
    | (_, { fail := some k, va := a, .. }) => .error (.source (k, a))
    | (s1, d) =>
      let got := w.got ++ d.bytes
      .ok (s1, { w with got := got, new := w.new ++ wordsOfBytes (got.drop (4 * w.new.length)) (got.length / 4 - w.new.length) })
  else if w.old.length < 64 * m then
    match rawRows t (w.old.length / 64) 1 s with
    | .error k => .error (.own k)
    | .ok (s1, ws) =>
      let j := w.old.length
      .ok (s1, { w with old := w.old ++ ws
                        xs := if w.own.isSome then w.xs ++ xorWords ws (w.new.drop j) else w.xs
                        new := if w.own.isSome then w.new else w.new ++ xorWords ws ((w.words n).drop j) })
  else if 16 * w.put < m then wipBlock t w s
  else match wrVA s t.via s.b (rWbase t.r + 256 * w.done) (((w.new.drop (64 * w.done)).take 64).flatMap wordBytes) with
    | (_, some (k, a, _)) => .error (.own (k, a))
    | (s1, none) => .ok (s1, { w with done := w.done + 1 })

/-- Steps of a rewrite, at most `fuel` in this act: where it stands, and why it stopped. -/
def wipGo (src tid : Nat) : Nat → State → State × Option WipStop
  | 0, s => (s, none)
  | fuel + 1, s => match s.tensor tid with
    | none => (s, none)
    | some t => match t.wip with
      | none => (s, none)
      | some w =>
        if rWlen t.r ≤ w.done then (s, none)
        else match wipStep src t w s with
          | .error k => (s, some k)
          | .ok (s1, w1) => match s1.tensor tid with
            | none => (s1, none)
            | some t1 => wipGo src tid fuel (s1.setTensor { t1 with wip := some w1 })
/-- A rewrite that fails leaves the tensor as it was: the rows rewritten are written back, and those of the deltas that would have
been freed with it (R136; log 55). -/
def undoWip (tid : Nat) (s : State) : State :=
  match s.tensor tid with
  | none => s
  | some t => match t.wip with
    | none => s
    | some w =>
      let s1 := (wrVA s t.via s.b (rWbase t.r) ((w.old.take (64 * w.done)).flatMap wordBytes)).1
      let hit := t.ring.filter fun d => decide (d.row < w.row + w.rows (rWlen t.r)) && decide (w.row < d.row + d.rows)
      let s2 := hit.foldl (fun s d => (wrVA s t.via s.b (rRing t.r + 256 * d.row) (deltaImage (rWlen t.r) d.ws)).1) s1
      s2.setTensor { t with wip := none }

/-- Whether every row of a range may be accessed: translated and checked, nothing read or written. -/
def rowsOpen (v : Via) (wr : Bool) (a n : Nat) (s : State) : Option EStop :=
  (List.range ((a + n - 1) / 256 + 1 - a / 256)).findSome? fun i =>
    let x := max a ((a / 256 + i) * 256)
    match locate s v s.b wr x (min (a + n) ((x / 256 + 1) * 256) - x) with
    | .error k => some (k, x)
    | .ok _ => none
/-- Whether no row of the source is a row of the weights or of the ring, so that the order of blocks tells nothing. -/
def commitApart (src : Nat) (t : Tensor) (s : State) : Bool :=
  let key (v : Via) (a : Nat) : Option (Bool × Nat) := match locate s v s.b false a 1 with
    | .ok (_, .mesh core row) => some (false, core * 2048 + row)
    | .ok (_, .phys pa _) => some (true, pa / 256)
    | _ => none
  let keys (v : Via) (a n : Nat) : List (Bool × Nat) := (List.range ((a + n - 1) / 256 + 1 - a / 256)).filterMap fun i => key v ((a / 256 + i) * 256)
  let own := keys t.via (rWbase t.r) (256 * rWlen t.r) ++ keys t.via (rRing t.r) (256 * rRinglen t.r)
  (keys s.viaB src (256 * rWlen t.r)).all fun k => !own.contains k

/-- The rewrite of a commit goes on: it ends, stops, or stands between two rows. -/
def commitGo (tid : Word) (src step : DWord) (evf : Byte) (tag : Word) (s : State) : Outcome :=
  let id := tid.toNat
  let n := (s.tensor id).elim 0 fun t => rWlen t.r
  let ends (status : Byte) (val : Nat) (s : State) : Outcome := .next (finishWeight 2 step val tag status evf s)
  match wipGo src.toNat id (if s.pace = 0 then 40 * n + 1 else s.pace) s with
  | (_, some (.source k)) => ends wSourceFault 0 (sourceFault k (undoWip id s))
  | (_, some (.own k)) => ends wSourceFault 0 (ownFault id k (undoWip id s))
  | (s1, some .held) => .next s1
  | (s1, none) => match s1.tensor id with
    | none => ends wTensorGone 0 s1
    | some t => match t.wip with
      | none => .next s1
      | some w =>
        if w.done < rWlen t.r then .next s1
        else
          let rows := (deltaBytes (rWlen t.r) (w.put + 1) w.xs + 255) / 256
          .next (commitEnds id w.step w.row rows w.n w.xs w.new ⟨s1.b.who, tag, step, rows, evf⟩ t s1)

/-- The accesses that a weight-port request makes before it goes on, as many as the act has (R162): whether all are made, and the
state in which it goes on from them. -/
def portParts (v : Via) (want : State → Option EStop) (s : State) : State × Bool :=
  let (s1, ds, all) := inParts v want s.pace (s.b.unit 3).trail s
  let keep (ds : List RowDone) (s : State) : State := s.modB fun b => b.setUnit 3 { b.unit 3 with trail := ds }
  if all then ({ keep [] s1 with trail := some ds }, true) else (keep ds s1, false)
/-- An outcome after which no operation stands between accesses. -/
def endParts (o : Outcome) : Outcome :=
  match o with
  | .next s => .next { s with trail := none }
  | r => r
/-- The checkpoint that stands before a commit's element (R132 step 3). -/
def Tensor.owes (t : Tensor) (w : Who) (tag : Word) : Bool := t.ckpt.any fun c => c.posts.any fun p => p.who == w && p.tag == tag

/-- A commit in parts begins: the freed deltas stand until it completes, for loads of their steps, and its own takes the place that
it has without them (log 55). -/
def commitBegins (tid : Word) (src step : DWord) (evf : Byte) (tag : Word) (s : State) : Outcome :=
  let id := tid.toNat
  let k := step.toNat
  let ends (status : Byte) (s : State) : Outcome := .next (finishWeight 2 step 0 tag status evf s)
  match commitStart id k (headStarted s.b) (s.modB beginItem) with
  | .ends status s1 => ends status s1
  | .stalls s1 => .next s1
  | .go s1 t1 n row => match rowsOpen s1.viaB false src.toNat (256 * rWlen t1.r) s1 with
    | some e => ends wSourceFault (sourceFault e s1)
    | none =>
      let w : Wip := { own := some (s.b.core, s.b.bur, tag), step := k, row := row, n := n }
      match s1.tensor id with
      | none => ends wTensorGone s1
      | some t => .next (s1.setTensor { t with wip := some w })
/-- A commit's turn at the head of its weight port (R118): a request accepted for an earlier tensor of its TID ends TENSOR_GONE
(R130); one waits for another's rewrite, or for its own checkpoint; else it begins, or goes on. -/
def commitTurn (tid : Word) (src step : DWord) (evf : Byte) (tag : Word) (s : State) : Outcome :=
  let id := tid.toNat
  let ends (status : Byte) (s : State) : Outcome := .next (finishWeight 2 step 0 tag status evf s)
  match s.tensor id with
  | none => execStockpotCommit tid src step evf tag s
  | some t =>
    if t.stale.contains (s.b.launch, s.b.core, s.b.bur, tag) then ends wTensorGone (s.modB beginItem)
    else if t.owes s.b.who tag then .next s
    else match t.wip with
      | some w => if w.own = some (s.b.core, s.b.bur, tag) then commitGo tid src step evf tag s else .next s
      | none =>
        if s.pace = 0 && commitApart src.toNat t s then execStockpotCommit tid src step evf tag s
        else if s.pace = 0 then commitBegins tid src step evf tag s
        else
          let r := portParts t.via (fun s => wanted (reread t s)) s
          if r.2 then endParts (commitBegins tid src step evf tag r.1) else .next r.1

/-- Whether a commit of the tensor has begun and not completed (R129, R130). -/
def State.committing (s : State) (tid : Nat) : Bool :=
  (s.all ++ s.saved).any fun b => match (b.unit 3).fifo with
    | p :: _ => p.started && (match p.item with
      | .commit t _ _ _ => t.toNat == tid
      | _ => false)
    | [] => false

/-! ## Publishing (R125, R126) -/

/-- A replica-list entry's package and TID, and whether it breaks R125. -/
def replicaEntry (bs : List Byte) : Nat × Nat × Bool :=
  let n := natOfBytes bs
  (fld n 32 10, fld n 0 14, n / 2 ^ 42 != 0 || fld n 14 18 != 0)

/-- How many of n replicas in other packages apply every delta: chosen at run time. -/
def farApplied : Nat → State → Nat × State
  | 0, s => (0, s)
  | n + 1, s =>
    let (x, s1) := s.draw
    let (k, s2) := farApplied n s1
    (k + x % 2, s2)

/-- STOCKPOT_PUBLISH (R126): the acting burner's head request; a publish of the tensor in progress is waited for, and a replica
list that cannot be read sends nothing (log 142). -/
def execStockpotPublish (tid : Word) (step : DWord) (evf : Byte) (tag : Word) (s : State) : Outcome :=
  let started := headStarted s.b
  let id := tid.toNat
  let k := step.toNat
  let ends (status : Byte) (s : State) : Outcome := .next (finishWeight 3 step 0 tag status evf (s.modB beginItem))
  if started then .next s
  else match s.tensor id with
    | none => ends wTensorGone s
    | some t =>
      if t.unreg then ends wTensorGone s
      else if !t.pubs.isEmpty then .next s
      else if k ≤ t.p then ends wDone s
      else if t.scur < k then ends wStepAhead s
      else if t.p < t.floor then ends wStepGone s
      else
        let s1 := (s.setTensor { t with pubs := [k] }).modB beginItem
        let (list, s1) := match rdVA s1 t.via s1.b (rRlist t.r) (8 * rNrep t.r) with
          | .ok (s2, bs) => (chunks 8 bs, s2)
          | .error k => ([], ownFault id k s1)
        let here := (list.map replicaEntry).filter fun e => e.1 == s.pkg
        let far := farApplied (list.length - here.length) s1
        let ds := t.ring.filter fun d => decide (t.p < d.k) && decide (d.k ≤ k)
        let acts := ds.flatMap fun d => here.map fun e => Instr.deltaApply (w32 e.2.1) (w32 (rRset t.r)) (w64 d.k) d.sum d.ws
        .next { far.2 with pending := far.2.pending ++ acts ++ [.publishAck tid step evf tag (rNrep t.r) far.1] }

/-- A publish's turn: one accepted for an earlier tensor of its TID ends TENSOR_GONE (R130); in parts, the replica list is read
first. -/
def publishTurn (tid : Word) (step : DWord) (evf : Byte) (tag : Word) (s : State) : Outcome :=
  match s.tensor tid.toNat with
  | none => execStockpotPublish tid step evf tag s
  | some t =>
    if t.stale.contains (s.b.launch, s.b.core, s.b.bur, tag) then
      .next (finishWeight 3 step 0 tag wTensorGone evf (s.modB beginItem))
    else if s.pace = 0 || headStarted s.b then execStockpotPublish tid step evf tag s
    else
      let r := portParts t.via (fun s => wanted (rdVA s t.via s.b (rRlist t.r) (8 * rNrep t.r))) s
      if r.2 then endParts (execStockpotPublish tid step evf tag r.1) else .next r.1

/-- The publish that comes next in the line of due work counts one replica more, when the delta is its last. -/
def countApplied (step : DWord) : List Instr → List Instr
  | [] => []
  | .publishAck tid st evf tag sent n :: as => (if st = step then .publishAck tid st evf tag sent (n + 1)
      else .publishAck tid st evf tag sent n) :: as
  | a :: as => a :: countApplied step as

/-- A replica's ring frees its oldest deltas that no checkpoint needs until the delta has a place (R126). -/
def makePlace (s : State) : Nat → Tensor → Option (Tensor × Nat)
  | 0, _ => none
  | fuel + 1, t => match t.place with
    | some r => some (t, r)
    | none => match least ((t.ring.filter fun d => !t.needs s d).map (·.k)) with
      | none => none
      | some k => makePlace s fuel { t with ring := t.ring.filter (·.k != k), frel := max t.frel k }

/-- DELTA_APPLY (R126): a replica applies a received delta, or ignores it. -/
def execDeltaApply (tid rset : Word) (step : DWord) (sum : Word) (ws : List Word) (s : State) : Outcome :=
  match s.tensor tid.toNat with
  | none => .next s
  | some t =>
    let k := step.toNat
    if t.unreg || !rRep t.r || w32 (rRset t.r) != rset || t.diverged then .next s
    else if t.scur + 1 != k then .next (s.setTensor { t with diverged := true })
    else
      let t1 := t.free s (max (max (k - rD t.r) t.frel) t.s0)
      let again : State := { s with pending := .deltaApply tid rset step sum ws :: s.pending }
      match makePlace s (t1.ring.length + 1) t1 with
      | none => .next again
      | some (t2, row) => match storedRows t 0 (rWlen t.r) s with
        | .error e => .next (ownFault t.tid e (s.setTensor { t with diverged := true }))
        | .ok (s1, old) =>
          let xs := (List.range old.length).map fun i => ws.getD i 0
          let new := xorWords old xs
          let img := deltaImage (rWlen t.r) xs
          let rows := (img.length + 255) / 256
          match reclaim t2 row rows (s1.setTensor t2) with
          | none => .next again
          | some s2 => match rewrite t row xs img new s2, s2.tensor t.tid with
            | .ok s3, some t3 =>
              let t4 := { t3 with scur := k, diverged := sumWords 0 new != sum, ring := t3.ring ++ [⟨k, row, rows, xs, sumWords 0 new⟩] }
              let s4 := settleTensor t.tid ((s3.setTensor t4).wakeAll t.tid)
              .next { s4 with pending := countApplied step s4.pending }
            | .error k, _ => .next (ownFault t.tid k (s.setTensor { t with diverged := true }))
            | _, none => .next s

/-- An apply in parts goes on (R126, R162): it ends, fails, or stands between two rows with the delta still due. -/
def deltaGo (tid rset : Word) (step : DWord) (sum : Word) (ws : List Word) (s : State) : State :=
  let id := tid.toNat
  let again (s : State) : State := { s with pending := .deltaApply tid rset step sum ws :: s.pending }
  match wipGo 0 id s.pace s with
  | (_, some (.source k)) | (_, some (.own k)) =>
    let s1 := undoWip id s
    ownFault id k { s1 with tensors := s1.tensors.map fun t => if t.tid == id then { t with diverged := true } else t }
  | (s1, some .held) => again s1
  | (s1, none) => match s1.tensor id with
    | none => s1
    | some t => match t.wip with
      | none => s1
      | some w =>
        if w.done < rWlen t.r then again s1
        else
          let rows := (deltaBytes (rWlen t.r) (w.put + 1) w.xs + 255) / 256
          let t1 := { t with scur := w.step, diverged := t.diverged || sumWords 0 w.new != w.sum, wip := none
                             ring := t.ring ++ [⟨w.step, w.row, rows, w.xs, sumWords 0 w.new⟩] }
          let s2 := settleTensor id ((s1.setTensor t1).wakeAll id)
          { s2 with pending := countApplied step s2.pending }
/-- A delta's turn at a replica: at once, or in parts. -/
def deltaTurn (tid rset : Word) (step : DWord) (sum : Word) (ws : List Word) (s : State) : Outcome :=
  let again : State := { s with pending := .deltaApply tid rset step sum ws :: s.pending }
  match s.tensor tid.toNat with
  | none => .next s
  | some t => match t.wip with
    | some w => .next (if w.own.isNone && w.step == step.toNat && s.pace != 0 then deltaGo tid rset step sum ws s
        else if w.own.isNone && w.step == step.toNat then deltaGo tid rset step sum ws { s with pace := 4 * rWlen t.r + 1 } else again)
    | none =>
      if s.pace = 0 || t.unreg || !rRep t.r || w32 (rRset t.r) != rset || t.diverged || t.scur + 1 != step.toNat then
        execDeltaApply tid rset step sum ws s
      else
        let t1 := t.free s (max (max (step.toNat - rD t.r) t.frel) t.s0)
        match makePlace s (t1.ring.length + 1) t1 with
        | none => .next again
        | some (t2, row) =>
          let xs := (List.range (64 * rWlen t.r)).map fun i => ws.getD i 0
          let w : Wip := { own := none, step := step.toNat, row := row, sum := sum, xs := xs }
          let keeps (d : Delta) : Bool := decide (t2.frel < d.k) || t.needs s d
          .next (deltaGo tid rset step sum ws (s.setTensor { t with frel := t2.frel, ring := t.ring.filter keeps, wip := some w }))

/-- PUBLISH_ACK (R126): P becomes the step; the publishing burner's request completes DONE or PARTIAL. -/
def execPublishAck (tid : Word) (step : DWord) (evf : Byte) (tag : Word) (sent applied : Nat) (s : State) : Outcome :=
  let s1 := match s.tensor tid.toNat with
    | none => s
    | some t => settleTensor t.tid (s.setTensor { t with p := max t.p step.toNat, pubs := [] })
  let mine (b : Burner) : Bool := match (b.unit 3).fifo with
    | p :: _ => p.started && p.item == .publish tid step evf && p.seq == tag
    | [] => false
  match s1.all.find? mine with
  | none => .next s1
  | some b =>
    let c := s1.b.core
    let r := s1.b.bur
    let s2 := finishWeight 3 step applied tag (if applied = sent then wDone else wPartial) evf (s1.focus b.core b.bur)
    .next (s2.focus c r)

/-! ## Freeing (R128, R130) -/

/-- DELTA_FREE (R128). -/
def execDeltaFree (tid : Word) (s : State) : Outcome := .next (settleTensor tid.toNat s)

/-- The acceptance of an unregistration ends the loads of the tensor that wait (R130). -/
def goneLoads (tid : Nat) (b : Burner) : Burner :=
  b.waitingLoads.foldl (fun b w =>
    if w.2.1 = tid then
      let l : WLd := { tid := tid, base := w.2.2, gone := true }
      if w.1 then b.setUnit 3 { b.unit 3 with load := some l } else b.setHead .s fun e => { e with load := some l }
    else b) b
/-- A load of the tensor that waits (R116). -/
def waitsOn (tid : Nat) (b : Burner) : Bool := b.waitingLoads.any fun w => w.2.1 == tid
/-- No operation of the tensor remains: no resolved load, commit, publish or checkpoint. -/
def tensorIdle (t : Tensor) (s : State) : Bool :=
  t.ckpt.isNone && t.pubs.isEmpty && t.wip.isNone && t.making.isEmpty && !s.committing t.tid && !s.all.any (waitsOn t.tid) && (s.loadsOf t.tid).isEmpty
/-- A memoised block forgotten: the stockpot's hold on its entry is dropped, which leaves it READY until it is evicted (R130, R144;
log 51). -/
def forget (s : State) (m : Memo) : State := if m.held then lessHolds 1 (m.entry s) s else s
/-- TENSOR_ENTRY_FREE (R130): the entry is freed and its memoised blocks are forgotten. -/
def execTensorEntryFree (tid : Word) (s : State) : Outcome :=
  match s.tensor tid.toNat with
  | none => .next s
  | some t =>
    if t.unreg && tensorIdle t s then
      let s1 := t.memos.foldl forget s
      .next { s1 with tensors := s1.tensors.filter (·.tid != t.tid) }
    else .next s

end Sys2Proof.Machine
end

