-- ==== Sys2Proof/Machine/Weights.lean ====
section
/-! DEFINITION. How the S queue performs the weight instructions, and the weight port's engine commands
(spec/05_versioned_weights.md R111-R123, R128-R130, R134, R137, R440; spec/14_matrix_and_engines.md R343). -/
namespace Sys2Proof.Machine

/-! ## Registering (R113, R114) -/

/-- A range of translated space. -/
def rangeOk (va n : Nat) : Bool := inTranslated va && (n == 0 || inTranslated (va + n - 1))
def disjoint (a n b m : Nat) : Bool := decide (a + n ≤ b) || decide (b + m ≤ a)

/-- Fields of a record that need no access (R114); the slot size is what the slots' places leave (log 140). -/
def recordOk (n : Nat) : Bool :=
  let slot := 256 * (1 + rWlen n + rOptRows n)
  let w := 256 * rWlen n
  fld n 24 232 == 0 && fld n 12 4 == 0 && fld n 5 3 == 0 && (rFmt n == 1 || rFmt n == 2 || rFmt n == 3 || rFmt n == 4 || rFmt n == 5) &&
    decide (1 ≤ rD n) && decide (rD n ≤ 32) && decide (1 ≤ rWlen n) && decide (rWlen n ≤ 2 ^ 22) && decide (rNrep n ≤ 1024) &&
    decide (rDmax n ≤ rRinglen n) &&
    rWbase n % 256 == 0 && rRing n % 256 == 0 && rMom n % 256 == 0 && rRlist n % 8 == 0 && rSlot n 0 % 256 == 0 &&
    rSlot n 1 % 256 == 0 && rangeOk (rWbase n) w && rangeOk (rRing n) (256 * rRinglen n) &&
    (!rExm n || rangeOk (rMom n) (w * elN (rFmt n))) && (rRep n || rNrep n == 0 || rangeOk (rRlist n) (8 * rNrep n)) &&
    (!rCkp n || (rangeOk (rSlot n 0) slot && rangeOk (rSlot n 1) slot &&
      (rOpt n == 0 || rangeOk (rOpt n) (256 * rOptlen n)) && disjoint (rSlot n 0) slot (rSlot n 1) slot &&
      ((List.range 2).all fun k => disjoint (rSlot n k) slot (rWbase n) w && disjoint (rSlot n k) slot (rRing n) (256 * rRinglen n))))

/-- The pages of a range, walked without a change of state: whether every one satisfies p of its physical address and entry. -/
def pagesAll (s : State) (r : Region) (va n : Nat) (p : Nat → DWord → Bool) : Bool :=
  (List.range ((va + n - 1) / 4096 + 1 - va / 4096)).all fun i =>
    match walk s ((va / 4096 + i) * 4096) 4 r.ptroot with
    | .error _ => false
    | .ok (_, e, bits) => p (ptePfn e + (va / 4096 + i) * 4096 % 2 ^ bits) e

/-- The die whose LPDDR 6 a physical address names. -/
def dieOf (pa : Nat) : Nat := pa / 0x3000000000
/-- The home die of the weights: every page in the LPDDR 6 of one die. -/
def homeDie (s : State) (r : Region) (n : Nat) : Option Nat :=
  (List.range 4).find? fun d => pagesAll s r (rWbase n) (256 * rWlen n) fun pa _ => decide (pa < 0xC000000000) && dieOf pa == d

/-- A replica list read entry by entry (R125): whether an entry that could be read breaks its rule, and the first address fault. -/
def readReplicas (va : Nat) : Nat → State → State × Bool × Option EStop
  | 0, s => (s, false, none)
  | n + 1, s => match rdVA s s.viaB s.b va 8 with
    | .error (.want w k bs, a) => (s, false, some (.want w k bs, a))
    | .error e =>
      let r := readReplicas (va + 8) n s
      (r.1, r.2.1, match r.2.2 with
        | some (.want w k bs, a) => some (.want w k bs, a)
        | _ => some e)
    | .ok (s1, bs) =>
      let r := readReplicas (va + 8) n s1
      (r.1, (replicaEntry bs).2.2 || r.2.1, r.2.2)
/-- A record read and checked, with the home die, and the address fault of the replica list, which ranks below the causes of
R137 that need no access (R114, R137). -/
def readRecord (va : Nat) (s : State) : Except EStop (State × Nat × Nat × Option EStop) :=
  if va % 128 != 0 || !rangeOk va 128 then .error (estop .weightSpec)
  else match rdVA s s.viaB s.b va 128 with
    | .error e => .error e
    | .ok (s1, bs) =>
      let n := natOfBytes bs
      let rg := s1.b.region
      if !recordOk n || (rExm n && !s.feat 2) then .error (estop .weightSpec)
      else match homeDie s1 rg n with
        | none => .error (estop .weightSpec)
        | some die =>
          if rExm n && !pagesAll s1 rg (rMom n) (256 * rWlen n * elN (rFmt n)) (fun _ e => pteR e) then .error (estop .weightSpec)
          else if rRep n then .ok (s1, n, die, none)
          else
            let (s2, bad, late) := readReplicas (rRlist n) (rNrep n) s1
            if bad && (wanted (.error (late.getD (.pause, 0)) : Except EStop Unit)).isNone then .error (estop .weightSpec)
            else .ok (s2, n, die, late)

/-- The access that a record's reading stops for, its replica list's among them. -/
def recordWant (va : Nat) (s : State) : Option EStop :=
  match readRecord va s with
  | .error k => wanted (.error k : Except EStop Unit)
  | .ok (_, _, _, some k) => wanted (.error k : Except EStop Unit)
  | .ok (_, _, _, none) => none
/-- Free indices of a die's tensor table. -/
def freeTids (s : State) (die : Nat) : List Nat :=
  (List.range 4096).filter fun i => (s.tensor (die * 4096 + i)).isNone

/-- The requests to a TID that a burner's weight port holds, begun or not: launch, core, burner and tag. -/
def Burner.requestsOf (tid : Nat) (b : Burner) : List (Nat × Nat × Nat × Word) :=
  (b.unit 3).fifo.filterMap fun p => match p.item with
    | .commit t _ _ _ | .publish t _ _ => if t.toNat = tid then some (b.launch, b.core, b.bur, p.seq) else none
    | .cmd _ => none
/-- A tensor registered under a free index, chosen at run time. Requests accepted for an earlier one are not its own (R130). -/
def register (va n die s0 seq : Nat) (s : State) : State × Nat :=
  let free := freeTids s die
  let (x, s1) := s.draw
  let tid := die * 4096 + free.getD (x % free.length) 0
  let t : Tensor := { tid := tid, region := s.b.region, core := s.b.core, rec_ := va, rcd := BitVec.ofNat 1024 n, scur := s0, s0 := s0
                      frel := s0, p := s0, eta := w32 (rEta n), ckTime := s.cycle, ckSeq := seq, ckCommits := 0
                      stale := (s.all ++ s.saved).flatMap (Burner.requestsOf tid) }
  ({ s1 with tensors := s1.tensors ++ [t] }, tid)

/-- The weight port takes requests in issue order: one that needs its effect now waits for the earlier ones (R120). Its
acceptance is a release (R169). -/
def portIdle (f : State → Res) (s : State) : Res := if (s.b.unit 3).fifo.isEmpty then f s.drain else .wait s

/-- A weight instruction retires: sd, and the next tag (R121). -/
def wRetire (d : BitVec 6) (x : Word) (s : State) : Res := .done (s.modB fun b => { b.setS d x with wtag := b.wtag + 1 })

/-- The S queue's head entry has made these accesses. -/
def headTrail (ds : List RowDone) (s : State) : State := s.modB fun b => b.setHead .s fun h => { h with trail := ds }
/-- How an entry ends whose instruction has made its accesses: it stands between no two. -/
def Res.whole (r : Res) : Res :=
  let out (s : State) : State := headTrail [] { s with trail := none }
  match r with
  | .done s => .done (out s)
  | .wait s => .wait (out s)
  | .pause u p s => .pause u p (out s)
  | .trap c a u p ri inn s => .trap c a u p ri inn (out s)
/-- An instruction whose accesses others may come between (R162): in one act, or as many as each act has; `want` tells which it
makes next. -/
def entryParts (v : Via) (want : State → Option EStop) (run : State → Res) (e : Entry) (s : State) : Res :=
  if s.pace = 0 && e.trail.isEmpty then run s
  else
    let (s1, ds, all) := inParts v want (if s.pace = 0 then 2 ^ 32 else s.pace) e.trail s
    if all then (run { s1 with trail := some ds }).whole else .pause 0 [] (headTrail ds s1)

/-- WREG, unit 0 (R114). -/
def issueWreg (f : EF) (e : Entry) (s : State) : Res :=
  let run (s : State) : Res := match readRecord e.va.toNat s with
    | .error k => accessFail k 0 s
    | .ok (s1, n, die, late) =>
      if (freeTids s1 die).isEmpty then .fault .wtableFull s1
      else match late with
      | some k => accessFail k 0 s1
      | none =>
        let r := register e.va.toNat n die (rS0 n) 0 s1
        wRetire f.d (w32 r.2) r.1
  portIdle (fun s => entryParts s.viaB (recordWant e.va.toNat) run e s) s

/-- A slot's weights and optimiser state copied back (R134), of no more rows than both records name (log 139). -/
def restoreSlot (n k : Nat) (c : SlotRec) (s : State) : Except EStop State :=
  let v := s.viaB
  let a := rSlot n k
  let put (va : Nat) (bs : List Byte) (s : State) : Except EStop State := match wrVA s v s.b va bs with
    | (s1, none) => .ok s1
    | (_, some (e, x, _)) => .error (e, x)
  match rdVA s v s.b (a + 256) (256 * min c.wlen (rWlen n)) with
  | .error e => .error e
  | .ok (s1, ws) => match put (rWbase n) ws s1 with
    | .error e => .error e
    | .ok s2 =>
      let len := if rOpt n = 0 then 0 else rOptlen n
      match rdVA s2 v s2.b (a + 256 + 256 * c.wlen) (if c.narrow then 128 * len else 256 * len) with
      | .error e => .error e
      | .ok (s3, os) => put (rOpt n) (if c.narrow then widenBytes os else os) s3

/-- The access that a restore stops for: its record's, its slots', then those of its copy. -/
def restoreWant (va : Nat) (s : State) : Option EStop :=
  match recordWant va s, readRecord va s with
  | some k, _ => some k
  | none, .ok (s1, n, die, none) =>
    if !rCkp n || (freeTids s1 die).isEmpty then none
    else match slotsWant s1.viaB n s1, newestSlot s1.viaB n s1 with
      | some k, _ => some k
      | none, some (k, c) => wanted (restoreSlot n k c s1)
      | none, none => none
  | none, _ => none
/-- WREG, unit 2 (R134). R134 reads a record whose CKP = 1. DESIGN CHOICE (log 154): one whose CKP = 0 raises WEIGHT_SPEC. -/
def issueWregRestore (f : EF) (e : Entry) (s : State) : Res :=
  let run (s : State) : Res := match readRecord e.va.toNat s with
    | .error k => accessFail k 0 s
    | .ok (s1, n, die, late) =>
      if !rCkp n then .fault .weightSpec s1
      else if (freeTids s1 die).isEmpty then .fault .wtableFull s1
      else match newestSlot s1.viaB n s1 with
        | none => .fault .ckptNone s1
        | some (k, c) => match late, restoreSlot n k c s1 with
          | some x, _ => accessFail x 0 s1
          | _, .error x => accessFail x 0 s1
          | none, .ok s2 =>
            let r := register e.va.toNat n die c.step c.seq s2
            wRetire f.d (w32 r.2) r.1
  portIdle (fun s => entryParts s.viaB (restoreWant e.va.toNat) run e s) s

/-- The tensor of the burner's fault domain that stands under a TID (R111). -/
def occupied (tid : Word) (s : State) : Option Tensor :=
  match s.tensor tid.toNat with
  | none => none
  | some t => if t.region.fd != s.b.region.fd then none else some t
/-- The tensor a burner may name by a TID: one whose unregistration is accepted counts as a free entry (R111, R130). -/
def tensorOf (tid : Word) (s : State) : Option Tensor := (occupied tid s).filter fun t => !t.unreg

/-- The S queue's head entry marked as waiting. -/
def markWait (s : State) : State :=
  s.modB fun b => match b.qs with
    | [] => b
    | e :: es => { b with qs := { e with waited := true } :: es }

/-- An unregistration is accepted (R130): the tensor counts as unregistered, and every load of it that waits ends. -/
def acceptUnreg (t : Tensor) (s : State) : State :=
  let s1 := (s.setTensor { t with unreg := true }).modWhere (fun _ => true) (goneLoads t.tid)
  { s1 with saved := s1.saved.map (goneLoads t.tid) }
/-- WREG, unit 1 (R130): the tensor counts as unregistered at once; the instruction waits until its entry is freed. -/
def issueWregUnreg (f : EF) (e : Entry) (s : State) : Res :=
  let tid := lo32 e.va
  if e.waited then
    match s.tensor tid.toNat with
    | some t => if t.unreg then .wait s else wRetire f.d 0 s
    | none => wRetire f.d 0 s
  else portIdle (fun s => match tensorOf tid s with
    | none => .fault .weightSpec s
    | some t => .wait (markWait ((acceptUnreg t s).due (.tensorEntryFree tid)))) s

/-! ## Loading (R115-R117, R122, R123) -/

/-- How a load resolves. -/
inductive Resolved where
  | stored
  | recon
  | extrap (k : Nat)
  | wait
  | bad (c : Cause)
deriving DecidableEq, Repr

/-- R115 for step s in mode m (0 PAST, 1 WAIT, 2 EXTRAP). -/
def Tensor.resolve (t : Tensor) (m s : Nat) : Resolved :=
  if s = t.scur then .stored
  else if s < t.scur then (if t.floor ≤ s then .recon else .bad .stepGone)
  else if m = 1 && s ≤ t.scur + 8 then .wait
  else if m = 2 && s ≤ t.scur + 4 then (if rExm t.r then .extrap (s - t.scur) else .bad .weightSpec)
  else .bad .stepAhead

def Resolved.code : Resolved → Nat
  | .recon => 1
  | .extrap _ => 2
  | _ => 0

/-- A load of n rows from row f by a TID: the tensor and its resolution, or a cause in the order of R137. `waited` says that the
request waits already (R116). -/
def resolveLoad (tid : Word) (mode step row n : Nat) (waited : Bool) (s : State) : Except Cause (Tensor × Resolved) :=
  match tensorOf tid s with
  | none => .error (if waited then .stepGone else .weightSpec)
  | some t =>
    let r := t.resolve (if waited then (if step ≤ t.scur then 0 else 1) else mode) step
    if rWlen t.r < row + n || r = .bad .weightSpec then .error .weightSpec
    else if t.diverged then .error .weightDiverged
    else match r with
      | .bad c => .error c
      | _ => .ok (t, r)

/-- The load that a resolution makes. -/
def Tensor.load (t : Tensor) (r : Resolved) (step : Nat) (waited : Bool) : WLd :=
  let code := r.code + if waited then 4 else 0
  match r with
  | .extrap k => { tid := t.tid, base := t.scur, k := k, eta := t.eta, code := code }
  | _ => { tid := t.tid, base := step, code := code }
/-- The rows of a resolved load. -/
def loadRows (l : WLd) (row n : Nat) (s : State) : Except EStop (State × List Word) :=
  match s.tensor l.tid with
  | none => .error (estop .stepGone)
  | some t => if l.k = 0 then stepRows l.tid l.base row n s else extrapRows t l row n s

/-- Own rows of the acting burner among mesh rows from an address on (R388). -/
def ownMesh (base i n : Nat) (s : State) : List Nat :=
  (List.range n).filterMap fun j => match meshResolve s.b.core ((base + 256 * (i + j)) % 2 ^ 32) with
    | .ok (core, row) => if core = s.b.core then some row else none
    | .error _ => none
/-- Rows written to mesh addresses from row i on, each checked as it is written, `k` of them in this act: how many stand, and
the cause and address where it stopped, no cause where it stands between two. -/
def landRows (fmt base : Nat) : List (List Word) → Nat → Nat → State → State × Nat × Option (Option (Cause × Nat))
  | [], _, i, s => (s, i, none)
  | ws :: t, k, i, s =>
    let a := (base + 256 * i) % 2 ^ 32
    if s.enough k then (s, i, some none)
    else match meshCheck s s.b true a with
      | .error c => (s, i, some (some (c, a)))
      | .ok (core, row) =>
        let bf := bfFmt (s.bfmtAt core row)
        if bf != 0 && bf != fmt then (s, i, some (some (.formatMismatch, 0)))
        else landRows fmt base t (k + 1) (i + 1) (s.setLanes core row 0 ws)

/-- The S queue's head load is so resolved, or not. -/
def headLoad (l : Option WLd) (s : State) : State := s.modB fun b => b.setHead .s fun h => { h with load := l }

/-- The S queue's head load ends, and with it its use of deltas (R128). -/
def endLoad (l : WLd) (s : State) : State := settleTensor l.tid (headLoad none s)
/-- The next access of a load in parts: the words read, none where a block of its rows is being memoised, which it waits for (R131),
or what stops it. -/
def readNext (l : WLd) (row j : Nat) (s : State) : State × Except EStop (Option (List Word)) :=
  let memo := l.k = 0 && j = 0 && !l.plain && (s.tensor l.tid).any fun t => decide (l.base < t.scur)
  let (s1, waits) := if memo then memoTurn l.tid l.base row s else (s, false)
  if waits then (s1, .ok none)
  else match s1.tensor l.tid with
    | none => (s1, .error (estop .stepGone))
    | some t => match loadAccess t l row j s1 with
      | .error k => (s1, .error k)
      | .ok (s2, ws) => (s2, .ok (some ws))
/-- A load's rows that cannot be read end its resolution: for an uncorrected error its tensor is DIVERGED (R418), and the load is
resolved again; else its fault. -/
def loadFails (l : WLd) (k : EStop) (upc : Nat) (s : State) : Res :=
  match k with
  | (.poisoned x, a) => .wait (endLoad l (ownFault l.tid (.poisoned x, a) s))
  | k => accessFail k upc ((endLoad l s).tellMgmt k)
/-- The accesses of a WLOAD in parts, at most `fuel` of them in this act, from row i on: a row is read, then written (R122, R123,
R162). It may stand with its last row written. -/
def landGo (f : EF) (e : Entry) : Nat → Nat → WLd → State → Res
  | 0, i, l, s =>
    let base := (lo32 e.vc).toNat
    .pause i [] (headLoad (some { l with rows := ownMesh base i (f.imm8.toNat + 1 - i) s }) s)
  | fuel + 1, i, l, s =>
    let base := (lo32 e.vc).toNat
    let per := (s.tensor l.tid).elim 1 fun t => rowsPer t l
    if f.imm8.toNat < i then landGo f e 0 i l s
    else if l.got.length < 64 * per then match readNext l ((lo32 e.va).toNat + i) (l.got.length / 64) s with
      | (s1, .error k) => loadFails l k i s1
      | (s1, .ok none) => landGo f e 0 i l s1
      | (s1, .ok (some ws)) => landGo f e fuel i { l with got := l.got ++ ws } s1
    else
      let fmt := (s.tensor l.tid).elim 0 fun t => rFmt t.r
      let ws := (s.tensor l.tid).elim [] fun t => loadRow t l l.got
      match landRows fmt base [ws] 0 i s with
      | (s1, _, some (some (c, a))) => .trap c (w64 a) i [] 0 0 (endLoad l s1)
      | (s1, j, _) => landGo f e fuel j { l with got := [] } s1
/-- A resolved WLOAD's rows from its μPC on, in one act, or as many as the act has accesses (R122, R123, R162). A fault ends the
resolution: the load is resolved again. -/
def landLoad (f : EF) (e : Entry) (l : WLd) (s : State) : Res :=
  let n := f.imm8.toNat + 1 - e.upc
  if n = 0 then wRetire f.d (w32 l.code) (endLoad l s)
  else if s.pace != 0 || !l.got.isEmpty then landGo f e (if s.pace = 0 then 20 * (n + 1) else s.pace) e.upc l s
  else match loadRows l ((lo32 e.va).toNat + e.upc) n s with
    | .error k => loadFails l k e.upc s
    | .ok (s1, ws) =>
      match landRows ((s1.tensor l.tid).elim 0 fun t => rFmt t.r) (lo32 e.vc).toNat (chunks 64 ws) 0 e.upc s1 with
      | (s2, i, some none) => landGo f e 0 i l s2
      | (s2, i, some (some (c, a))) => .trap c (w64 a) i [] 0 0 (endLoad l s2)
      | (s2, _, none) => wRetire f.d (w32 l.code) (endLoad l s2)

/-- WLOAD in a mode (R122): resolved once, and again after a cut (R123, R374; log 133); in WAIT mode a resolution is an event
(R394 kind 3). -/
def issueWload (mode : Nat) (f : EF) (e : Entry) (s : State) : Res :=
  portIdle (fun s =>
    let go (l : WLd) (s : State) : Res :=
      if mode != 1 || l.logged then landLoad f e l (headLoad (some l) s)
      else match logEvent 3 e.iaddr e.rseq (BitVec.ofNat 128 l.code) [] s with
        | .bad c a => .trap c a e.upc [] 0 0 (endLoad l s)
        | .ok s1 x _ =>
          let l1 := { l with code := (x.extractLsb' 0 32).toNat, logged := true }
          landLoad f e l1 (headLoad (some l1) s1)
    let fresh (s : State) : Res := match resolveLoad (hi32 e.va) mode e.vb.toNat (lo32 e.va).toNat (f.imm8.toNat + 1) e.waited s with
      | .error c => .trap c 0 e.upc [] 0 0 s
      | .ok (_, .wait) => .wait (markWait s)
      | .ok (t, r) => go (t.load r e.vb.toNat e.waited) s
    match e.load with
    | some l => if l.gone then .trap .stepGone 0 e.upc [] 0 0 (headLoad none s) else if l.cut then fresh (endLoad l s) else go l s
    | none => fresh s) s
/-- WLOAD, unit 0. -/
def issueWloadPast (f : EF) (e : Entry) (s : State) : Res := issueWload 0 f e s
/-- WLOAD, unit 1. -/
def issueWloadWait (f : EF) (e : Entry) (s : State) : Res := issueWload 1 f e s
/-- WLOAD, unit 2. -/
def issueWloadExtrap (f : EF) (e : Entry) (s : State) : Res := issueWload 2 f e s

/-! ## Requests (R121) -/

/-- A request accepted by the weight port as a release: its tag goes to sd. -/
def portAccept (d : BitVec 6) (f : Tensor → State → Except (Cause × Nat) (Word → EItem)) (tid : Word) (s : State) : Res :=
  let g := s.b.unit 3
  if g.limit ≤ g.outstanding || 8 ≤ (g.fifo.filter fun p => !p.started).length then .wait s
  else match occupied tid s with
    | none => .fault .weightSpec s
    | some t =>
      if rRep t.r then .fault .weightSpec s
      else match f t s with
        | .error (c, a) => .faultAt c a s
        | .ok item =>
          let s1 := s.drain
          wRetire d s1.b.wtag (s1.modB fun b =>
            b.setUnit 3 { b.unit 3 with fifo := (b.unit 3).fifo ++ [{ item := item b.wtag, seq := b.wtag }] })

/-- WCOMMIT (R118, R121). -/
def issueWcommit (f : EF) (e : Entry) (s : State) : Res :=
  let a := e.vb.toNat
  portAccept f.d (fun t _ =>
    let last := a + 256 * rWlen t.r - 1
    if vaBad a || vaBad last || (a < 0x20000000 && 0x20000000 ≤ last) then .error (.vaRange, a)
    else .ok fun _ => .commit (lo32 e.va) e.vb e.vc f.imm8) (lo32 e.va) s
/-- WPUB (R121, R126). -/
def issueWpub (f : EF) (e : Entry) (s : State) : Res :=
  portAccept f.d (fun _ _ => .ok fun _ => .publish (lo32 e.va) e.vb f.imm8) (lo32 e.va) s

/-- WRELEASE (R128). -/
def issueWrelease (f : EF) (e : Entry) (s : State) : Res :=
  portIdle (fun s => match tensorOf (lo32 e.va) s with
    | none => .fault .weightSpec s
    | some t =>
      let t1 := { t with frel := max t.frel (min e.vb.toNat t.scur) }
      let freed := t.ring.length - (t1.free s t1.floor).ring.length
      wRetire f.d (w32 freed) (settleTensor t.tid (s.setTensor t1))) s

/-- The value a selector of WQUERY names (R129); a replica's apply is no commit. -/
def queryWord (t : Tensor) (sel : Nat) (s : State) : Word :=
  let half (x : Nat) : Word := w32 (if sel % 2 = 0 then x else x / 2 ^ 32)
  let flags := (if t.diverged then 1 else 0) + (if t.wip.any (·.own.isSome) || s.committing t.tid then 2 else 0) + (if t.ckpt.isSome then 4 else 0) +
    (if rRep t.r then 8 else 0)
  let newest := if rCkp t.r then newestSlot t.via t.r s else none
  match sel with
  | 0 | 1 => half t.scur
  | 2 | 3 => half t.floor
  | 4 | 5 => half t.p
  | 6 => w32 (sumNat (t.ring.map (·.rows)))
  | 7 => w32 flags
  | _ => match newest with
    | none => 0xFFFFFFFF
    | some (_, c) => half c.step
/-- WQUERY (R129). -/
def issueWquery (f : EF) (e : Entry) (s : State) : Res :=
  portIdle (fun s => match tensorOf (lo32 e.va) s with
    | none => .fault .weightSpec s
    | some t =>
      let want (s : State) : Option EStop := if 8 ≤ f.imm8.toNat && rCkp t.r then slotsWant t.via t.r s else none
      entryParts t.via want (fun s => wRetire f.d (queryWord t f.imm8.toNat s) s) e s) s

/-! ## WLOADC and WDELTA (R343) -/

/-- The weight port's head command is so resolved, or not. -/
def unitLoad (l : Option WLd) (s : State) : State := s.modB fun b => b.setUnit 3 { b.unit 3 with load := l }

/-- The accesses of a WLOADC to its rows, at most `fuel` in this act (R162): what it has read, and what stops it. -/
def readGo (c : Cmd) : Nat → WLd → State → State × WLd × Option EStop
  | 0, l, s => (s, l, none)
  | fuel + 1, l, s =>
    let per := (s.tensor l.tid).elim 1 fun t => rowsPer t l
    let j := l.got.length / 64
    if cDim c 0 * per ≤ j then (s, l, none)
    else match readNext l (cf c 192 32 + j / per) (j % per) s with
      | (s1, .error k) => (s1, l, some k)
      | (s1, .ok none) => (s1, l, none)
      | (s1, .ok (some ws)) => readGo c fuel { l with got := l.got ++ ws } s1
/-- A load's rows that cannot be read end its resolution (R418). -/
def loadStops (l : WLd) (k : EStop) (s : State) : Outcome :=
  match k with
  | (.poisoned x, a) => .next (settleTensor l.tid (unitLoad none (ownFault l.tid (.poisoned x, a) s)))
  | k => stopCmd 3 k { accOf 3 s with s := s.tellMgmt k }
/-- The rows of a WLOADC converted to DFMT and written; its element carries the resolution code (R122). -/
def deliverRows (c : Cmd) (l : WLd) (ws : List Word) (s : State) : Outcome :=
  let sf := (s.tensor l.tid).elim 0 fun t => rFmt t.r
  let lay := (sideLays sf (cDfmt c) false (dstOutside c)).2
  let els := (ws.flatMap (subs sf)).toArray
  let words := cmdWords c els.size
  let get (e : Nat) (x : EAcc) : Except EStop (EAcc × Nat × Fx) :=
    let y := copyEl sf (cDfmt c) (cmdMode c words e) (els.getD e 0)
    .ok (x, y.1, y.2)
  match (emitTo .va 3 lay els.size (fun e => (0, e)) (cDst c) get).run (accOf 3 s) with
  | (x, e, some k) => stopRun 3 e (progOf lay.bits e) k x
  | (x, _, none) =>
    match endCmd 3 c (sumWords (x.s.b.unit 3).sum (twWords x.tw)) false (BitVec.ofNat 3 l.code) x.fs x.s with
    | .next s2 => .next (settleTensor l.tid s2)
    | o => o
/-- A resolved WLOADC: its rows are read, in one act or as many as an act has accesses (R162), and then delivered. -/
def loadTo (c : Cmd) (l : WLd) (s : State) : Outcome :=
  if s.pace = 0 && l.got.isEmpty then match loadRows l (cf c 192 32) (cDim c 0) s with
    | .error k => loadStops l k s
    | .ok (s1, ws) => deliverRows c l ws s1
  else match readGo c (if s.pace = 0 then 20 * (cDim c 0 + 1) else s.pace) l s with
    | (s1, l1, some k) => loadStops l1 k s1
    | (s1, l1, none) =>
      if l1.got.length != l.got.length then .next (unitLoad (some l1) s1)
      else match s1.tensor l.tid with
        | none => stopCmd 3 (estop .stepGone) (accOf 3 s1)
        | some t =>
          if l1.got.length < 64 * rowsPer t l * cDim c 0 then .next s1
          else deliverRows c l1 ((chunks (64 * rowsPer t l) l1.got).flatMap (loadRow t l)) s1

/-- WLOADC: rows of STEP resolved under WMD once, converted to DFMT. -/
def execWloadc (c : Cmd) (s : State) : Outcome :=
  let s := s.modB (beginCmd 3 c)
  let go (l : WLd) (s : State) : Outcome :=
    if cWmd c != 1 || l.logged then loadTo c l (unitLoad (some l) s)
    else match logEvent 3 0xFFFFFFFF s.b.rpseq (BitVec.ofNat 128 l.code) [] s with
      | .bad k a => stopCmd 3 (.cause k, a.toNat) (accOf 3 s)
      | .ok s1 x _ =>
        let l1 := { l with code := (x.extractLsb' 0 3).toNat, logged := true }
        loadTo c l1 (unitLoad (some l1) s1)
  match (s.b.unit 3).load with
  | some l =>
    if l.gone then stopCmd 3 (estop .stepGone) (accOf 3 (s.modB fun b => b.setUnit 3 { b.unit 3 with load := none, waitFrom := false }))
    else go l s
  | none =>
    let waited := (s.b.unit 3).waitFrom
    match resolveLoad (w32 (cf c 224 32)) (cWmd c) (cStep c) (cf c 192 32) (cDim c 0) waited s with
    | .error k => stopCmd 3 (estop k) (accOf 3 s)
    | .ok (_, .wait) => .next (s.modB fun b => b.setUnit 3 { b.unit 3 with waitFrom := true })
    | .ok (t, r) => go (t.load r (cStep c) waited) s

/-- WDELTA: the compressed delta of STEP copied raw; once begun, the delta is kept for it. -/
def execWdelta (c : Cmd) (s : State) : Outcome :=
  if s.noRoute c then peerLost 3 c s else
  let s := s.modB (beginCmd 3 c)
  let held := (s.b.unit 3).load.isSome
  match (if held then s.tensor (cf c 224 32) else tensorOf (w32 (cf c 224 32)) s) with
  | none => stopCmd 3 (estop .weightSpec) (accOf 3 s)
  | some t => match t.ring.find? (·.k == cStep c) with
    | none => stopCmd 3 (estop .stepGone) (accOf 3 s)
    | some d =>
      let s := unitLoad (some { tid := t.tid, base := d.k - 1 }) s
      let img := deltaImage (rWlen t.r) d.ws
      let ws := (wordsOfBytes img (img.length / 4)).toArray
      let dst := cmdSpace c s
      let p := emitTo dst 3 (.flat 32) ws.size (fun e => (0, e)) (cDst c) fun e x => .ok (x, (ws.getD e 0).toNat, {})
      match finishRun 3 c dst 32 1 ws.size (p.run (accOf 3 s)) with
      | .next s1 => .next (settleTensor t.tid s1)
      | o => o

end Sys2Proof.Machine
end

