-- ==== Sys2Proof/Machine/Collectives.lean ====
section
/-! DEFINITION. The collective engine: contributions, pairings, roots and their delivery (spec/14_matrix_and_engines.md R343,
R346-R348; spec/13_vector_shape_masks_recipes.md R306, R307; spec/17_debug_trace_replay.md R394, R397;
spec/20_program_deterministic_dot.md R425). -/
namespace Sys2Proof.Machine

/-! ## Contributions -/

/-- Element i of the vectors of n elements at stride SSTR1 that a member's SRC holds. -/
def srcEl (c : Cmd) (i : Nat) (x : EAcc) : Except EStop (EAcc × Nat) :=
  let lay := srcLay c
  let n := cDim c 0
  match getPieces .va ((cSrc c : Int) + (i / n : Nat) * cSstr c 1) (lay.pieces (i % n)) 0 x with
  | .error k => .error k
  | .ok (x1, v) => .ok (x1, lay.code v)
/-- How many vectors a member's command contributes: none for a BCAST of another root. -/
def srcVecs (c : Cmd) (rank : Nat) : Nat :=
  if cmdOpc c = 8 && cAux c != rank then 0 else if cmdOpc c = 7 && cTm c && cLv c then cNleaf c else 1

/-! ## Roots -/

/-- A node: its elements, the flags raised below it, and its non-finite flag (R347). -/
structure CNode where
  els : List Nat
  fs : FSum := {}
  nf : Bool := false
deriving DecidableEq, Repr

def finiteEl (c x : Nat) : Bool :=
  match elVal c x with
  | .num _ _ _ => true
  | _ => false
def leafNode (c : Cmd) (v : List Nat) : CNode := { els := v, nf := !v.all (finiteEl (cSfmt c)) }

/-- Rounding of destination element j at every node (R346). -/
def nodeMode (c : Cmd) (words : List Word) (j : Nat) : RMode := cmdMode c words j
/-- One combination, with one rounding an element; a free value where R307 gives the op no value in the format (log 16). -/
def combineEls (c : Cmd) (words : List Word) (xs ys : List Nat) : List (Nat × FSum) :=
  (List.zip xs ys).zipIdx.map fun p =>
    if redTagOk (cRop c) (cSfmt c) then
      let r := redNode (cRop c) (cSfmt c) (nodeMode c words p.2) (w32 p.1.1) (w32 p.1.2)
      (sub (cSfmt c) r.1 0, r.2)
    else (Config.redOther (cRop c) (cSfmt c) p.1.1 p.1.2 % 2 ^ elW (cSfmt c), {})
def joinNodes (c : Cmd) (words : List Word) (x y : CNode) : CNode :=
  let rs := combineEls c words x.els y.els
  { els := rs.map (·.1), fs := rs.foldl (fun f r => f.join r.2) (x.fs.join y.fs)
    nf := x.nf || y.nf || rs.any fun r => r.2.fl &&& fOF != 0 }

/-- The node over leaves [i·2^l, (i + 1)·2^l) from spans (first leaf, leaves, node) that do not overlap; absent nodes pass the
other child on (R306). -/
def treeNode (c : Cmd) (words : List Word) (spans : List (Nat × Nat × CNode)) : Nat → Nat → Option CNode
  | 0, i => (spans.find? fun p => p.1 == i && p.2.1 == 1).map (·.2.2)
  | l + 1, i =>
    let lo := i * 2 ^ (l + 1)
    let within := spans.filter fun p => decide (lo ≤ p.1) && decide (p.1 + p.2.1 ≤ lo + 2 ^ (l + 1))
    match within.find? fun p => p.1 == lo && p.2.1 == 2 ^ (l + 1) with
    | some p => some p.2.2
    | none =>
      if within.isEmpty then none
      else match treeNode c words within l (2 * i), treeNode c words within l (2 * i + 1) with
        | some x, some y => some (joinNodes c words x y)
        | some x, none => some x
        | none, y => y

/-- Leaf spans of a contribution: of ALLRED in tree mode, or whole members. -/
def spansOf (k : Contrib) : List (Nat × Nat × CNode) :=
  if cmdOpc k.cmd = 7 then
    if cLv k.cmd then k.data.zipIdx.map fun p => (cLeaf0 k.cmd + p.2, 1, leafNode k.cmd p.1)
    else k.data.map fun v => (cLeaf0 k.cmd, cNleaf k.cmd, leafNode k.cmd v)
  else k.data.map fun v => (k.rank, 1, leafNode k.cmd v)

def spansOverlap : List (Nat × Nat) → Bool
  | [] => false
  | p :: ps => ps.any (fun q => p.2 != 0 && q.2 != 0 && decide (p.1 < q.1 + q.2) && decide (q.1 < p.1 + p.2)) || spansOverlap ps

/-- The fields paired commands must agree in (R346). -/
def pairKey (c : Cmd) : List Nat :=
  [cmdOpc c, cDim c 0, cSfmt c, cDfmt c, cRop c, if cTm c then 1 else 0, cRnd c, cSat c, if cRnd c = 5 then (cSeed c).toNat else 0,
    if cmdOpc c = 8 then cAux c else 0]

/-- COLL_MISMATCH (R346). -/
def mismatched (cs : List Contrib) : Bool :=
  match cs with
  | [] => false
  | k :: ks =>
    let c := k.cmd
    ks.any (fun x => pairKey x.cmd != pairKey c) || (cmdOpc c == 8 && !cs.any fun x => x.rank == cAux c) ||
      (cmdOpc c == 9 && cDim c 0 % cs.length != 0) ||
      (cmdOpc c == 7 && cTm c && spansOverlap (cs.map fun x => (cLeaf0 x.cmd, cNleaf x.cmd)))

def byRank (cs : List Contrib) : List Contrib := cs.foldr (fun k ks => (ks.takeWhile fun x => decide (x.rank < k.rank)) ++
  k :: ks.dropWhile fun x => decide (x.rank < k.rank)) []

/-- The root converted to DFMT (R74). -/
def deliverRoot (c : Cmd) (words : List Word) (x : CNode) : CNode :=
  let rs := x.els.zipIdx.map fun p => copyEl (cSfmt c) (cDfmt c) (nodeMode c words p.2) p.1
  { x with els := rs.map (·.1), fs := rs.foldl (fun f r => f.add r.2) x.fs }

/-- The number under which a burner of another package is a member (log 117). -/
def farCore (pkg c : Nat) : Nat := 2 ^ 64 * (pkg + 1) + c
def farPkg (core : Nat) : Nat := core / 2 ^ 64 - 1
/-- The die a member stands on, or stood on; 4 and more for a whole package beside this one. -/
def memberDie (core : Nat) : Nat := if 2 ^ 64 ≤ core then 3 + core / 2 ^ 64 else core % 1024 / 160
def Contrib.die (k : Contrib) : Nat := memberDie k.core

def DieSum.node (d : DieSum) : CNode := { els := d.els, fs := ⟨d.fl, d.satn⟩, nf := d.nf }
def DieSum.ofNode (die : Nat) (x : CNode) (ranks : List Nat) : DieSum := ⟨die, x.els, x.fs.fl, x.fs.sat, x.nf, ranks⟩
/-- One partial that reaches its die, added to the die's running sum (R346, R425). -/
def Pairing.atDie (p : Pairing) (k : Contrib) : Pairing :=
  let c := k.cmd
  let leaf := leafNode c (k.data.headD [])
  match p.dies.find? (·.die == k.die) with
  | none => { p with dies := p.dies ++ [.ofNode k.die leaf [k.rank]] }
  | some d =>
    let d1 := DieSum.ofNode d.die (joinNodes c (cmdWords c (cDim c 0)) d.node leaf) (d.ranks ++ [k.rank])
    { p with dies := p.dies.map fun x => if x.die == d.die then d1 else x }
/-- A die's sum that reaches the package, added to the running sum there. -/
def Pairing.atPackage (p : Pairing) (c : Cmd) (d : DieSum) : Pairing :=
  let x : CNode := if p.order.isEmpty then d.node
    else joinNodes c (cmdWords c (cDim c 0)) { els := p.acc, fs := ⟨p.fl, p.satn⟩, nf := p.nf } d.node
  { p with acc := x.els, fl := x.fs.fl, satn := x.fs.sat, nf := x.nf, order := p.order ++ d.ranks
           dies := p.dies.filter (·.die != d.die) }
/-- The partials combined in a logged order: those of one die that follow each other are that die's sum (R397). -/
def Pairing.inOrder (p : Pairing) (ranks : List Nat) : Pairing :=
  let ks := ranks.filterMap fun r => p.cs.find? (·.rank == r)
  let q := ks.foldl (fun (q : Pairing) k =>
    let q1 := match q.dies with
      | d :: _ => if d.die = k.die then q else q.atPackage k.cmd d
      | [] => q
    q1.atDie k) { p with acc := [], order := [], fl := 0, satn := 0, nf := false, dies := [] }
  match q.dies, ks with
  | d :: _, k :: _ => q.atPackage k.cmd d
  | _, _ => q

/-- A root without a leaf. -/
def noLeaves (c : Cmd) : CNode := { els := (List.range (cDim c 0)).map fun j => Config.emptyRoot j % 2 ^ elW (cSfmt c) }

/-- The root of a pairing all of whose contributions are there. -/
def Pairing.form (p : Pairing) : Pairing :=
  match p.cs with
  | [] => { p with formed := true }
  | k :: _ =>
    let c := k.cmd
    let cs := byRank p.cs
    let ranks := cs.map (·.rank)
    let words := cmdWords c (cDim c 0)
    let put (x : CNode) (order : List Nat) : Pairing :=
      let y := deliverRoot c words x
      { p with acc := y.els, fl := y.fs.fl, satn := y.fs.sat, nf := y.nf, order := order, formed := true }
    if mismatched p.cs then { p with formed := true, status := stMismatch }
    else match cmdOpc c with
      | 8 => { p with acc := (cs.flatMap (·.data)).headD [], order := ranks, formed := true }
      | 10 => { p with acc := (cs.flatMap (·.data)).flatten, order := ranks, formed := true }
      | 7 =>
        if cTm c then put ((treeNode c words (cs.flatMap spansOf) 33 0).getD (noLeaves c)) ranks
        else put { els := p.acc, fs := ⟨p.fl, p.satn⟩, nf := p.nf } p.order
      | _ => put ((treeNode c words (cs.flatMap spansOf) 33 0).getD (noLeaves c)) ranks

/-- The members of the count a pairing belongs to: those the BARM kept, or had before a later one (R348). -/
def Group.counted (g : Group) (era : Nat) : List (Nat × Nat) :=
  if era = g.era then (g.mems.filter fun m => !m.cx).map fun m => (m.core, m.bur)
  else ((g.past.find? (·.era == era)).map (·.mems)).getD []
/-- Every member has contributed: no root is formed without one (R348). -/
def Group.complete (g : Group) (p : Pairing) : Bool :=
  !p.formed && (g.counted p.era).all fun m => p.cs.any fun k => k.core == m.1 && k.bur == m.2
/-- Whether a die's sum has the partial of every member on that die. -/
def Group.dieDone (g : Group) (p : Pairing) (d : DieSum) : Bool :=
  (g.counted p.era).all fun m => memberDie m.1 != d.die || p.cs.any fun k => k.core == m.1 && k.bur == m.2 && d.ranks.contains k.rank
/-- A contributor is evicted: the peers stall until it returns (R380). -/
def Pairing.stalled (p : Pairing) (s : State) : Bool :=
  p.cs.any fun k => s.saved.any fun b => b.is k.core k.bur && b.status != .unbound
def arrivalMode (p : Pairing) : Bool :=
  match p.cs with
  | [] => false
  | k :: _ => arrivalCmd k.cmd
/-- A contributor that replays: the order comes from its log (R397). -/
def replayer (p : Pairing) (s : State) : Option Burner :=
  p.cs.findSome? fun k => match s.find k.core k.bur with
    | some b => if b.rpMode = 2 then some b else none
    | none => none
/-- The root may be formed: in arrival mode once every partial is combined, or from a log. -/
def Group.ready (g : Group) (p : Pairing) (s : State) : Bool :=
  g.complete p && !p.stalled s && (!arrivalMode p || mismatched p.cs || p.order.length == p.cs.length || (replayer p s).isSome)

/-- The ranks of the next log entry of kind 2 for a command's sequence number, from an offset on; `fuel` bounds the entries. -/
def loggedOrder (b : Burner) (seq : Word) (n : Nat) (s : State) : Nat → Nat → List Nat
  | 0, _ => []
  | fuel + 1, off =>
    match rdVA s (Via.dev b.region b.die) b (b.rplog.toNat + off) 32 with
    | .error _ => []
    | .ok (_, e) =>
      if (e.getD 19 0) = 2 && natOfBytes (e.take 16) == seq.toNat then
        match rdVA s (Via.dev b.region b.die) b (b.rplog.toNat + off + 32) (2 * n) with
        | .error _ => []
        | .ok (_, bs) => (chunks 2 bs).map natOfBytes
      else if 256 * b.rplen.toNat ≤ off + 32 then []
      else loggedOrder b seq n s fuel (off + 32 + 256 * natOfBytes ((e.drop 16).take 3))
/-- The combining order that a replaying contributor's log gives (R397). -/
def replayOrder (p : Pairing) (b : Burner) (s : State) : List Nat :=
  match p.cs.find? fun k => b.is k.core k.bur with
  | none => []
  | some k => loggedOrder b k.seq p.cs.length s (8 * b.rplen.toNat + 1) (b.rpbytes.length + 4 * b.rppos.toNat)

/-- A pairing replaced; contributions of commands that are gone are dropped once the root is formed. -/
def setPairing (g : Nat) (p q : Pairing) (s : State) : State :=
  let x := s.group g
  let here (k : Contrib) : Bool := (s.all ++ s.saved).any fun b => b.is k.core k.bur && (b.unit 2).fifo.any (·.seq == k.seq)
  let q1 := if q.formed then { q with cs := q.cs.filter here } else q
  s.setGroup { x with pairs := (x.pairs.map fun y => if y == p then q1 else y).filter fun y => !(y.formed && y.cs.isEmpty) }

/-- COLLECTIVE_ROOT (R346): one engine forms the root of the first pairing that is ready. -/
def execCollectiveRoot (g : Nat) (s : State) : Outcome :=
  let x := s.group g
  match x.pairs.find? fun p => x.ready p s with
  | none => .next s
  | some p =>
    let q := match replayer p s with
      | some b => if arrivalMode p && !mismatched p.cs then p.inOrder (replayOrder p b s)
        else p
      | none => p
    .next (setPairing g p q.form s)

/-- Whether every partial of this package has reached it: sums of other packages come after (R346). -/
def Group.hereDone (g : Group) (p : Pairing) : Bool :=
  (g.counted p.era).all fun m => decide (4 ≤ memberDie m.1) || p.cs.any fun k => k.core == m.1 && k.bur == m.2 && p.order.contains k.rank
/-- Whether an arrival of a rank can come next: its partial at its die, or its die's sum at the package. -/
def Pairing.arrives (g : Group) (p : Pairing) (rank : Nat) (s : State) : Bool :=
  !(p.formed || !arrivalMode p || (replayer p s).isSome || mismatched p.cs || p.stalled s) &&
    p.cs.any (fun k => k.rank == rank && !p.order.contains rank) &&
    (!(p.dies.any fun d => d.ranks.contains rank) || p.dies.any fun d => d.ranks.contains rank && g.dieDone p d && (decide (d.die < 4) || g.hereDone p))
/-- ARRIVAL_COMBINE (R346, R425): an arriving partial is added to its die's running sum, or a die's sum to the package's. -/
def execArrivalCombine (g rank : Nat) (s : State) : Outcome :=
  let x := s.group g
  match x.pairs.find? fun p => Pairing.arrives x p rank s with
  | none => .next s
  | some p => match p.dies.find? (·.ranks.contains rank), p.cs.find? (·.rank == rank) with
    | some d, some k => .next (setPairing g p (p.atPackage k.cmd d) s)
    | none, some k => .next (setPairing g p (p.atDie k) s)
    | _, none => .next s

/-! ## A member's command -/

/-- The command ends with a status other than DONE and writes nothing; an arrival-mode ALLRED's posting is an event (R394). -/
def endUnwritten (c : Cmd) (status : Byte) (s : State) : Outcome :=
  let k : Comp := { csum := (s.b.unit 2).sum, status := status }
  let ends (s : State) : Outcome := .next (finishAt s.b.core s.b.bur 2 (k.element 2 (cmdOpc c) (s.b.engSeq 2)) (cmdSigM c) s)
  if arrivalCmd c then
    match logArrival [] s with
    | .bad x a => stopCmd 2 (.cause x, a.toNat) (accOf 2 s)
    | .ok s1 _ _ => ends s1
  else ends s

/-- The place in its group's count of the acting burner's head collective: the arming and the number. -/
def headCount (b : Burner) : Nat × Nat :=
  match (b.unit 2).fifo with
  | p :: _ => (p.era, p.cn)
  | [] => (0, 0)
/-- From which pairing of a count on commands are lost (R348). -/
def Group.lostFrom (g : Group) (era : Nat) : Option Nat :=
  if era = g.era then g.lost else (g.past.find? (·.era == era)).map (·.lost)

/-- A contribution to the n-th pairing of a count. -/
def Group.contributed (g : Group) (era n : Nat) (k : Contrib) : Group :=
  let mine (p : Pairing) : Bool := p.era == era && p.n == n && !p.formed
  { g with pairs := if g.pairs.any mine then g.pairs.map fun p => if mine p then { p with cs := p.cs ++ [k] } else p
                    else g.pairs ++ [{ era := era, n := n, cs := [k] }] }

/-- The member's engine contributes, or completes PEER_LOST: a member is lost, or no route leads to one (R348, R408). -/
def contribute (c : Cmd) (s : State) : Outcome :=
  let g := s.group (cGrp c)
  let (era, n) := headCount s.b
  match g.member s.b.core s.b.bur with
  | none => endUnwritten c stPeerLost s
  | some m =>
    let away := (g.counted era).any fun m => decide (2 ^ 64 ≤ m.1) && (s.routeTo (farPkg m.1)).isNone
    if (g.lostFrom era).any (fun k => decide (k ≤ n)) || (m.cx && era = g.era) || away || g.cut.contains (era, n) then endUnwritten c stPeerLost s
    else
      let r := readEls (srcEl c) (List.range (srcVecs c m.rank * cDim c 0)) (accOf 2 s)
      match r.2.2 with
      | some k => stopCmd 2 k r.1
      | none =>
        let s1 := r.1.s
        let k : Contrib := ⟨m.rank, s1.b.core, s1.b.bur, s1.b.engSeq 2, c, chunks (cDim c 0) r.2.1⟩
        .next (s1.setGroup ((s1.group (cGrp c)).contributed era n k))

/-- Destination elements of a member of rank r: the root element each takes, and where it stands. -/
def landings (c : Cmd) (p : Pairing) (r : Nat) : Nat × (Nat → Nat) × (Nat → Int × Nat) :=
  let n := cDim c 0
  match cmdOpc c with
  | 9 => let k := n / p.order.length; (min k (n - r * k), (r * k + ·), fun e => (0, e))
  | 10 =>
    let bytes := n * (layOf (cSfmt c) (srcOutside c)).bits / 8
    (n * p.order.length, id, fun e => ((p.order.getD (e / n) 0 * bytes : Nat), e % n))
  | _ => (n, id, fun e => (0, e))

/-- The member's own write of what it received, with zeros to the end of a packed FP6 group (R67), its log entry in arrival mode
(R394 kind 2), and its element. -/
def land (c : Cmd) (p : Pairing) (r : Nat) (s : State) : Outcome :=
  let lay := dstLay c
  let (n, from', at') := landings c p r
  let els := p.acc.toArray
  let copies := cmdOpc c = 8 || cmdOpc c = 10
  let words := if copies then cmdWords c n else []
  let get (e : Nat) (x : EAcc) : Except EStop (EAcc × Nat × Fx) :=
    if n ≤ e then .ok (x, 0, {}) else
    let v := els.getD (from' e) 0
    let y := if copies then copyEl (cSfmt c) (cDfmt c) (cmdMode c words e) v else (v, {})
    .ok (x, y.1, y.2)
  let m := if lay = .fp6 then (n + 3) / 4 * 4 else n
  match (emitTo .va 2 lay m at' (cDst c) get).run (accOf 2 s) with
  | (x, e, some k) => stopRun 2 e (progOf lay.bits e) k x
  | (x, _, none) =>
    let sum := sumWords (x.s.b.unit 2).sum (twWords x.tw)
    let fs := x.fs.join ⟨p.fl, p.satn⟩
    let seq := s.b.engSeq 2
    let done (s : State) : Outcome :=
      let q := { p with cs := p.cs.filter fun k => !k.mine s.b seq }
      endCmd 2 c sum p.nf 0 fs (setPairing (cGrp c) p q s)
    if arrivalCmd c then
      match logArrival p.order x.s with
      | .bad k a => stopRun 2 m (progOf lay.bits m) (.cause k, a.toNat) x
      | .ok s1 _ _ => done s1
    else done x.s

/-- A collective command of the acting burner: contribute, wait for the root, write. -/
def collRun (c : Cmd) (s : State) : Outcome :=
  let s := s.modB (beginCmd 2 c)
  match myPairing c s with
  | none => contribute c s
  | some p =>
    if !p.formed || p.stalled s then .next s
    else match p.cs.find? (·.mine s.b (s.b.engSeq 2)) with
      | none => .next s
      | some k =>
        if p.status != 0 then
          let q := { p with cs := p.cs.filter fun x => !x.mine s.b k.seq }
          endUnwritten c p.status (setPairing (cGrp c) p q s)
        else land c p k.rank s

/-- ALLRED (R346). -/
def execAllred (c : Cmd) (s : State) : Outcome := collRun c s
/-- BCAST (R343). -/
def execBcast (c : Cmd) (s : State) : Outcome := collRun c s
/-- REDSCAT (R343). -/
def execRedscat (c : Cmd) (s : State) : Outcome := collRun c s
/-- ALLGATH (R343). -/
def execAllgath (c : Cmd) (s : State) : Outcome := collRun c s

end Sys2Proof.Machine
end

