-- ==== Sys2Proof/Machine/CtlRegs.lean ====
section
/-! DEFINITION. Control registers: CTLR, CTLW and the writes with a behaviour of their own (spec/03_number_formats.md R69-R82;
spec/09_core_and_queues.md R203-R210, R216, R222; spec/11_control_core_instructions.md R267, R276;
spec/16_traps_preemption_checkpoint.md R368, R369, R377; spec/17_debug_trace_replay.md R383-R396; R399). -/
namespace Sys2Proof.Machine

/-! ## Reading -/

/-- TOKST (R206). -/
def Burner.tokst (b : Burner) : Word :=
  0#2 ++ BitVec.ofNat 5 b.tok[5] ++ BitVec.ofNat 5 b.tok[4] ++ BitVec.ofNat 5 b.tok[3] ++ BitVec.ofNat 5 b.tok[2] ++
    BitVec.ofNat 5 b.tok[1] ++ BitVec.ofNat 5 b.tok[0]
/-- TSTAT (R369). -/
def Burner.tstat (b : Burner) : Word :=
  0#24 ++ BitVec.ofBool b.pw ++ BitVec.ofBool b.yrq ++ BitVec.ofBool b.t1v ++ BitVec.ofBool b.sks ++ BitVec.ofBool b.skx ++
    BitVec.ofBool b.skl ++ BitVec.ofBool (b.status == .frozen) ++ BitVec.ofBool b.te
/-- SELF (R216). -/
def State.selfWord (s : State) : Word :=
  BitVec.ofNat 10 s.pkg ++ BitVec.ofNat 10 s.b.core ++ BitVec.ofNat 1 s.b.bur ++ 0#11
/-- LSTk as read: SP reads 0 while ACT = 0 (R267). -/
def lstRead (w : Word) : Word := if w.getLsbD 31 then w else w &&& 0x07FFFFFF

def vget {n : Nat} (v : Vector Word n) (k : Nat) : Word := if h : k < n then v[k] else 0
def vset {n : Nat} (v : Vector Word n) (k : Nat) (w : Word) : Vector Word n := if h : k < n then v.set k w h else v

/-- The value CTLR of register c returns (INBPOP apart); write-only registers read 0. -/
def State.ctlRead (s : State) (c : Nat) : Word :=
  let b := s.b
  match c with
  | 0 => b.tvec
  | 1 => b.tstat
  | 2 => b.tcause
  | 3 => lo32 b.taddr
  | 4 => hi32 b.taddr
  | 5 => b.tepc
  | 6 => b.trec0.extractLsb' (32 * (b.trix.extractLsb' 0 5).toNat) 32
  | 7 => b.trec1.extractLsb' (32 * (b.trix.extractLsb' 0 5).toNat) 32
  | 8 => b.bctl
  | 9 => b.flags
  | 10 => b.satcnt
  | 11 => b.trix
  | 12 => lo32 b.sr
  | 13 => hi32 b.sr
  | 32 => b.dctl
  | 33 => b.diter
  | 34 => b.trlost
  | 35 => b.dpc
  | 36 => b.rowq
  | 37 => w32 b.runq
  | 38 => w32 b.runUsed
  | 39 => b.qres
  | 40 => b.tokst
  | 41 => b.inbq
  | 43 => w32 b.inbPopped
  | 44 => s.selfWord
  | 46 => b.trctl
  | 100 => b.rpctl
  | 101 => lo32 b.rplog
  | 102 => hi32 b.rplog
  | 103 => b.rplen
  | 104 => b.rppos
  | 105 => s.accept.extractLsb' 0 32
  | 106 => s.accept.extractLsb' 32 32
  | 107 => s.accept.extractLsb' 64 32
  | 108 => s.accept.extractLsb' 96 32
  | _ =>
    if 16 ≤ c && c ≤ 31 then (if b.owns (c - 16) then vget b.bfmt (c - 16) else 0)
    else if 48 ≤ c && c ≤ 63 then lstRead (vget b.lst (c - 48))
    else if 64 ≤ c && c ≤ 79 then vget b.ltr (c - 64)
    else if 80 ≤ c && c ≤ 91 then vget b.wf (c - 80)
    else if 92 ≤ c && c ≤ 95 then vget b.psel (c - 92)
    else if 96 ≤ c && c ≤ 99 then vget b.pcnt (c - 96)
    else 0

/-- Registers whose access waits for the queues (R72, R206, R222). -/
def serialReg (c : Nat) : Bool := (8 ≤ c && c ≤ 10) || c == 12 || c == 13 || (16 ≤ c && c ≤ 31)
/-- Held until the queues are empty, and for BFMT until the engine commands have ended (R72). -/
def ctlHeld (c : Nat) (rd : Bool) (b : Burner) : Bool :=
  ((serialReg c || (rd && (c == 38 || c == 40))) && !b.queuesEmpty) || (16 ≤ c && c ≤ 31 && !b.enginesDone)

/-- CTLR (R276). -/
def execCtlr (d : BitVec 6) (c : BitVec 7) (s : State) : Outcome :=
  ccDo [d] (fun s =>
    if ctlHeld c.toNat true s.b then .next s else .next (retire 1 (s.modB fun b => b.setS d (s.ctlRead c.toNat)))) s

/-- INBPOP (R210): pops the head token, waiting and lending while the FIFO is empty. -/
def execInbpop (d : BitVec 6) (s : State) : Outcome :=
  ccDo [d] (fun s => match s.b.inbox with
    | [] => .next (lendWait .inbpop s)
    | t :: ts => .next (retire 1 (s.modB fun b => { b.setS d t with inbox := ts, inbPopped := b.inbPopped + 1 }))) s

/-! ## Writing -/

/-- BFMT's rules (R70). -/
def bfmtOk (w : Word) : Bool :=
  let f := bfFmt w
  let bpi := isBPI f
  w.extractLsb' 12 20 == 0 && !w.getLsbD 5 && fmtAssigned f && bfSm w != 3 &&
    (bfSm w == 0 || (4 ≤ f && f ≤ 8)) && (bfSm w != 2 || bfZ w) && (!bpi || (!bfZ w && bfSm w == 0)) &&
    (if bpi then bfPl w == 0 || (2 ≤ bfPl w && bfPl w ≤ f - 0x10) else bfPl w == 0)

/-- PSEL's rules (R393). -/
def pselOk (w : Word) : Bool :=
  let cls := (w.extractLsb' 8 4).toNat
  let idx := (w.extractLsb' 0 6).toNat
  let q := (w.extractLsb' 12 2).toNat
  w.extractLsb' 14 17 == 0 && w.extractLsb' 6 2 == 0 && cls ≤ 9 && (cls != 2 || idx ≤ 6) &&
    !((cls == 2 || cls == 4) && q == 0 && idx != 0)

/-- What a CTLW does: a cause before any effect, or the burner it leaves. -/
def ctlWrite (c : Nat) (w : Word) (b : Burner) : Except Cause Burner :=
  let bad : Except Cause Burner := .error .illegalOperand
  match c with
  | 0 => .ok { b with tvec := w }
  | 1 => if b.te then .ok { b with skl := w.getLsbD 2, skx := w.getLsbD 3, sks := w.getLsbD 4 } else bad
  | 5 => if b.te then .ok { b with tepc := w } else bad
  | 9 => if w.extractLsb' 7 25 == 0 then .ok { b with flags := w } else bad
  | 10 => .ok { b with satcnt := w }
  | 11 => if w.extractLsb' 5 27 == 0 then .ok { b with trix := w } else bad
  | 32 => if w.extractLsb' 12 20 == 0 && w.extractLsb' 4 2 == 0 then .ok { b with dctl := w } else bad
  | 33 => if w.extractLsb' 27 5 == 0 then .ok { b with diter := w } else bad
  | 34 => .ok { b with trlost := w }
  | 35 => if w.extractLsb' 0 2 == 0 then .ok { b with dpc := w } else bad
  | 46 => if w.extractLsb' 5 27 == 0 then .ok { b with trctl := w } else bad
  | 101 => .ok { b with rplog := hi32 b.rplog ++ w }
  | 102 => .ok { b with rplog := w ++ lo32 b.rplog }
  | 103 => .ok { b with rplen := w }
  | _ =>
    if 16 ≤ c && c ≤ 31 then
      if !bfmtOk w then bad
      else if !b.owns (c - 16) then .error .rowQuota
      else .ok { b with bfmt := vset b.bfmt (c - 16) w }
    else if 48 ≤ c && c ≤ 63 then .ok { b with lst := vset b.lst (c - 48) w }
    else if 80 ≤ c && c ≤ 91 then
      let k := (c - 80) % 3
      if k = 0 && (w.extractLsb' 4 4 != 0 || w.getLsbD 2) then bad
      else if k = 1 && w.extractLsb' 25 7 != 0 then bad
      else .ok { b with wf := vset b.wf (c - 80) w }
    else if 92 ≤ c && c ≤ 95 then (if pselOk w then .ok { b with psel := vset b.psel (c - 92) w } else bad)
    else if 96 ≤ c && c ≤ 99 then .ok { b with pcnt := vset b.pcnt (c - 96) w }
    else bad

/-- A CTLW of operand a with effect f of its value; ROW_QUOTA's TADDR is the presented address, of which there is none. -/
def ctlwOp (a : Opnd) (hold : Burner → Bool) (f : Word → State → Except Cause State) (s : State) : Outcome :=
  ccDo (opRegs a) (fun s =>
    if hold s.b then .next s
    else match f (s.b.op32 a) s with
      | .error c => ccFault c 0 s
      | .ok s1 => .next (retire (1 + litN a) s1)) s

/-- CTLW of a register without a behaviour of its own (R276). -/
def execCtlw (c : BitVec 7) (a : Opnd) (s : State) : Outcome :=
  ctlwOp a (ctlHeld c.toNat false) (fun w s => match ctlWrite c.toNat w s.b with
    | .error e => .error e
    | .ok b => .ok { s with b := b }) s

/-- INBREL (R210): releases the n oldest popped rows. -/
def execInbrel (a : Opnd) (s : State) : Outcome :=
  ctlwOp a (fun _ => false) (fun w s =>
    if w.toNat = 0 || w.toNat > s.b.inbPopped then .error .illegalOperand
    else .ok (s.modB fun b => { b with inbPopped := b.inbPopped - w.toNat })) s

/-- A CTLW of BCTL (R79, R81, R400): with SLD = 1 the generator is loaded from the SEED being written. -/
def execSld (a : Opnd) (s : State) : Outcome :=
  ctlwOp a (ctlHeld 8 false) (fun w s =>
    let drm := (w.extractLsb' 0 3).toNat
    if w.extractLsb' 4 11 != 0 || (w.getLsbD 3 && !s.feat 6) then .error .illegalOperand
    else if drm ≥ 6 || (drm = 5 && !s.feat 1) then .error .illegalRounding
    else .ok (s.modB fun b =>
      { b with bctl := w &&& 0xFFFF7FFF, sr := if w.getLsbD 15 then srSeed (w.extractLsb' 16 16) else b.sr })) s

/-- A CTLW of SRSL or SRSH (R81). -/
def execSrsWrite (hi : BitVec 1) (a : Opnd) (s : State) : Outcome :=
  ctlwOp a (ctlHeld 12 false) (fun w s =>
    .ok (s.modB fun b => { b with sr := if hi = 1 then w ++ lo32 b.sr else hi32 b.sr ++ w })) s

/-- A CTLW of LTRk (R267): writes the counts and arms the loop with ITER 0. -/
def execLtrWrite (k : BitVec 4) (a : Opnd) (s : State) : Outcome :=
  ctlwOp a (fun _ => false) (fun w s =>
    if ltrOk w then .ok (s.modB fun b => b.setLoop k w (lstWord w 0)) else .error .illegalOperand) s

/-- A CTLW of TRMARK (R390): a MARK record when its enable is set. -/
def execTrmark (a : Opnd) (s : State) : Outcome :=
  ctlwOp a (fun _ => false) (fun w s => .ok (s.traceEv 4 5 s.b.pc w 0 0)) s

/-- RPCTL's rules (R396, R400). -/
def modeOk (w : Word) (s : State) : Bool :=
  let m := (w.extractLsb' 1 2).toNat
  w.extractLsb' 3 29 == 0 && !w.getLsbD 0 && m != 3 && (m == 0 || s.feat 5)
/-- A write of RPCTL. -/
def setMode (w : Word) (b : Burner) : Burner := { b with rpctl := w, rppos := 0, rpseq := 0, rpbytes := [] }

/-- A CTLW of RPCTL (R396, R400): sets MODE, POS to 0 and restarts the digest and the count of decoded instructions. -/
def execMode (a : Opnd) (s : State) : Outcome :=
  ccDo (opRegs a) (fun s =>
    let w := s.b.op32 a
    if !modeOk w s then ccFault .illegalOperand 0 s else .next ((retire (1 + litN a) s).modB (setMode w))) s

/-! ## Page waits (R377) -/

/-- One element of the page-fault report ring: VA<56:12> in bits 127:64, the ASN in bits 15:0, every other bit 0 (R5, R398). -/
def reportElem (page asn : Nat) : List Byte := bytesOfNat 16 (page % 2 ^ 45 * 2 ^ 64 + asn % 2 ^ 16)

/-- Entries a table of 4,096 holds and that were not reported are posted to the ring of PFR while it has room (R377, R398). The
ring's addresses translate through the tables HRCB names, as the device aperture's do. -/
def reportFaults (via : Option Via) (s : State) : State :=
  match via with
  | none => if s.pfrN = 0 || s.faultTab.all (·.reported) then s else s.rcbFound s.hrcb
  | some v =>
    s.faultTab.foldl (fun s e =>
      if e.reported || s.pfrN = 0 then s
      else if ((s.faultTab.takeWhile fun x => x != e).filter (·.die == e.die)).length ≥ 4096 then s
      else match rdVA s v s.b s.pfrBase 16 with
        | .error _ => s
        | .ok (s1, hdr) =>
          let tail := natOfBytes (hdr.take 8)
          let head := natOfBytes (hdr.drop 8)
          if tail - head ≥ s.pfrN then s
          else match wrVA s1 v s1.b (s.pfrBase + 64 + 16 * (tail % s.pfrN)) (reportElem e.page e.asn) with
            | (_, some _) => s
            | (s2, none) => match wrVA s2 v s2.b s.pfrBase (bytesOfNat 8 (tail + 1)) with
              | (_, some _) => s
              | (s3, none) =>
                { s3 with faultTab := s3.faultTab.map fun x => if x == e then { x with reported := true } else x }) s

/-- Whether an entry not reported has room in the ring by now (R377). -/
def State.mayReport (s : State) : Bool :=
  s.pfrN != 0 && (s.faultTab.any fun e => !e.reported) && s.hostVia.isSome && (reportFaults s.hostVia s).faultTab != s.faultTab
/-- The burner's wait entered in the fault table, merged with a wait for the same ASN and page. -/
def registerWait (asn page : Nat) (s : State) : State :=
  let w := (s.b.core, s.b.bur)
  if s.faultTab.any fun e => e.asn == asn && e.page == page then
    { s with faultTab := s.faultTab.map fun e =>
        if e.asn == asn && e.page == page then { e with waiters := e.waiters ++ [w] } else e }
  else { s with faultTab := s.faultTab ++ [{ die := s.b.die, asn := asn, page := page, waiters := [w] }] }

/-- A CTLW of PFWAIT: registers the page wait, sets PW, leaves the handler and stays stopped at its cut; a faulted engine command
stays so until the page is served. -/
def execPfwait (a : Opnd) (s : State) : Outcome :=
  ccDo (opRegs a) (fun s =>
    let w := s.b.op32 a
    let code := (s.b.tcause.extractLsb' 0 8).toNat
    if !s.b.te || w != 1 || !pageCode code then ccFault .illegalOperand 0 s
    else
      let page := s.b.taddr.toNat / 4096
      let s1 := registerWait s.b.region.asn page (leaveHandler (retire (1 + litN a) s))
      let s2 := (s1.modB fun b => { b with pw := true, status := .pageWait, eng := s.b.eng }).passFront 3
      .next (reportFaults s2.hostVia s2)) s

end Sys2Proof.Machine
end

