-- ==== Sys2Proof/Machine/Perform.lean ====
section
/-! DEFINITION. A queue's head entry: when it issues, what performing it does, and how it retires or faults
(spec/09_core_and_queues.md R201, R202, R205, R207, R211, R215; spec/07_consistency_model.md R170;
spec/13_vector_shape_masks_recipes.md R314; spec/16_traps_preemption_checkpoint.md R374; R387). -/
namespace Sys2Proof.Machine

/-- What performing an entry's instruction does. -/
def perform (i : Instr) (e : Entry) (s : State) : Res :=
  match i with
  | .vadd f => issueVec (.vadd f) e s
  | .vsub f => issueVec (.vsub f) e s
  | .vmul f => issueVec (.vmul f) e s
  | .vmulh f => issueVec (.vmulh f) e s
  | .vmad f => issueVec (.vmad f) e s
  | .vmin f => issueVec (.vmin f) e s
  | .vmax f => issueVec (.vmax f) e s
  | .vabs f => issueVec (.vabs f) e s
  | .vneg f => issueVec (.vneg f) e s
  | .vand f => issueVec (.vand f) e s
  | .vor f => issueVec (.vor f) e s
  | .vxor f => issueVec (.vxor f) e s
  | .vnot f => issueVec (.vnot f) e s
  | .vshl f => issueVec (.vshl f) e s
  | .vshr f => issueVec (.vshr f) e s
  | .vsra f => issueVec (.vsra f) e s
  | .vpopc f => issueVec (.vpopc f) e s
  | .vclz f => issueVec (.vclz f) e s
  | .vfadd f => issueVec (.vfadd f) e s
  | .vfsub f => issueVec (.vfsub f) e s
  | .vfmul f => issueVec (.vfmul f) e s
  | .vfma f => issueVec (.vfma f) e s
  | .vfmin f => issueVec (.vfmin f) e s
  | .vfmax f => issueVec (.vfmax f) e s
  | .vdiv f => issueVec (.vdiv f) e s
  | .vsqrt f => issueVec (.vsqrt f) e s
  | .vrcp f => issueVec (.vrcp f) e s
  | .vrsq f => issueVec (.vrsq f) e s
  | .vexp2 f => issueVec (.vexp2 f) e s
  | .vlog2 f => issueVec (.vlog2 f) e s
  | .vtanh f => issueVec (.vtanh f) e s
  | .vsin f => issueVec (.vsin f) e s
  | .vcos f => issueVec (.vcos f) e s
  | .vcmpEq f => issueVec (.vcmpEq f) e s
  | .vcmpNe f => issueVec (.vcmpNe f) e s
  | .vcmpLt f => issueVec (.vcmpLt f) e s
  | .vcmpLe f => issueVec (.vcmpLe f) e s
  | .vcmpGt f => issueVec (.vcmpGt f) e s
  | .vcmpGe f => issueVec (.vcmpGe f) e s
  | .vcmpLtu f => issueVec (.vcmpLtu f) e s
  | .vcmpGeu f => issueVec (.vcmpGeu f) e s
  | .vsel f => issueVec (.vsel f) e s
  | .vcvt f => issueVec (.vcvt f) e s
  | .vscale f => issueVec (.vscale f) e s
  | .vqnt f => issueVec (.vqnt f) e s
  | .vdqnt f => issueVec (.vdqnt f) e s
  | .vrotr f => issueVec (.vrotr f) e s
  | .vrotc f => issueVec (.vrotc f) e s
  | .vbcr f => issueVec (.vbcr f) e s
  | .vbcc f => issueVec (.vbcc f) e s
  | .vredr f => issueVec (.vredr f) e s
  | .vredc f => issueVec (.vredc f) e s
  | .vreda f => issueVec (.vreda f) e s
  | .viota f => issueVec (.viota f) e s
  | .vspl f => issueVec (.vspl f) e s
  | .vext f => issueVec (.vext f) e s
  | .vins f => issueVec (.vins f) e s
  | .vcoal f => issueVec (.vcoal f) e s
  | .vlen f => issueVec (.vlen f) e s
  | .vocc f => issueVec (.vocc f) e s
  | .mpush f => issueMpush f e s
  | .minv f => issueMinv f e s
  | .mpop f => issueMpop f e s
  | .mtest f => issueMtest f e s
  | .vcq f => issueVcq f e s
  | .rdef f => issueRdef f e s
  | .vtag f => issueVtag f e s
  | .vuntag f => issueVuntag f e s
  | .vdrop f => issueVdrop f e s
  | .vld f => issueLoad .lin f e s
  | .vldRot f => issueLoad .rot f e s
  | .vldz f => issueLoad .tile f e s
  | .vldm f => issueLoad .strided f e s
  | .vst f => issueStore .lin f e s
  | .vstRot f => issueStore .rot f e s
  | .vstz f => issueStore .tile f e s
  | .vstm f => issueStore .strided f e s
  | .mlease f => issueMlease f e s
  | .mfree f => issueMfree f e s
  | .otake f => issueOtake f e s
  | .ogive f => issueOgive f e s
  | .ofill f => issueOfill f e s
  | .mma f => issueMma f e s
  | .mmaz f => issueMmaz f e s
  | .ard f => issueArd f e s
  | .awr f => issueAwr f e s
  | .azero f => issueAzero f e s
  | .esend f => issueEsend f e s
  | .erecv f => issueErecv f e s
  | .estatStatus f => issueEstatStatus f e s
  | .estatProgress f => issueEstatProgress f e s
  | .estatDrop f => issueEstatDrop f e s
  | .bxform f => issueBxform f e s
  | .wreg f => issueWreg f e s
  | .wregUnreg f => issueWregUnreg f e s
  | .wregRestore f => issueWregRestore f e s
  | .wloadPast f => issueWloadPast f e s
  | .wloadWait f => issueWloadWait f e s
  | .wloadExtrap f => issueWloadExtrap f e s
  | .wcommit f => issueWcommit f e s
  | .wpub f => issueWpub f e s
  | .wrelease f => issueWrelease f e s
  | .wquery f => issueWquery f e s
  | .claim f => issueClaim f e s
  | .clwait f => issueClwait f e s
  | .fulfil f => issueFulfil f e s
  | .abandon f => issueAbandon f e s
  | .clhold f => issueClhold f e s
  | .clfree f => issueClfree f e s
  | _ => .done s

/-! ## The watch bypass of one party (R387) -/

/-- The state as party `src` acts: only its own bypass is in force. -/
def hideBypass (src : Src) (s : State) : State :=
  if s.b.bypass.all (· == src) then s else s.modB fun b => { b with bypass := b.bypass.filter (· == src) }
/-- The bypasses of the other parties stand again. -/
def showBypass (src : Src) (old : Burner) (s : State) : State :=
  if old.bypass.all (· == src) then s
  else s.modB fun b => { b with bypass := b.bypass ++ old.bypass.filter fun p => p != src && !b.bypass.contains p }
/-- A party's entry or command has ended: its bypass ends with it. -/
def endBypass (src : Src) (b : Burner) : Burner :=
  if b.bypass.contains src then { b with bypass := b.bypass.filter (· != src), dctl := b.dctl &&& ~~~(0x400#32) } else b

/-! ## Issue and retirement -/

def queueSrc : Queue → Src
  | .l => .l
  | .x => .x
  | .s => .s

/-- What keeps a queue's head from issuing: an earlier acquire of the S queue (R170), its token wait (R205), no room for its
push, a full condition queue (R207). -/
def headHeld (q : Queue) (e : Entry) (b : Burner) : Bool :=
  (q != .s && b.qs.any fun x => x.acq && decide (x.ko < e.ko)) || (e.wsel != 0 && b.tokens e.wsel == 0) ||
    (e.psel != 0 && 16 ≤ b.tokens e.psel) || (match e.ins with
      | .vcq _ => !e.skip && 8 ≤ b.cq.length
      | _ => false)
/-- Skipped by the mask stack: the top has no enabled lane (R314). -/
def maskSkips (e : Entry) (b : Burner) : Bool :=
  e.msk && match b.mask with
    | [] => false
    | m :: _ => m == 0

/-- The writes that readers of both other queues follow are of no account to any (R179). -/
def Burner.settleHist (b : Burner) : Burner :=
  let seen (h : Past) (q : Queue) : Bool := h.q == q || decide (h.n < (b.know q).of h.q)
  { b with hist := b.hist.filter fun h => !(seen h .l && seen h .x && seen h .s) }

/-- What retirement adds to happens-before (R170-R172): the registers it read are obtained (R302), unless that was noted when
they were read, the queue follows what the instruction followed, its token carries that, and an acquire of the S queue is
followed by everything later in ko. -/
def noteRetired (q : Queue) (e : Entry) (b : Burner) : Burner :=
  let k := (b.reader q e).know.bump q
  let b := if e.skip || maskSkips e b then b else b.obtain (b.reader q e) (if e.src.isNone && e.out.isNone then vsrcs e.ins else [])
  let b1 := if e.wsel = 0 then b else b.setTokenClocks e.wsel (·.drop 1)
  let b2 := (if e.psel = 0 then b1 else b1.setTokenClocks e.psel (· ++ [k])).setKnow q k
  let later (x : Entry) : Entry := if e.ko < x.ko then { x with know := x.know.join k } else x
  (if e.acq then { b2 with knows := b2.knows.join k, ql := b2.ql.map later, qx := b2.qx.map later } else b2).settleHist

/-- The head entry of q retires: tokens popped and pushed, the queue's number and, when it issued, its slots advanced. -/
def retireEntry (q : Queue) (e : Entry) (slot : Bool) (b : Burner) : Burner :=
  let b1 := ((noteRetired q e b).setQueue q ((b.queue q).drop 1)).bumpQ q
  let b2 := if slot then { b1.bumpSlot q with slotM := if e.mx then b1.slotM + 1 else b1.slotM } else b1
  let b3 := if e.wsel = 0 then b2 else b2.setTokens e.wsel (b2.tokens e.wsel - 1)
  (if e.psel = 0 then b3 else b3.setTokens e.psel (b3.tokens e.psel + 1)).settle

/-- The fault of a head entry: it stays at its μPC, its token returns, and the trap is taken (R205, R215, R371). -/
def entryFault (q : Queue) (e : Entry) (c : Cause) (addr : DWord) (upc : Nat) (part : Runs) (rinfo : BitVec 16) (inner : Nat)
    (s : State) : State :=
  let s1 := s.modB fun b => b.setHead q fun h => { h with upc := upc, part := part, begun := true }
  takeTrap { c := c, src := (queueSrc q), addr := addr, iaddr := e.iaddr, cutPc := s1.b.pc, tseq := e.seq, upc := upc, rinfo := rinfo
             inner := inner } s1

/-- A queue's turn: its head entry waits, is skipped (a weight instruction then takes no tag; log 141), or is performed. -/
def issueHead (q : Queue) (s : State) : Outcome :=
  match s.b.queue q with
  | [] => .next s
  | e :: _ =>
    if headHeld q e s.b then .next s
    else if e.skip then
      let s1 := s.modB fun b => endBypass (queueSrc q) (retireEntry q e e.begun b)
      .next (e.load.elim s1 fun l => settleTensor l.tid s1)
    else if maskSkips e s.b then .next (s.modB fun b => endBypass (queueSrc q) (retireEntry q e true b))
    else
      let old := s.b
      let s1 := (hideBypass (queueSrc q) s).modB fun b => b.setHead q fun h => { h with part := [] }
      match perform e.ins e s1 with
      | .done s2 => .next (showBypass (queueSrc q) old (s2.modB fun b => endBypass (queueSrc q) (retireEntry q e true b)))
      | .wait s2 => .next (showBypass (queueSrc q) old (s2.modB fun b => b.setHead q fun h => { h with part := e.part }))
      | .pause u p s2 => .next (showBypass (queueSrc q) old (s2.modB fun b => b.setHead q fun h => { h with upc := u, part := p, begun := true }))
      | .trap c a u p ri inn s2 => .next (showBypass (queueSrc q) old (entryFault q e c a u p ri inn s2))

end Sys2Proof.Machine
end

