-- ==== Sys2Proof/Machine/Forward.lean ====
section
/-! DEFINITION. Forwarding to the queues: what a queue instruction of each format captures, and its entering its queue
(spec/09_core_and_queues.md R201-R205; spec/13_vector_shape_masks_recipes.md R316, R317; R400). -/
namespace Sys2Proof.Machine

/-! ## What is captured -/

/-- Format V with a vector field b. -/
def fwdVF (i : Instr) (f : VF) (msk : Bool) : Fwd := { q := .x, ins := i, n := 2, ws := f.wsel, ps := f.psel, msk := msk }
/-- Format V with a scalar field b. -/
def fwdVSF (i : Instr) (f : VSF) (b : Burner) : Fwd :=
  { q := .x, ins := i, n := 2 + litN f.b, ws := f.wsel, ps := f.psel, rs := opRegs f.b, vb := (b.op32 f.b).setWidth 64, msk := true }
/-- Format M. -/
def fwdMF (i : Instr) (f : MF) (q : Queue) (b : Burner) : Fwd :=
  { q := q, ins := i, n := 2 + litN f.a + litN f.b, ws := f.wsel, ps := f.psel, rs := opRegs f.a ++ opRegs f.b
    va := (b.op32 f.a).setWidth 64, vb := (b.op32 f.b).setWidth 64, store := q == .s }
/-- Format X. -/
def fwdXF (i : Instr) (f : XF) (b : Burner) : Fwd :=
  { q := .x, ins := i, n := 2 + litN f.a + litN f.b, ws := f.wsel, ps := f.psel, rs := opRegs f.a ++ opRegs f.b
    va := (b.op32 f.a).setWidth 64, vb := (b.op32 f.b).setWidth 64, mx := true }
/-- The value and the registers of an operand of 64 or 32 bits. -/
def opVal (b : Burner) (wide : Bool) (o : Opnd) : DWord := if wide then b.op64 o else (b.op32 o).setWidth 64
def opUse (wide : Bool) (o : Opnd) : List (BitVec 6) := if wide then opRegs64 o else opRegs o
/-- Format E: which operands are 64 bits wide, the scalar destinations, and whether it is an acquire (R170). -/
def fwdEF (i : Instr) (f : EF) (wa wb wc : Bool) (sd : List (BitVec 6)) (acq : Bool) (b : Burner) : Fwd :=
  { q := .s, ins := i, n := 2 + litN f.a + litN f.b + litN f.c, ws := f.wsel, ps := f.psel
    rs := opUse wa f.a ++ opUse wb f.b ++ opUse wc f.c, sd := sd, va := opVal b wa f.a, vb := opVal b wb f.b, vc := opVal b wc f.c
    acq := acq }
/-- Four consecutive scalar destinations. -/
def quad (d : BitVec 6) : List (BitVec 6) := [d, d + 1, d + 2, d + 3]

/-! ## Forwarding -/

/-- The rounding field of a vector instruction. -/
def vrm : Instr → BitVec 3
  | .vfadd f | .vfsub f | .vfmul f | .vfma f | .vdiv f | .vsqrt f | .vrcp f | .vrsq f | .vexp2 f | .vlog2 f | .vtanh f | .vsin f
  | .vcos f | .vcvt f | .vscale f | .vqnt f | .vdqnt f | .vredr f | .vredc f | .vreda f => f.rm
  | .vld f | .vldRot f | .vldz f | .vldm f => f.rm
  | _ => 0
/-- The rounding code in force: the prefix's, or the instruction's own. -/
def roundCode (pfx : Option (BitVec 24)) (i : Instr) : BitVec 3 := (pfxOf pfx).rnd.getD (vrm i)
/-- Code 101 while stochastic rounding is not accepted (R400). -/
def srRefused (pfx : Option (BitVec 24)) (i : Instr) (s : State) : Bool := roundCode pfx i == 5 && !s.feat 1

/-- Whether the queue issues the entry that has just entered it before the control core goes on (log 7): chosen at run time. -/
def runsAt (s : State) : Bool × State :=
  let (x, s1) := s.draw
  (x == 0, s1)

/-- An entry has entered queue q: the queue may take its turn at once when the entry is its only one. -/
def mayIssue (q : Queue) (s : State) : Outcome :=
  match runsAt s with
  | (true, s1) => if (s1.b.queue q).length = 1 then issueHead q s1 else .next s1
  | (false, s1) => .next s1

/-- A queue instruction at the control core (R201-R204). -/
def forward (w : Fwd) (s : State) : Outcome :=
  if srRefused s.b.pfx w.ins s then ccFault .illegalRounding 0 s
  else match fwdGate w s.b with
    | .trap c => ccFault c 0 s
    | .stall => .next s
    | .pass => mayIssue w.q (enqueue w none s)

/-! ## RDEF and its body (R316, R317) -/

/-- The words of the text from byte offset a, as many as an instruction may take. -/
def Burner.textAt (b : Burner) (a : Nat) : List Word :=
  (List.range (min 7 ((b.tlen - a) / 4))).map fun i => b.text.word (a + 4 * i)

/-- The cause of a decoding fault. -/
def decCause : DecErr → Cause
  | .fetch _ => .fetchRange
  | .illegalWord => .illegalWord
  | .illegalOpcode => .illegalOpcode
  | .illegalOperand => .illegalOperand
  | .illegalRounding => .illegalRounding
/-- Its TADDR: the first word that is not in the text (R368). -/
def decTaddr (e : DecErr) (a : Nat) : Nat :=
  match e with
  | .fetch k => a + 4 * k
  | _ => 0

/-- Every row that a body's load would read lies in the burner's own slice, in a constant bank (R317). -/
def constRows (form : MForm) (f : MF) (va vb : Word) (s : State) : Bool :=
  match mctl form true vb with
  | none => true
  | some c =>
    let own (a : Nat) : Option Nat := match meshResolve s.b.core a with
      | .ok (core, row) => if core = s.b.core && !isInbox row && s.b.const (bankOf row) then some row else none
      | .error _ => none
    let base := rowBase va f.off
    if form != .tile && c.n = 0 then true
    else match own base with
      | none => false
      | some row =>
        let bf := s.bfmtAt s.b.core row
        (planRows form c (bfFmt bf) (bfPl bf) c.n (bfZ bf)).all fun k => (own (rowPlus base k)).isSome

/-- Scalar operands of a body instruction. -/
def bodyOps : Instr → Opnd × Opnd
  | .viota f | .vspl f | .vrotr f | .vrotc f | .vbcr f | .vbcc f | .vext f | .vins f | .vlen f => (.imm 0, f.b)
  | .vld f | .vldRot f | .vldz f | .vldm f => (f.a, f.b)
  | _ => (.imm 0, .imm 0)
/-- Token selectors of a body instruction are 0. -/
def bodyTokens : Instr → Bool
  | .viota f | .vspl f | .vrotr f | .vrotc f | .vbcr f | .vbcc f | .vext f | .vins f | .vlen f => f.wsel == 0 && f.psel == 0
  | .vld f | .vldRot f | .vldz f | .vldm f => f.wsel == 0 && f.psel == 0
  | .vadd f | .vsub f | .vmul f | .vmulh f | .vmad f | .vmin f | .vmax f | .vabs f | .vneg f | .vand f | .vor f | .vxor f | .vnot f
  | .vshl f | .vshr f | .vsra f | .vpopc f | .vclz f | .vfadd f | .vfsub f | .vfmul f | .vfma f | .vfmin f | .vfmax f | .vdiv f
  | .vsqrt f | .vrcp f | .vrsq f | .vexp2 f | .vlog2 f | .vtanh f | .vsin f | .vcos f | .vcmpEq f | .vcmpNe f | .vcmpLt f
  | .vcmpLe f | .vcmpGt f | .vcmpGe f | .vcmpLtu f | .vcmpGeu f | .vsel f | .vcvt f | .vscale f | .vqnt f | .vdqnt f | .vredr f
  | .vredc f | .vreda f | .vcoal f | .vocc f => f.wsel == 0 && f.psel == 0
  | _ => false

/-- Whether a body accepts an instruction (R317). -/
def bodyOk (first : Bool) (x : RSlot) (drm : BitVec 3) (s : State) : Bool :=
  let rc := roundCode x.pfx x.ins
  bodyTokens x.ins && vdst x.ins == some bodyReg && !(first && (vsrcs x.ins).contains bodyReg) &&
    !(rc == 5 || (rc == 6 && drm == 5)) && (match x.ins with
      | .vld f => constRows .lin f x.va x.vb s
      | .vldRot f => constRows .rot f x.va x.vb s
      | .vldz f => constRows .tile f x.va x.vb s
      | .vldm f => constRows .strided f x.va x.vb s
      | _ => true)

/-- A body decoded from byte offset a, `n` instructions of it: the captured instructions, the offset after them and the scalar
registers they read; or a cause with the instruction's offset and TADDR. -/
def bodyCapture : Nat → Bool → Nat → State → Except (Cause × Nat × Nat) (List RSlot × Nat × List (BitVec 6))
  | 0, _, a, _ => .ok ([], a, [])
  | n + 1, first, a, s =>
    let get (p : Option (BitVec 24)) (at' : Nat) : Except (Cause × Nat × Nat) (List RSlot × Nat × List (BitVec 6)) :=
      match decode (s.b.textAt at') with
      | .error e => .error (decCause e, a, decTaddr e at')
      | .ok (i, k) =>
        let refused := match p with
          | some w => pfxCause w i
          | none => none
        match refused with
        | some c => .error (c, a, 0)
        | none =>
          let o := bodyOps i
          let x : RSlot := { ins := i, pfx := p, va := s.b.op32 o.1, vb := s.b.op32 o.2 }
          if srRefused p i s then .error (.illegalRounding, a, 0)
          else if !bodyOk first x s.b.drm s then .error (.recipeIllegal, a, 0)
          else match bodyCapture n false (at' + 4 * k) s with
            | .error e => .error e
            | .ok (xs, z, rs) => .ok (x :: xs, z, opRegs o.1 ++ opRegs o.2 ++ rs)
    match decode (s.b.textAt a) with
    | .ok (.pfx w, _) => get (some w) (a + 4)
    | _ => get none a

/-- The scalar registers that the decodable instructions of a body read. -/
def bodyRegs (b : Burner) : Nat → Nat → List (BitVec 6)
  | 0, _ => []
  | n + 1, a =>
    let get (at' : Nat) : List (BitVec 6) := match decode (b.textAt at') with
      | .error _ => []
      | .ok (i, k) => opRegs (bodyOps i).1 ++ opRegs (bodyOps i).2 ++ bodyRegs b n (at' + 4 * k)
    match decode (b.textAt a) with
    | .ok (.pfx _, _) => get (a + 4)
    | _ => get a

/-- RDEF (R316): its body is decoded with it and forwarded with it as one entry, its scalar operands interlocked before they
are read (R202). A body instruction's fault is raised at that instruction's address, which is also the cut's PC (R317, R373;
log 17). DESIGN CHOICE (log 158): while TE = 1, a fault of the body comes before R371's HANDLER_QUEUE. -/
def execRdef (f : VF) (s : State) : Outcome :=
  let w := fwdVF (.rdef f) f false
  if s.b.held (bodyRegs s.b (f.a.toNat % 4 + 1) (s.b.after 2).toNat) then .next s
  else match bodyCapture (f.a.toNat % 4 + 1) true (s.b.after 2).toNat s with
  | .error (c, a, t) => .next (takeTrap { c := c, addr := w64 t, iaddr := w32 a, cutPc := w32 a } s)
  | .ok (xs, z, rs) => match fwdGate { w with rs := rs } s.b with
    | .trap c => ccFault c 0 s
    | .stall => .next s
    | .pass =>
      let body : Recipe := { slots := xs, drm := s.b.drm }
      mayIssue .x (retireAt (w32 z) (s.modB fun b => b.setQueue .x (b.qx ++ [w.entry b (some body)])))

end Sys2Proof.Machine
end

