-- ==== Sys2Proof/Machine/Records.lean ====
section
/-! DEFINITION. Work queues, launch records and completion records (spec/15_scheduling.md R353-R355, R362; spec/18 R402), and the
records that need no burner: NOP, INVAL and YIELDREQ (R354; spec/02_address_spaces.md R51; R377). -/
namespace Sys2Proof.Machine

/-! ## Launch records (R354) -/

def recOp (r : Rec512) : Nat := (r.extractLsb' 0 8).toNat
def recEvok (r : Rec512) : Bool := r.getLsbD 8
def recList (r : Rec512) : Bool := r.getLsbD 9
def recTag (r : Rec512) : Word := r.extractLsb' 32 32
def recP0 (r : Rec512) : Nat := (r.extractLsb' 64 64).toNat
def recP1 (r : Rec512) : Nat := (r.extractLsb' 128 64).toNat
def recP2 (r : Rec512) : Nat := (r.extractLsb' 192 64).toNat
def recP3 (r : Rec512) : Nat := (r.extractLsb' 256 32).toNat
def recFirst (r : Rec512) : Nat := recP3 r % 2 ^ 16
def recCount (r : Rec512) : Nat := recP3 r / 2 ^ 16

/-- No other OP, no nonzero must-be-0 field, no parameter out of range. -/
def recordOk' (r : Rec512) : Bool :=
  r.extractLsb' 288 224 == 0 && r.extractLsb' 10 22 == 0 && (recOp r == 1 || (!recEvok r && !recList r)) &&
    match recOp r with
    | 0 => recP0 r == 0 && recP1 r == 0 && recP2 r == 0 && recP3 r == 0
    | 1 => if recList r then recP1 r == 0 && recP2 r == 0 && recP3 r == 0
      else decide (1 ≤ recCount r) && decide (recCount r ≤ 640) && decide (recFirst r + recCount r ≤ 640)
    | 2 => recP2 r == 0 && recP3 r / 2 ^ 16 == 0
    | 3 => recP0 r == 0 && recP1 r == 0 && recP2 r == 0 && recP3 r / 2 ^ 16 == 0
    | 4 | 5 | 6 => recP1 r == 0 && recP2 r == 0 && recP3 r == 0
    | _ => false

/-- Completion statuses (R355). -/
def csDone : Nat := 0
def csNoReserve : Nat := 1
def csRcbInvalid : Nat := 2
def csImageInvalid : Nat := 3
def csImageFault : Nat := 4
def csKilled : Nat := 5
def csBadRecord : Nat := 6

/-- A completion record that becomes due. -/
def complete (q : Nat) (r : Rec512) (status detail : Nat) (s : State) : State :=
  { s with pending := s.pending ++ [.completionRecord q (recOp r) (recTag r).toNat status detail] }

/-! ## Queues -/

def hostBase : Nat := 0x800000000000
def State.wq (s : State) (q : Nat) : WQ := (s.wqs.find? (·.id == q)).getD { id := q }
def State.setWq (s : State) (w : WQ) : State :=
  { s with wqs := if s.wqs.any (·.id == w.id) then s.wqs.map fun x => if x.id == w.id then w else x else s.wqs ++ [w] }
def wqLbase (w : WQ) : Nat := (w.setup.extractLsb' 0 64).toNat
def wqCbase (w : WQ) : Nat := (w.live.extractLsb' 64 64).toNat
def wqIrqd (w : WQ) : Nat := (w.live.extractLsb' 160 32).toNat
def wqEn (w : WQ) : Bool := w.setup.getLsbD 192
def wqIrqa (w : WQ) : Nat := (w.live.extractLsb' 193 12).toNat * 2 ^ 35 + (w.live.extractLsb' 128 32).toNat * 8
def wqLsize (w : WQ) : Nat := 2 ^ (w.setup.extractLsb' 224 5).toNat
def wqCsize (w : WQ) : Nat := 2 ^ (w.live.extractLsb' 229 5).toNat

/-- A write of the device to host memory; nothing is there beyond what the host exposes (R41). -/
def hostWrite (a : Nat) (bs : List Byte) (s : State) : State :=
  if s.physKind (hostBase + a) == some .host then s.physWrite 0 (hostBase + a) bs else s

/-- The 16 bytes of a completion record (R355). -/
def recordBytes (w : WQ) (op tag status detail : Nat) : List Byte :=
  bytesOfNat 16 (tag + status * 2 ^ 32 + op * 2 ^ 40 + (if w.ph then 2 ^ 48 else 0) + w.head.toNat * 2 ^ 64 + detail % 2 ^ 32 * 2 ^ 96)
/-- The place after it, and its phase. -/
def WQ.advance (w : WQ) : WQ :=
  let wrap := decide (wqCsize w ≤ w.cpos + 1)
  { w with cpos := if wrap then 0 else w.cpos + 1, ph := if wrap then !w.ph else w.ph, posted := w.posted + 1 }
/-- A completion record written at its place, the place and phase advanced, then the interrupt word (R355, R402). -/
def postRecord (q op tag status detail : Nat) (s : State) : State :=
  let w := s.wq q
  let s2 := (hostWrite (wqCbase w + 16 * w.cpos) (recordBytes w op tag status detail) s).setWq w.advance
  if wqIrqa w = 0 then s2 else hostWrite (wqIrqa w) (bytesOfNat 8 (wqIrqd w)) s2

/-- A record held until its own queue's ring has room (R355). -/
def holdRecord (q : Nat) (r : CRec) (s : State) : State :=
  let w := s.wq q
  s.setWq { w with held := w.held ++ [r] }
/-- COMPLETION_RECORD (R355): held while the ring is full. Once a ring's worth is posted, room depends on the host, whose reads
the device does not see: it is found at run time. One that is posted word by word is held until then. -/
def execCompletionRecord (q op tag status detail : Nat) (s : State) : Outcome :=
  let w := s.wq q
  if w.held.isEmpty && decide (w.posted < wqCsize w) && s.pace = 0 then .next (postRecord q op tag status detail s)
  else .next (holdRecord q ⟨op, tag, status, detail⟩ s)
/-- One word of the oldest record a queue holds (R162; log 150): its HEAD and DETAIL, then the word with its phase, then the
interrupt. -/
def postWord (q : Nat) (s : State) : State :=
  let w := s.wq q
  match w.held with
  | [] => s
  | r :: rs =>
    let a := wqCbase w + 16 * w.cpos
    let bs := recordBytes w r.op r.tag r.status r.detail
    match w.step with
    | 0 => (hostWrite (a + 8) (bs.drop 8) s).setWq { w with step := 1 }
    | 1 => (hostWrite a (bs.take 8) s).setWq (if wqIrqa w = 0 then { w.advance with held := rs, step := 0 } else { w.advance with step := 2 })
    | _ => (hostWrite (wqIrqa w) (bytesOfNat 8 (wqIrqd w)) s).setWq { w with held := rs, step := 0 }
/-- The oldest record a queue holds is posted, whole or a word of it: the host has made room. -/
def postHeld (q : Nat) (s : State) : State :=
  let w := s.wq q
  match w.held with
  | [] => s
  | r :: rs =>
    if s.pace != 0 then postWord q s
    else if w.step = 0 then postRecord q r.op r.tag r.status r.detail (s.setWq { w with held := rs })
    else if w.step = 1 && wqIrqa w != 0 then postWord q (postWord q s) else postWord q s

/-- The record at a queue's HEAD, whose words nobody rewrites between its publication and the completion record that passes it
(R353), so that reading them one by one tells the same. -/
def wqRecord (w : WQ) (s : State) : Rec512 :=
  BitVec.ofNat 512 (natOfBytes (s.phys.bytes (hostBase + wqLbase w + 64 * (w.head.toNat % wqLsize w)) 64))
/-- Published records are there to be read (R353, R402). -/
def wqReady (w : WQ) : Bool := wqEn w && !w.stopped && w.head != w.tail
/-- The priority of a record (R362). -/
def recPrio (r : Rec512) (s : State) : Nat :=
  if recOp r = 0 || recOp r = 2 || recOp r = 3 then 15
  else match s.readRegion (recP0 r) with
    | some g => g.prio
    | none => 0

/-! ## Records without burners -/

/-- RECORD_NOP (R354). -/
def execRecordNop (q : Nat) (r : Rec512) (s : State) : Outcome :=
  .next (complete q r (if recordOk' r then csDone else csBadRecord) 0 s)

/-- The entries of the fault table that stand in their die's 4,096 places (R377). -/
def tabled (es : List FaultEnt) : List FaultEnt :=
  es.filter fun e => decide (((es.takeWhile fun x => x != e).filter (·.die == e.die)).length < 4096)

/-- A waiter clears PW and resumes, its faulted engine commands with it, bound or evicted (R374, R377). -/
def serveWaiter (s : State) (w : Nat × Nat) : State :=
  let ready (b : Burner) : Bool := b.is w.1 w.2 && b.pw
  let served (b : Burner) : Burner := { b with pw := false, eng := b.eng.map Eng.goOn }
  let s1 := { s with saved := s.saved.map fun b => if ready b then { served b with status := .running } else b }
  if s1.all.any ready then wake w.1 w.2 (s1.modAt w.1 w.2 served) else s1

/-- Whether the range [lo, hi) covers a 4 KiB page. -/
def covers (lo hi page : Nat) : Bool := decide (lo ≤ page * 4096) && decide (page * 4096 + 4096 ≤ hi)

/-- Burners suspended for a page of their overflow area that an invalidation covers run again (R336, R362), unless they stand
at another stop. -/
def serveSuspended (asn lo hi : Nat) (s : State) : State :=
  let hit (b : Burner) : Bool := b.ovPage != 0 && b.region.asn == asn && covers lo hi b.ovPage
  let runs (b : Burner) : Bool := b.status == .suspended || b.status == .running
  let serve (b : Burner) : Burner := { b with ovPage := 0, status := if b.status = .suspended then .running else b.status }
  let s1 := { s.modWhere hit serve with saved := s.saved.map fun b => if hit b then serve b else b }
  (s.all.filter fun b => hit b && runs b).foldl (fun s b => wake b.core b.bur s) s1

/-- An invalidation of [lo, hi) of an address space: leaves leave every TLB, page waits are served in arrival order (R51,
R377). -/
def invalidate (asn lo hi : Nat) (s : State) : State :=
  let tlb := s.tlb.filter fun t => !(t.asn == asn && decide (t.va < hi) && decide (lo < t.va + 2 ^ t.bits))
  let hit (e : FaultEnt) : Bool := e.asn == asn && covers lo hi e.page
  let served := (tabled s.faultTab).filter hit
  let s1 := { s with tlb := tlb, faultTab := s.faultTab.filter fun e => !served.contains e }
  let s2 := serveSuspended asn lo hi ((served.flatMap (·.waiters)).foldl serveWaiter s1)
  reportFaults s2.hostVia s2

/-- INVAL (R51, R354). -/
def execInval (q : Nat) (r : Rec512) (s : State) : Outcome :=
  if recordOk' r then .next (complete q r csDone 0 (invalidate (recP3 r) (recP0 r) (recP0 r + recP1 r) s))
  else .next (complete q r csBadRecord 0 s)

/-- A request that waits for burners of a subtree. -/
def askFor (q : Nat) (r : Rec512) (slots : List Nat) (s : State) : State :=
  checkRequests { s with
    launches := s.launches ++ [{ id := s.nextLaunch, q := q, op := recOp r, tag := recTag r, rcb := recP0 r, slots := slots }]
    nextLaunch := s.nextLaunch + 1 }

/-- A record that names an RCB: refused when it or the RCB is invalid. -/
def withRegion (q : Nat) (r : Rec512) (f : Region → State → State) (s : State) : State :=
  if !recordOk' r then complete q r csBadRecord 0 s
  else match s.readRegion (recP0 r) with
    | none => complete q r csRcbInvalid 0 (s.rcbFound (recP0 r))
    | some g => f g s

/-- YIELDREQ (R278, R354): YRQ is set in every burner of the subtree. -/
def execYieldreq (q : Nat) (r : Rec512) (s : State) : Outcome :=
  .next (withRegion q r (fun _ s =>
    let hit (b : Burner) : Bool := b.under (recP0 r) && b.status != .unbound && b.status != .halted && b.status != .yielded
    let ask (b : Burner) : Burner := { b with yrq := true }
    askFor q r [] { s.modWhere hit ask with saved := s.saved.map fun b => if hit b then ask b else b }) s)

end Sys2Proof.Machine
end

