-- ==== Sys2Proof/Machine/SaveArea.lean ====
section
/-! DEFINITION. The save areas of yielded and evicted burners, and YIELD (spec/16_traps_preemption_checkpoint.md R378-R380;
spec/13_vector_shape_masks_recipes.md R315; spec/11_control_core_instructions.md R278). -/
namespace Sys2Proof.Machine

/-- Bytes cut or filled with zeros to n. -/
def padded (n : Nat) (bs : List Byte) : List Byte := (bs ++ List.replicate (n - bs.length) 0).take n
/-- Bytes filled with zeros to a multiple of 256. -/
def wholeRows (bs : List Byte) : List Byte := padded ((bs.length + 255) / 256 * 256) bs

/-! ## A recipe entry's image (R315) -/

/-- A body instruction with each scalar operand field naming one literal. -/
def scalarsOut : Instr → Instr
  | .viota f => .viota { f with b := .lit 0 }
  | .vspl f => .vspl { f with b := .lit 0 }
  | .vrotr f => .vrotr { f with b := .lit 0 }
  | .vrotc f => .vrotc { f with b := .lit 0 }
  | .vbcr f => .vbcr { f with b := .lit 0 }
  | .vbcc f => .vbcc { f with b := .lit 0 }
  | .vext f => .vext { f with b := .lit 0 }
  | .vins f => .vins { f with b := .lit 0 }
  | .vlen f => .vlen { f with b := .lit 0 }
  | .vld f => .vld { f with a := .lit 0, b := .lit 0 }
  | .vldRot f => .vldRot { f with a := .lit 0, b := .lit 0 }
  | .vldz f => .vldz { f with a := .lit 0, b := .lit 0 }
  | .vldm f => .vldm { f with a := .lit 0, b := .lit 0 }
  | i => i

/-- The two instruction words without literals. -/
def twoWords (i : Instr) : List Byte := padded 8 ((encode i).flatMap wordBytes)
/-- A prefix word, or 0 (R21: major 0x3E in bits 7:2 under its 24 bits). -/
def pfxBytes (p : Option (BitVec 24)) : List Byte :=
  match p with
  | some w => ((encode (.pfx w)).flatMap wordBytes).take 4
  | none => List.replicate 4 0
def slotImage (x : RSlot) : List Byte := twoWords (scalarsOut x.ins) ++ pfxBytes x.pfx ++ wordBytes x.va ++ wordBytes x.vb
/-- The 96 bytes of a recipe entry; an entry never defined is 0. -/
def recipeImage (r : Option Recipe) : List Byte :=
  match r with
  | none => List.replicate 96 0
  | some r => padded 96 (bytesOfNat 16 (1 + (r.slots.length - 1) * 2 + r.drm.toNat * 2 ^ 5) ++ r.slots.flatMap slotImage)

/-! ## The sections (R378) -/

/-- Section 1, State. -/
def stateSection (s : State) : List Byte :=
  let b := s.b
  b.s.toList.flatMap wordBytes ++ bytesOfNat 32 (b.cut b.pc).toNat ++ bytesOfNat 128 b.trec0.toNat ++ bytesOfNat 8 b.ev.toNat ++
    bytesOfNat 8 b.enrolled.toNat ++ bytesOfNat 8 b.node ++ (List.range 128).flatMap (fun c => wordBytes (s.ctlRead c)) ++
    List.replicate 72 0
/-- Section 2, FIFOs; each part stands at the place it has when the FIFOs before it are full (log 42). -/
def fifoSection (b : Burner) : List Byte :=
  padded 1536 (wordBytes b.tokst ++ padded 64 (b.cq.flatMap fun x => bytesOfNat 8 x.toNat) ++ bytesOfNat 4 b.cq.length ++
    padded 128 (b.inbox.flatMap wordBytes) ++ bytesOfNat 4 b.inbox.length ++
    padded 1152 ((BitVec.allOnes 1024 :: b.mask.reverse).flatMap fun m => bytesOfNat 128 m.toNat) ++ bytesOfNat 4 (b.mask.length + 1))
/-- An unretired entry, 64 bytes, with an RDEF's image after it. -/
def entryImage (e : Entry) : List Byte :=
  padded 64 (pfxBytes e.pfx ++ twoWords e.ins ++ bytesOfNat 8 e.va.toNat ++ bytesOfNat 8 e.vb.toNat ++ bytesOfNat 8 e.vc.toNat ++
    bytesOfNat 4 e.upc) ++ (if e.body.isSome then recipeImage e.body else [])
/-- Section 3, Queues. -/
def queueSection (b : Burner) : List Byte := (b.ql ++ b.qx ++ b.qs).flatMap entryImage
/-- Section 4, Windows. -/
def windowSection (b : Burner) : List Byte :=
  b.win.flatMap fun w => bytesOfNat 4 (queueSrc w.q).code ++ bytesOfNat 4 w.reg ++ bytesOfNat 4 (w.due - b.slot w.q) ++ bytesOfNat 4 w.old.runs.length
def VSt.code : VSt → Nat × Nat
  | .plain => (0, 0)
  | .tagged k => (1, k)
  | .dropped k => (2, k)
def descriptor (x : VReg) : Nat :=
  x.runs.length + x.len * 2 ^ 16 + x.tag.toNat * 2 ^ 27 + x.st.code.1 * 2 ^ 32 + x.st.code.2 % 64 * 2 ^ 34 + x.last % 2 ^ 24 * 2 ^ 40
/-- Section 5, Descriptors. -/
def descriptorSection (b : Burner) : List Byte := (List.range 2048).flatMap fun r => bytesOfNat 8 (descriptor (b.cur r))
def runImage (rs : Runs) : List Byte := rs.flatMap fun r => bytesOfNat 8 (r.1.toNat + r.2 * 2 ^ 32)
/-- Section 6, Runs. -/
def runSection (b : Burner) : List Byte :=
  ((List.range 2048).flatMap fun r => runImage (b.cur r).runs) ++ b.win.flatMap (fun w => runImage w.old.runs) ++
    [b.ql, b.qx, b.qs].flatMap fun es => (es.take 1).flatMap fun e => runImage e.part
/-- The partition's rows, then the inbox rows. -/
def partitionRows (b : Burner) : List Nat :=
  (List.range 1504).filter (fun row => b.owns (bankOf row)) ++ (List.range b.inbCnt).map (1504 + b.inbBase + ·)
/-- Section 7, Rows. -/
def rowSection (s : State) : List Byte := (partitionRows s.b).flatMap fun row => s.mesh.bytes (rowAddr s.b.core row) 256
/-- Section 8, Recipes. -/
def recipeSection (b : Burner) : List Byte := (List.range b.rcp).flatMap fun k => recipeImage (b.recipe k)
/-- An operand slot's elements, row by row, each in its element's width (log 42). -/
def oslotImage (o : OSlot) : List Byte :=
  let w := elW o.tag.toNat
  let put (xs : List Nat) : Nat := xs.foldr (fun x n => x % 2 ^ w + 2 ^ w * n) 0
  padded 8192 (o.els.flatMap fun xs => bytesOfNat (xs.length * w / 8) (put xs))
/-- Section 9, Matrix: tiles, slots, then a tag word each; a tile is always bound. -/
def matrixSection (b : Burner) : List Byte :=
  let ts := (List.range b.resAcc).map b.tile
  let os := (List.range b.resOps).map b.oslot
  ts.flatMap (fun t => (List.range 4096).flatMap fun i => wordBytes (t.word i)) ++ os.flatMap oslotImage ++
    ts.flatMap (fun t => bytesOfNat 4 (2 ^ 31 + if t.int then 9 else 1)) ++
    os.flatMap fun o => bytesOfNat 4 ((if o.bound then 2 ^ 31 else 0) + o.tag.toNat)
/-- A pushed item in 128 bytes: a command as it is; a weight-port request by its operation, event, tensor, source and step. -/
def itemImage : EItem → List Byte
  | .cmd c => bytesOfNat 128 c.toNat
  | .commit t src step ev => padded 128 ([2, ev, 0, 0] ++ wordBytes t ++ bytesOfNat 8 src.toNat ++ bytesOfNat 8 step.toNat)
  | .publish t step ev => padded 128 ([3, ev, 0, 0] ++ wordBytes t ++ List.replicate 8 0 ++ bytesOfNat 8 step.toNat)
/-- Section 10, Engines. -/
def engineSection (b : Burner) : List Byte :=
  (List.range 4).flatMap fun u =>
    wordBytes (b.engSeq u) ++ ((b.unit u).fifo.filter (!·.started)).flatMap (fun p => itemImage p.item) ++
      (b.unit u).out.flatMap fun x => bytesOfNat 16 x.toNat
def MKind.code : MKind → Nat
  | .maker => 0
  | .waiting => 1
  | .pendMaker => 2
  | .pendReady => 3
  | .hold => 4
/-- Section 11, Memberships of the pantry, then of barrier groups. -/
def membershipSection (s : State) : List Byte :=
  s.b.membs.flatMap (fun m => wordBytes m.fid ++ bytesOfNat 8 m.dig.toNat ++ wordBytes m.ver ++ bytesOfNat 4 m.fd ++
      bytesOfNat 4 m.ticket ++ bytesOfNat 4 m.kind.code ++ bytesOfNat 4 m.n) ++
    s.groups.flatMap fun g => (g.mems.filter fun m => m.core == s.b.core && m.bur == s.b.bur).flatMap fun m =>
      bytesOfNat 4 (g.id + m.arrived.toNat * 2 ^ 16) ++ bytesOfNat 4 g.phase

/-! ## The area -/

/-- Why an area is written (R378 KIND). -/
inductive SaveKind where
  | yield | eviction
deriving DecidableEq, Repr
def SaveKind.code : SaveKind → Nat
  | .yield => 1
  | .eviction => 2

/-- The sections a save writes, with their numbers. -/
def saveSections (k : SaveKind) (s : State) : List (Nat × List Byte) :=
  match k with
  | .yield => [(1, stateSection s), (11, membershipSection s)]
  | .eviction => [(1, stateSection s), (2, fifoSection s.b), (3, queueSection s.b), (4, windowSection s.b), (5, descriptorSection s.b),
      (6, runSection s.b), (7, rowSection s), (8, recipeSection s.b), (9, matrixSection s.b), (10, engineSection s.b),
      (11, membershipSection s)]
/-- The SECT fields of sections laid out from an offset on; a section of no bytes is absent. -/
def sectFields : Nat → List (Nat × List Byte) → Nat
  | _, [] => 0
  | o, (k, bs) :: r => (if bs.isEmpty then 0 else (o + bs.length * 2 ^ 32) * 2 ^ (64 * k)) + sectFields (o + (wholeRows bs).length) r
/-- The bytes of the acting burner's save area: the header, then each section from a multiple of 256. -/
def saveImage (k : SaveKind) (s : State) : List Byte :=
  let ss := saveSections k s
  bytesOfNat 256 (0x0C645356 + 2 ^ 32 + k.code * 2 ^ 48 + s.b.bur * 2 ^ 50 + s.b.core * 2 ^ 51 + sectFields 256 ss) ++
    ss.flatMap fun x => wholeRows x.2

/-- Where the firmware keeps save area n, of some length, in LPDDR 6: spec/ leaves the place to the firmware (log 42). -/
def areaBase (n len : Nat) : Nat := Config.saveArea n % ((0xC000000000 - len) / 256 + 1) * 256
/-- Whether the acting burner's save area fits the DRAMQ of its region and of every ancestor (R349, R351, R378; log 115). -/
def areaFits (k : SaveKind) (s : State) : Bool :=
  let g := s.b.region
  g.chain.all fun pa =>
    decide (sumNat ((s.saved.filter (·.under pa)).map (·.area)) + (saveImage k s).length ≤ g.budget pa 3)

/-- The acting burner's save area written under key 0 (R378). -/
def writeArea (k : SaveKind) (s : State) : State :=
  let bs := saveImage k s
  let a := areaBase s.nextLaunch bs.length
  ((chunks 256 bs).foldl (fun (x : Nat × State) row => (x.1 + 256, x.2.physWrite 0 x.1 row)) (a, s)).2

/-- YIELD (R278, R379): a NOP unless a yield was requested; else it waits as FENCE c+l+x+s+e, a fault of an engine
being taken instead (R371), saves the burner with its memberships in force, and frees the core. -/
def execYield (s : State) : Outcome :=
  if !s.b.yrq then .next (retire 1 s)
  else if s.b.queuesEmpty && s.b.enginesDone && !(s.b.eng.any fun e => e.fltDue) && areaFits .yield s then
    let s1 := (retire 1 s.drain).passFront 3
    let s2 := dropLease s.b.core s.b.bur (writeArea .yield s1)
    .next (checkRequests (leaveCore { s1.b with status := .yielded, yrq := false, area := (saveImage .yield s1).length } s2))
  else .next s

end Sys2Proof.Machine
end

