-- ==== Sys2Proof/Machine/Launch.lean ====
section
/-! DEFINITION. Launching: the image header and row table, reservations and budgets, bind records, dispatch, and eviction and
resumption of burners (spec/10_assembly_language.md R244, R245; spec/15_scheduling.md R351, R356-R363;
spec/16_traps_preemption_checkpoint.md R378-R380; spec/09_core_and_queues.md R208, R217). -/
namespace Sys2Proof.Machine

/-! ## The kernel header (R245) -/

def hdTlen (h : Nat) : Nat := fld h 64 32
def hdDcnt (h : Nat) : Nat := fld h 96 32
def hdL (h : Nat) : Nat := fld h 128 7
def hdX (h : Nat) : Nat := fld h 136 8
def hdS (h : Nat) : Nat := fld h 144 7
def hdAcc (h : Nat) : Nat := fld h 152 3
def hdOps (h : Nat) : Nat := fld h 156 4
def hdTok (h k : Nat) : Nat := fld h (160 + 5 * k) 5
/-- Entries of engine u: copy, gather, collective, weight port. -/
def hdEng (h u : Nat) : Nat :=
  match u with
  | 0 => fld h 192 5
  | 1 => fld h 197 4
  | 2 => fld h 201 4
  | _ => fld h 205 4
def hdRuns (h : Nat) : Nat := fld h 224 17
def hdRcp (h : Nat) : Nat := fld h 256 7
def hdInb (h : Nat) : Nat := fld h 264 6
def hdHolds (h : Nat) : Nat := fld h 272 11
def hdBmask (h : Nat) : Nat := fld h 288 16
def hdCmask (h : Nat) : Nat := fld h 304 16
def hdBfmt (h b : Nat) : Nat := fld h (512 + 16 * b) 16

/-- Every field of the header in range (R357). -/
def headerOk (h : Nat) : Bool :=
  fld h 0 32 == 0x0C644B48 && fld h 32 16 == 1 && fld h 48 2 != 2 && fld h 50 14 == 0 && fld h 135 1 == 0 && fld h 151 1 == 0 &&
    fld h 155 1 == 0 && fld h 190 2 == 0 && fld h 209 15 == 0 && fld h 241 15 == 0 && fld h 263 1 == 0 && fld h 270 2 == 0 &&
    fld h 283 5 == 0 && fld h 320 192 == 0 && fld h 768 256 == 0 &&
    hdTlen h % 4 == 0 && decide (4 ≤ hdTlen h) && decide (hdTlen h ≤ 262144) && decide (hdDcnt h ≤ 1536) &&
    decide (hdL h ≤ 64) && decide (hdX h ≤ 128) && decide (hdS h ≤ 64) && decide (hdAcc h ≤ 4) && decide (hdOps h ≤ 8) &&
    ((List.range 6).all fun k => decide (hdTok h k ≤ 16)) && decide (hdEng h 0 ≤ 16) && decide (hdEng h 1 ≤ 8) &&
    decide (hdEng h 2 ≤ 8) && decide (hdEng h 3 ≤ 8) && decide (hdRuns h ≤ 65536) && decide (hdRcp h ≤ 64) &&
    decide (hdInb h ≤ 32) && decide (hdHolds h ≤ 1024) && hdCmask h &&& hdBmask h == hdCmask h &&
    (List.range 16).all fun b => hdBfmt h b / 2 ^ 12 == 0 && bfmtOk (w32 (hdBfmt h b)) && ((hdBmask h).testBit b || hdBfmt h b == 0)

/-- Rows of the table name banks of the partition, no inbox row, none twice. -/
def rowTableOk (bmask : Nat) : List Nat → List Nat → Bool
  | _, [] => true
  | seen, r :: rs => decide (r < 2048) && !isInbox r && bmask.testBit (bankOf r) && !seen.contains r && rowTableOk bmask (r :: seen) rs

/-- Bytes of an image, which stands in translated space. -/
def readImage (v : Via) (va n : Nat) (s : State) : Except AErr (State × List Byte) :=
  if !inTranslated va then .error (.cause .vaRange)
  else match rdVA s v s.b va n with
    | .error e => .error e.1
    | .ok x => .ok x
/-- The words of a row table. -/
def readTable (v : Via) (image tlen n : Nat) (s : State) : Except AErr (State × List Nat) :=
  match readImage v (image + 128 + tlen) (4 * n) s with
  | .error e => .error e
  | .ok (s1, bs) => .ok (s1, (wordsOfBytes bs n).map (·.toNat))
/-- Where the row images begin: the next multiple of 256 as a byte offset in the image (R244). -/
def imagesAt (image tlen n : Nat) : Nat := image + (128 + tlen + 4 * n + 255) / 256 * 256

/-- The cause code a failed read reports (R355, R418). -/
def imgCause (e : AErr) : Nat :=
  match e with
  | .cause c => c.code
  | .poisoned _ => 0x50
  | .pause | .want _ _ _ => 0
/-- A poisoned row that a read found kills the domain that found it (R418). -/
def imgFound (e : AErr) (fd : Nat) (s : State) : State :=
  match e with
  | .poisoned row => s.due (.uncorrectedError row fd)
  | _ => s

/-! ## Reservations (R357) -/

/-- What a burner reserves on its core. -/
structure Need where
  l : Nat
  x : Nat
  s : Nat
  acc : Nat
  ops : Nat
  eng : List Nat
  bmask : Nat
  inb : Nat
  runs : Nat
  tlen : Nat
  holds : Nat
deriving DecidableEq, Repr

def needOf (h : Nat) : Need :=
  ⟨hdL h, hdX h, hdS h, hdAcc h, hdOps h, (List.range 4).map (hdEng h), hdBmask h, hdInb h, hdRuns h, hdTlen h, hdHolds h⟩
/-- What a bound burner has reserved. -/
def Burner.need (b : Burner) : Need :=
  ⟨b.resL, b.resX, b.resS, b.resAcc, b.resOps, (List.range 4).map fun u => (b.unit u).limit, (b.rowq.extractLsb' 0 16).toNat,
    b.inbCnt, b.runq, b.tlen, b.holdsMax⟩
/-- The other burner of a slot, when it is bound. -/
def State.beside (s : State) (core bur : Nat) : Option Burner := s.all.find? fun b => b.is core (1 - bur) && b.placed
def State.slotFree (s : State) (core bur : Nat) : Bool := !s.all.any fun b => b.is core bur && b.placed

/-- The lowest BASE at which n inbox rows are free of the other burner's (R208). -/
def inboxBase (n : Nat) (o : Option Burner) : Option Nat :=
  let (ob, oc) := match o with
    | some b => (b.inbBase, b.inbCnt)
    | none => (0, 0)
  (List.range 32).find? fun a => decide (a + n ≤ 32) && (n == 0 || oc == 0 || decide (a + n ≤ ob) || decide (ob + oc ≤ a))

/-- The first resource of the table that a core lacks, 0 for none; `inboxOk` judges the inbox rows. -/
def lacks (n : Need) (o : Option Burner) (inboxOk : Bool) : Nat :=
  let z : Need := ⟨0, 0, 0, 0, 0, [0, 0, 0, 0], 0, 0, 0, 0, 0⟩
  let m := match o with
    | some b => b.need
    | none => z
  let e (u : Nat) : Nat := n.eng.getD u 0 + m.eng.getD u 0
  if 64 < n.l + m.l then 1 else if 128 < n.x + m.x then 2 else if 64 < n.s + m.s then 3 else if 4 < n.acc + m.acc then 4
  else if 8 < n.ops + m.ops then 5 else if 16 < e 0 then 9 else if 8 < e 1 then 10 else if 8 < e 2 then 11 else if 8 < e 3 then 12
  else if n.bmask &&& m.bmask != 0 then 6 else if !inboxOk then 7 else if 65536 < n.runs + m.runs then 8
  else if 262144 < n.tlen + m.tlen then 13 else 0

/-- The burner a launch takes on a core: BUR 0, 1, or either. -/
def pickBur (h core : Nat) (s : State) : Option Nat :=
  let want := fld h 48 2
  if want != 1 && s.slotFree core 0 then some 0 else if want != 0 && s.slotFree core 1 then some 1 else none

/-- The slots of a launch, or the DETAIL that refuses it (R355). -/
def pickSlots (h : Nat) (s : State) : List Nat → Except Nat (List (Nat × Nat))
  | [] => .ok []
  | c :: cs =>
    let no (k : Nat) : Except Nat (List (Nat × Nat)) := .error (c * 2 ^ 16 + k)
    if s.fenced.contains c then no 15
    else match pickBur h c s with
      | none => no 14
      | some r =>
        let o := s.beside c r
        match lacks (needOf h) o (inboxBase (hdInb h) o).isSome with
        | 0 => match pickSlots h s cs with
          | .error e => .error e
          | .ok t => .ok ((c, r) :: t)
        | k => no k

/-- Scratchpad rows of a bank mask (R34). -/
def rowsOf (bmask : Nat) : Nat := sumNat ((List.range 16).map fun b => if bmask.testBit b then (if b = 15 then 64 else 96) else 0)
/-- What a burner counts against the budget of group k. -/
def needBudget (k : Nat) (n : Need) : Nat :=
  match k with
  | 5 => 1
  | 6 => rowsOf n.bmask
  | 7 => n.runs
  | 8 => n.l + n.x + n.s
  | 9 => n.holds
  | _ => 0
/-- What burners of cores `cs`, each with need n, would make of the use of group k by node pa's subtree (R351, R357). -/
def budgetUse (pa k : Nat) (n : Need) (cs : List Nat) (s : State) : Nat :=
  let bs := s.all.filter fun b => b.placed && b.under pa
  if k = 4 then (firstSeen (bs.map (·.core) ++ cs)).length
  else sumNat (bs.map fun b => needBudget k b.need) + cs.length * needBudget k n
def budgetFits (g : Region) (k : Nat) (n : Need) (cs : List Nat) (s : State) : Bool :=
  g.chain.all fun pa => decide (budgetUse pa k n cs s ≤ g.budget pa k)
/-- The DETAIL of the first budget that a launch exceeds: its group, and the core at which the running sum first exceeds it. -/
def budgetFail (g : Region) (n : Need) (cs : List Nat) (s : State) : Option Nat :=
  match [4, 5, 6, 7, 8, 9].find? fun k => !budgetFits g k n cs s with
  | none => none
  | some k =>
    let i := ((List.range cs.length).find? fun i => !budgetFits g k n (cs.take (i + 1)) s).getD 0
    some (cs.getD i 0 * 2 ^ 16 + 16 + k)

/-- Every test of R357: the slots, or DETAIL. -/
def reserve (g : Region) (h first count : Nat) (s : State) : Except Nat (List (Nat × Nat)) :=
  match pickSlots h s ((List.range count).map (first + ·)) with
  | .error d => .error d
  | .ok ps => match budgetFail g (needOf h) (ps.map (·.1)) s with
    | some d => .error d
    | none => .ok ps

/-! ## Fronts at dispatch (R217, R362) -/

/-- A burner of any core leaves the front at a cut. -/
def cutOut (core bur why : Nat) (s : State) : State :=
  let c := s.b.core
  let r := s.b.bur
  match s.find core bur with
  | none => s
  | some b => if b.front then ((s.focus core bur).passFront why).focus c r else s

/-- A burner that begins to run on its core becomes front when none is, or when the front one has strictly lower priority; a cut
of that one passes the front to it. -/
def startBurner (s : State) (p : Nat × Nat) : State :=
  match s.find p.1 p.2 with
  | none => s
  | some b =>
    match s.all.find? fun o => o.core == p.1 && o.front with
    | none => becomeFront p.1 p.2 s
    | some o => if o.region.prio < b.region.prio then cutOut o.core o.bur 2 s else s

/-! ## Bind records (R358) -/

def State.putBurner (s : State) (b : Burner) : State :=
  if s.b.is b.core b.bur then { s with b := b }
  else if s.others.any (·.is b.core b.bur) then { s with others := s.others.map fun o => if o.is b.core b.bur then b else o }
  else { s with others := s.others ++ [b] }

def bindRecord (b : Burner) : BitVec 512 :=
  BitVec.ofNat 512 (b.rank * 2 ^ 464 + b.count * 2 ^ 448 + b.ibase * 2 ^ 432 + b.rowq.toNat * 2 ^ 400 + b.qres.toNat * 2 ^ 368 +
    (b.inbq.toNat % 2 ^ 14) * 2 ^ 354 + b.runq * 2 ^ 337 + b.arg.toNat * 2 ^ 192 + b.image.toNat * 2 ^ 128 + b.region.rcb * 2 ^ 64 + 1)

/-- Where a burner's text stands in instruction memory: burner 0's at its start, burner 1's at its end (R358; log 20). -/
def ibaseOf (bur tlen : Nat) : Nat := if bur = 0 then 0 else 65536 - tlen / 4

/-- BFMT0 to BFMT15 at bind: BFMTI of the header (R245, R359). -/
def bindBfmt (h : Nat) : Vector Word 16 := Vector.ofFn fun k : Fin 16 => w32 (hdBfmt h k.val % 2 ^ 12)

/-- The reservations and bind values of burner i of a launch (R359 steps 2 and 4). -/
def boundBurner (g : Region) (h core bur i count launch node : Nat) (arg image : DWord) (inb : Nat) : Burner :=
  let f := Burner.fresh core bur
  let eng (u : Nat) (e : Eng) : Eng := { e with limit := hdEng h u }
  { f with
    status := .starting, tlen := hdTlen h, ibase := ibaseOf bur (hdTlen h)
    s := (((f.s.set 0 (lo32 arg)).set 1 (hi32 arg)).set 2 (w32 ((g.rankBase + i) % 65536))).set 3 (w32 count)
    bfmt := bindBfmt h
    rowq := w32 (hdCmask h * 2 ^ 16 + hdBmask h)
    qres := w32 (hdOps h * 2 ^ 25 + hdAcc h * 2 ^ 22 + hdL h * 2 ^ 15 + hdX h * 2 ^ 7 + hdS h)
    runq := hdRuns h, inbq := w32 (hdInb h * 2 ^ 8 + inb), rcp := hdRcp h, holdsMax := hdHolds h
    eng := (((f.eng.set 0 (eng 0 f.eng[0])).set 1 (eng 1 f.eng[1])).set 2 (eng 2 f.eng[2])).set 3 (eng 3 f.eng[3])
    region := g, rank := (g.rankBase + i) % 65536, count := count, arg := arg, image := image, launch := launch
    tokf := fld h 160 30, node := node }

/-- The bind records of a launch, written before any is carried out (R360). -/
def writeBinds (g : Region) (h count launch node : Nat) (arg image : DWord) : Nat → List (Nat × Nat) → State → State
  | _, [], s => s
  | i, (c, r) :: ps, s =>
    let b := boundBurner g h c r i count launch node arg image ((inboxBase (hdInb h) (s.beside c r)).getD 0)
    let s1 := s.putBurner b
    let k := slotOf c r
    writeBinds g h count launch node arg image (i + 1) ps
      { s1 with slots := tabSet s1.slots k (bindRecord b), pending := s1.pending ++ [.dispatchBind k] }

/-! ## Leaving a core: unbinding (R361) -/

/-- What stands on a core when its burner is unbound: no reservations, no work and no launch; its registers until the next bind
sets them (R361; log 123). -/
def Burner.leftOver (b : Burner) : Burner :=
  { b with
    status := .unbound, loaded := false, front := false, lend := false, wait := none, rowq := 0, qres := 0, runq := 0, inbq := 0
    rcp := 0, holdsMax := 0, ql := [], qx := [], qs := [], cq := [], cqc := [], sbuf := [], stPend := [], inbox := [], inbPopped := 0
    eng := Vector.replicate 4 {}, enrolled := false, membs := [], region := {}, launch := 0, yrq := false, pw := false, ovPage := 0
    bypass := [], pfx := none, auto := false, area := 0 }

/-- A burner is unbound: its reservations return, its place is free, and its rows stand until another burner is bound to them
(R361); its pantry memberships go with its removal, and the groups keep it as a member without a burner. -/
def unbindBurner (core bur : Nat) (s : State) : State :=
  let s := cutOut core bur 2 s
  match s.find core bur with
  | none => s
  | some b =>
    let slot := slotOf core bur
    let s := s.freeLoads b.loads
    let k := takeKey core (dropLease core bur s)
    let s1 := renameBurner core bur k.1 bur k.2
    let s2 := s1.modAt core bur Burner.leftOver
    let mine (a : Instr) : Bool := a == .dispatchBind slot || a == .dispatchUnbind slot || a == .dispatchEvict slot
    let s3 := setOp slot 0 0 { s2 with pending := s2.pending.filter fun a => !mine a }
    if b.membs.isEmpty then s3
    else
      let left : Burner := { Burner.fresh k.1 bur with membs := b.membs, region := b.region }
      { s3 with saved := s3.saved ++ [left], pending := s3.pending ++ [.pantryRemoval k.1 bur] }

/-- A burner of a launch has ended; with its last one the launch completes, or its list goes on (R355, R356, R361). -/
def launchEnds (id status detail : Nat) (s : State) : State :=
  match s.launches.find? (·.id == id) with
  | none => s
  | some l =>
    let l := if l.status = csDone && status != csDone then { l with status := status, detail := detail } else l
    if 1 < l.left then { s with launches := s.launches.map fun x => if x.id == id then { l with left := l.left - 1 } else x }
    else if l.status != csDone then finishLaunch l l.status l.detail s
    else match l.list with
      | none => finishLaunch l csDone l.count s
      | some _ => { s with launches := s.launches.map fun x => if x.id == id then { l with left := 0 } else x
                           pending := s.pending ++ [.commandListNode id] }

/-! ## Eviction and resumption (R362, R380) -/

/-- A started command of the copy or gather engine or the weight port that has neither completed nor faulted; a load that waits
counts as not started (R116). -/
def Burner.engineBusy (b : Burner) : Bool :=
  [0, 1, 3].any fun u => match (b.unit u).fifo with
    | p :: _ => p.started && (b.unit u).flt.isNone && !(b.unit u).waitFrom
    | [] => false

/-- A started collective that has neither completed nor faulted. -/
def Burner.collBusy (b : Burner) : Bool :=
  match (b.unit 2).fifo with
  | p :: _ => p.started && (b.unit 2).flt.isNone
  | [] => false

/-- Cells of a burner's partition and inbox rows. -/
def partitionCells (b : Burner) (m : Memory) : Memory :=
  let base := rowAddr b.core 0
  m.filter fun c => decide (base ≤ c.1) && decide (c.1 < base + 0x60000) &&
    let row := (c.1 - base) / 256
    if isInbox row then decide (b.inbBase ≤ row - 1504) && decide (row - 1504 < b.inbBase + b.inbCnt) else b.owns (bankOf row)

/-- The waiting request of a WLOADC withdrawn at an eviction: it counts as never started (R116, R440). -/
def Burner.withdrawPort (b : Burner) : Burner :=
  let g := b.unit 3
  if g.waitFrom && g.load.isNone then
    b.setUnit 3 { g with waitFrom := false, fifo := match g.fifo with
      | p :: t => { p with started := false } :: t
      | [] => [] }
  else b
/-- The burner is evicted at its cut: everything private to it and its rows are kept, its save area is written, its core is
freed. -/
def evictBurner (auto : Bool) (core bur : Nat) (s : State) : State :=
  let c := s.b.core
  let r := s.b.bur
  let s1 := ((cutOut core bur 2 s).focus core bur).modB Burner.withdrawPort
  let rows := partitionCells s1.b s1.mesh
  let k := s1.nextLaunch * 1024 + core
  let s2 := leaveCore { s1.b with auto := auto, area := (saveImage .eviction s1).length } (dropLease core bur (writeArea .eviction s1))
  { s2 with savedRows := s2.savedRows ++ [(k, bur, rows)] }.focus c r

/-- Whether a burner off its core finds room at (core, bur); an evicted one keeps its inbox rows. -/
def roomFor (b : Burner) (core bur : Nat) (s : State) : Option Nat :=
  let o := s.beside core bur
  let place := inboxBase b.inbCnt o
  let fits := b.inbCnt == 0 || (match o with
    | none => true
    | some x => x.inbCnt == 0 || decide (b.inbBase + b.inbCnt ≤ x.inbBase) || decide (x.inbBase + x.inbCnt ≤ b.inbBase))
  let ok := if b.status = .yielded then place.isSome else fits
  if s.fenced.contains core || !s.slotFree core bur || lacks b.need o ok != 0 ||
      (budgetFail b.region b.need [core] s).isSome then none
  else some (if b.status = .yielded then place.getD 0 else b.inbBase)

/-- What dispatch loads from an image for a burner that it binds: its header, the text, and each row of the table that p keeps. -/
def loadImage (b : Burner) (p : Nat → Bool) (s : State) : Except AErr (State × Nat × Memory) :=
  let v : Via := Via.dev b.region b.die
  let a := b.image.toNat
  let bound (s : State) : State := s.modAt b.core b.bur fun x => { x with loaded := true }
  match readImage v a 128 s with
  | .error e => .error e
  | .ok (s0, hb) =>
    let h := natOfBytes hb
    let n := min (hdDcnt h) 1536
    match readImage v (a + 128) b.tlen s0 with
    | .error e => .error e
    | .ok (s1, text) => match readTable v a b.tlen n s1 with
      | .error e => .error e
      | .ok (s2, rows) => match readImage v (imagesAt a b.tlen n) (256 * n) s2 with
        | .error e => if n = 0 then .ok (bound s2, h, Memory.setBytes [] 0 text) else .error e
        | .ok (s3, imgs) =>
          let put (m : Memory) (x : Nat × List Byte) : Memory :=
            if !isInbox x.1 && b.owns (bankOf x.1) && p x.1 then m.setBytes (rowAddr b.core x.1) x.2 else m
          .ok (bound { s3 with mesh := (List.zip rows (chunks 256 imgs)).foldl put s3.mesh }, h, Memory.setBytes [] 0 text)

/-- The boot mailbox of a burner's slot: IMAGE, ARG, RANK and COUNT (R359). -/
def bootMail (b : Burner) : BitVec 256 :=
  BitVec.ofNat 256 (b.image.toNat + b.arg.toNat * 2 ^ 64 + b.rank * 2 ^ 128 + b.count * 2 ^ 192)
/-- What a bind that has been carried out leaves of its record and mailbox (R358, R359). -/
def recordBound (b : Burner) (s : State) : State :=
  let k := slotOf b.core b.bur
  setOp k 0 0 { s with slots := tabSet s.slots k (bindRecord b), mail := tabSet s.mail k (bootMail b) }

/-- A burner taken back onto a core; a yielded one with its bind values but for s0 to s7 and the PC (R379). -/
def bindAgain (b : Burner) (core bur inb : Nat) (s : State) : State :=
  let k := b.core
  let kr := b.bur
  let s1 := renameBurner k kr core bur { s with saved := s.saved.filter fun x => !x.is k kr }
  if b.status = .yielded then
    let f := Burner.fresh core bur
    let keep (n : Nat) : Word := if h : n < 64 then (if n < 8 then b.s[n] else 0) else 0
    let x : Burner := { f with
      status := .running, tlen := b.tlen, ibase := ibaseOf bur b.tlen, s := Vector.ofFn fun n : Fin 64 => keep n.val, pc := b.pc
      rowq := b.rowq, qres := b.qres, runq := b.runq, inbq := w32 (b.inbCnt * 2 ^ 8 + inb), rcp := b.rcp, holdsMax := b.holdsMax
      membs := b.membs, region := b.region, rank := b.rank, count := b.count, arg := b.arg, image := b.image
      launch := b.launch, tokf := b.tokf, node := b.node, told := b.told
      eng := Vector.ofFn fun u : Fin 4 => { limit := (b.unit u.val).limit } }
    let s2 := recordBound x (clearPartition x (s1.putBurner x))
    match loadImage x (fun row => x.const (bankOf row)) s2 with
    | .error _ => s
    | .ok (s3, h, text) => startBurner (s3.modAt core bur fun y => { y with text := text, bfmt := bindBfmt h }) (core, bur)
  else
    let rows := (s.savedRows.filter fun x => x.1 == k && x.2.1 == kr).flatMap (·.2.2)
    let x : Burner := { b with core := core, bur := bur, auto := false, area := 0 }
    let s2 := clearPartition x { s1 with savedRows := s1.savedRows.filter fun x => !(x.1 == k && x.2.1 == kr) }
    let s3 := recordBound x ({ s2 with mesh := rows.foldl (fun (m : Memory) (c : Host.Cell) => m.set c.1 c.2) s2.mesh }.putBurner x)
    if b.status = .running then startBurner s3 (core, bur) else s3

/-- One burner off its core is bound again where it may be: an evicted one in its own place, a yielded one on a core with room,
chosen at run time. -/
def tryBind (b : Burner) (s : State) : State :=
  if b.status = .yielded then
    let ps := ((List.range 1280).map fun k => (k / 2, k % 2)).filter fun p => (roomFor b p.1 p.2 s).isSome
    if ps.isEmpty then s
    else
      let (x, s1) := s.draw
      let p := ps.getD (x % ps.length) (0, 0)
      bindAgain b p.1 p.2 ((roomFor b p.1 p.2 s).getD 0) s1
  else match roomFor b (b.core % 1024) b.bur s with
    | some i => bindAgain b (b.core % 1024) b.bur i s
    | none => s

/-- Burners by priority, highest first. -/
def byPrio (bs : List Burner) : List Burner :=
  (List.range 16).reverse.flatMap fun p => bs.filter fun b => b.region.prio == p
/-- Burners off their cores that are to be bound again: evicted to make room, or asked for by a RESUME (R362, R380). -/
def State.toResume (s : State) : List Burner :=
  s.saved.filter fun b => b.status != .unbound && (b.auto || s.launches.any fun l => l.op == 6 && b.under l.rcb)
/-- Whether a launch still waits for the evictions it asked for: what they free is kept for it (R362; log 121). -/
def State.roomKept (s : State) : Bool := s.launches.any fun l => l.todo.any fun t => !t.want.isEmpty
/-- Burners off their cores are bound again where they can be, highest priority first. -/
def resumeSome (s : State) : State :=
  checkRequests (if s.roomKept then s else (byPrio s.toResume).foldl (fun s b => tryBind b s) s)

/-- Burners that a launch of region g may have evicted to make room (R362): each has room for its save area (log 115). -/
def mayEvict (g : Region) (s : State) (b : Burner) : Bool :=
  b.bound && b.status != .frozen && b.status != .halted && b.status != .starting && !b.region.sys &&
    decide (b.region.prio < g.prio) && areaFits .eviction (s.focus b.core b.bur)
/-- The device as a reservation sees it without some burners. -/
def State.without (s : State) (ks : List (Nat × Nat)) : State :=
  s.modWhere (fun b => ks.contains (b.core, b.bur)) fun b => Burner.fresh b.core b.bur
/-- Whether the save areas of some burners fit together (R349, R378; log 115). -/
def areasFit (ks : List (Nat × Nat)) (s : State) : Bool :=
  let bs := s.all.filter fun b => ks.contains (b.core, b.bur)
  let len (b : Burner) : Nat := (saveImage .eviction (s.focus b.core b.bur)).length
  bs.all fun b => b.region.chain.all fun pa =>
    decide (sumNat ((s.saved.filter (·.under pa)).map (·.area)) + sumNat ((bs.filter (·.under pa)).map len) ≤ b.region.budget pa 3)
/-- A first choice among burners that satisfies p, those in `ks` taken. -/
def chooseOut (p : List (Nat × Nat) → Bool) : List (Nat × Nat) → List (Nat × Nat) → Option (List (Nat × Nat))
  | [], ks => if p ks then some ks else none
  | x :: xs, ks => match chooseOut p xs ks with
    | some r => some r
    | none => chooseOut p xs (ks ++ [x])
/-- The slots a launch has evicted: the policy's choice, else as few as the order of the burners leaves, else the first whose
save areas fit; none when no choice suffices (R362; log 12). -/
def evictRoom (g : Region) (h first count id : Nat) (s : State) : Option (List Nat) :=
  let fits (ks : List (Nat × Nat)) : Bool := match reserve g h first count (s.without ks) with
    | .ok _ => true
    | .error _ => false
  let able := (s.all.filter (mayEvict g s)).map fun b => (b.core, b.bur)
  let policy := able.filter (Config.evictPolicy id).contains
  let few := able.foldl (fun ks p => if fits (ks.erase p) then ks.erase p else ks) able
  let slots (ks : List (Nat × Nat)) : List Nat := ks.map fun p => slotOf p.1 p.2
  let ok (ks : List (Nat × Nat)) : Bool := fits ks && areasFit ks s
  if ok policy then some (slots policy)
  else if !fits able then none
  else if areasFit few s then some (slots few)
  else (chooseOut ok able []).map slots

/-! ## LAUNCH (R357) -/

/-- What a launch record comes to: a refusal, the state with its bind records and how many there are, or evictions that it waits
for with its header read. -/
inductive Verdict where
  | refused (status detail : Nat) (s : State)
  | bound (n : Nat) (s : State)
  | evict (h : Nat) (slots : List Nat) (s : State)

/-- The reservations of a launch whose header is read: bind records, evictions when EVOK allows them, or a refusal (R357,
R362). -/
def placeLaunch (x : Todo) (h id : Nat) (s : State) : Verdict :=
  let r := x.ask
  match reserve x.region h (recFirst r) (recCount r) s with
  | .ok ps => .bound ps.length (writeBinds x.region h (recCount r) id x.node (w64 (recP2 r)) (w64 (recP1 r)) 0 ps s)
  | .error d =>
    if !recEvok r then .refused csNoReserve d s
    else match evictRoom x.region h (recFirst r) (recCount r) id s with
      | some ks => .evict h ks s
      | none => .refused csNoReserve d s

/-- One launch record: header, row table, reservations, bind records. -/
def tryLaunch (x : Todo) (id : Nat) (s : State) : Verdict :=
  let r := x.ask
  let v : Via := Via.dev x.region (recFirst r / 160)
  let a := recP1 r
  let bad (e : AErr) : Verdict := .refused csImageFault (imgCause e) (imgFound e x.region.fd s)
  match readImage v a 128 s with
  | .error e => bad e
  | .ok (s1, hb) =>
    let h := natOfBytes hb
    if !headerOk h then .refused csImageInvalid 0 s1
    else match readTable v a (hdTlen h) (hdDcnt h) s1 with
      | .error e => bad e
      | .ok (s2, rows) =>
        if !rowTableOk (hdBmask h) [] rows then .refused csImageInvalid 0 s2 else placeLaunch x h id s2

/-- A launch taken up. -/
def openLaunch (q : Nat) (r : Rec512) (g : Region) (list : Option (Nat × Nat)) (s : State) : Launch × State :=
  let l : Launch := { id := s.nextLaunch, q := q, op := recOp r, tag := recTag r, rcb := recP0 r, region := g, list := list }
  (l, { s with launches := s.launches ++ [l], nextLaunch := s.nextLaunch + 1 })
def State.modLaunch (id : Nat) (f : Launch → Launch) (s : State) : State :=
  { s with launches := s.launches.map fun l => if l.id == id then f l else l }
/-- n burners more to bind and to end. -/
def addBinds (id n : Nat) (s : State) : State :=
  s.modLaunch id fun l => { l with toBind := n, left := n, count := l.count + n, todo := none }

/-- Burners asked to leave their cores: evict bind records (R358, R362). -/
def askEvict (s : State) (slot : Nat) : State := (setOp slot 3 0 s).due (.dispatchEvict slot)
/-- A launch goes on with what its record came to. -/
def settleLaunch (l : Launch) (x : Todo) : Verdict → State
  | .refused st d s => finishLaunch l st d s
  | .bound n s => addBinds l.id n s
  | .evict h ks s => ks.foldl askEvict (s.modLaunch l.id fun l => { l with todo := some { x with hdr := some h, want := ks } })

/-- Evicted burners that are bound again before any launch of priority p (R362). -/
def State.resumesFirst (s : State) (p : Nat) : Bool := s.toResume.any fun b => decide (p ≤ b.region.prio)
/-- A launch's record is carried out once no evicted burner comes before it, and no other launch waits for evictions. -/
def startLaunch (l : Launch) (x : Todo) (s : State) : State :=
  let s1 := if s.resumesFirst x.region.prio then resumeSome s else s
  if s1.resumesFirst x.region.prio || s1.roomKept then s1.modLaunch l.id fun l => { l with todo := some x }
  else settleLaunch l x (tryLaunch x l.id s1)

/-- A launch that waits may go on: the evictions it asked for are done, and a burner that halted instead is unbound; or no
evicted burner and no other launch's evictions come before it. -/
def launchReady (s : State) (l : Launch) : Bool :=
  match l.todo with
  | none => false
  | some x => if x.hdr.isSome then !x.want.any fun k => s.pending.contains (.dispatchEvict k) || s.pending.contains (.dispatchUnbind k)
    else !s.resumesFirst x.region.prio && !s.roomKept
/-- It goes on. -/
def goOnLaunch (id : Nat) (s : State) : State :=
  match s.launches.find? (·.id == id) with
  | none => s
  | some l => match l.todo with
    | none => s
    | some x => match x.hdr with
      | some h => settleLaunch l x (placeLaunch x h id s)
      | none => settleLaunch l x (tryLaunch x id s)

/-- LAUNCH (R354, R357). -/
def execLaunch (q : Nat) (r : Rec512) (s : State) : Outcome :=
  if !recordOk' r then .next (complete q r csBadRecord 0 s)
  else match s.readRegion (recP0 r) with
    | none => .next (complete q r csRcbInvalid 0 (s.rcbFound (recP0 r)))
    | some g =>
      let (l, s1) := openLaunch q r g none s
      .next (startLaunch l { ask := r, node := 0, region := g } s1)

/-! ## Command lists (R356) -/

/-- COMMAND_LIST_NODE (R356): the next record of the list is launched; the list ends at its NOP or at the first node that does
not complete DONE. -/
def execCommandListNode (id : Nat) (s : State) : Outcome :=
  match s.launches.find? (·.id == id) with
  | none => .next s
  | some l => match l.list with
    | none => .next s
    | some (base, node) =>
      let v : Via := Via.dev l.region 0
      match readImage v (base + 64 * node) 64 s with
      | .error e => .next (finishLaunch l csImageFault (imgCause e) (imgFound e l.region.fd s))
      | .ok (s1, bs) =>
        let r : Rec512 := BitVec.ofNat 512 (natOfBytes bs)
        if recOp r = 0 then .next (finishLaunch l csDone l.count s1)
        else if recOp r != 1 || recList r || !recordOk' r then .next (finishLaunch l csBadRecord 0 s1)
        else match s1.readRegion (recP0 r) with
          | none => .next (finishLaunch l csRcbInvalid 0 (s1.rcbFound (recP0 r)))
          | some g => .next (startLaunch l { ask := r, node := node, region := g }
              (s1.modLaunch id fun x => { x with list := some (base, node + 1) }))

/-- LAUNCH_LIST (R354, R356): the list at the CMDPTR of the RCB itself. -/
def execLaunchList (q : Nat) (r : Rec512) (s : State) : Outcome :=
  if !recordOk' r then .next (complete q r csBadRecord 0 s)
  else match s.readRegion (recP0 r), s.rcbAt (recP0 r) with
    | some g, some n =>
      let (l, s1) := openLaunch q r g (some (fld n 128 64, 0)) s
      .next { s1 with pending := s1.pending ++ [.commandListNode l.id] }
    | _, _ => .next (complete q r csRcbInvalid 0 (s.rcbFound (recP0 r)))

/-! ## Dispatch (R359-R361) -/

/-- The burner joins its barrier groups (R363). -/
def joinGroups (b : Burner) (s : State) : State :=
  (List.range b.region.bgCnt).foldl (fun s i =>
    let g := s.group (b.region.bgBase + i)
    s.setGroup { g with mems := g.mems ++ [{ core := b.core, bur := b.bur, rank := b.rank, fd := b.region.fd }] }) s

/-- The burners of a launch that could not be loaded are unbound, and are members of no group. -/
def undoLaunch (id : Nat) (s : State) : State :=
  (s.all.filter fun b => b.launch == id && b.status == .starting).foldl (fun s b =>
    unbindBurner b.core b.bur { s with groups := s.groups.map fun g =>
      { g with mems := g.mems.filter fun m => !(m.core == b.core && m.bur == b.bur) } }) s

/-- A burner that has started and is to be evicted has its evict bind record by then (R354, R358). -/
def evictAsked (s : State) (p : Nat × Nat) : State :=
  let k := slotOf p.1 p.2
  if s.pending.contains (.dispatchEvict k) then setOp k 3 0 s else s
/-- DISPATCH_BIND (R359): mailbox, image, registers; with the last bind of its launch every burner of it starts (R360). -/
def execDispatchBind (slot : Nat) (s : State) : Outcome :=
  let core := slot / 2
  let bur := slot % 2
  match s.find core bur with
  | none => .next s
  | some b =>
    if b.status != .starting || (tabGet 0 s.slots slot).extractLsb' 0 2 != 1 then .next s
    else
      let s1 := clearPartition b { s with mail := tabSet s.mail slot (bootMail b) }
      match loadImage b (fun _ => true) s1 with
      | .error e =>
        let s2 := undoLaunch b.launch (imgFound e b.region.fd s1)
        let s3 := setOp slot 0 (2 ^ 16 + imgCause e) s2
        match s3.launches.find? (·.id == b.launch) with
        | none => .next s3
        | some l => .next (resumeSome (finishLaunch l csImageFault (imgCause e) s3))
      | .ok (s2, _, text) =>
        let s3 : State := setOp slot 0 0 (joinGroups b (s2.modAt core bur fun x => { x with text := text }))
        let s4 := s3.modLaunch b.launch fun l => { l with toBind := l.toBind - 1 }
        if s4.launches.any fun l => l.id == b.launch && l.toBind != 0 then .next s4
        else
          let mine := (s4.all.filter fun x => x.launch == b.launch && x.status == .starting).map fun x => (x.core, x.bur)
          .next (mine.foldl evictAsked (mine.foldl startBurner (s4.modWhere (fun x => x.launch == b.launch && x.status == .starting) fun x =>
            { x with status := .running })))

/-- DISPATCH_UNBIND (R361): a halted burner is unbound. -/
def execDispatchUnbind (slot : Nat) (s : State) : Outcome :=
  match s.find (slot / 2) (slot % 2) with
  | none => .next s
  | some b =>
    if b.status != .halted then .next s
    else .next (resumeSome (launchEnds b.launch csDone 0 (unbindBurner b.core b.bur s)))

/-- Whether a slot is evicted only to make room for a launch, and not by an EVICT record. -/
def State.evictedForRoom (s : State) (slot : Nat) : Bool :=
  (s.launches.any fun l => l.todo.any fun t => t.want.contains slot) && !s.launches.any fun l => l.op == 5 && l.slots.contains slot

/-- DISPATCH_EVICT (R380): a burner that is not FROZEN is evicted at its cut, once its started commands have ended and its save
area has room (log 115). -/
def execDispatchEvict (slot : Nat) (s : State) : Outcome :=
  match s.find (slot / 2) (slot % 2) with
  | none => .next (checkRequests s)
  | some b =>
    if !b.placed || b.status = .frozen || b.status = .halted then .next (checkRequests s)
    else if b.status = .starting || b.engineBusy || !areaFits .eviction (s.focus b.core b.bur) then
      .next { s with pending := s.pending ++ [.dispatchEvict slot] }
    else .next (resumeSome (checkRequests (setOp slot 0 0 (evictBurner (s.evictedForRoom slot) b.core b.bur s))))

/-- FIRMWARE_UNBIND_FROZEN (R376): when its started commands have ended, a FROZEN burner is unbound; it counts as a killed
member (R272, R348, R363), and its launch completes KILLED with the code of TREC0. -/
def execFirmwareUnbindFrozen (core bur : Nat) (s : State) : Outcome :=
  match s.find core bur with
  | none => .next s
  | some b =>
    if b.status != .frozen || b.engineBusy || b.collBusy then .next s
    else
      let s1 := loseMember core bur (State.answerGroups { s with groups := s.groups.map fun g => g.killMem core bur })
      .next (resumeSome (launchEnds b.launch csKilled (b.trec0.extractLsb' 192 8).toNat (unbindBurner core bur s1)))

/-! ## EVICT and RESUME records -/

/-- EVICT (R354, R380): an evict bind record for every burner of the subtree that is not FROZEN; one that is being bound is evicted
once it has started. -/
def execEvict (q : Nat) (r : Rec512) (s : State) : Outcome :=
  .next (withRegion q r (fun _ s =>
    let bs := s.all.filter fun b => b.placed && b.under (recP0 r) && b.status != .frozen && b.status != .halted
    let ks := bs.map fun b => slotOf b.core b.bur
    askFor q r ks (bs.foldl (fun s b =>
      let k := slotOf b.core b.bur
      if b.status = .starting then s.due (.dispatchEvict k) else askEvict s k) s)) s)

/-- RESUME (R354, R379, R380). -/
def execResume (q : Nat) (r : Rec512) (s : State) : Outcome :=
  .next (withRegion q r (fun _ s => resumeSome (askFor q r [] s)) s)

/-! ## Killing a fault domain (R364) -/

/-- A commit whose first rewrite has begun runs to its end before its burner goes; one that has not is discarded (R364). -/
def endCommit (b : Burner) (s : State) : State :=
  match (b.unit 3).fifo with
  | p :: _ => match p.item with
    | .commit tid src step evf => match (s.tensor tid.toNat).bind (·.wip) with
      | some w =>
        if w.own != some (b.core, b.bur, p.seq) then s
        else if w.put = 0 then undoWip tid.toNat s
        else match commitGo tid src step evf p.seq { s.focus b.core b.bur with pace := 0 } with
          | .next s1 => { (undoWip tid.toNat s1).focus s.b.core s.b.bur with pace := s.pace }
          | _ => s
      | none => s
    | _ => s
  | [] => s

/-- The members of a domain in every group are killed, and the burners are lost to collectives. -/
def killMembers (fd : Nat) (vs : List Burner) (s : State) : State :=
  let all (s : State) : State := State.answerGroups { s with groups := s.groups.map fun g =>
    ((g.mems.filter fun m => m.fd == fd).map fun m => (m.core, m.bur)).foldl (fun g m => g.killMem m.1 m.2) g }
  vs.foldl (fun s b => loseMember b.core b.bur s) (all s)

/-- Burners of a domain that a kill stops, on their cores and off them. One whose HALT completed before has nothing left to stop
(R365). -/
def State.victims (s : State) (fd : Nat) : List Burner := s.all.filter fun b => b.placed && b.region.fd == fd && b.status != .halted
def State.victimsOff (s : State) (fd : Nat) : List Burner := s.saved.filter fun b => b.region.fd == fd && b.status != .unbound
/-- Steps 1 to 3 of a kill (R364): its burners and their commands stop, and their memberships end. -/
def killStop (fd : Nat) (s : State) : State :=
  let vs := s.victims fd ++ s.victimsOff fd
  removeDomain fd (killMembers fd vs (vs.foldl (fun s b => endCommit b s) s))
/-- Step 4: every burner of the domain is unbound without its state being saved, its partition cleared, and each launch of it
completes KILLED with `cause`. -/
def killEnd (fd cause : Nat) (s : State) : State :=
  let vs := s.victims fd
  let off := s.victimsOff fd
  let s2 := vs.foldl (fun s b => clearPartition b (unbindBurner b.core b.bur s)) s
  let s2 := { s2 with
    saved := s2.saved.filter fun b => !(b.region.fd == fd)
    savedRows := s2.savedRows.filter fun x => !off.any fun b => b.is x.1 x.2.1 }
  let s2 := s2.freeLoads (off.flatMap Burner.loads)
  let gone := s2.launches.filter fun l => l.op == 1 && ((vs ++ off).any (·.launch == l.id) || (l.region.fd == fd && l.list.isSome) ||
    l.todo.any (·.region.fd == fd))
  resumeSome (gone.foldl (fun s l => finishLaunch l csKilled cause s) s2)
/-- A domain is killed. -/
def killDomain (fd cause : Nat) (s : State) : State := killEnd fd cause (killStop fd s)

/-- KILL (R354, R364): its record completes with step 3, before the launches that step 4 ends. -/
def execKill (q : Nat) (r : Rec512) (s : State) : Outcome :=
  if recordOk' r then .next (killEnd (recP3 r) 0x51 (complete q r csDone 0 (killStop (recP3 r) s)))
  else .next (complete q r csBadRecord 0 s)

end Sys2Proof.Machine
end

