-- ==== Sys2Proof/Machine/Debug.lean ====
section
/-! DEFINITION. Trap entry, debug stops, the end of lending, and the background acts of a core: store buffer, exposure windows, page
walks (spec/16_traps_preemption_checkpoint.md R371-R373; spec/17_debug_trace_replay.md R384, R385, R387;
spec/09_core_and_queues.md R214, R217; spec/07_consistency_model.md R168; spec/02_address_spaces.md R48, R50), and the management core's registers (R383). -/
namespace Sys2Proof.Machine

/-! ## Trap entry -/

/-- The engine a source names. -/
def srcUnit : Src → Option Nat
  | .copy => some 0
  | .gather => some 1
  | .coll => some 2
  | .wport => some 3
  | _ => none
/-- The source of an engine's faults. -/
def unitSrc (u : Nat) : Src :=
  match u with
  | 0 => .copy
  | 1 => .gather
  | 2 => .coll
  | _ => .wport
def srcQueue : Src → Option Queue
  | .l => some .l
  | .x => some .x
  | .s => some .s
  | _ => none

/-- What the record says of a fault by its source (R372, R373): the entry at the head of its queue, the engine's oldest command,
or the control core's own instruction. -/
def trapInfo (c : Cause) (src : Src) (addr : DWord) (b : Burner) : TrapInfo :=
  let t : TrapInfo := { c := c, src := src, addr := addr, cutPc := b.pc }
  match srcQueue src, srcUnit src with
  | some q, _ => match b.queue q with
    | e :: _ => { t with iaddr := e.iaddr, tseq := e.seq, upc := e.upc }
    | [] => { t with iaddr := b.pc }
  | none, some u => { t with tseq := b.engSeq u }
  | none, none => { t with iaddr := b.pc }

/-- TRAP_ENTRY (R371): the acting burner takes the trap. -/
def execTrapEntry (c : Cause) (src : Src) (addr : DWord) (s : State) : Outcome :=
  .next (takeTrap (trapInfo c src addr s.b) s)

/-- An engine's fault that is due is taken at the burner's cut; with TE = 1 it waits for RFT (R371). -/
def engineTrap (u : Nat) (s : State) : Outcome :=
  let g := s.b.unit u
  match g.flt with
  | none => .next s
  | some (c, a) =>
    if !g.fltDue || s.b.te then .next s
    else execTrapEntry c (unitSrc u) a (s.modB fun b => b.setUnit u { g with fltDue := false })

/-- A fault of an access by the device itself, reported to the burner whose command caused it and taken at its cut (R56). -/
def takeTold (s : State) : Outcome :=
  match s.b.told with
  | [] => .next s
  | (c, a) :: more => execTrapEntry c .wport a (s.modB fun b => { b with told := more })

/-! ## Debug stops (R385) -/

/-- Whether a PC stop fires before the next decode. -/
def Burner.pcStops (b : Burner) : Bool := b.dPce && !b.te && !b.skipStop && b.pfx.isNone && b.pc == b.dpc

/-- PC_STOP: with QD it first waits for the queues. -/
def execPcStop (s : State) : Outcome :=
  if !s.b.pcStops then .next s
  else if s.b.dQd && !s.b.queuesEmpty then .next s
  else .next (debugStop (s.b.dpc.setWidth 64) s.b.pc s.b.pc s)

/-- MANAGEMENT_RESUME: a held burner resumes at its cut; the PC test is skipped once, and WONE arms the bypass (R387). -/
def execManagementResume (core bur : Nat) (s : State) : Outcome :=
  match s.find core bur with
  | none => .next s
  | some b =>
    if b.status != .held then .next s
    else .next (wake core bur (s.modAt core bur fun x => { x with
      skipStop := true, bypass := if x.dctl.getLsbD 10 && !x.bypass.contains .cc then .cc :: x.bypass else x.bypass }))

/-! ## The end of lending (R217) -/

/-- Whether the acting burner's wait still holds: its instruction, tried, would go on waiting. -/
def stillWaits (s : State) : Bool :=
  let goes (r : Outcome) : Bool := match r with
    | .next t => t.b.wait.isSome && t.b.pc == s.b.pc
    | _ => false
  match decode (s.b.textAt s.b.pc.toNat) with
  | .ok (.evwait e, _) => goes (execEvwait e s)
  | .ok (.waitf d a b, _) => goes (execWaitf d a b s)
  | .ok (.bwait d a, _) => goes (execBwait d a s)
  | .ok (.inbpop d, _) => goes (execInbpop d s)
  | _ => false

/-- The burner of a core that lent its front and waits no more. -/
def lendOver (core : Nat) (s : State) : Option Burner :=
  s.all.find? fun b => b.core == core && b.lend && !b.front && b.runnable && !stillWaits (s.focus b.core b.bur)

/-- LEND_END: the lending burner is cut and the one that waited becomes front again. -/
def execLendEnd (core : Nat) (s : State) : Outcome :=
  match lendOver core s with
  | none => .next s
  | some b => .next (cutOut core (1 - b.bur) 1 s)

/-! ## Background acts -/

/-- STORE_BUFFER_PERFORM (R168). -/
def execStoreBufferPerform (s : State) : Outcome := .next s.performStore

/-- RESULT_VISIBLE (R214). -/
def execResultVisible (s : State) : Outcome := .next (s.modB Burner.settle)

/-- PAGE_WALK (R48, R50, R52): a walk for the acting burner, whatever the TLBs hold: its leaf replaces theirs, A and D are
set; one that faults leaves no trace, and one that meets a poisoned row is charged to the burner's domain (R418). -/
def execPageWalk (va : DWord) (wr : Bool) (s : State) : Outcome :=
  if !inTranslated va.toNat then .next s
  else match walkPoison s va.toNat 4 s.b.region.ptroot with
  | some row => .next (s.due (.uncorrectedError row s.b.region.fd))
  | none => match missWalk s { s.viaB with watch := false } wr va.toNat 1 with
    | .ok (s1, _, _) => .next s1
    | .error _ => .next s

/-- A TLB gives up a leaf, chosen at run time: the next access walks (R50, R52; log 44). -/
def forgetLeaf (s : State) : State :=
  match s.tlb with
  | [] => s
  | t :: ts =>
    let (x, s1) := s.draw
    { s1 with tlb := (t :: ts).eraseIdx (x % (ts.length + 1)) }

/-! ## The management core at a cut (R383) -/

/-- Whether a burner stands at a cut: stopped, or not front (R217, R218). -/
def Burner.atCut (b : Burner) : Bool :=
  b.bound && b.status != .halted && (b.status != .running || !b.front)
/-- The numbers of the chapter's registers. -/
def debugRegs : List Nat := [32, 33, 34, 35, 46, 47] ++ (List.range 12).map (80 + ·) ++ (List.range 13).map (92 + ·)
/-- What the management core reads of one. -/
def managementRead (core bur c : Nat) (s : State) : Word :=
  if (s.find core bur).any Burner.atCut && debugRegs.contains c then (s.focus core bur).ctlRead c else 0
/-- The management core writes one: as a CTLW of the burner does, but that a value with a nonzero must-be-0 bit, and a read-only
register, take no write and raise nothing. -/
def managementWrite (core bur c : Nat) (w : Word) (s : State) : State :=
  let k := s.b.core
  let r := s.b.bur
  if !(s.find core bur).any Burner.atCut || !debugRegs.contains c then s
  else
    let s1 := s.focus core bur
    (if c = 47 then s1.traceEv 4 5 s1.b.pc w 0 0
      else if c = 100 then (if modeOk w s1 then s1.modB (setMode w) else s1)
      else match ctlWrite c w s1.b with
        | .ok b => { s1 with b := b }
        | .error _ => s1).focus k r
/-- Which register it writes, and the value, is found at run time. -/
def managementAct (core bur : Nat) (s : State) : State :=
  let (x, s1) := s.draw
  let (w, s2) := s1.draw
  managementWrite core bur (debugRegs.getD (x % debugRegs.length) 32) (w32 w) s2

end Sys2Proof.Machine
end

