-- ==== Sys2Proof/Machine/EngineQueue.lean ====
section
/-! DEFINITION. Engine access, weight and pantry instructions: majors 0x3A to 0x3C (spec/14_matrix_and_engines.md R335;
spec/05_versioned_weights.md R120; spec/06_pantry.md R147), each forwarded to the S queue. -/
namespace Sys2Proof.Machine

/-- ESEND (R336). -/
def execEsend (f : EF) (s : State) : Outcome :=
  forward (fwdEF (.esend f) f false false false [f.d] false s.b) s
/-- ERECV (R338). -/
def execErecv (f : EF) (s : State) : Outcome :=
  forward (fwdEF (.erecv f) f false false false (quad f.d) true s.b) s
/-- ESTAT_STATUS (R339). -/
def execEstatStatus (f : EF) (s : State) : Outcome :=
  forward (fwdEF (.estatStatus f) f false false false [f.d] false s.b) s
/-- ESTAT_PROGRESS (R339). -/
def execEstatProgress (f : EF) (s : State) : Outcome :=
  forward (fwdEF (.estatProgress f) f false false false [f.d] false s.b) s
/-- ESTAT_DROP (R339). -/
def execEstatDrop (f : EF) (s : State) : Outcome :=
  forward (fwdEF (.estatDrop f) f false false false [f.d] false s.b) s
/-- BXFORM (R106). -/
def execBxform (f : EF) (s : State) : Outcome :=
  forward (fwdEF (.bxform f) f true false false [] false s.b) s
/-- WREG (R114). -/
def execWreg (f : EF) (s : State) : Outcome :=
  forward (fwdEF (.wreg f) f true false false [f.d] false s.b) s
/-- WREG_UNREG (R130). -/
def execWregUnreg (f : EF) (s : State) : Outcome :=
  forward (fwdEF (.wregUnreg f) f false false false [f.d] false s.b) s
/-- WREG_RESTORE (R134). -/
def execWregRestore (f : EF) (s : State) : Outcome :=
  forward (fwdEF (.wregRestore f) f true false false [f.d] false s.b) s
/-- WLOAD_PAST (R115). -/
def execWloadPast (f : EF) (s : State) : Outcome :=
  forward (fwdEF (.wloadPast f) f true true false [f.d] false s.b) s
/-- WLOAD_WAIT (R116). -/
def execWloadWait (f : EF) (s : State) : Outcome :=
  forward (fwdEF (.wloadWait f) f true true false [f.d] false s.b) s
/-- WLOAD_EXTRAP (R117). -/
def execWloadExtrap (f : EF) (s : State) : Outcome :=
  forward (fwdEF (.wloadExtrap f) f true true false [f.d] false s.b) s
/-- WCOMMIT (R121). -/
def execWcommit (f : EF) (s : State) : Outcome :=
  forward (fwdEF (.wcommit f) f false true true [f.d] false s.b) s
/-- WPUB (R121). -/
def execWpub (f : EF) (s : State) : Outcome :=
  forward (fwdEF (.wpub f) f false true false [f.d] false s.b) s
/-- WRELEASE (R128). -/
def execWrelease (f : EF) (s : State) : Outcome :=
  forward (fwdEF (.wrelease f) f false true false [f.d] false s.b) s
/-- WQUERY (R129). -/
def execWquery (f : EF) (s : State) : Outcome :=
  forward (fwdEF (.wquery f) f false false false [f.d] false s.b) s
/-- CLAIM (R149). -/
def execClaim (f : EF) (s : State) : Outcome :=
  forward (fwdEF (.claim f) f false true false (quad f.d) true s.b) s
/-- CLWAIT (R151). -/
def execClwait (f : EF) (s : State) : Outcome :=
  forward (fwdEF (.clwait f) f false false false (quad f.d) true s.b) s
/-- FULFIL (R153). -/
def execFulfil (f : EF) (s : State) : Outcome :=
  forward (fwdEF (.fulfil f) f false true false [f.d] false s.b) s
/-- ABANDON (R155). -/
def execAbandon (f : EF) (s : State) : Outcome :=
  forward (fwdEF (.abandon f) f false false false [f.d] false s.b) s
/-- CLHOLD (R156). -/
def execClhold (f : EF) (s : State) : Outcome :=
  forward (fwdEF (.clhold f) f false false false [f.d] false s.b) s
/-- CLFREE (R156). -/
def execClfree (f : EF) (s : State) : Outcome :=
  forward (fwdEF (.clfree f) f false false false [f.d] false s.b) s

end Sys2Proof.Machine
end

