-- ==== Sys2Proof/Machine/Fabric.lean ====
section
/-! DEFINITION. Rope ports: training, received flits, retries, rows to and from other packages, key epochs and links that go down
(spec/18_fabric_host_startup.md R403-R408; log 105). -/
namespace Sys2Proof.Machine

/-! ## Flits (R404) -/

def flitSeq (f : BitVec 2048) : Nat := (f.extractLsb' 48 16).toNat
def flitAck (f : BitVec 2048) : Nat := (f.extractLsb' 32 16).toNat
def flitDpkg (f : BitVec 2048) : Nat := (f.extractLsb' 22 10).toNat
def flitSpkg (f : BitVec 2048) : Nat := (f.extractLsb' 12 10).toNat
def flitType (f : BitVec 2048) : Nat := (f.extractLsb' 8 4).toNat
def flitCrd (f : BitVec 2048) : Nat := (f.extractLsb' 0 8).toNat
/-- The full sequence of a received flit: the one nearest the next expected with its low bits. -/
def Port.seqOf (p : Port) (f : BitVec 2048) : DWord := p.rx + ((BitVec.ofNat 16 (flitSeq f)) - p.rx.extractLsb' 0 16).signExtend 64
/-- Whether the CRC, the GCM tag or the TYPE of a flit fails (R405, R406). -/
def Port.flitFails (p : Port) (self : Nat) (f : BitVec 2048) : Bool :=
  f.extractLsb' 2016 32 != crc32 (flitBytes f 252) || decide (4 ≤ flitType f) ||
    !Config.tagPasses p.key p.id (1 - p.dir self) p.rxEpoch (p.seqOf f) (f.extractLsb' 0 64) (f.extractLsb' 64 1952)
/-- A passed flit's plaintext. -/
def Port.plaintext (p : Port) (self : Nat) (f : BitVec 2048) : List Byte :=
  Config.flitPayload p.key p.id (1 - p.dir self) p.rxEpoch (p.seqOf f) (f.extractLsb' 0 64) (f.extractLsb' 64 1952)

/-! ## Rows of this package's commands (R407) -/

/-- Whether a row is one of the command at the head of its unit. -/
def FarRow.current (r : FarRow) (s : State) : Bool :=
  (s.find r.core r.bur).any fun b => !(b.unit r.unit).fifo.isEmpty && b.engSeq r.unit == r.seq
/-- The command at the head of a unit. -/
def headCmd (g : Eng) : Option Cmd :=
  match g.fifo with
  | [] => none
  | p :: _ => match p.item with
    | .cmd c => some c
    | _ => none
/-- The progress of a command that stops at element or block e. -/
def farProg (c : Option Cmd) (e : Nat) : Nat :=
  match c with
  | none => e
  | some c => if cBuf c then 4096 * e else progOf (if cmdOpc c = 5 || cmdOpc c = 6 then 0 else (outLay c).bits) e

/-- A row written whole in another package; its words enter the command's SUM32 but where they are a compressed block's
(R344; log 119). -/
def writeFar (r : FarRow) (s : State) : State :=
  let put (m : Memory) (x : Nat × Byte × Byte) : Memory :=
    m.set (r.va + x.1) ((m.get (r.va + x.1) &&& ~~~x.2.1) ||| (x.2.2 &&& x.2.1))
  let mem := r.bytes.foldl put (farOf s r.pkg)
  let s1 := { s with far := tabSet s.far r.pkg mem }
  if !(r.counts && r.current s) then s1
  else s1.modAt r.core r.bur fun b =>
    let g := b.unit r.unit
    b.setUnit r.unit { g with tw := r.bytes.foldl (fun tw x => let a := (r.va + x.1) / 4 * 4; noteWord a (mem.word a) tw) g.tw }

/-- The faults a row may meet at its destination: a missing peer entry, and those of a local access. -/
def farCauses : List Cause :=
  [.meshDenied, .vaRange, .meshHole, .inboxWrite, .constBank, .pageNotPresent, .pteReserved, .physRange, .pageProtection]
/-- A row's fault carried back: the engine records its progress, and keeps the row to send it again (R56, R342). -/
def faultFar (r : FarRow) (c : Cause) (s : State) : State :=
  if !r.current s then s
  else s.modAt r.core r.bur fun b =>
    let g := b.unit r.unit
    let g1 := { g with redo := g.redo ++ [r] }
    b.setUnit r.unit (if g.flt.isSome then g1
      else { g1 with flt := some (c, w64 r.va), fltDue := true, prog := farProg (headCmd g) r.el })

/-- A row acknowledged: performed, or its fault carried back. -/
def ackRow (r : FarRow) (s : State) : State :=
  let fd := ((s.find r.core r.bur).map fun b => b.region.fd).getD 0
  let s1 := { s with tick := s.tick + 1 }
  match Config.farFault s.tick r.pkg fd r.va with
  | none => writeFar r s1
  | some k => faultFar r (farCauses.getD (k % farCauses.length) .meshDenied) s1

/-- Acknowledgement and credits of a flit that passed: flits the peer has received in order leave the replay buffer. -/
def acknowledge (id : Nat) (f : BitVec 2048) (s : State) : State :=
  let p := s.port id
  let n := (BitVec.ofNat 16 (flitAck f + 1) - p.acked.extractLsb' 0 16).toNat
  let n := if n ≤ p.replay.length then n else 0
  let s1 := s.setPort { p with acked := p.acked + w64 n, replay := p.replay.drop n, credits := p.credits + flitCrd f }
  ((p.replay.take n).filterMap (·.row)).foldl (fun s r => ackRow r s) s1

/-! ## Rows of other packages' commands (R407) -/

/-- The party that a peer's rows have the rights of: the local region the peer table gives. -/
def peerParty (g : Region) : Burner := { Burner.fresh 1023 0 with region := g }
/-- An answer to another package, which waits for a route with room in its replay buffer (R405). -/
def owe (pkg : Nat) (text : List Byte) (s : State) : State := { s with owed := s.owed ++ [(pkg, text)] }
/-- The first answer whose route has room is sent; one to a package without a route is dropped (R408). -/
def sendOwed (s : State) : State :=
  let ready (o : Nat × List Byte) : Bool := (s.routeTo o.1).all fun id => decide ((s.port id).replay.length < 512)
  match s.owed.find? ready with
  | none => s
  | some o =>
    let s1 := { s with owed := s.owed.erase o }
    match s.routeTo o.1 with
    | none => s1
    | some id => s1.setPort ((s.port id).send s.pkg s.pkg o.1 1 o.2 none)
/-- The words of one command of a package that its rows have written here, by address (R344, R407). -/
def peerKey (spkg cmd : Nat) : Nat := spkg + 1024 * cmd
/-- A row from another package: translated and checked through the peer table's RCB as one local access, its part bytes read too,
and written whole or not at all. Its fault is carried back; so is, with a row written, the command's SUM32, which is kept here. -/
def peerRow (spkg fd cmd : Nat) (start : Word) (va : Nat) (bs : List (Nat × Byte × Byte)) (s : State) : State :=
  let row := bs.map fun x => (⟨.va, va / 256 * 256 + x.1 % 256, x.2.1, x.2.2, 0, true⟩ : PutB)
  match (Config.peerRcb spkg fd).bind s.readRegion with
  | none => owe spkg (Config.faultText Cause.meshDenied.code va) (((Config.peerRcb spkg fd).map fun pa => s.rcbFound pa).getD s)
  | some g => match locateBy s { Via.dev g 0 with eng := true } (peerParty g) { rd := row.any (·.mask != 0xFF), wr := row.map (·.a % 256) } va with
    | .error (.cause c) => owe spkg (Config.faultText c.code va) s
    | .error (.poisoned r) => s.due (.uncorrectedError r g.fd)
    | .error _ => s
    | .ok (s1, l) =>
      let s2 := writeRow l va row s1
      let word (q : PutB) : Word := w32 (natOfBytes (s2.locBytes (l.moved va (q.a / 4 * 4)) (q.a / 4 * 4) 4))
      let tw := row.foldl (fun tw q => noteWord (q.a / 4 * 4) (word q) tw) (tabGet [] s2.peerSum (peerKey spkg cmd))
      owe spkg (Config.sumText cmd va (sumWords start (twWords tw))) { s2 with peerSum := tabSet s2.peerSum (peerKey spkg cmd) tw }

/-- A data flit's payload delivered, or sent on to the package it is for when a route with room leads there. -/
def deliverFlit (id : Nat) (f : BitVec 2048) (text : List Byte) (s : State) : State :=
  if flitDpkg f != s.pkg then
    match s.routeTo (flitDpkg f) with
    | none => s
    | some k =>
      if (s.port k).replay.length < 512 then s.setPort ((s.port k).send s.pkg (flitSpkg f) (flitDpkg f) 1 text none) else s
  else
    let p := s.port id
    let got := p.delivered ++ [(flitSpkg f, text)]
    let s1 := s.setPort { p with delivered := got }
    match Config.rowIn got with
    | none => s1
    | some (fd, cmd, start, va, bs) => peerRow (flitSpkg f) fd cmd start va bs s1

/-! ## A link that goes down (R405, R408) -/

/-- A command whose data a link lost completes PEER_LOST (R408). -/
def loseCmd (s : State) (r : FarRow) : State :=
  if !r.current s then s
  else
    let c := s.b.core
    let k := s.b.bur
    let s1 := s.focus r.core r.bur
    let g := s1.b.unit r.unit
    let opc := ((headCmd g).map cmdOpc).getD 0
    let sigm := ((headCmd g).map cmdSigM).getD 0
    (finishAt r.core r.bur r.unit (({ csum := sumWords g.sum (twWords g.tw), satn := g.satn, fl := g.fl, status := stPeerLost } : Comp).element r.unit opc r.seq) sigm s1).focus c k
/-- A collective on the path of a link that goes down: the commands of the pairing complete PEER_LOST, and those of its members
that come later do (R408). -/
def losePairing (id : Nat) (p : Pairing) (s : State) : State :=
  let g := s.group id
  p.cs.foldl (fun s k => peerLostAt k s) (s.setGroup { g with pairs := g.pairs.filter (· != p), cut := g.cut ++ [(p.era, p.n)] })
/-- Collectives begun whose members the port led to, as the routes stood in s0. -/
def losePath (port : Nat) (s0 s : State) : State :=
  s0.groups.foldl (fun s g => (g.pairs.filter fun p => !p.formed && (g.counted p.era).any fun m =>
    decide (2 ^ 64 ≤ m.1) && s0.routeTo (farPkg m.1) == some port).foldl (fun s p => losePairing g.id p s) s) s

/-- LINK_DOWN (R405, R408): after eight failures of one flit. Commands with a row in the replay buffer complete PEER_LOST; none of
their rows that stand unacknowledged, on whatever link, is written. -/
def execLinkDown (port : Nat) (s : State) : Outcome :=
  let p := s.port port
  if !p.up || p.fails < 8 then .next s
  else
    let rows := p.replay.filterMap (·.row)
    let lost (r : FarRow) : Bool := rows.any fun x => x.core == r.core && x.bur == r.bur && x.unit == r.unit && x.seq == r.seq
    let s1 := s.setPort { p with up := false, replay := [], retry := false, fails := 0 }
    let cut (q : Port) : Port := { q with replay := q.replay.map fun x => if x.row.any lost then { x with row := none } else x }
    .next (losePath port s (rows.foldl loseCmd { s1 with ports := s1.ports.map cut }))

/-! ## Receiving (R405) -/

/-- An unsequenced flit put on the wire. -/
def Port.signal (p : Port) (self type' : Nat) : Port :=
  { p with wire := p.wire ++ [buildFlit p self (flitHead p p.peer self type') []] }
/-- A flit that fails: it and later ones are discarded until the peer resends, and a retry request asks for that. Failures of the
flit that is due count; of the later ones, which are discarded with it, none does (log 132). -/
def failFlit (id : Nat) (f : BitVec 2048) (s : State) : State :=
  let p := s.port id
  let later := p.retry && p.seqOf f != p.rx
  s.setPort ({ p with fails := if later then p.fails else p.fails + 1, retry := true }.signal s.pkg 2)

/-- A received flit of a type: failed, discarded, or taken; in sequence, or in no sequence of its own. `g` is what the flit does
after its acknowledgement and credits. After eight failures of one flit none passes: the link goes down. -/
def receive (id type' : Nat) (inOrder : Bool) (f : BitVec 2048) (g : State → State) (s : State) : Outcome :=
  let p := s.port id
  if !p.up then .next s
  else if 8 ≤ p.fails then execLinkDown id s
  else if p.flitFails s.pkg f then .next (failFlit id f s)
  else if flitType f != type' || ((p.retry || inOrder) && p.seqOf f != p.rx) then .next s
  else .next (g (acknowledge id f
    (s.setPort { p with rx := if inOrder then p.rx + 1 else p.rx, fails := 0, retry := false })))

/-- FLIT_DATA (R405): delivered once, in sequence. -/
def execFlitData (port : Nat) (flit : BitVec 2048) (s : State) : Outcome :=
  receive port 1 true flit (deliverFlit port flit ((s.port port).plaintext s.pkg flit)) s
/-- FLIT_IDLE (R404): acknowledgement and credits. -/
def execFlitIdle (port : Nat) (flit : BitVec 2048) (s : State) : Outcome := receive port 0 false flit id s
/-- The flits of the replay buffer sent again from the first unacknowledged on. -/
def resend (id : Nat) (s : State) : State :=
  let p := s.port id
  s.setPort { p with wire := p.wire ++ p.replay.map (·.flit) }
/-- FLIT_RETRY_REQUEST (R405). -/
def execFlitRetryRequest (port : Nat) (flit : BitVec 2048) (s : State) : Outcome := receive port 2 false flit (resend port) s
/-- The peer's next key epoch begins. -/
def nextRxEpoch (id : Nat) (s : State) : State :=
  let p := s.port id
  s.setPort { p with rxEpoch := p.rxEpoch + 1 }
/-- FLIT_KEY_UPDATE (R406). -/
def execFlitKeyUpdate (port : Nat) (flit : BitVec 2048) (s : State) : Outcome := receive port 3 true flit (nextRxEpoch port) s

/-! ## Key epochs and training (R403, R406) -/

/-- Whether an epoch has carried its 2^40 flits and the replay buffer has room for a key update. -/
def Port.rekeys (p : Port) : Bool := p.up && decide (2 ^ 40 ≤ (p.tx - p.since).toNat) && decide (p.replay.length < 512)
/-- REKEY (R406): a key update flit is sent and the next epoch begins. -/
def execRekey (port : Nat) (s : State) : Outcome :=
  let p := s.port port
  if !p.rekeys then .next s
  else
    let p1 := p.send s.pkg s.pkg p.peer 3 [] none
    .next (s.setPort { p1 with epoch := p1.epoch + 1, since := p1.tx })

/-- A link that is down and not for good is trained: with fresh keys, drawn with this training, it comes up, unless authentication
fails or the peer carries this package's number (R403, R406). At a retraining a key update flit starts the next epoch, and the
peer's starts this end's. No link comes up before ACCEPT holds bit 8 (R400). -/
def trainPort (id : Nat) (s : State) : State :=
  let p := s.port id
  let s1 := { s with tick := s.tick + 1 }
  let peer := Config.linkPeer s.tick id % 1024
  if !s.feat 8 || p.up || p.dead then s
  else if Config.linkFails s.tick id || peer = s.pkg % 1024 then s1.setPort { p with dead := true }
  else
    let q : Port := { p with up := true, peer := peer, tx := 0, rx := 0, acked := 0, since := 0, fails := 0, replay := [], wire := []
                             credits := 0, key := s1.tick, retry := false, trained := true }
    s1.setPort (if p.trained then (let q1 := q.send s.pkg s.pkg peer 3 [] none; { q1 with epoch := q1.epoch + 1, since := q1.tx }) else q)

end Sys2Proof.Machine
end

