-- ==== Sys2Proof/Machine/HostWindow.lean ====
section
/-! DEFINITION. What the host does to the package: the management window, queue setup and doorbells, features, the device aperture,
attestation, start and reset (spec/18_fabric_host_startup.md R398-R402, R410-R416). -/
namespace Sys2Proof.Machine

/-- After a failed start only START, RESET and ERRCNT answer (R412). -/
def State.windowUp (s : State) : Bool := s.stState == 1

/-! ## Queues (R353, R402) -/

/-- DOORBELL: a TAIL for an enabled queue; more than a ring ahead of HEAD, it stops the queue (R353). -/
def execDoorbell (q : Nat) (tail : Word) (s : State) : Outcome :=
  let w := s.wq q
  if !s.windowUp || 16384 ≤ q || !wqEn w || w.stopped then .next s
  else if wqLsize w < (tail - w.head).toNat then
    let s1 := s.setWq { w with tail := tail, stopped := true }
    .next { s1 with pending := s1.pending ++ [.completionRecord q 0 0 csBadRecord 1] }
  else .next (s.setWq { w with tail := tail })

/-- Whether a setup entry may be enabled. -/
def setupOk (e : BitVec 256) (s : State) : Bool :=
  let lsz := (e.extractLsb' 224 5).toNat
  let csz := (e.extractLsb' 229 5).toNat
  s.acceptDone && s.feat 0 && e.extractLsb' 234 22 == 0 && e.extractLsb' 205 19 == 0 && decide (4 ≤ lsz) && decide (lsz ≤ 16) &&
    decide (4 ≤ csz) && decide (csz ≤ 16)
/-- EN of a setup entry. -/
def enBit : BitVec 256 := BitVec.ofNat 256 (2 ^ 192)

/-- A write of a whole setup entry: fields while EN = 0, enabling, which the completion ring and the interrupt address wait for,
or disabling. -/
def writeSetup (q : Nat) (e : BitVec 256) (s : State) : State :=
  let w := s.wq q
  if wqEn w then (if e.getLsbD 192 then s else s.setWq { w with setup := w.setup &&& ~~~enBit })
  else if e.getLsbD 192 && setupOk e s then s.setWq { id := q, setup := e, live := e, held := w.held }
  else s.setWq { w with setup := e &&& ~~~enBit }

/-- QUEUE_ENABLE (R402). -/
def execQueueEnable (q : Nat) (e : BitVec 256) (s : State) : Outcome :=
  if !s.windowUp || 16384 ≤ q then .next s else .next (writeSetup q e s)

/-- QUEUE_DISABLE (R402). -/
def execQueueDisable (q : Nat) (s : State) : Outcome :=
  if !s.windowUp || 16384 ≤ q then .next s
  else if wqEn (s.wq q) then .next (s.setWq { s.wq q with setup := (s.wq q).setup &&& ~~~enBit }) else .next s

/-! ## The management window (R398, R399) -/

/-- ACCEPT: the first write since the start, masked by OFFER. -/
def execAccept (v : BitVec 128) (s : State) : Outcome :=
  if !s.windowUp || s.acceptDone then .next s else .next { s with accept := v &&& s.offer, acceptDone := true }

/-- 64 bits of a wider register replaced. -/
def putWord {n : Nat} (x : BitVec n) (k : Nat) (v : DWord) : BitVec n :=
  BitVec.ofNat n (x.toNat - fld x.toNat (64 * k) 64 * 2 ^ (64 * k) + v.toNat * 2 ^ (64 * k))

/-! ## The device aperture (R401) -/

def ones (n : Nat) : List Byte := List.replicate n 0xFF

/-- An access the host can make: 8 to 256 bytes, aligned to 8, inside the 1 TiB aperture. -/
def hostAccessOk (off len : Nat) : Bool :=
  off % 8 == 0 && len % 8 == 0 && decide (8 ≤ len) && decide (len ≤ 256) && decide (off + len ≤ 2 ^ 40)
/-- The host as an accessor: protected memory reads as 0xFF and takes no write (R44). -/
def Via.ofHost (v : Via) : Via := { v with host := true }

/-- HOST_APERTURE_READ: the bytes go to the host; all ones when the translation faults. -/
def execHostApertureRead (off len : Nat) (s : State) : Outcome :=
  let bad (s : State) : Outcome := .next { s with hflt := s.hflt + 1, hostData := ones len }
  if !hostAccessOk off len then .next s
  else match s.hostVia with
    | none => bad (s.rcbFound s.hrcb)
    | some v => match rdVA s v.ofHost s.b (2 ^ 30 + off) len with
      | .ok (s1, bs) => .next { s1 with hostData := bs }
      | .error (.poisoned row, _) => .next ({ s with hostData := ones len }.due (.uncorrectedError row v.region.fd))
      | .error _ => bad s

/-- HOST_APERTURE_WRITE: discarded when the translation faults. -/
def execHostApertureWrite (off : Nat) (bs : List Byte) (s : State) : Outcome :=
  let bad (s : State) : Outcome := .next { s with hflt := s.hflt + 1 }
  if !hostAccessOk off bs.length then .next s
  else match s.hostVia with
    | none => bad (s.rcbFound s.hrcb)
    | some v => match wrVA s v.ofHost s.b (2 ^ 30 + off) bs with
      | (s1, none) => .next s1
      | (_, some (.poisoned row, _, _)) => .next (s.due (.uncorrectedError row v.region.fd))
      | (_, some _) => bad s

/-! ## Attestation (R416) -/

/-- AREQ: 1 asks for a report unless one is being made. -/
def execAreq (v : Word) (s : State) : Outcome :=
  if !s.windowUp || v != 1 || s.astat = 1 then .next s
  else .next { s with astat := 1, pending := s.pending ++ [.attestationReport] }

/-- The seed of the identity key: the digest of the fused secret and "C640-ID" (R415). -/
def identitySeed : BitVec 256 :=
  Config.sha3 (bytesOfNat 32 Config.fusedSecret.toNat ++ [0x43, 0x36, 0x34, 0x30, 0x2D, 0x49, 0x44])
/-- The identity public key, generated at every start from the same seed (R415). -/
def identityKey : BitVec 10496 := Config.mlDsaKey identitySeed

/-- Bits 11519:0 of the report. -/
def reportBody (s : State) : BitVec 11520 :=
  let pk := identityKey.toNat
  let hash := (Config.sha3 (bytesOfNat 1312 pk)).toNat
  BitVec.ofNat 11520 (0x0C644154 + 2 ^ 32 + s.pkg % 1024 * 2 ^ 48 + s.nonce.toNat * 2 ^ 64 + s.fwdig.toNat * 2 ^ 320 +
    s.svn.toNat * 2 ^ 576 + s.stKind.toNat * 2 ^ 592 + s.accept.toNat * 2 ^ 640 + hash * 2 ^ 768 + pk * 2 ^ 1024)

/-- ATTESTATION_REPORT: the signed report is ready. -/
def execAttestationReport (s : State) : Outcome :=
  if s.astat != 1 then .next s
  else
    let body := reportBody s
    .next { s with astat := 2, report := (Config.mlDsaSign identitySeed body ++ body).setWidth 30880 }

/-! ## Start (R410-R415) -/

/-- Whether a flash image's signature over its digest verifies against the key whose digest is fused (R414). -/
def imageVerifies (k : Nat) : Bool :=
  Config.sha3 (bytesOfNat 1312 (Config.flashKey k).toNat) == Config.fusedKey &&
    Config.mlDsaVerifies (Config.flashKey k) (Config.sha3 (Config.flashImage k)) (Config.flashSig k)
/-- The firmware that the boot ROM takes: the first of images A and B that verifies, its digest and security version (R414). -/
def bootImage : Option (BitVec 256 × BitVec 16) :=
  ([0, 1].find? imageVerifies).map fun k => (Config.sha3 (Config.flashImage k), Config.flashSvn k)

/-- A start begins (R410, R413): every binding, table and SRAM is empty, and what lies outside the package, LPDDR 6, the keys
and the fuses stay until a step changes them. Rope links are down until they are trained, each with new key epochs (R406).
The step in progress is 1 (R411). -/
def begin' (cold : Bool) (s : State) : State :=
  let r := State.reset
  { r with
    b := Burner.fresh s.b.core s.b.bur
    phys := s.phys, rowKey := s.rowKey, poison := s.poison, far := s.far, pkg := s.pkg, minSvn := s.minSvn
    ports := r.ports.map fun p => { p with epoch := (s.port p.id).epoch, rxEpoch := (s.port p.id).rxEpoch }
    fenced := if cold then [] else s.fenced
    hostData := s.hostData, sched := s.sched, tick := s.tick, keyGen := s.keyGen, keys := s.keys, offer := 0
    stState := 0, stKind := if cold then 1 else 2, stStep := 1 }

/-- A start fails at its step (R412). -/
def startFails (code detail : Nat) (s : State) : State := { s with stState := 2, stCode := code, stDetail := detail }
/-- The next step of a start. -/
def startGoes (step : Nat) (s : State) : State := { s with stStep := step }
/-- LPDDR 6 as the memory clear leaves it. -/
def clearLpddr (s : State) : State :=
  let keep (pa : Nat) : Bool := decide (0xC000000000 ≤ pa)
  { s with phys := s.phys.filter fun c => keep c.1, rowKey := s.rowKey.filter fun p => keep (256 * p.1)
           poison := s.poison.filter fun row => keep (256 * row) }
/-- The step in progress of a start (R410), whose outcome the machine or a free value decides (log 11); a failure leaves the
later steps undone (log 145). -/
def startStep (s0 : State) : State :=
  let n := s0.tick
  let s := { s0 with tick := n + 1 }
  let cold := s.stKind == 1
  match s.stStep with
  | 1 => if Config.fuseParity n then startFails 1 0 s else startGoes 2 s
  | 2 => match bootImage with
    | none => startFails 1 0 s
    | some (d, v) =>
      if v.toNat < s.minSvn.toNat then startFails 2 0 s
      else startGoes (if cold then 3 else 5) { s with fwdig := d, svn := v }
  | 3 => match Config.failingDie n with
    | some d => startFails 1 (d % 4) s
    | none => startGoes 4 { s with fenced := (Config.failingCores n).eraseDups.filter (· < 640) }
  | 4 => match Config.trainingFails n with
    | some c => startFails 1 (c % 48) s
    | none => startGoes 5 s
  | 5 => startGoes 6 { s with cxl := Vector.ofFn fun p => min (Config.cxlFound n p.val) 0x20000000000 }
  | 6 => startGoes (if cold then 7 else 8) s
  | 7 => match Config.clearFails n with
    | some c => startFails 1 (c % 48) s
    | none => startGoes 8 (clearLpddr s)
  | 8 =>
    if cold then
      if Config.entropyPasses n then
        startGoes 9 { s with keyGen := s.keyGen + 1, keys := Vector.replicate 16 (some (s.keyGen + 1)) }
      else startFails 1 0 { s with keys := Vector.replicate 16 none }
    else if s.keys.all Option.isSome then startGoes 9 s else startFails 2 0 s
  | _ => { s with offer := 0x1FF, stState := 1 }

/-- COLD_START (R410, R413). -/
def execColdStart (s : State) : Outcome := .next (begin' true s)
/-- WARM_START (R410, R413). -/
def execWarmStart (s : State) : Outcome := .next (begin' false s)

/-- ADVANCE_SVN (R414). -/
def execAdvanceSvn (s : State) : Outcome :=
  if s.stState = 1 && s.minSvn.toNat < s.svn.toNat then .next { s with minSvn := s.svn } else .next s

/-! ## The window's registers (R398, R411, R412) -/

/-- The start record (R411). -/
def startRecord (s : State) : Nat :=
  s.stState.toNat + s.stKind.toNat * 2 ^ 30 + s.stStep * 2 ^ 32 + s.stCode * 2 ^ 40 + s.svn.toNat * 2 ^ 48 +
    s.fenced.length * 2 ^ 64 + s.stDetail * 2 ^ 96 + s.fwdig.toNat * 2 ^ 256
/-- Registers the host reads: offset, bytes, contents. After a failed start only START and ERRCNT answer. -/
def State.windowRegs (s : State) : List (Nat × Nat × Nat) :=
  let errs (v : Vector Nat 4) : Nat := natOfBytes (v.toList.flatMap (bytesOfNat 8))
  [(0x0, 64, startRecord s), (0x200, 32, errs s.errCorr), (0x220, 32, errs s.errUnc)] ++ (if s.windowUp then
    [(0x40, 16, s.offer.toNat), (0x50, 16, s.accept.toNat), (0x68, 8, s.hwin), (0x70, 8, s.hrcb), (0x100, 32, s.nonce.toNat),
     (0x124, 4, s.astat), (0x240, 8, s.hflt.toNat), (0x400, 80, (List.range 640).foldl (fun m c =>
      m + if s.fenced.contains c then 2 ^ c else 0) 0), (0x800, 8, s.pfrBase), (0x808, 8, s.pfrN), (0x1000, 3860, s.report.toNat)] ++
     s.wqs.map fun w => (0x40000 + 32 * w.id, 32, w.setup.toNat) else [])
/-- A byte the host reads at an offset of the window; an offset not listed reads 0. A read changes nothing. -/
def State.windowByte (s : State) (off : Nat) : Byte :=
  match s.windowRegs.find? fun r => decide (r.1 ≤ off) && decide (off < r.1 + r.2.1) with
  | none => 0
  | some r => BitVec.ofNat 8 (r.2.2 / 2 ^ (8 * (off - r.1)))
def State.windowRead (s : State) (off n : Nat) : List Byte := (List.range n).map fun i => s.windowByte (off + i)

/-- A write of RESET (R398, R413, R414): bit 2 first, then a cold start, or without bit 0 a warm one (log 116). -/
def writeReset (w : Word) (s : State) : Outcome :=
  let up (s : State) : Outcome := if w.getLsbD 2 then execAdvanceSvn s else .next s
  match up s with
  | .next s1 => if w.getLsbD 0 then execColdStart s1 else if w.getLsbD 1 then execWarmStart s1 else .next s1
  | r => r

/-- WINDOW_WRITE (R398): 8 bytes at an offset; where the window has no register for them the write is discarded. A register of 4
bytes takes the low ones, and each half of ACCEPT is written alone (log 116). -/
def execWindowWrite (off : Nat) (v : DWord) (s : State) : Outcome :=
  if off = 0x60 then writeReset (lo32 v) s
  else if !s.windowUp || off % 8 != 0 then .next s
  else if off = 0x50 then execAccept (v.setWidth 128) s
  else if off = 0x58 then execAccept (v.setWidth 128 <<< 64) s
  else if off = 0x68 then
    (if v.toNat % 2 ^ 30 = 0 && decide (v.toNat ≤ 2 ^ 47) then .next { s with hwin := v.toNat } else .next s)
  else if off = 0x70 then
    let s1 := { s with hrcb := v.toNat }
    .next (reportFaults s1.hostVia s1)
  else if 0x100 ≤ off && off < 0x120 then
    (if s.astat = 1 then .next s else .next { s with nonce := putWord s.nonce ((off - 0x100) / 8) v })
  else if off = 0x120 then execAreq (lo32 v) s
  else if off = 0x800 || off = 0x808 then
    let s1 := if off = 0x800 then { s with pfrBase := v.toNat } else { s with pfrN := v.toNat }
    .next (reportFaults s1.hostVia s1)
  else if 0x20000 ≤ off && off < 0x40000 then execDoorbell ((off - 0x20000) / 8) (lo32 v) s
  else if 0x40000 ≤ off && off < 0xC0000 then
    let q := (off - 0x40000) / 32
    .next (writeSetup q (putWord (s.wq q).setup (off / 8 % 4) v) s)
  else .next s

end Sys2Proof.Machine
end

