-- ==== Sys2Proof/Machine/Integer.lean ====
section
/-! DEFINITION. Integer instructions of majors 0x00 and 0x01 (spec/11_control_core_instructions.md R255, R256). -/
namespace Sys2Proof.Machine

/-- The signed quotient of R256. -/
def divS (x y : Word) : Word := if y = 0 then 0xFFFFFFFF else BitVec.sdiv x y
/-- The unsigned quotient of R256. -/
def divU (x y : Word) : Word := if y = 0 then 0xFFFFFFFF else x / y
/-- The signed remainder of R256. -/
def remS (x y : Word) : Word := if y = 0 then x else BitVec.srem x y
/-- The unsigned remainder of R256. -/
def remU (x y : Word) : Word := if y = 0 then x else x % y

/-- Zeros above the highest set bit among the n low bits. -/
def clzGo (x : Word) : Nat → Nat
  | 0 => 0
  | n + 1 => if x.getLsbD n then 0 else clzGo x n + 1
def clz32 (x : Word) : Word := w32 (clzGo x 32)
/-- Zeros below the lowest set bit, counted from bit `32 - n`. -/
def ctzGo (x : Word) : Nat → Nat
  | 0 => 0
  | n + 1 => if x.getLsbD (31 - n) then 0 else ctzGo x n + 1
def ctz32 (x : Word) : Word := w32 (ctzGo x 32)
def popcGo (x : Word) : Nat → Nat
  | 0 => 0
  | n + 1 => (if x.getLsbD n then 1 else 0) + popcGo x n
def popc32 (x : Word) : Word := w32 (popcGo x 32)

/-- A shift amount b<4:0>. -/
def amt (y : Word) : Nat := (y.extractLsb' 0 5).toNat
/-- a<n:0> extended to 32 bits, n = b<4:0>. -/
def sext32 (x y : Word) : Word := (x <<< (31 - amt y)).sshiftRight (31 - amt y)
def zext32 (x y : Word) : Word := (x <<< (31 - amt y)) >>> (31 - amt y)
def bit (c : Bool) (k : Nat) : Word := if c then w32 (2 ^ k) else 0
/-- CMP's relation bits 4:0. -/
def cmp32 (x y : Word) : Word :=
  bit (x == y) 0 ||| bit (x.slt y) 1 ||| bit (x.ult y) 2 ||| bit (y.slt x) 3 ||| bit (y.ult x) 4

/-- s(d) := a + b (R255). -/
def execAdd (d : BitVec 6) (a b : Opnd) (s : State) : Outcome := op2 d a b (fun x y => x + y) s

/-- s(d) := a − b (R255). -/
def execSub (d : BitVec 6) (a b : Opnd) (s : State) : Outcome := op2 d a b (fun x y => x - y) s

/-- Low 32 bits of the product (R255). -/
def execMul (d : BitVec 6) (a b : Opnd) (s : State) : Outcome := op2 d a b (fun x y => x * y) s

/-- High 32 bits of the signed product (R255). -/
def execMulh (d : BitVec 6) (a b : Opnd) (s : State) : Outcome := op2 d a b (fun x y => hi32 (x.signExtend 64 * y.signExtend 64)) s

/-- High 32 bits of the unsigned product (R255). -/
def execMulhu (d : BitVec 6) (a b : Opnd) (s : State) : Outcome := op2 d a b (fun x y => hi32 (x.setWidth 64 * y.setWidth 64)) s

/-- Signed quotient toward zero; R256 (R255). -/
def execDiv (d : BitVec 6) (a b : Opnd) (s : State) : Outcome := op2 d a b (divS) s

/-- Unsigned quotient; R256 (R255). -/
def execDivu (d : BitVec 6) (a b : Opnd) (s : State) : Outcome := op2 d a b (divU) s

/-- Signed remainder; R256 (R255). -/
def execRem (d : BitVec 6) (a b : Opnd) (s : State) : Outcome := op2 d a b (remS) s

/-- Unsigned remainder; R256 (R255). -/
def execRemu (d : BitVec 6) (a b : Opnd) (s : State) : Outcome := op2 d a b (remU) s

/-- a AND b (R255). -/
def execAnd (d : BitVec 6) (a b : Opnd) (s : State) : Outcome := op2 d a b (fun x y => x &&& y) s

/-- a OR b (R255). -/
def execOr (d : BitVec 6) (a b : Opnd) (s : State) : Outcome := op2 d a b (fun x y => x ||| y) s

/-- a XOR b (R255). -/
def execXor (d : BitVec 6) (a b : Opnd) (s : State) : Outcome := op2 d a b (fun x y => x ^^^ y) s

/-- a shifted left by b<4:0> (R255). -/
def execShl (d : BitVec 6) (a b : Opnd) (s : State) : Outcome := op2 d a b (fun x y => x <<< amt y) s

/-- a shifted logically right by b<4:0> (R255). -/
def execShr (d : BitVec 6) (a b : Opnd) (s : State) : Outcome := op2 d a b (fun x y => x >>> amt y) s

/-- a shifted arithmetically right by b<4:0> (R255). -/
def execSra (d : BitVec 6) (a b : Opnd) (s : State) : Outcome := op2 d a b (fun x y => x.sshiftRight (amt y)) s

/-- a AND NOT b (R255). -/
def execAndn (d : BitVec 6) (a b : Opnd) (s : State) : Outcome := op2 d a b (fun x y => x &&& ~~~y) s

/-- a rotated left by b<4:0> (R255). -/
def execRol (d : BitVec 6) (a b : Opnd) (s : State) : Outcome := op2 d a b (fun x y => x.rotateLeft (amt y)) s

/-- a rotated right by b<4:0> (R255). -/
def execRor (d : BitVec 6) (a b : Opnd) (s : State) : Outcome := op2 d a b (fun x y => x.rotateRight (amt y)) s

/-- Signed minimum (R255). -/
def execMin (d : BitVec 6) (a b : Opnd) (s : State) : Outcome := op2 d a b (fun x y => if x.slt y then x else y) s

/-- Signed maximum (R255). -/
def execMax (d : BitVec 6) (a b : Opnd) (s : State) : Outcome := op2 d a b (fun x y => if x.slt y then y else x) s

/-- Unsigned minimum (R255). -/
def execMinu (d : BitVec 6) (a b : Opnd) (s : State) : Outcome := op2 d a b (fun x y => if x.ult y then x else y) s

/-- Unsigned maximum (R255). -/
def execMaxu (d : BitVec 6) (a b : Opnd) (s : State) : Outcome := op2 d a b (fun x y => if x.ult y then y else x) s

/-- Leading zeros (R255). -/
def execClz (d : BitVec 6) (a : Opnd) (s : State) : Outcome := op1 d a (clz32) s

/-- Trailing zeros (R255). -/
def execCtz (d : BitVec 6) (a : Opnd) (s : State) : Outcome := op1 d a (ctz32) s

/-- Set bits (R255). -/
def execPopc (d : BitVec 6) (a : Opnd) (s : State) : Outcome := op1 d a (popc32) s

/-- a<n:0> sign-extended, n = b<4:0> (R255). -/
def execSext (d : BitVec 6) (a b : Opnd) (s : State) : Outcome := op2 d a b (sext32) s

/-- a<n:0> zero-extended, n = b<4:0> (R255). -/
def execZext (d : BitVec 6) (a b : Opnd) (s : State) : Outcome := op2 d a b (zext32) s

/-- s(d) := a (R255). -/
def execMov (d : BitVec 6) (a : Opnd) (s : State) : Outcome := op1 d a (fun x => x) s

/-- a when s(d) is not 0, else b; d is read first (R255). -/
def execSel (d : BitVec 6) (a b : Opnd) (s : State) : Outcome :=
  op2 d a b (fun x y => if s.b.getS d != 0 then x else y) s

/-- The relations of a and b in bits 4:0 (R255). -/
def execCmp (d : BitVec 6) (a b : Opnd) (s : State) : Outcome := op2 d a b (cmp32) s

/-- s(d) := the 18-bit immediate, sign-extended (R255). -/
def execLi (d : BitVec 6) (i : BitVec 18) (s : State) : Outcome := ccOp [d] 1 (fun x => x.setS d (i.signExtend 32)) s

end Sys2Proof.Machine
end

