-- ==== Sys2Proof/Machine/Power.lean ====
section
/-! DEFINITION. Errors, power and the clock: uncorrected errors, the scrub, throttling, shutdown, profiling counters
(spec/18_fabric_host_startup.md R417-R419; spec/17_debug_trace_replay.md R392, R393; spec/15_scheduling.md R364). -/
namespace Sys2Proof.Machine

/-- UNCORRECTED_ERROR (R418): counted, its row poisoned, the domain that found it killed. -/
def execUncorrectedError (row fd : Nat) (s : State) : Outcome := .next (killDomain fd 0x50 (s.foundUnc row))

/-- PATROL_SCRUB (R417, R418): a corrected error is counted; one it cannot correct is counted and poisons its row. -/
def execPatrolScrub (row : Nat) (corrected uncorrected : Bool) (s : State) : Outcome :=
  let d := rowDie row
  let s1 := if corrected then { s with errCorr := s.errCorr.set d (min (s.errCorr[d] + 1) 0xFFFFFFFFFFFFFFFF) } else s
  .next (if uncorrected then s1.foundUnc row else s1)

/-- THROTTLE (R419). -/
def execThrottle (s : State) : Outcome := .next { s with throttle := true }
/-- THROTTLE_END (R419). -/
def execThrottleEnd (s : State) : Outcome := .next { s with throttle := false }
/-- A corrected error met by an access or in an SRAM is counted on its die and has no other effect (R417; log 134). -/
def softError (s : State) : State :=
  let d : Fin 4 := ⟨Config.softDie s.tick % 4, Nat.mod_lt _ (by decide)⟩
  { s with tick := s.tick + 1, errCorr := s.errCorr.set d (min (s.errCorr[d] + 1) 0xFFFFFFFFFFFFFFFF) }

/-- THERMAL_SHUTDOWN (R419): every domain that has a burner, a launch, a tensor or a pantry entry is killed, and the start record
says so. -/
def execThermalShutdown (s : State) : Outcome :=
  let fds := firstSeen ((s.all ++ s.saved).map (·.region.fd) ++ s.launches.flatMap (fun l => l.region.fd :: l.todo.toList.map (·.region.fd)) ++
    s.tensors.map (·.region.fd) ++ s.pantry.map (·.owner.fd) ++ s.groups.flatMap fun g => g.mems.map (·.fd))
  .next { fds.foldl (fun s fd => killDomain fd 0x51 s) s with stState := 2, stStep := 9, stCode := 3, stDetail := 0 }

/-! ## Profiling counters (R392, R393) -/

/-- The instruction a burner would decode next, after a prefix word (R22). -/
def Burner.nextIns (b : Burner) : Option Instr :=
  match decode (b.textAt b.pc.toNat) with
  | .ok (.pfx _, _) => match decode (b.textAt (b.pc.toNat + 4)) with
    | .ok (i, _) => some i
    | .error _ => none
  | .ok (i, _) => some i
  | .error _ => none
/-- The queue an instruction is forwarded to (R201). -/
def insQueue (i : Instr) : Option Queue :=
  match i with
  | .vld _ | .vldRot _ | .vldz _ | .vldm _ => some .l
  | .vst _ | .vstRot _ | .vstz _ | .vstm _ | .esend _ | .erecv _ | .estatStatus _ | .estatProgress _ | .estatDrop _ | .bxform _ | .wreg _
  | .wregUnreg _ | .wregRestore _ | .wloadPast _ | .wloadWait _ | .wloadExtrap _ | .wcommit _ | .wpub _ | .wrelease _ | .wquery _
  | .claim _ | .clwait _ | .fulfil _ | .abandon _ | .clhold _ | .clfree _ => some .s
  | .minv _ | .mpop _ | .rdef _ | .mlease _ | .mfree _ | .otake _ | .ogive _ | .ofill _ | .mma _ | .mmaz _ | .azero _ => some .x
  | _ => if (vdst i).isSome || !(vsrcs i).isEmpty then some .x else none

/-- Whether an instruction may touch a row of another core. -/
def mayBeRemote : Instr → Bool
  | .ldw .. | .stw .. | .aadd .. | .amin .. | .amax .. | .aor .. | .axchg .. | .acas ..
  | .vld _ | .vldRot _ | .vldz _ | .vldm _ | .vst _ | .vstRot _ | .vstz _ | .vstm _ | .esend _ | .ofill _ | .bxform _ => true
  | _ => false
/-- Whether the row that a waiting WAITF rereads lies on another core. -/
def Burner.waitsFar (b : Burner) : Bool :=
  match b.nextIns with
  | some (.waitf _ a _) => (match meshResolve b.core (b.op32 a).toNat with
    | .ok (core, _) => core != b.core
    | .error _ => false)
  | _ => false

/-- Whether the SENDT that a control core stands at finds its target's ring full (R209). -/
def inboxFull (b : Opnd) (s : State) : Bool :=
  let t := s.b.op32 b
  match s.find (t.extractLsb' 22 10).toNat (t.extractLsb' 21 1).toNat with
  | some x => x.bound && !x.ringFree
  | none => false
/-- Whether a part of class 1 holds for the control core: what the state tells, and nothing where only timing does. -/
def ccPart (cls : Nat) (s : State) : Option Bool :=
  let b := s.b
  match cls, b.nextIns with
  | 3, some (.evwait e) => some (!b.ev.getLsbD e.toNat)
  | 4, some (.sendt _ t) => some (inboxFull t s)
  | 4, some i => some (match insQueue i with
    | some k => !b.te && b.reserved k ≤ (b.queue k).length
    | none => false)
  | 5, some (.bcqAny ..) | 5, some (.bcqNone ..) => some b.cq.isEmpty
  | 6, some i => if b.wait == some .bwait || (b.wait == some .waitf && b.waitsFar) then some true
    else if mayBeRemote i then none else some false
  | _, _ => some false
/-- Whether the head entry of a queue is kept from issuing by the handler, an acquire, its tokens, or the array's lease. -/
def headStuck (q : Queue) (e : Entry) (s : State) : Bool :=
  s.b.te || headHeld q e s.b || (e.mx && !e.skip && !s.holdsLease && (match e.ins with
    | .otake _ | .ogive _ | .mfree _ => false
    | .mlease _ => !s.b.enrolled
    | _ => s.b.enrolled))
/-- The same as `ccPart` for the head entry of a queue. -/
def headPart (cls : Nat) (q : Queue) (e : Entry) (s : State) : Option Bool :=
  let b := s.b
  let timed : Option Bool := if headStuck q e s then some false else none
  match cls with
  | 2 => some (e.wsel != 0 && b.tokens e.wsel == 0)
  | 3 => some (match e.ins with
    | .erecv f => match (b.unit f.unit.toNat).fifo with
      | p :: _ => (b.unit f.unit.toNat).out.isEmpty && b.maskWaits p
      | [] => false
    | _ => false)
  | 4 => some ((e.psel != 0 && 16 ≤ b.tokens e.psel) || (!e.skip && match e.ins with
    | .vcq _ => 8 ≤ b.cq.length
    | .esend f =>
      let g := b.unit f.unit.toNat
      decide (g.limit ≤ g.outstanding) && !(b.region.sys && b.region.ovfln != 0 && g.ovf < b.region.ovfln)
    | .wcommit _ | .wpub _ =>
      decide ((b.unit 3).limit ≤ (b.unit 3).outstanding ∨ 8 ≤ ((b.unit 3).fifo.filter fun p => !p.started).length)
    | _ => false))
  | 6 => if e.waited then some true else match e.ins with
    | .clwait _ => (match membOf (lo32 e.va) s with
      | some m => if m.kind == .waiting then some true else timed
      | none => timed)
    | .claim _ | .fulfil _ | .abandon _ | .clhold _ | .clfree _ | .wreg _ | .wregUnreg _ | .wregRestore _ | .wloadPast _ | .wloadWait _
    | .wloadExtrap _ | .wcommit _ | .wpub _ | .wrelease _ | .wquery _ => timed
    | i => if mayBeRemote i then timed else some false
  | 8 => if (vdst e.ins).isSome || !(vsrcs e.ins).isEmpty then timed else some false
  | _ => some false
/-- Which token FIFO or event a part waits on. -/
def partIs (cls idx : Nat) (head : Option Entry) (b : Burner) : Bool :=
  match cls, head with
  | 2, some e => idx = 0 || idx = e.wsel
  | 3, none => (match b.nextIns with
    | some (.evwait e) => e.toNat == idx
    | _ => false)
  | 3, some e => (match e.ins with
    | .erecv f => match (b.unit f.unit.toNat).fifo with
      | p :: _ => p.item.waitM.getLsbD idx && !b.ev.getLsbD idx
      | [] => false
    | _ => false)
  | _, _ => true

/-- The queue that Q names; none for the control core. -/
def queueOf : Nat → Option Queue
  | 1 => some .l
  | 2 => some .x
  | 3 => some .s
  | _ => none
/-- The entry at the head of Q; none for the control core. -/
def headOf (q : Nat) (b : Burner) : Option Entry := (queueOf q).bind fun k => (b.queue k).head?
/-- The part of class 1 that counts for Q: the lowest that applies. Where only timing tells whether one does, x does (R393). -/
def partNow (q x : Nat) (s : State) : Option Nat :=
  let part (k : Nat) : Option Bool := match queueOf q, headOf q s.b with
    | some p, some e => headPart k p e s
    | _, _ => ccPart k s
  let sure := [2, 3, 4, 5, 6, 8].find? fun k => part k == some true
  let may := [2, 3, 4, 5, 6, 8].filter fun k => part k == none && decide (k < sure.getD 9)
  match may.drop (x % (may.length + 1)) with
  | k :: _ => some k
  | [] => sure
/-- How far a burner's control core and queues have issued: instructions retired and slots used. -/
def Burner.issuedTo (b : Burner) : List Nat := [b.ko, b.slot .l, b.slot .x, b.slot .s]
/-- Whether Q issued since the last cycle, when the acting burner had issued as far as `last` says. -/
def issuedSince (q : Nat) (last : List Nat) (b : Burner) : Bool :=
  match last with
  | [] => false
  | _ => last.getD q 0 != b.issuedTo.getD q 0
/-- Whether the selection of a counter of the acting burner holds in a cycle; what timing alone tells is told by x. -/
def classHolds (cls q idx x : Nat) (last : List Nat) (s : State) : Bool :=
  let b := s.b
  let y := x / 8 ^ q
  if cls = 7 then b.bound && b.runnable && !b.front
  else if !b.front then false
  else
    let issues := issuedSince q last b
    if cls = 0 then issues
    else if issues || (q != 0 && (headOf q b).isNone) then false
    else
      let part := partNow q y s
      match cls with
      | 1 => true
      | 9 => part.isNone && y / 16 % 2 == 1 && (match queueOf q, headOf q b with
        | some k, some e => !headStuck k e s
        | _, _ => false)
      | _ => part == some cls && partIs cls idx (headOf q b) b

/-- One counter's cycle: it advances when its selection holds. -/
def countOne (x k : Nat) (last : List Nat) (s : State) : State :=
  let w := vget s.b.psel k
  if w.getLsbD 31 && classHolds (w.extractLsb' 8 4).toNat (w.extractLsb' 12 2).toNat (w.extractLsb' 0 6).toNat x last s then
    s.modB fun b => { b with pcnt := vset b.pcnt k (vget b.pcnt k + 1) }
  else s
/-- A burner's four counters. -/
def countAll (s : State) (p : Nat × Nat) : State :=
  match s.find p.1 p.2 with
  | none => s
  | some b =>
    if !b.psel.any (·.getLsbD 31) then s
    else
      let (x, s1) := s.draw
      let last := tabGet [] s1.issued (slotOf p.1 p.2)
      let c := (List.range 4).foldl (fun t k => countOne x k last t) (s1.focus p.1 p.2)
      s1.modAt p.1 p.2 fun y => { y with pcnt := c.b.pcnt }

/-- CYCLE (R392): the die's cycle count and every burner's counters. -/
def execCycle (s : State) : Outcome :=
  let on := s.all.filter (·.bound)
  let s1 := (on.map fun b => (b.core, b.bur)).foldl countAll s
  .next { s1 with cycle := s1.cycle + 1, issued := on.map fun b => (slotOf b.core b.bur, b.issuedTo) }

end Sys2Proof.Machine
end

