-- ==== Sys2Proof/Machine/Vector.lean ====
section
/-! DEFINITION. Vector, mask and recipe instructions but RDEF: majors 0x20 to 0x27 (spec/12_vector_arithmetic.md,
spec/13_vector_shape_masks_recipes.md), each forwarded to the X queue; what the queue does is in Perform.lean. -/
namespace Sys2Proof.Machine

/-- VADD (R290). -/
def execVadd (f : VF) (s : State) : Outcome := forward (fwdVF (.vadd f) f true) s
/-- VSUB (R290). -/
def execVsub (f : VF) (s : State) : Outcome := forward (fwdVF (.vsub f) f true) s
/-- VMUL (R290). -/
def execVmul (f : VF) (s : State) : Outcome := forward (fwdVF (.vmul f) f true) s
/-- VMULH (R290). -/
def execVmulh (f : VF) (s : State) : Outcome := forward (fwdVF (.vmulh f) f true) s
/-- VMAD (R290). -/
def execVmad (f : VF) (s : State) : Outcome := forward (fwdVF (.vmad f) f true) s
/-- VMIN (R290). -/
def execVmin (f : VF) (s : State) : Outcome := forward (fwdVF (.vmin f) f true) s
/-- VMAX (R290). -/
def execVmax (f : VF) (s : State) : Outcome := forward (fwdVF (.vmax f) f true) s
/-- VABS (R290). -/
def execVabs (f : VF) (s : State) : Outcome := forward (fwdVF (.vabs f) f true) s
/-- VNEG (R290). -/
def execVneg (f : VF) (s : State) : Outcome := forward (fwdVF (.vneg f) f true) s
/-- VAND (R290). -/
def execVand (f : VF) (s : State) : Outcome := forward (fwdVF (.vand f) f true) s
/-- VOR (R290). -/
def execVor (f : VF) (s : State) : Outcome := forward (fwdVF (.vor f) f true) s
/-- VXOR (R290). -/
def execVxor (f : VF) (s : State) : Outcome := forward (fwdVF (.vxor f) f true) s
/-- VNOT (R290). -/
def execVnot (f : VF) (s : State) : Outcome := forward (fwdVF (.vnot f) f true) s
/-- VSHL (R290). -/
def execVshl (f : VF) (s : State) : Outcome := forward (fwdVF (.vshl f) f true) s
/-- VSHR (R290). -/
def execVshr (f : VF) (s : State) : Outcome := forward (fwdVF (.vshr f) f true) s
/-- VSRA (R290). -/
def execVsra (f : VF) (s : State) : Outcome := forward (fwdVF (.vsra f) f true) s
/-- VPOPC (R290). -/
def execVpopc (f : VF) (s : State) : Outcome := forward (fwdVF (.vpopc f) f true) s
/-- VCLZ (R290). -/
def execVclz (f : VF) (s : State) : Outcome := forward (fwdVF (.vclz f) f true) s
/-- VFADD (R292). -/
def execVfadd (f : VF) (s : State) : Outcome := forward (fwdVF (.vfadd f) f true) s
/-- VFSUB (R292). -/
def execVfsub (f : VF) (s : State) : Outcome := forward (fwdVF (.vfsub f) f true) s
/-- VFMUL (R292). -/
def execVfmul (f : VF) (s : State) : Outcome := forward (fwdVF (.vfmul f) f true) s
/-- VFMA (R292). -/
def execVfma (f : VF) (s : State) : Outcome := forward (fwdVF (.vfma f) f true) s
/-- VFMIN (R292). -/
def execVfmin (f : VF) (s : State) : Outcome := forward (fwdVF (.vfmin f) f true) s
/-- VFMAX (R292). -/
def execVfmax (f : VF) (s : State) : Outcome := forward (fwdVF (.vfmax f) f true) s
/-- VDIV (R293). -/
def execVdiv (f : VF) (s : State) : Outcome := forward (fwdVF (.vdiv f) f true) s
/-- VSQRT (R293). -/
def execVsqrt (f : VF) (s : State) : Outcome := forward (fwdVF (.vsqrt f) f true) s
/-- VRCP (R293). -/
def execVrcp (f : VF) (s : State) : Outcome := forward (fwdVF (.vrcp f) f true) s
/-- VRSQ (R293). -/
def execVrsq (f : VF) (s : State) : Outcome := forward (fwdVF (.vrsq f) f true) s
/-- VEXP2 (R293). -/
def execVexp2 (f : VF) (s : State) : Outcome := forward (fwdVF (.vexp2 f) f true) s
/-- VLOG2 (R293). -/
def execVlog2 (f : VF) (s : State) : Outcome := forward (fwdVF (.vlog2 f) f true) s
/-- VTANH (R293). -/
def execVtanh (f : VF) (s : State) : Outcome := forward (fwdVF (.vtanh f) f true) s
/-- VSIN (R294). -/
def execVsin (f : VF) (s : State) : Outcome := forward (fwdVF (.vsin f) f true) s
/-- VCOS (R294). -/
def execVcos (f : VF) (s : State) : Outcome := forward (fwdVF (.vcos f) f true) s
/-- VCMP_EQ (R296). -/
def execVcmpEq (f : VF) (s : State) : Outcome := forward (fwdVF (.vcmpEq f) f true) s
/-- VCMP_NE (R296). -/
def execVcmpNe (f : VF) (s : State) : Outcome := forward (fwdVF (.vcmpNe f) f true) s
/-- VCMP_LT (R296). -/
def execVcmpLt (f : VF) (s : State) : Outcome := forward (fwdVF (.vcmpLt f) f true) s
/-- VCMP_LE (R296). -/
def execVcmpLe (f : VF) (s : State) : Outcome := forward (fwdVF (.vcmpLe f) f true) s
/-- VCMP_GT (R296). -/
def execVcmpGt (f : VF) (s : State) : Outcome := forward (fwdVF (.vcmpGt f) f true) s
/-- VCMP_GE (R296). -/
def execVcmpGe (f : VF) (s : State) : Outcome := forward (fwdVF (.vcmpGe f) f true) s
/-- VCMP_LTU (R296). -/
def execVcmpLtu (f : VF) (s : State) : Outcome := forward (fwdVF (.vcmpLtu f) f true) s
/-- VCMP_GEU (R296). -/
def execVcmpGeu (f : VF) (s : State) : Outcome := forward (fwdVF (.vcmpGeu f) f true) s
/-- VSEL (R297). -/
def execVsel (f : VF) (s : State) : Outcome := forward (fwdVF (.vsel f) f true) s
/-- VCVT (R299). -/
def execVcvt (f : VF) (s : State) : Outcome := forward (fwdVF (.vcvt f) f true) s
/-- VSCALE (R300). -/
def execVscale (f : VF) (s : State) : Outcome := forward (fwdVF (.vscale f) f true) s
/-- VQNT (R300). -/
def execVqnt (f : VF) (s : State) : Outcome := forward (fwdVF (.vqnt f) f true) s
/-- VDQNT (R301). -/
def execVdqnt (f : VF) (s : State) : Outcome := forward (fwdVF (.vdqnt f) f true) s
/-- VROTR (R305). -/
def execVrotr (f : VSF) (s : State) : Outcome := forward (fwdVSF (.vrotr f) f s.b) s
/-- VROTC (R305). -/
def execVrotc (f : VSF) (s : State) : Outcome := forward (fwdVSF (.vrotc f) f s.b) s
/-- VBCR (R305). -/
def execVbcr (f : VSF) (s : State) : Outcome := forward (fwdVSF (.vbcr f) f s.b) s
/-- VBCC (R305). -/
def execVbcc (f : VSF) (s : State) : Outcome := forward (fwdVSF (.vbcc f) f s.b) s
/-- VREDR (R306). -/
def execVredr (f : VF) (s : State) : Outcome := forward (fwdVF (.vredr f) f true) s
/-- VREDC (R306). -/
def execVredc (f : VF) (s : State) : Outcome := forward (fwdVF (.vredc f) f true) s
/-- VREDA (R306). -/
def execVreda (f : VF) (s : State) : Outcome := forward (fwdVF (.vreda f) f true) s
/-- VIOTA (R308). -/
def execViota (f : VSF) (s : State) : Outcome := forward (fwdVSF (.viota f) f s.b) s
/-- VSPL (R308). -/
def execVspl (f : VSF) (s : State) : Outcome := forward (fwdVSF (.vspl f) f s.b) s
/-- VEXT (R308). -/
def execVext (f : VSF) (s : State) : Outcome := forward (fwdVSF (.vext f) f s.b) s
/-- VINS (R308). -/
def execVins (f : VSF) (s : State) : Outcome := forward (fwdVSF (.vins f) f s.b) s
/-- VCOAL (R309). -/
def execVcoal (f : VF) (s : State) : Outcome := forward (fwdVF (.vcoal f) f true) s
/-- VLEN (R309). -/
def execVlen (f : VSF) (s : State) : Outcome := forward (fwdVSF (.vlen f) f s.b) s
/-- VOCC (R309). -/
def execVocc (f : VF) (s : State) : Outcome := forward (fwdVF (.vocc f) f true) s
/-- MPUSH (R311). -/
def execMpush (f : VF) (s : State) : Outcome := forward (fwdVF (.mpush f) f false) s
/-- MINV (R311). -/
def execMinv (f : VF) (s : State) : Outcome := forward (fwdVF (.minv f) f false) s
/-- MPOP (R311). -/
def execMpop (f : VF) (s : State) : Outcome := forward (fwdVF (.mpop f) f false) s
/-- MTEST (R311). -/
def execMtest (f : VF) (s : State) : Outcome := forward (fwdVF (.mtest f) f false) s
/-- VCQ (R313). -/
def execVcq (f : VF) (s : State) : Outcome := forward (fwdVF (.vcq f) f false) s
/-- VTAG (R319). -/
def execVtag (f : VF) (s : State) : Outcome := forward (fwdVF (.vtag f) f false) s
/-- VUNTAG (R320). -/
def execVuntag (f : VF) (s : State) : Outcome := forward (fwdVF (.vuntag f) f false) s
/-- VDROP (R320). -/
def execVdrop (f : VF) (s : State) : Outcome := forward (fwdVF (.vdrop f) f false) s

end Sys2Proof.Machine
end

