-- ==== Sys2Proof/Machine/VectorMemory.lean ====
section
/-! DEFINITION. Vector memory and matrix instructions: majors 0x30 to 0x39 (spec/14_matrix_and_engines.md R323-R334), each
forwarded to its queue. -/
namespace Sys2Proof.Machine

/-- VLD (R324). -/
def execVld (f : MF) (s : State) : Outcome := forward (fwdMF (.vld f) f .l s.b) s
/-- VLD_ROT (R324). -/
def execVldRot (f : MF) (s : State) : Outcome := forward (fwdMF (.vldRot f) f .l s.b) s
/-- VLDZ (R324). -/
def execVldz (f : MF) (s : State) : Outcome := forward (fwdMF (.vldz f) f .l s.b) s
/-- VLDM (R324). -/
def execVldm (f : MF) (s : State) : Outcome := forward (fwdMF (.vldm f) f .l s.b) s
/-- VST (R325). -/
def execVst (f : MF) (s : State) : Outcome := forward (fwdMF (.vst f) f .s s.b) s
/-- VST_ROT (R325). -/
def execVstRot (f : MF) (s : State) : Outcome := forward (fwdMF (.vstRot f) f .s s.b) s
/-- VSTZ (R325). -/
def execVstz (f : MF) (s : State) : Outcome := forward (fwdMF (.vstz f) f .s s.b) s
/-- VSTM (R325). -/
def execVstm (f : MF) (s : State) : Outcome := forward (fwdMF (.vstm f) f .s s.b) s
/-- MLEASE (R328). -/
def execMlease (f : XF) (s : State) : Outcome := forward (fwdXF (.mlease f) f s.b) s
/-- MFREE (R328). -/
def execMfree (f : XF) (s : State) : Outcome := forward (fwdXF (.mfree f) f s.b) s
/-- OTAKE (R329). -/
def execOtake (f : XF) (s : State) : Outcome := forward (fwdXF (.otake f) f s.b) s
/-- OGIVE (R329). -/
def execOgive (f : XF) (s : State) : Outcome := forward (fwdXF (.ogive f) f s.b) s
/-- OFILL (R330). -/
def execOfill (f : XF) (s : State) : Outcome := forward (fwdXF (.ofill f) f s.b) s
/-- MMA (R331). -/
def execMma (f : XF) (s : State) : Outcome := forward (fwdXF (.mma f) f s.b) s
/-- MMAZ (R331). -/
def execMmaz (f : XF) (s : State) : Outcome := forward (fwdXF (.mmaz f) f s.b) s
/-- ARD (R333). -/
def execArd (f : XF) (s : State) : Outcome := forward (fwdXF (.ard f) f s.b) s
/-- AWR (R333). -/
def execAwr (f : XF) (s : State) : Outcome := forward (fwdXF (.awr f) f s.b) s
/-- AZERO (R333). -/
def execAzero (f : XF) (s : State) : Outcome := forward (fwdXF (.azero f) f s.b) s

end Sys2Proof.Machine
end

