-- ==== Sys2Proof/Machine/Wide.lean ====
section
/-! DEFINITION. Wide pairs (major 0x02, spec/11_control_core_instructions.md R257) and packed sub-elements (major 0x03, R258). -/
namespace Sys2Proof.Machine

/-- w(d) := a + b (R257). -/
def execAddw (d : BitVec 6) (a b : Opnd) (s : State) : Outcome := opW2 d a b (fun x y => x + y) s
/-- w(d) := a − b (R257). -/
def execSubw (d : BitVec 6) (a b : Opnd) (s : State) : Outcome := opW2 d a b (fun x y => x - y) s
/-- w(d) := a shifted left by b<5:0> (R257). -/
def execShlw (d : BitVec 6) (a b : Opnd) (s : State) : Outcome :=
  opW2 d a b (fun x y => x <<< (y.extractLsb' 0 6).toNat) s
/-- w(d) := a (R257). -/
def execMovw (d : BitVec 6) (a : Opnd) (s : State) : Outcome := opW2 d a (.imm 0) (fun x _ => x) s

/-- Lane j of width w (R258). -/
def laneU (w : Nat) (x : Word) (j : Nat) : Nat := x.toNat / 2 ^ (w * j) % 2 ^ w
/-- A packed operation lane by lane: f on the signed lane values, its result modulo 2^w. -/
def packed (w : Nat) (f : Int → Int → Int) (x y : Word) : Word :=
  w32 ((List.range (32 / w)).foldr
    (fun j acc => acc ||| ((f (intVal w true (laneU w x j)) (intVal w true (laneU w y j)) % 2 ^ w).toNat * 2 ^ (w * j))) 0)
/-- floor((x + y + 1) / 2). -/
def avgI (x y : Int) : Int := Int.fdiv (x + y + 1) 2

/-- Lanes added modulo 2^w, w = 16 (R258). -/
def execAddp16 (d : BitVec 6) (a b : Opnd) (s : State) : Outcome := op2 d a b (packed 16 (fun x y => x + y)) s
/-- Lanes added modulo 2^w, w = 8 (R258). -/
def execAddp8 (d : BitVec 6) (a b : Opnd) (s : State) : Outcome := op2 d a b (packed 8 (fun x y => x + y)) s
/-- Lanes added modulo 2^w, w = 4 (R258). -/
def execAddp4 (d : BitVec 6) (a b : Opnd) (s : State) : Outcome := op2 d a b (packed 4 (fun x y => x + y)) s
/-- Lanes subtracted modulo 2^w, w = 16 (R258). -/
def execSubp16 (d : BitVec 6) (a b : Opnd) (s : State) : Outcome := op2 d a b (packed 16 (fun x y => x - y)) s
/-- Lanes subtracted modulo 2^w, w = 8 (R258). -/
def execSubp8 (d : BitVec 6) (a b : Opnd) (s : State) : Outcome := op2 d a b (packed 8 (fun x y => x - y)) s
/-- Lanes subtracted modulo 2^w, w = 4 (R258). -/
def execSubp4 (d : BitVec 6) (a b : Opnd) (s : State) : Outcome := op2 d a b (packed 4 (fun x y => x - y)) s
/-- Signed maximum of lanes, w = 16 (R258). -/
def execMaxp16 (d : BitVec 6) (a b : Opnd) (s : State) : Outcome := op2 d a b (packed 16 max) s
/-- Signed maximum of lanes, w = 8 (R258). -/
def execMaxp8 (d : BitVec 6) (a b : Opnd) (s : State) : Outcome := op2 d a b (packed 8 max) s
/-- Signed maximum of lanes, w = 4 (R258). -/
def execMaxp4 (d : BitVec 6) (a b : Opnd) (s : State) : Outcome := op2 d a b (packed 4 max) s
/-- Signed minimum of lanes, w = 16 (R258). -/
def execMinp16 (d : BitVec 6) (a b : Opnd) (s : State) : Outcome := op2 d a b (packed 16 min) s
/-- Signed minimum of lanes, w = 8 (R258). -/
def execMinp8 (d : BitVec 6) (a b : Opnd) (s : State) : Outcome := op2 d a b (packed 8 min) s
/-- Signed minimum of lanes, w = 4 (R258). -/
def execMinp4 (d : BitVec 6) (a b : Opnd) (s : State) : Outcome := op2 d a b (packed 4 min) s
/-- floor((x + y + 1) / 2) of signed lanes, w = 16 (R258). -/
def execAvgp16 (d : BitVec 6) (a b : Opnd) (s : State) : Outcome := op2 d a b (packed 16 avgI) s
/-- floor((x + y + 1) / 2) of signed lanes, w = 8 (R258). -/
def execAvgp8 (d : BitVec 6) (a b : Opnd) (s : State) : Outcome := op2 d a b (packed 8 avgI) s
/-- floor((x + y + 1) / 2) of signed lanes, w = 4 (R258). -/
def execAvgp4 (d : BitVec 6) (a b : Opnd) (s : State) : Outcome := op2 d a b (packed 4 avgI) s

end Sys2Proof.Machine
end

