-- ==== Sys2Proof/Machine/Dispatch.lean ====
section
/-! DEFINITION. One arm per constructor of Instr: its meaning. -/
namespace Sys2Proof.Machine

def exec (i : Instr) (s : State) : Host.Outcome State Fault Refusal :=
  match i with
  | .add x1 x2 x3 => Sys2Proof.Machine.execAdd x1 x2 x3 s
  | .sub x1 x2 x3 => Sys2Proof.Machine.execSub x1 x2 x3 s
  | .mul x1 x2 x3 => Sys2Proof.Machine.execMul x1 x2 x3 s
  | .mulh x1 x2 x3 => Sys2Proof.Machine.execMulh x1 x2 x3 s
  | .mulhu x1 x2 x3 => Sys2Proof.Machine.execMulhu x1 x2 x3 s
  | .div x1 x2 x3 => Sys2Proof.Machine.execDiv x1 x2 x3 s
  | .divu x1 x2 x3 => Sys2Proof.Machine.execDivu x1 x2 x3 s
  | .rem x1 x2 x3 => Sys2Proof.Machine.execRem x1 x2 x3 s
  | .remu x1 x2 x3 => Sys2Proof.Machine.execRemu x1 x2 x3 s
  | .and x1 x2 x3 => Sys2Proof.Machine.execAnd x1 x2 x3 s
  | .or x1 x2 x3 => Sys2Proof.Machine.execOr x1 x2 x3 s
  | .xor x1 x2 x3 => Sys2Proof.Machine.execXor x1 x2 x3 s
  | .shl x1 x2 x3 => Sys2Proof.Machine.execShl x1 x2 x3 s
  | .shr x1 x2 x3 => Sys2Proof.Machine.execShr x1 x2 x3 s
  | .sra x1 x2 x3 => Sys2Proof.Machine.execSra x1 x2 x3 s
  | .andn x1 x2 x3 => Sys2Proof.Machine.execAndn x1 x2 x3 s
  | .rol x1 x2 x3 => Sys2Proof.Machine.execRol x1 x2 x3 s
  | .ror x1 x2 x3 => Sys2Proof.Machine.execRor x1 x2 x3 s
  | .min x1 x2 x3 => Sys2Proof.Machine.execMin x1 x2 x3 s
  | .max x1 x2 x3 => Sys2Proof.Machine.execMax x1 x2 x3 s
  | .minu x1 x2 x3 => Sys2Proof.Machine.execMinu x1 x2 x3 s
  | .maxu x1 x2 x3 => Sys2Proof.Machine.execMaxu x1 x2 x3 s
  | .clz x1 x2 => Sys2Proof.Machine.execClz x1 x2 s
  | .ctz x1 x2 => Sys2Proof.Machine.execCtz x1 x2 s
  | .popc x1 x2 => Sys2Proof.Machine.execPopc x1 x2 s
  | .sext x1 x2 x3 => Sys2Proof.Machine.execSext x1 x2 x3 s
  | .zext x1 x2 x3 => Sys2Proof.Machine.execZext x1 x2 x3 s
  | .mov x1 x2 => Sys2Proof.Machine.execMov x1 x2 s
  | .sel x1 x2 x3 => Sys2Proof.Machine.execSel x1 x2 x3 s
  | .cmp x1 x2 x3 => Sys2Proof.Machine.execCmp x1 x2 x3 s
  | .li x1 x2 => Sys2Proof.Machine.execLi x1 x2 s
  | .addw x1 x2 x3 => Sys2Proof.Machine.execAddw x1 x2 x3 s
  | .subw x1 x2 x3 => Sys2Proof.Machine.execSubw x1 x2 x3 s
  | .shlw x1 x2 x3 => Sys2Proof.Machine.execShlw x1 x2 x3 s
  | .movw x1 x2 => Sys2Proof.Machine.execMovw x1 x2 s
  | .addp16 x1 x2 x3 => Sys2Proof.Machine.execAddp16 x1 x2 x3 s
  | .addp8 x1 x2 x3 => Sys2Proof.Machine.execAddp8 x1 x2 x3 s
  | .addp4 x1 x2 x3 => Sys2Proof.Machine.execAddp4 x1 x2 x3 s
  | .subp16 x1 x2 x3 => Sys2Proof.Machine.execSubp16 x1 x2 x3 s
  | .subp8 x1 x2 x3 => Sys2Proof.Machine.execSubp8 x1 x2 x3 s
  | .subp4 x1 x2 x3 => Sys2Proof.Machine.execSubp4 x1 x2 x3 s
  | .maxp16 x1 x2 x3 => Sys2Proof.Machine.execMaxp16 x1 x2 x3 s
  | .maxp8 x1 x2 x3 => Sys2Proof.Machine.execMaxp8 x1 x2 x3 s
  | .maxp4 x1 x2 x3 => Sys2Proof.Machine.execMaxp4 x1 x2 x3 s
  | .minp16 x1 x2 x3 => Sys2Proof.Machine.execMinp16 x1 x2 x3 s
  | .minp8 x1 x2 x3 => Sys2Proof.Machine.execMinp8 x1 x2 x3 s
  | .minp4 x1 x2 x3 => Sys2Proof.Machine.execMinp4 x1 x2 x3 s
  | .avgp16 x1 x2 x3 => Sys2Proof.Machine.execAvgp16 x1 x2 x3 s
  | .avgp8 x1 x2 x3 => Sys2Proof.Machine.execAvgp8 x1 x2 x3 s
  | .avgp4 x1 x2 x3 => Sys2Proof.Machine.execAvgp4 x1 x2 x3 s
  | .fadd x1 x2 x3 => Sys2Proof.Machine.execFadd x1 x2 x3 s
  | .fsub x1 x2 x3 => Sys2Proof.Machine.execFsub x1 x2 x3 s
  | .fmul x1 x2 x3 => Sys2Proof.Machine.execFmul x1 x2 x3 s
  | .ffma x1 x2 x3 => Sys2Proof.Machine.execFfma x1 x2 x3 s
  | .fmin x1 x2 x3 => Sys2Proof.Machine.execFmin x1 x2 x3 s
  | .fmax x1 x2 x3 => Sys2Proof.Machine.execFmax x1 x2 x3 s
  | .fcmp x1 x2 x3 => Sys2Proof.Machine.execFcmp x1 x2 x3 s
  | .fcvt x1 x2 x3 => Sys2Proof.Machine.execFcvt x1 x2 x3 s
  | .fcvti x1 x2 => Sys2Proof.Machine.execFcvti x1 x2 s
  | .fcvtf x1 x2 => Sys2Proof.Machine.execFcvtf x1 x2 s
  | .ldw x1 x2 x3 => Sys2Proof.Machine.execLdw x1 x2 x3 s
  | .stw x1 x2 x3 => Sys2Proof.Machine.execStw x1 x2 x3 s
  | .aadd x1 x2 x3 => Sys2Proof.Machine.execAadd x1 x2 x3 s
  | .amax x1 x2 x3 => Sys2Proof.Machine.execAmax x1 x2 x3 s
  | .amin x1 x2 x3 => Sys2Proof.Machine.execAmin x1 x2 x3 s
  | .axchg x1 x2 x3 => Sys2Proof.Machine.execAxchg x1 x2 x3 s
  | .acas x1 x2 x3 => Sys2Proof.Machine.execAcas x1 x2 x3 s
  | .aor x1 x2 x3 => Sys2Proof.Machine.execAor x1 x2 x3 s
  | .fence x1 x2 => Sys2Proof.Machine.execFence x1 x2 s
  | .bcNz x1 x2 => Sys2Proof.Machine.execBcNz x1 x2 s
  | .bcZ x1 x2 => Sys2Proof.Machine.execBcZ x1 x2 s
  | .bcqAny x1 x2 => Sys2Proof.Machine.execBcqAny x1 x2 s
  | .bcqNone x1 x2 => Sys2Proof.Machine.execBcqNone x1 x2 s
  | .bevSet x1 x2 => Sys2Proof.Machine.execBevSet x1 x2 s
  | .bevClr x1 x2 => Sys2Proof.Machine.execBevClr x1 x2 s
  | .jr x1 => Sys2Proof.Machine.execJr x1 s
  | .ret => Sys2Proof.Machine.execRet s
  | .b x1 => Sys2Proof.Machine.execB x1 s
  | .call x1 => Sys2Proof.Machine.execCall x1 s
  | .loop x1 x2 x3 => Sys2Proof.Machine.execLoop x1 x2 x3 s
  | .evwait x1 => Sys2Proof.Machine.execEvwait x1 s
  | .evset x1 => Sys2Proof.Machine.execEvset x1 s
  | .evclr x1 => Sys2Proof.Machine.execEvclr x1 s
  | .waitf x1 x2 x3 => Sys2Proof.Machine.execWaitf x1 x2 x3 s
  | .barm x1 x2 => Sys2Proof.Machine.execBarm x1 x2 s
  | .barr x1 => Sys2Proof.Machine.execBarr x1 s
  | .bwait x1 x2 => Sys2Proof.Machine.execBwait x1 x2 s
  | .bleave x1 => Sys2Proof.Machine.execBleave x1 s
  | .sendt x1 x2 => Sys2Proof.Machine.execSendt x1 x2 s
  | .trap x1 => Sys2Proof.Machine.execTrap x1 s
  | .rft => Sys2Proof.Machine.execRft s
  | .yield => Sys2Proof.Machine.execYield s
  | .halt => Sys2Proof.Machine.execHalt s
  | .ctlr x1 x2 => Sys2Proof.Machine.execCtlr x1 x2 s
  | .ctlw x1 x2 => Sys2Proof.Machine.execCtlw x1 x2 s
  | .nop => Sys2Proof.Machine.execNop s
  | .bkpt x1 => Sys2Proof.Machine.execBkpt x1 s
  | .bswitch => Sys2Proof.Machine.execBswitch s
  | .pfx x1 => Sys2Proof.Machine.execPfx x1 s
  | .inbpop x1 => Sys2Proof.Machine.execInbpop x1 s
  | .inbrel x1 => Sys2Proof.Machine.execInbrel x1 s
  | .sld x1 => Sys2Proof.Machine.execSld x1 s
  | .srsWrite x1 x2 => Sys2Proof.Machine.execSrsWrite x1 x2 s
  | .ltrWrite x1 x2 => Sys2Proof.Machine.execLtrWrite x1 x2 s
  | .pfwait x1 => Sys2Proof.Machine.execPfwait x1 s
  | .trmark x1 => Sys2Proof.Machine.execTrmark x1 s
  | .mode x1 => Sys2Proof.Machine.execMode x1 s
  | .vadd x1 => Sys2Proof.Machine.execVadd x1 s
  | .vsub x1 => Sys2Proof.Machine.execVsub x1 s
  | .vmul x1 => Sys2Proof.Machine.execVmul x1 s
  | .vmulh x1 => Sys2Proof.Machine.execVmulh x1 s
  | .vmad x1 => Sys2Proof.Machine.execVmad x1 s
  | .vmin x1 => Sys2Proof.Machine.execVmin x1 s
  | .vmax x1 => Sys2Proof.Machine.execVmax x1 s
  | .vabs x1 => Sys2Proof.Machine.execVabs x1 s
  | .vneg x1 => Sys2Proof.Machine.execVneg x1 s
  | .vand x1 => Sys2Proof.Machine.execVand x1 s
  | .vor x1 => Sys2Proof.Machine.execVor x1 s
  | .vxor x1 => Sys2Proof.Machine.execVxor x1 s
  | .vnot x1 => Sys2Proof.Machine.execVnot x1 s
  | .vshl x1 => Sys2Proof.Machine.execVshl x1 s
  | .vshr x1 => Sys2Proof.Machine.execVshr x1 s
  | .vsra x1 => Sys2Proof.Machine.execVsra x1 s
  | .vpopc x1 => Sys2Proof.Machine.execVpopc x1 s
  | .vclz x1 => Sys2Proof.Machine.execVclz x1 s
  | .vfadd x1 => Sys2Proof.Machine.execVfadd x1 s
  | .vfsub x1 => Sys2Proof.Machine.execVfsub x1 s
  | .vfmul x1 => Sys2Proof.Machine.execVfmul x1 s
  | .vfma x1 => Sys2Proof.Machine.execVfma x1 s
  | .vfmin x1 => Sys2Proof.Machine.execVfmin x1 s
  | .vfmax x1 => Sys2Proof.Machine.execVfmax x1 s
  | .vdiv x1 => Sys2Proof.Machine.execVdiv x1 s
  | .vsqrt x1 => Sys2Proof.Machine.execVsqrt x1 s
  | .vrcp x1 => Sys2Proof.Machine.execVrcp x1 s
  | .vrsq x1 => Sys2Proof.Machine.execVrsq x1 s
  | .vexp2 x1 => Sys2Proof.Machine.execVexp2 x1 s
  | .vlog2 x1 => Sys2Proof.Machine.execVlog2 x1 s
  | .vtanh x1 => Sys2Proof.Machine.execVtanh x1 s
  | .vsin x1 => Sys2Proof.Machine.execVsin x1 s
  | .vcos x1 => Sys2Proof.Machine.execVcos x1 s
  | .vcmpEq x1 => Sys2Proof.Machine.execVcmpEq x1 s
  | .vcmpNe x1 => Sys2Proof.Machine.execVcmpNe x1 s
  | .vcmpLt x1 => Sys2Proof.Machine.execVcmpLt x1 s
  | .vcmpLe x1 => Sys2Proof.Machine.execVcmpLe x1 s
  | .vcmpGt x1 => Sys2Proof.Machine.execVcmpGt x1 s
  | .vcmpGe x1 => Sys2Proof.Machine.execVcmpGe x1 s
  | .vcmpLtu x1 => Sys2Proof.Machine.execVcmpLtu x1 s
  | .vcmpGeu x1 => Sys2Proof.Machine.execVcmpGeu x1 s
  | .vsel x1 => Sys2Proof.Machine.execVsel x1 s
  | .vcvt x1 => Sys2Proof.Machine.execVcvt x1 s
  | .vscale x1 => Sys2Proof.Machine.execVscale x1 s
  | .vqnt x1 => Sys2Proof.Machine.execVqnt x1 s
  | .vdqnt x1 => Sys2Proof.Machine.execVdqnt x1 s
  | .vrotr x1 => Sys2Proof.Machine.execVrotr x1 s
  | .vrotc x1 => Sys2Proof.Machine.execVrotc x1 s
  | .vbcr x1 => Sys2Proof.Machine.execVbcr x1 s
  | .vbcc x1 => Sys2Proof.Machine.execVbcc x1 s
  | .vredr x1 => Sys2Proof.Machine.execVredr x1 s
  | .vredc x1 => Sys2Proof.Machine.execVredc x1 s
  | .vreda x1 => Sys2Proof.Machine.execVreda x1 s
  | .viota x1 => Sys2Proof.Machine.execViota x1 s
  | .vspl x1 => Sys2Proof.Machine.execVspl x1 s
  | .vext x1 => Sys2Proof.Machine.execVext x1 s
  | .vins x1 => Sys2Proof.Machine.execVins x1 s
  | .vcoal x1 => Sys2Proof.Machine.execVcoal x1 s
  | .vlen x1 => Sys2Proof.Machine.execVlen x1 s
  | .vocc x1 => Sys2Proof.Machine.execVocc x1 s
  | .mpush x1 => Sys2Proof.Machine.execMpush x1 s
  | .minv x1 => Sys2Proof.Machine.execMinv x1 s
  | .mpop x1 => Sys2Proof.Machine.execMpop x1 s
  | .mtest x1 => Sys2Proof.Machine.execMtest x1 s
  | .vcq x1 => Sys2Proof.Machine.execVcq x1 s
  | .rdef x1 => Sys2Proof.Machine.execRdef x1 s
  | .vtag x1 => Sys2Proof.Machine.execVtag x1 s
  | .vuntag x1 => Sys2Proof.Machine.execVuntag x1 s
  | .vdrop x1 => Sys2Proof.Machine.execVdrop x1 s
  | .vld x1 => Sys2Proof.Machine.execVld x1 s
  | .vldRot x1 => Sys2Proof.Machine.execVldRot x1 s
  | .vst x1 => Sys2Proof.Machine.execVst x1 s
  | .vstRot x1 => Sys2Proof.Machine.execVstRot x1 s
  | .vldz x1 => Sys2Proof.Machine.execVldz x1 s
  | .vstz x1 => Sys2Proof.Machine.execVstz x1 s
  | .vldm x1 => Sys2Proof.Machine.execVldm x1 s
  | .vstm x1 => Sys2Proof.Machine.execVstm x1 s
  | .mlease x1 => Sys2Proof.Machine.execMlease x1 s
  | .mfree x1 => Sys2Proof.Machine.execMfree x1 s
  | .otake x1 => Sys2Proof.Machine.execOtake x1 s
  | .ogive x1 => Sys2Proof.Machine.execOgive x1 s
  | .ofill x1 => Sys2Proof.Machine.execOfill x1 s
  | .mma x1 => Sys2Proof.Machine.execMma x1 s
  | .mmaz x1 => Sys2Proof.Machine.execMmaz x1 s
  | .ard x1 => Sys2Proof.Machine.execArd x1 s
  | .awr x1 => Sys2Proof.Machine.execAwr x1 s
  | .azero x1 => Sys2Proof.Machine.execAzero x1 s
  | .esend x1 => Sys2Proof.Machine.execEsend x1 s
  | .erecv x1 => Sys2Proof.Machine.execErecv x1 s
  | .estatStatus x1 => Sys2Proof.Machine.execEstatStatus x1 s
  | .estatProgress x1 => Sys2Proof.Machine.execEstatProgress x1 s
  | .estatDrop x1 => Sys2Proof.Machine.execEstatDrop x1 s
  | .bxform x1 => Sys2Proof.Machine.execBxform x1 s
  | .wreg x1 => Sys2Proof.Machine.execWreg x1 s
  | .wregUnreg x1 => Sys2Proof.Machine.execWregUnreg x1 s
  | .wregRestore x1 => Sys2Proof.Machine.execWregRestore x1 s
  | .wloadPast x1 => Sys2Proof.Machine.execWloadPast x1 s
  | .wloadWait x1 => Sys2Proof.Machine.execWloadWait x1 s
  | .wloadExtrap x1 => Sys2Proof.Machine.execWloadExtrap x1 s
  | .wcommit x1 => Sys2Proof.Machine.execWcommit x1 s
  | .wpub x1 => Sys2Proof.Machine.execWpub x1 s
  | .wrelease x1 => Sys2Proof.Machine.execWrelease x1 s
  | .wquery x1 => Sys2Proof.Machine.execWquery x1 s
  | .claim x1 => Sys2Proof.Machine.execClaim x1 s
  | .clwait x1 => Sys2Proof.Machine.execClwait x1 s
  | .fulfil x1 => Sys2Proof.Machine.execFulfil x1 s
  | .abandon x1 => Sys2Proof.Machine.execAbandon x1 s
  | .clhold x1 => Sys2Proof.Machine.execClhold x1 s
  | .clfree x1 => Sys2Proof.Machine.execClfree x1 s
  | .inboxDelivery x1 x2 x3 x4 => Sys2Proof.Machine.execInboxDelivery x1 x2 x3 x4 s
  | .arrivalCombine x1 x2 => Sys2Proof.Machine.execArrivalCombine x1 x2 s
  | .collectiveRoot x1 => Sys2Proof.Machine.execCollectiveRoot x1 s
  | .engineCompletion x1 x2 x3 => Sys2Proof.Machine.execEngineCompletion x1 x2 x3 s
  | .stockpotCommit x1 x2 x3 x4 x5 => Sys2Proof.Machine.execStockpotCommit x1 x2 x3 x4 x5 s
  | .checkpointComplete x1 => Sys2Proof.Machine.execCheckpointComplete x1 s
  | .stockpotPublish x1 x2 x3 x4 => Sys2Proof.Machine.execStockpotPublish x1 x2 x3 x4 s
  | .deltaApply x1 x2 x3 x4 x5 => Sys2Proof.Machine.execDeltaApply x1 x2 x3 x4 x5 s
  | .publishAck x1 x2 x3 x4 x5 x6 => Sys2Proof.Machine.execPublishAck x1 x2 x3 x4 x5 x6 s
  | .deltaFree x1 => Sys2Proof.Machine.execDeltaFree x1 s
  | .tensorEntryFree x1 => Sys2Proof.Machine.execTensorEntryFree x1 s
  | .pantryRemoval x1 x2 => Sys2Proof.Machine.execPantryRemoval x1 x2 s
  | .recordNop x1 x2 => Sys2Proof.Machine.execRecordNop x1 x2 s
  | .launch x1 x2 => Sys2Proof.Machine.execLaunch x1 x2 s
  | .launchList x1 x2 => Sys2Proof.Machine.execLaunchList x1 x2 s
  | .commandListNode x1 => Sys2Proof.Machine.execCommandListNode x1 s
  | .inval x1 x2 => Sys2Proof.Machine.execInval x1 x2 s
  | .kill x1 x2 => Sys2Proof.Machine.execKill x1 x2 s
  | .yieldreq x1 x2 => Sys2Proof.Machine.execYieldreq x1 x2 s
  | .evict x1 x2 => Sys2Proof.Machine.execEvict x1 x2 s
  | .resume x1 x2 => Sys2Proof.Machine.execResume x1 x2 s
  | .dispatchBind x1 => Sys2Proof.Machine.execDispatchBind x1 s
  | .dispatchUnbind x1 => Sys2Proof.Machine.execDispatchUnbind x1 s
  | .dispatchEvict x1 => Sys2Proof.Machine.execDispatchEvict x1 s
  | .completionRecord x1 x2 x3 x4 x5 => Sys2Proof.Machine.execCompletionRecord x1 x2 x3 x4 x5 s
  | .uncorrectedError x1 x2 => Sys2Proof.Machine.execUncorrectedError x1 x2 s
  | .resultVisible => Sys2Proof.Machine.execResultVisible s
  | .leaseGrant x1 => Sys2Proof.Machine.execLeaseGrant x1 s
  | .leasePass x1 => Sys2Proof.Machine.execLeasePass x1 s
  | .expand x1 => Sys2Proof.Machine.execExpand x1 s
  | .ztrans x1 => Sys2Proof.Machine.execZtrans x1 s
  | .toz x1 => Sys2Proof.Machine.execToz x1 s
  | .tolin x1 => Sys2Proof.Machine.execTolin x1 s
  | .copy x1 => Sys2Proof.Machine.execCopy x1 s
  | .copyq x1 => Sys2Proof.Machine.execCopyq x1 s
  | .xform x1 => Sys2Proof.Machine.execXform x1 s
  | .fill x1 => Sys2Proof.Machine.execFill x1 s
  | .gather x1 => Sys2Proof.Machine.execGather x1 s
  | .scatter x1 => Sys2Proof.Machine.execScatter x1 s
  | .allred x1 => Sys2Proof.Machine.execAllred x1 s
  | .bcast x1 => Sys2Proof.Machine.execBcast x1 s
  | .redscat x1 => Sys2Proof.Machine.execRedscat x1 s
  | .allgath x1 => Sys2Proof.Machine.execAllgath x1 s
  | .wloadc x1 => Sys2Proof.Machine.execWloadc x1 s
  | .wdelta x1 => Sys2Proof.Machine.execWdelta x1 s
  | .evqFaultClear x1 x2 x3 => Sys2Proof.Machine.execEvqFaultClear x1 x2 x3 s
  | .storeBufferPerform => Sys2Proof.Machine.execStoreBufferPerform s
  | .pageWalk x1 x2 => Sys2Proof.Machine.execPageWalk x1 x2 s
  | .lendEnd x1 => Sys2Proof.Machine.execLendEnd x1 s
  | .trapEntry x1 x2 x3 => Sys2Proof.Machine.execTrapEntry x1 x2 x3 s
  | .pcStop => Sys2Proof.Machine.execPcStop s
  | .managementResume x1 x2 => Sys2Proof.Machine.execManagementResume x1 x2 s
  | .doorbell x1 x2 => Sys2Proof.Machine.execDoorbell x1 x2 s
  | .firmwareUnbindFrozen x1 x2 => Sys2Proof.Machine.execFirmwareUnbindFrozen x1 x2 s
  | .queueEnable x1 x2 => Sys2Proof.Machine.execQueueEnable x1 x2 s
  | .queueDisable x1 => Sys2Proof.Machine.execQueueDisable x1 s
  | .accept x1 => Sys2Proof.Machine.execAccept x1 s
  | .windowWrite x1 x2 => Sys2Proof.Machine.execWindowWrite x1 x2 s
  | .hostApertureRead x1 x2 => Sys2Proof.Machine.execHostApertureRead x1 x2 s
  | .hostApertureWrite x1 x2 => Sys2Proof.Machine.execHostApertureWrite x1 x2 s
  | .areq x1 => Sys2Proof.Machine.execAreq x1 s
  | .attestationReport => Sys2Proof.Machine.execAttestationReport s
  | .coldStart => Sys2Proof.Machine.execColdStart s
  | .warmStart => Sys2Proof.Machine.execWarmStart s
  | .advanceSvn => Sys2Proof.Machine.execAdvanceSvn s
  | .flitData x1 x2 => Sys2Proof.Machine.execFlitData x1 x2 s
  | .flitIdle x1 x2 => Sys2Proof.Machine.execFlitIdle x1 x2 s
  | .flitRetryRequest x1 x2 => Sys2Proof.Machine.execFlitRetryRequest x1 x2 s
  | .flitKeyUpdate x1 x2 => Sys2Proof.Machine.execFlitKeyUpdate x1 x2 s
  | .rekey x1 => Sys2Proof.Machine.execRekey x1 s
  | .linkDown x1 => Sys2Proof.Machine.execLinkDown x1 s
  | .patrolScrub x1 x2 x3 => Sys2Proof.Machine.execPatrolScrub x1 x2 x3 s
  | .throttle => Sys2Proof.Machine.execThrottle s
  | .throttleEnd => Sys2Proof.Machine.execThrottleEnd s
  | .thermalShutdown => Sys2Proof.Machine.execThermalShutdown s
  | .cycle => Sys2Proof.Machine.execCycle s

end Sys2Proof.Machine
end

