-- ==== Sys2Proof/Machine/FarGroups.lean ====
section
/-! DEFINITION. Members of barrier groups in other packages of the fabric: what they do reaches this package as it is found at run
time (spec/11_control_core_instructions.md R271, R272; spec/15_scheduling.md R363; R346, R348, R408; log 117). -/
namespace Sys2Proof.Machine

/-- A far member's command contributes to the next pairing of its count. -/
def farContribute (id t core : Nat) (m : GMem) (s : State) : State :=
  let g := s.group id
  let c := Config.farCmd t id
  let n := m.pushed
  let g1 := g.modMem core 0 fun m => { m with pushed := n + 1 }
  if m.cx || (g.lostFrom g.era).any (fun k => decide (k ≤ n)) then s.setGroup g1
  else
    let data := (List.range (srcVecs c m.rank)).map fun v => (List.range (cDim c 0)).map fun j =>
      Config.farEl t id v j % 2 ^ elW (cSfmt c)
    s.setGroup (g1.contributed g.era n ⟨m.rank, core, 0, w32 n, c, data⟩)

/-- One event of a group's member in another package: it joins, arms, arrives, leaves, is killed, pushes a collective, or the
link to it takes a collective down. -/
def farGroup (id : Nat) (s : State) : State :=
  let (kind, pkg, c, n) := Config.farEvent s.tick id
  let t := s.tick
  let s := { s with tick := t + 1 }
  let core := farCore (pkg % 1024) (c % 1280)
  let g := s.group id
  if pkg % 1024 = s.pkg % 1024 then s
  else match kind % 7, g.member core 0 with
    | 0, none => s.setGroup { g with mems := g.mems ++ [{ core := core, bur := 0, rank := n % 65536, fd := 65536 + pkg % 1024 }] }
    | 1, some _ => if g.st != .armed && n != 0 && decide (n ≤ min 65535 g.live) then s.setGroup (g.arm n) else s
    | 2, some m => if g.st = .armed && !m.arrived && !m.departed then s.putGroup (g.arrive core 0) else s
    | 3, some _ => if g.st = .armed then s.putGroup (g.leave core 0) else s
    | 4, some _ => loseMember core 0 (State.answerGroups { s with groups := s.groups.map fun g => g.killMem core 0 })
    | 5, some m => if m.gone then s else farContribute id t core m s
    | 6, some _ => if s.ports.all (·.up) then s else match g.pairs.find? fun p => !p.formed with
      | some p => losePairing id p s
      | none => s
    | _, _ => s

end Sys2Proof.Machine
end

