-- ==== Sys2Proof/Machine/TraceUnit.lean ====
section
/-! DEFINITION. A die's trace unit: the ring that the firmware names for it, and its writes there
(spec/17_debug_trace_replay.md R390, R391; spec/02_address_spaces.md R50, R53). -/
namespace Sys2Proof.Machine

/-- The order of the ring: time, then core, then burner (R391). -/
def TrcRec.before (a b : TrcRec) : Bool :=
  let (c, d) := (a.core % 1024, b.core % 1024)
  decide (a.time < b.time) || (a.time == b.time && (decide (c < d) || (c == d && decide (a.bur < b.bur))))
/-- The record of a buffer that goes next. -/
def earliest (rs : List TrcRec) : Option TrcRec :=
  rs.foldl (fun m r => match m with
    | none => some r
    | some x => if r.before x then some r else some x) none

/-- Whether the ring may be written at an address: it is a translated one (R45), its leaf is there, with TRC = 1 (R391). -/
def trcOk (v : Via) (va : Nat) (s : State) : Bool :=
  inTranslated va && (s.walkFinds v (.plain true va 8) va).isNone && match translate s v true va 8 with
    | .ok (_, _, e) => pteTrc e
    | .error _ => false
/-- A record written whole at TAIL and TAIL advanced; none when the ring is full, or its address is not mapped with TRC = 1. -/
def putRec (u : TraceU) (bits : BitVec 256) (s : State) : Option State :=
  let v := Via.dev u.region u.die
  match rdVA s v s.b u.base 16 with
  | .error _ => none
  | .ok (s1, hdr) =>
    let tail := natOfBytes (hdr.take 8)
    let at' := u.base + 64 + 32 * (tail % u.n)
    if u.n ≤ tail - natOfBytes (hdr.drop 8) || !trcOk v at' s1 || !trcOk v u.base s1 then none
    else match wrVA s1 v s1.b at' (bytesOfNat 32 bits.toNat) with
      | (_, some _) => none
      | (s2, none) => match wrVA s2 v s2.b u.base (bytesOfNat 8 (tail + 1)) with
        | (_, some _) => none
        | (s3, none) => some s3
/-- The LOST record (R390). -/
def lostRec (time n : Nat) : BitVec 256 := BitVec.ofNat 64 time ++ 0#32 ++ w32 (min n 0xFFFFFFFF) ++ 0#124 ++ 15#4

/-- Whether a unit writes: it has a ring, and its next record is of a cycle that has ended. -/
def TraceU.ready (u : TraceU) (now : Nat) : Bool := u.n != 0 && (earliest u.buf).any fun r => decide (r.time < now)
/-- A die's trace unit writes its next record, after losses a LOST record first; a record it cannot write is lost (R53, R391). -/
def traceAct (die : Nat) (s : State) : State :=
  let u := s.traceU die
  match earliest u.buf with
  | none => s
  | some r =>
    let out (s : State) : State := s.modTrace die fun u => { u with buf := u.buf.erase r }
    if u.lost = 0 then match putRec u r.bits s with
      | some s1 => out s1
      | none => loseRec r (out s)
    else match putRec u (lostRec r.time u.lost) s with
      | some s1 => s1.modTrace die fun u => { u with lost := 0 }
      | none => loseRec r (out s)

/-- The firmware names the ring of a die that has none (R3; log 104). -/
def nameRing (die : Nat) (s : State) : State :=
  let (base, n, rcb) := Config.traceRing s.tick die
  let s1 := { s with tick := s.tick + 1 }
  match s.readRegion rcb with
  | none => s1.rcbFound rcb
  | some g => s1.modTrace die fun u => { u with base := base, n := n, region := g }

end Sys2Proof.Machine
end

