-- ==== Sys2Proof/Machine/Agents.lean ====
section
/-! DEFINITION. Who may act next, and what each does: control cores, queues, store buffers, engines, and the device's own work
(spec/07_consistency_model.md R177; spec/09_core_and_queues.md R200, R217; spec/14_matrix_and_engines.md R337;
spec/15_scheduling.md R353, R362; spec/95_what_each_step_holds.md). -/
namespace Sys2Proof.Machine

/-- A party that may act next. -/
inductive Agent where
  | cc (core bur : Nat)
  | head (q : Queue) (core bur : Nat)
  | store (core bur : Nat)
  | unit (u core bur : Nat)
  | fault (u core bur : Nat)
  | lend (core : Nat)
  | act (i : Instr)
  | evq (slice set way : Nat)
  | frozen (core bur : Nat)
  | link (port : Nat)
  | key (port : Nat)
  | owed
  | ckpt (tid : Nat)
  | memo (tid step blk : Nat)
  | report
  | told (core bur : Nat)
  | train (port : Nat)
  | record (q : Nat)
  | held (q : Nat)
  | launch (id : Nat)
  | due
  | retry
  | ring (die : Nat)
  | trace (die : Nat)
  | management (core bur : Nat)
  | far (group : Nat)
  | forget
  | start
  | soft
  | cycle
deriving DecidableEq, Repr

/-! ## The control core -/

/-- What surrounds an instruction's meaning: a stalled pair has not begun, and a watch bypass of another party stands (R22,
R387). -/
def afterExec (old : Burner) (t : State) : State :=
  let t1 := if old.pfx.isSome then t.modB fun b => { b with pfx := none } else t
  let t2 := showBypass .cc old t1
  if t1.b.te = old.te && old.bypass.contains .cc && t2.b.ko != old.ko then t2.modB (endBypass .cc) else t2

/-- The instruction at the PC: fetched, decoded and run, or its decoding fault taken (R26, R367, R385). -/
def ccStep (s : State) : Outcome :=
  if s.b.pcStops then execPcStop s
  else
    let a := s.b.pc.toNat + if s.b.pfx.isSome then 4 else 0
    match decode (s.b.textAt a) with
    | .error e => ccFault (decCause e) (w64 (decTaddr e a)) s
    | .ok (i, _) => match s.b.pfx.bind fun w => pfxCause w i with
      | some c => ccFault c 0 s
      | none => match exec i (hideBypass .cc s) with
        | .next t => .next (afterExec s.b t)
        | r => r

/-! ## Engines -/

/-- Completion elements an engine holds (R338). -/
def outDepth (u : Nat) : Nat := if u = 0 then 16 else 8

/-- Whether unit u of a burner has something to do: its head may start or go on. -/
def unitReady (s : State) (b : Burner) (u : Nat) : Bool :=
  let g := b.unit u
  match g.fifo with
  | [] => false
  | p :: _ =>
    b.bound && b.status != .starting && b.status != .halted && g.flt.isNone && !b.maskWaits p &&
      (b.status != .frozen || p.started) && decide (g.out.length < outDepth u) && (match p.item with
        | .cmd c => !isColl c || !p.started || (match myPairing c (s.focus b.core b.bur) with
          | some q => q.formed && !q.stalled s
          | none => true)
        | _ => true)

/-- The head item of unit u of the acting burner. -/
def runItem (p : EPush) (s : State) : Outcome :=
  match p.item with
  | .commit tid src step evf => commitTurn tid src step evf p.seq s
  | .publish tid step evf => publishTurn tid step evf p.seq s
  | .cmd c => match cmdOpc c with
    | 1 => execCopy c s
    | 2 => execCopyq c s
    | 3 => execXform c s
    | 4 => execFill c s
    | 5 => execGather c s
    | 6 => execScatter c s
    | 7 => execAllred c s
    | 8 => execBcast c s
    | 9 => execRedscat c s
    | 10 => execAllgath c s
    | 11 => execWloadc c s
    | 12 => execWdelta c s
    | _ => .next s

/-- A row that faulted in another package is sent there again, once it can be (R342, R407). -/
def sendAgain (u : Nat) (r : FarRow) (rs : List FarRow) (port : Nat) (s : State) : State :=
  if mayCarry (.far r.pkg) s then sendRow r port (s.modB fun b => b.setUnit u { b.unit u with redo := rs }) else s
/-- What unit u has to send again, and the port for it. -/
def toSendAgain (u : Nat) (s : State) : Option (FarRow × List FarRow × Nat) :=
  match (s.b.unit u).redo with
  | [] => none
  | r :: rs => (s.routeTo r.pkg).map fun k => (r, rs, k)

def runUnit (u : Nat) (s : State) : Outcome :=
  let g := s.b.unit u
  match g.fifo, toSendAgain u s with
  | [], _ => .next s
  | _ :: _, some (r, rs, k) => .next (sendAgain u r rs k s)
  | p :: _, none =>
    let src := unitSrc u
    match runItem p (hideBypass src s) with
    | .next t =>
      let t1 := showBypass src s.b t
      .next (if (t1.b.unit u).fifo.length < g.fifo.length then t1.modB (endBypass src) else t1)
    | r => r

/-! ## Records -/

/-- The record at a queue's HEAD is consumed and carried out (R353, R354). -/
def takeRecord (q : Nat) (s : State) : Outcome :=
  let w := s.wq q
  if !wqReady w then .next s
  else
    let r := wqRecord w s
    let pass (x : WQ) : WQ := if x.id == q then { x with head := x.head + 1, passed := 0 }
      else if wqReady x then { x with passed := x.passed + 1 } else x
    let s1 := { s with wqs := s.wqs.map pass, lastQ := q }
    match recOp r with
    | 1 => if recList r then execLaunchList q r s1 else execLaunch q r s1
    | 2 => execInval q r s1
    | 3 => execKill q r s1
    | 4 => execYieldreq q r s1
    | 5 => execEvict q r s1
    | 6 => execResume q r s1
    | _ => execRecordNop q r s1

/-- The non-empty queue that waited longest, when one must be served now for each to be served after at most 16,383 records of
others: as many have waited so long as there are turns left to the first of them. -/
def overdue (ws : List WQ) : Option WQ :=
  let late (w : WQ) : Bool := decide (16384 ≤ w.passed + (ws.filter fun x => decide (w.passed ≤ x.passed)).length)
  if ws.any late then ws.foldl (fun m w => match m with
    | none => some w
    | some x => if x.passed < w.passed then some w else m) none
  else none
/-- The queue the next record is taken from (R362): one that is overdue, else of those whose head record has the highest
priority the next in number after the last taken. -/
def nextQueue (s : State) : Option Nat :=
  if s.stState != 1 then none
  else
    let ws := s.wqs.filter wqReady
    match overdue ws with
    | some w => some w.id
    | none =>
      let qs := ws.map fun w => (w.id, recPrio (wqRecord w s) s)
      let top := qs.foldl (fun m p => max m p.2) 0
      let ids := (qs.filter fun p => p.2 == top).map (·.1)
      let after := ids.filter fun q => decide (s.lastQ < q)
      (if after.isEmpty then ids else after).min?

/-- Whether the firmware leaves a halted burner bound for now: a burner that runs on another core, of its launch or an undeparted
member of an ARMED group with it, may still read its rows (R37, R427, R432), and nothing asks for its place: no pantry
membership ends with it, no launch waits and no record is unread (log 125). -/
def State.keptBound (s : State) (slot : Nat) : Bool :=
  match s.find (slot / 2) (slot % 2) with
  | none => false
  | some b =>
    let together (o : Burner) : Bool := o.launch == b.launch || s.groups.any fun g =>
      g.st == .armed && (g.mems.any fun m => m.core == b.core && m.bur == b.bur) &&
        g.mems.any fun m => m.core == o.core && m.bur == o.bur && !m.departed && !m.killed
    b.status == .halted && b.membs.isEmpty && !(s.launches.any fun l => l.todo.isSome) && !s.wqs.any wqReady &&
      s.all.any fun o => o.core != b.core && o.status == .running && together o
/-- Work that is due comes in the order in which it fell due, but for unbindings that wait. -/
def State.nextDue (s : State) : Option Instr :=
  s.pending.find? fun a => match a with
    | .dispatchUnbind slot => !s.keptBound slot
    | _ => true
def takeDue (s : State) : Outcome :=
  match s.nextDue with
  | none => .next s
  | some a =>
    let s1 := { s with pending := s.pending.erase a }
    match a with
    | .deltaApply tid rset step sum ws => deltaTurn tid rset step sum ws s1
    | _ => exec a s1

/-! ## Who may act -/

/-- Whether a lending burner has come to a wait of its own when its cut is due: it issues nothing more (R217, R219, R441). -/
def State.cutDue (s : State) (b : Burner) : Bool :=
  (lendOver b.core s).isSome && stillWaits (s.focus b.core b.bur)
/-- Whether a published launch is going to bind a member to a group: its burners are being bound, it waits for evictions or
for evicted burners, or its record is unread (R346, R363, R433; log 124). -/
def State.admits (s : State) (id : Nat) : Bool :=
  let within (g : Region) : Bool := decide (g.bgBase ≤ id) && decide (id < g.bgBase + g.bgCnt)
  let unread (w : WQ) (i : Nat) : Bool :=
    let r := wqRecord { w with head := w.head + w32 i } s
    recOp r == 1 && !recList r && recordOk' r && (s.readRegion (recP0 r)).any within
  (s.all.any fun b => b.status == .starting && within b.region) ||
    (s.launches.any fun l => l.todo.any fun x => within x.region) ||
    (s.stState == 1 && s.wqs.any fun w => wqReady w && (List.range (w.tail - w.head).toNat).any (unread w))
/-- Agents of one burner, its control core first; of several engine faults the one whose SRC is lowest is taken (R371). -/
def agentsOf (s : State) (b : Burner) : List Agent :=
  let run := b.runnable && b.front
  (if run && !s.cutDue b then [.cc b.core b.bur] else []) ++
    (if run && !b.te then (if b.ql.isEmpty then [] else [.head .l b.core b.bur]) ++ (if b.qx.isEmpty then [] else [.head .x b.core b.bur]) ++
      (if b.qs.isEmpty then [] else [.head .s b.core b.bur]) else []) ++
    (if b.bound && !b.sbuf.isEmpty then [.store b.core b.bur] else []) ++
    ((List.range 4).filter fun u => unitReady s b u).map (fun u => .unit u b.core b.bur) ++
    (((List.range 4).filter fun u => (b.unit u).fltDue && !b.te && b.runnable).take 1).map (fun u => .fault u b.core b.bur) ++
    (if b.told.isEmpty || b.te || !b.runnable || b.eng.any (·.fltDue) then [] else [.told b.core b.bur]) ++
    (if b.lend && !b.front && (lendOver b.core s).isSome then [.lend b.core] else []) ++
    (if b.status == .frozen && !b.engineBusy && !b.collBusy then [.frozen b.core b.bur] else [])

/-- Agents of the device. -/
def deviceAgents (s : State) : List Agent :=
  (if s.nextDue.isNone then [] else [.due]) ++ (nextQueue s).toList.map (fun q => .record q) ++
    (s.leases.filter fun l => l.holder.isNone && !l.reqs.isEmpty).map (fun l => .act (.leaseGrant l.quad)) ++
    (s.tensors.filter fun t => t.ckpt.isSome).map (fun t => .ckpt t.tid) ++
    (s.tensors.flatMap fun t => t.making.map fun m => .memo t.tid m.step m.block) ++ (if s.mayReport then [.report] else []) ++
    (s.tensors.filter fun t => t.unreg && tensorIdle t s).map (fun t => .act (.tensorEntryFree (w32 t.tid))) ++
    (s.groups.filter fun g => (g.pairs.any fun p => g.ready p s) && !s.admits g.id).map (fun g => .act (.collectiveRoot g.id)) ++
    ((s.groups.filter fun g => !g.pairs.isEmpty && !s.admits g.id).flatMap fun g => g.pairs.flatMap fun p => (p.cs.filter fun k => Pairing.arrives g p k.rank s).map fun k =>
      .act (.arrivalCombine g.id k.rank)) ++
    (s.pantry.filter (·.evqFault)).map (fun e => .evq e.slice e.set e.way) ++
    (s.ports.filter fun p => p.up && decide (8 ≤ p.fails)).map (fun p => .link p.id) ++
    (s.ports.filter Port.rekeys).map (fun p => .key p.id) ++ (if s.owed.isEmpty then [] else [.owed]) ++
    (if !s.toResume.isEmpty && !s.roomKept then [.retry] else []) ++
    (s.wqs.filter fun w => !w.held.isEmpty).map (fun w => .held w.id) ++
    (s.launches.filter (launchReady s)).map (fun l => .launch l.id) ++
    (if s.feat 8 then (s.ports.filter fun p => !p.up && !p.dead).map (fun p => .train p.id) else []) ++
    (s.trace.filter fun u => u.n = 0).map (fun u => .ring u.die) ++
    (s.trace.filter fun u => u.ready s.cycle).map (fun u => .trace u.die) ++
    (s.all.filter Burner.atCut).map (fun b => .management b.core b.bur) ++
    (if s.feat 8 && s.ports.any (·.up) then s.groups.map fun g => .far g.id else []) ++
    (if s.tlb.isEmpty then [] else [.forget]) ++ (if s.stState == 0 then [.start] else []) ++ [.cycle, .soft]

/-- A prefix and the instruction after it are one unit: nothing comes between them (R22). -/
def agents (s : State) : List Agent :=
  if s.b.pfx.isSome && s.b.status == .running && s.b.front then [.cc s.b.core s.b.bur]
  else (s.all.flatMap fun b => agentsOf s b) ++ deviceAgents s

def runAgent (a : Agent) (s : State) : Outcome :=
  match a with
  | .cc c r => ccStep (s.focus c r)
  | .head q c r => issueHead q (s.focus c r)
  | .store c r => execStoreBufferPerform (s.focus c r)
  | .unit u c r => runUnit u (s.focus c r)
  | .fault u c r => engineTrap u (s.focus c r)
  | .lend c => execLendEnd c s
  | .act i => exec i s
  | .evq k set way => execEvqFaultClear k set way s
  | .frozen c r => execFirmwareUnbindFrozen c r s
  | .link p => execLinkDown p s
  | .key p => execRekey p s
  | .owed => .next (sendOwed s)
  | .ckpt tid => ckptTurn tid s
  | .memo tid step blk => makingTurn tid step blk s
  | .report => .next (reportFaults s.hostVia s)
  | .told c r => takeTold (s.focus c r)
  | .train p => .next (trainPort p s)
  | .record q => takeRecord q s
  | .held q => .next (postHeld q s)
  | .launch id => .next (goOnLaunch id s)
  | .due => takeDue s
  | .retry => .next (resumeSome s)
  | .ring die => .next (nameRing die s)
  | .trace die => .next (traceAct die s)
  | .management c r => .next (managementAct c r s)
  | .far g => .next (farGroup g s)
  | .forget => .next (forgetLeaf s)
  | .start => .next (startStep s)
  | .soft => .next (softError s)
  | .cycle => execCycle s

/-- An act with its share of row accesses, which ends with it (log 107). -/
def runPaced (pace : Nat) (a : Agent) (s : State) : Outcome :=
  match runAgent a { s with pace := pace } with
  | .next t => .next { t with pace := 0 }
  | r => r

/-- One act of one party, chosen at run time when several may act, and how many row accesses of a command or an instruction fall
in it (R162, R177; log 7, 107). -/
def actNext (s : State) : Outcome :=
  match agents s with
  | [] => execCycle s
  | [a] => runPaced 0 a s
  | a :: as =>
    let (x, s1) := s.draw
    runPaced (x / (as.length + 1)) ((a :: as).getD (x % (as.length + 1)) a) s1

/-! ## Placing one instruction -/

/-- A burner bound with every reservation a core has (R203, R208, R222, R245), for a state in which none runs. -/
def placed (core bur : Nat) : Burner :=
  let f := Burner.fresh core bur
  let eng (n : Nat) (e : Eng) : Eng := { e with limit := n }
  { f with
    rowq := 0x0000FFFF, qres := w32 (8 * 2 ^ 25 + 4 * 2 ^ 22 + 64 * 2 ^ 15 + 128 * 2 ^ 7 + 64), runq := 65536
    inbq := 0x2000, rcp := 64, holdsMax := 1024, count := 1
    eng := (((f.eng.set 0 (eng 16 f.eng[0])).set 1 (eng 8 f.eng[1])).set 2 (eng 8 f.eng[2])).set 3 (eng 8 f.eng[3]) }

/-- The instruction's words, zeros after them, at the address the acting burner fetches next; that burner runs and is front, and
the next choices fall on its control core and, for a queue instruction, on issuing it at once. -/
def placeWords (ws : List Word) (s : State) : State :=
  let b := if s.b.status = .running then s.b else placed s.b.core s.b.bur
  let a := b.pc.toNat
  let b1 : Burner := { b with
    status := .running, front := true, pfx := none, skipStop := true, tlen := max b.tlen (a + 28)
    text := b.text.setBytes a (((ws ++ List.replicate 7 0).take 7).flatMap wordBytes) }
  { s with b := b1, others := s.others.map fun o => if o.core == b.core then { o with front := false } else o
           sched := 0 :: 0 :: s.sched }

end Sys2Proof.Machine
end

