-- ==== Sys2Proof/Machine/Step.lean ====
section
/-! DEFINITION. The step, and placing one instruction where it is fetched next. -/
namespace Sys2Proof.Machine

/-- One act of the device: one instruction, one queue entry, one engine command, one record or one piece of due work. -/
def step (s : State) : Host.Outcome State Fault Refusal := actNext s

/-- s with an instruction of nbits bits stored where step fetches next. -/
def State.withFetchWord (s : State) (nbits w : Nat) : State := placeWords (tableWords nbits w) s

end Sys2Proof.Machine
end

