-- ==== Sys2Proof/Safety.lean ====
section
/-! DEFINITION. What the statements of Certificates/Slice0/Obligations.lean say of a step: the forms of a result and of what an
instruction leaves unchanged, the canonical form of every memory of the device, and the condition under which a queue
instruction entered by the control core issues at once. -/
namespace Sys2Proof.Machine

/-! ## Control-core results -/

/-- Retired at pc `p`: the program counter is `p`, a prefix has been used up, and one more instruction has been decoded
(R22, R254, R395). -/
def Advanced (p : Word) (s t : State) : Prop :=
  t.b.pc = p ∧ t.b.pfx = none ∧ t.b.wait = none ∧ t.b.ko = s.b.ko + 1 ∧
    t.b.rpseq = if s.b.te then s.b.rpseq else s.b.rpseq + 1

/-- The address after an instruction of n words: four bytes each, and four more for a prefix (R22, R254). -/
def nextPc (s : State) (n : Nat) : Word := s.b.pc + BitVec.ofNat 32 (4 * n + if s.b.pfx.isSome then 4 else 0)

/-- No byte of the mesh or of physical memory reads otherwise than before. -/
def MemSame (s t : State) : Prop :=
  (∀ a, t.mesh.get a = s.mesh.get a) ∧ (∀ a, t.phys.get a = s.phys.get a)

/-- Nothing changes but scalar registers and what retiring an instruction changes: every flag, special register, accumulator,
exception register, queue, other burner and device table is as before, and so is every byte of memory. -/
def OnlyScalars (s t : State) : Prop :=
  t = { s with b := { s.b with s := t.b.s, pc := t.b.pc, pfx := t.b.pfx, wait := t.b.wait, skipStop := t.b.skipStop
                               ko := t.b.ko, rpseq := t.b.rpseq } } ∧ MemSame s t

/-- Instruction i, of n words with its literals, answers a next state in which s(d) is v and nothing else has changed. -/
def WritesS (i : Instr) (s : State) (d : BitVec 6) (v : Word) (n : Nat) : Prop :=
  ∃ t, exec i s = .next t ∧ t.b.getS d = v ∧ (∀ r, r ≠ d → t.b.getS r = s.b.getS r) ∧ Advanced (nextPc s n) s t ∧
    OnlyScalars s t

/-- The same with the pair w(d) as destination (R9). -/
def WritesW (i : Instr) (s : State) (d : BitVec 6) (v : DWord) (n : Nat) : Prop :=
  ∃ t, exec i s = .next t ∧ t.b.getW d = v ∧ (∀ r, r ≠ d &&& 62 → r ≠ d ||| 1 → t.b.getS r = s.b.getS r) ∧
    Advanced (nextPc s n) s t ∧ OnlyScalars s t

/-- The same with flags: FLAGS gains `fl` and SATCNT counts `sat` more, at most to 2^32 − 1 (R76-R78). -/
def WritesF (i : Instr) (s : State) (d : BitVec 6) (v : Word) (fl : BitVec 7) (sat n : Nat) : Prop :=
  ∃ t, exec i s = .next t ∧ t.b.getS d = v ∧ (∀ r, r ≠ d → t.b.getS r = s.b.getS r) ∧ Advanced (nextPc s n) s t ∧
    t.b.flags = s.b.flags ||| fl.setWidth 32 ∧ t.b.satcnt.toNat = min (s.b.satcnt.toNat + sat) 0xFFFFFFFF ∧
    MemSame s t ∧
    t = { s with b := { s.b with s := t.b.s, flags := t.b.flags, satcnt := t.b.satcnt, pc := t.b.pc, pfx := t.b.pfx
                                 wait := t.b.wait, skipStop := t.b.skipStop, ko := t.b.ko, rpseq := t.b.rpseq } }

/-- Instruction i answers the state g with decoding going on at p: `Obligations.SystemInstructions` says what `retireAt`
changes. -/
def Retires (i : Instr) (s : State) (p : Word) (g : State) : Prop := exec i s = .next (retireAt p g)

/-- Mesh storage, physical memory and every other package's memory are in canonical form. -/
def State.memWf (s : State) : Bool := s.mesh.wf && s.phys.wf && s.far.all fun p => p.2.wf

/-! ## Numbers -/

/-- The rational number of a value that is a number (R57). -/
def FV.rat : FV → Option Rat
  | .num neg m e => some ((if neg then -1 else 1) * (m : Rat) * (2 : Rat) ^ e)
  | _ => none

/-- The distance of two rationals. -/
def ratDist (x y : Rat) : Rat := if x ≤ y then y - x else x - y

/-- v is what R75 chooses for x under rounding code rm (RNE, RTZ, RDN, RUP, RNA) when u is any number of the format: no number
of the format lies nearer, or on the chosen side nearer. `even` says that v's last fraction bit is 0. -/
def Chosen (rm : BitVec 3) (x v u : Rat) (even : Bool) : Prop :=
  match rm.toNat with
  | 0 => ratDist x v ≤ ratDist x u ∧ (ratDist x u = ratDist x v → u ≠ v → even = true)
  | 1 => ratDist 0 v ≤ ratDist 0 x ∧ ratDist 0 (x - v) ≤ ratDist 0 x ∧ (ratDist 0 u ≤ ratDist 0 x → ratDist x v ≤ ratDist x u)
  | 2 => v ≤ x ∧ (u ≤ x → u ≤ v)
  | 3 => x ≤ v ∧ (x ≤ u → v ≤ u)
  | _ => ratDist x v ≤ ratDist x u ∧ (ratDist x u = ratDist x v → ratDist 0 u ≤ ratDist 0 v)

/-! ## Queue instructions -/

/-- What forwarding captures of a queue instruction other than RDEF at burner b (R202, R204). -/
def captured (b : Burner) : Instr → Option Fwd
  | .vadd f => some (fwdVF (.vadd f) f true)
  | .vsub f => some (fwdVF (.vsub f) f true)
  | .vmul f => some (fwdVF (.vmul f) f true)
  | .vmulh f => some (fwdVF (.vmulh f) f true)
  | .vmad f => some (fwdVF (.vmad f) f true)
  | .vmin f => some (fwdVF (.vmin f) f true)
  | .vmax f => some (fwdVF (.vmax f) f true)
  | .vabs f => some (fwdVF (.vabs f) f true)
  | .vneg f => some (fwdVF (.vneg f) f true)
  | .vand f => some (fwdVF (.vand f) f true)
  | .vor f => some (fwdVF (.vor f) f true)
  | .vxor f => some (fwdVF (.vxor f) f true)
  | .vnot f => some (fwdVF (.vnot f) f true)
  | .vshl f => some (fwdVF (.vshl f) f true)
  | .vshr f => some (fwdVF (.vshr f) f true)
  | .vsra f => some (fwdVF (.vsra f) f true)
  | .vpopc f => some (fwdVF (.vpopc f) f true)
  | .vclz f => some (fwdVF (.vclz f) f true)
  | .vfadd f => some (fwdVF (.vfadd f) f true)
  | .vfsub f => some (fwdVF (.vfsub f) f true)
  | .vfmul f => some (fwdVF (.vfmul f) f true)
  | .vfma f => some (fwdVF (.vfma f) f true)
  | .vfmin f => some (fwdVF (.vfmin f) f true)
  | .vfmax f => some (fwdVF (.vfmax f) f true)
  | .vdiv f => some (fwdVF (.vdiv f) f true)
  | .vsqrt f => some (fwdVF (.vsqrt f) f true)
  | .vrcp f => some (fwdVF (.vrcp f) f true)
  | .vrsq f => some (fwdVF (.vrsq f) f true)
  | .vexp2 f => some (fwdVF (.vexp2 f) f true)
  | .vlog2 f => some (fwdVF (.vlog2 f) f true)
  | .vtanh f => some (fwdVF (.vtanh f) f true)
  | .vsin f => some (fwdVF (.vsin f) f true)
  | .vcos f => some (fwdVF (.vcos f) f true)
  | .vcmpEq f => some (fwdVF (.vcmpEq f) f true)
  | .vcmpNe f => some (fwdVF (.vcmpNe f) f true)
  | .vcmpLt f => some (fwdVF (.vcmpLt f) f true)
  | .vcmpLe f => some (fwdVF (.vcmpLe f) f true)
  | .vcmpGt f => some (fwdVF (.vcmpGt f) f true)
  | .vcmpGe f => some (fwdVF (.vcmpGe f) f true)
  | .vcmpLtu f => some (fwdVF (.vcmpLtu f) f true)
  | .vcmpGeu f => some (fwdVF (.vcmpGeu f) f true)
  | .vsel f => some (fwdVF (.vsel f) f true)
  | .vcvt f => some (fwdVF (.vcvt f) f true)
  | .vscale f => some (fwdVF (.vscale f) f true)
  | .vqnt f => some (fwdVF (.vqnt f) f true)
  | .vdqnt f => some (fwdVF (.vdqnt f) f true)
  | .vrotr f => some (fwdVSF (.vrotr f) f b)
  | .vrotc f => some (fwdVSF (.vrotc f) f b)
  | .vbcr f => some (fwdVSF (.vbcr f) f b)
  | .vbcc f => some (fwdVSF (.vbcc f) f b)
  | .vredr f => some (fwdVF (.vredr f) f true)
  | .vredc f => some (fwdVF (.vredc f) f true)
  | .vreda f => some (fwdVF (.vreda f) f true)
  | .viota f => some (fwdVSF (.viota f) f b)
  | .vspl f => some (fwdVSF (.vspl f) f b)
  | .vext f => some (fwdVSF (.vext f) f b)
  | .vins f => some (fwdVSF (.vins f) f b)
  | .vcoal f => some (fwdVF (.vcoal f) f true)
  | .vlen f => some (fwdVSF (.vlen f) f b)
  | .vocc f => some (fwdVF (.vocc f) f true)
  | .mpush f => some (fwdVF (.mpush f) f false)
  | .minv f => some (fwdVF (.minv f) f false)
  | .mpop f => some (fwdVF (.mpop f) f false)
  | .mtest f => some (fwdVF (.mtest f) f false)
  | .vcq f => some (fwdVF (.vcq f) f false)
  | .vtag f => some (fwdVF (.vtag f) f false)
  | .vuntag f => some (fwdVF (.vuntag f) f false)
  | .vdrop f => some (fwdVF (.vdrop f) f false)
  | .vld f => some (fwdMF (.vld f) f .l b)
  | .vldRot f => some (fwdMF (.vldRot f) f .l b)
  | .vldz f => some (fwdMF (.vldz f) f .l b)
  | .vldm f => some (fwdMF (.vldm f) f .l b)
  | .vst f => some (fwdMF (.vst f) f .s b)
  | .vstRot f => some (fwdMF (.vstRot f) f .s b)
  | .vstz f => some (fwdMF (.vstz f) f .s b)
  | .vstm f => some (fwdMF (.vstm f) f .s b)
  | .mlease f => some (fwdXF (.mlease f) f b)
  | .mfree f => some (fwdXF (.mfree f) f b)
  | .otake f => some (fwdXF (.otake f) f b)
  | .ogive f => some (fwdXF (.ogive f) f b)
  | .ofill f => some (fwdXF (.ofill f) f b)
  | .mma f => some (fwdXF (.mma f) f b)
  | .mmaz f => some (fwdXF (.mmaz f) f b)
  | .ard f => some (fwdXF (.ard f) f b)
  | .awr f => some (fwdXF (.awr f) f b)
  | .azero f => some (fwdXF (.azero f) f b)
  | .esend f => some (fwdEF (.esend f) f false false false [f.d] false b)
  | .erecv f => some (fwdEF (.erecv f) f false false false (quad f.d) true b)
  | .estatStatus f => some (fwdEF (.estatStatus f) f false false false [f.d] false b)
  | .estatProgress f => some (fwdEF (.estatProgress f) f false false false [f.d] false b)
  | .estatDrop f => some (fwdEF (.estatDrop f) f false false false [f.d] false b)
  | .bxform f => some (fwdEF (.bxform f) f true false false [] false b)
  | .wreg f => some (fwdEF (.wreg f) f true false false [f.d] false b)
  | .wregUnreg f => some (fwdEF (.wregUnreg f) f false false false [f.d] false b)
  | .wregRestore f => some (fwdEF (.wregRestore f) f true false false [f.d] false b)
  | .wloadPast f => some (fwdEF (.wloadPast f) f true true false [f.d] false b)
  | .wloadWait f => some (fwdEF (.wloadWait f) f true true false [f.d] false b)
  | .wloadExtrap f => some (fwdEF (.wloadExtrap f) f true true false [f.d] false b)
  | .wcommit f => some (fwdEF (.wcommit f) f false true true [f.d] false b)
  | .wpub f => some (fwdEF (.wpub f) f false true false [f.d] false b)
  | .wrelease f => some (fwdEF (.wrelease f) f false true false [f.d] false b)
  | .wquery f => some (fwdEF (.wquery f) f false false false [f.d] false b)
  | .claim f => some (fwdEF (.claim f) f false true false (quad f.d) true b)
  | .clwait f => some (fwdEF (.clwait f) f false false false (quad f.d) true b)
  | .fulfil f => some (fwdEF (.fulfil f) f false true false [f.d] false b)
  | .abandon f => some (fwdEF (.abandon f) f false false false [f.d] false b)
  | .clhold f => some (fwdEF (.clhold f) f false false false [f.d] false b)
  | .clfree f => some (fwdEF (.clfree f) f false false false [f.d] false b)
  | _ => none

/-- A queue instruction captured as w enters its empty queue and is issued at once: its reservation, the interlock, tokens,
mask stack and earlier acquires allow it, the burner is in its body with no watch bypass armed, and the next choice falls on
the queue (R170, R201-R207, R314, R371, R400); that it falls there is a hypothesis on the choices of log 7. -/
def Ready (w : Fwd) (s : State) : Prop :=
  s.pace = 0 ∧ s.b.te = false ∧ s.b.bypass = [] ∧ srRefused s.b.pfx w.ins s = false ∧ s.b.reserved w.q ≠ 0 ∧
    s.b.held (w.rs ++ w.sd) = false ∧ s.b.queue w.q = [] ∧ (w.q ≠ .s → ∀ x ∈ s.b.qs, x.acq = false) ∧
    (w.ws = 0 ∨ s.b.tokens w.ws.toNat ≠ 0) ∧ (w.ps = 0 ∨ s.b.tokens w.ps.toNat < 16) ∧ s.b.cq.length < 8 ∧
    (w.msk = true → ∀ m ms, s.b.mask = m :: ms → m ≠ 0) ∧ ∃ rest, s.sched = 0 :: rest

/-- The entry it becomes. -/
def entryOf (w : Fwd) (s : State) : Entry := w.entry s.b none

/-- The state in which it stands alone in its queue and the control core has gone on. -/
def entered (w : Fwd) (s : State) : State :=
  { s with
    sched := s.sched.drop 1
    b := { s.b.setQueue w.q [entryOf w s] with
           pc := nextPc s w.n, pfx := none, wait := none, skipStop := false, ko := s.b.ko + 1, rpseq := s.b.rpseq + 1 } }

/-- Instruction i answers the state g with its entry retired (`Obligations.QueueEntryRetires` says what retirement changes). -/
def Issues (i : Instr) (w : Fwd) (s : State) (g : State) : Prop :=
  exec i s = .next (g.modB (retireEntry w.q (entryOf w s) true))

/-- No vector register is TAGGED or DROPPED, so that no replay is due (R220, R225). -/
def AllPlain (b : Burner) : Prop := ∀ p ∈ b.v, p.2.st = .plain

/-- The burner after reads of the registers rs, which only count as their last reads (R220). -/
def touched (rs : List Nat) (b : Burner) : Burner := rs.foldl (fun b r => touch r b) b

/-- What a vector computation of the entry captured as w reads, at the X queue's slot, with registers as burner b holds them. -/
def readsOf (w : Fwd) (d : Nat) (s : State) (b : Burner) : VEnv :=
  vecEnv (entryOf w s) d (b.look (b.reader .x (entryOf w s)) d) { entered w s with b := b }

/-- Lane i of a view, 0 beyond its runs. -/
def View.lane (v : View) (i : Nat) : Word := atSeg 0 v.runs i

/-! ## Engine commands -/

/-- The byte of mesh storage that a mesh address names for the acting burner (R29-R31). -/
def meshByte (s : State) (a : Nat) : Nat :=
  match meshResolve s.b.core a with
  | .ok (core, row) => core * 0x80000 + row * 256 + a % 256
  | .error _ => 0

/-- The n bytes from mesh address a may be read, or written, by the acting burner (R29-R37), and no row of theirs stands with an
uncorrected error (R418). -/
def Allowed (s : State) (wr : Bool) (a n : Nat) : Prop :=
  a + n ≤ 0x20000000 ∧ ∀ k, k < n → ∃ p, meshCheck s s.b wr (a + k) = .ok p ∧ meshRow p.1 p.2 ∉ s.poison

/-- The word at mesh address a. -/
def meshWord (s : State) (a : Nat) : Word := s.mesh.word (meshByte s a)

/-- Command c stands at the head of unit u, pushed as p and not started, and this act may make all its row accesses (log 107). -/
def AtHeadAs (u : Nat) (p : EPush) (c : Cmd) (s : State) : Prop :=
  let g := s.b.unit u
  p.item = .cmd c ∧ p.started = false ∧ (∃ rest, g.fifo = p :: rest) ∧ g.prog = 0 ∧ g.tw = [] ∧ g.pos = none ∧ g.seen = [] ∧
    g.sub = 0 ∧ g.pend = [] ∧ g.img = [] ∧ g.cov = [] ∧ g.load = none ∧ g.redo = [] ∧ s.pace = 0

/-- Command c stands at the head of unit u, not started. -/
def AtHead (u : Nat) (c : Cmd) (s : State) : Prop := ∃ p, AtHeadAs u p c s

/-- A command of one inner row of n elements, within this package, no buffer on either side, not transposed (R341). -/
def PlainRow (c : Cmd) (n : Nat) : Prop :=
  cDim c 0 = n ∧ cDim c 1 = 1 ∧ cDim c 2 = 1 ∧ cDim c 3 = 1 ∧ cRmt c = false ∧ cCms c = false ∧ cCmd c = false ∧ cTrn c = false

/-- t is g with the head command c of unit u ended: its element posted with SUM32 `sum` and the flags and saturations it raised,
CHECK_FAIL where CKC asks and CEXP differs, and then its signal bits set (R344, R345). -/
def Posts (u : Nat) (c : Cmd) (sum : Word) (fs : FSum) (nf : Bool) (res : BitVec 3) (g t : State) : Prop :=
  t = finishAt g.b.core g.b.bur u
    (({ csum := sum, satn := (g.b.unit u).satn + fs.sat, fl := (g.b.unit u).fl ||| fs.fl, nf := nf, res := res
        status := if c.getLsbD 25 && sum != c.extractLsb' 800 32 then 0x08 else 0x00 } : Comp).element u (cmdOpc c) (g.b.engSeq u))
    (cmdSigM c) g

/-- SUM32 over words from a start value (R344). -/
def sum32 (start : Word) (ws : List Word) : Word := ws.foldl (fun c w => c.rotateLeft 1 + w) start

/-- The value SUM32 starts from (R344). -/
def sumStart (u : Nat) (c : Cmd) (s : State) : Word := if c.getLsbD 24 then (s.b.unit u).last else c.extractLsb' 768 32

end Sys2Proof.Machine
end

