-- ==== Sys2Proof/Certificates/Slice0/Obligations.lean ====
section
/-! DEFINITION. The statements for the provers, from the numbered rules of spec/. -/
open Sys2Proof Sys2Proof.Machine

/-! ## The control core: scalar instructions (spec/11) -/

/-- R255 and R256: every two-source and one-source instruction of majors 0x00 and 0x01, and LI, in every operand form: s(d)
takes the value of the table, written here over the integers, and nothing else changes. `a` and `b` are the 32-bit operands. -/
def Obligations.ScalarIntegerResults : Prop :=
  (∀ (s : State) (d : BitVec 6) (a b : Opnd), s.b.held (d :: (opRegs a ++ opRegs b)) = false →
    let x := s.b.op32 a
    let y := s.b.op32 b
    let k := y.toNat % 32
    let n := 1 + litN a + litN b
    WritesS (.add d a b) s d (BitVec.ofInt 32 (x.toInt + y.toInt)) n ∧
    WritesS (.sub d a b) s d (BitVec.ofInt 32 (x.toInt - y.toInt)) n ∧
    WritesS (.mul d a b) s d (BitVec.ofInt 32 (x.toInt * y.toInt)) n ∧
    WritesS (.mulh d a b) s d (BitVec.ofInt 32 (x.toInt * y.toInt / 2 ^ 32)) n ∧
    WritesS (.mulhu d a b) s d (BitVec.ofNat 32 (x.toNat * y.toNat / 2 ^ 32)) n ∧
    WritesS (.div d a b) s d (if y = 0 then 0xFFFFFFFF else BitVec.ofInt 32 (x.toInt.tdiv y.toInt)) n ∧
    WritesS (.rem d a b) s d (if y = 0 then x else BitVec.ofInt 32 (x.toInt.tmod y.toInt)) n ∧
    WritesS (.divu d a b) s d (if y = 0 then 0xFFFFFFFF else BitVec.ofNat 32 (x.toNat / y.toNat)) n ∧
    WritesS (.remu d a b) s d (if y = 0 then x else BitVec.ofNat 32 (x.toNat % y.toNat)) n ∧
    WritesS (.and d a b) s d (x &&& y) n ∧
    WritesS (.or d a b) s d (x ||| y) n ∧
    WritesS (.xor d a b) s d (x ^^^ y) n ∧
    WritesS (.andn d a b) s d (x &&& ~~~y) n ∧
    WritesS (.shl d a b) s d (BitVec.ofNat 32 (x.toNat * 2 ^ k)) n ∧
    WritesS (.shr d a b) s d (BitVec.ofNat 32 (x.toNat / 2 ^ k)) n ∧
    WritesS (.sra d a b) s d (BitVec.ofInt 32 (x.toInt / 2 ^ k)) n ∧
    WritesS (.rol d a b) s d (x <<< k ||| x >>> (32 - k)) n ∧
    WritesS (.ror d a b) s d (x >>> k ||| x <<< (32 - k)) n ∧
    WritesS (.min d a b) s d (if x.toInt ≤ y.toInt then x else y) n ∧
    WritesS (.max d a b) s d (if x.toInt ≤ y.toInt then y else x) n ∧
    WritesS (.minu d a b) s d (if x.toNat ≤ y.toNat then x else y) n ∧
    WritesS (.maxu d a b) s d (if x.toNat ≤ y.toNat then y else x) n ∧
    WritesS (.sext d a b) s d
      (BitVec.ofInt 32 (if x.toNat % 2 ^ (k + 1) < 2 ^ k then (x.toNat % 2 ^ (k + 1) : Nat)
        else (x.toNat % 2 ^ (k + 1) : Nat) - 2 ^ (k + 1))) n ∧
    WritesS (.zext d a b) s d (BitVec.ofNat 32 (x.toNat % 2 ^ (k + 1))) n ∧
    WritesS (.sel d a b) s d (if s.b.getS d ≠ 0 then x else y) n ∧
    WritesS (.cmp d a b) s d
      (BitVec.ofNat 32 ((if x = y then 1 else 0) + (if x.toInt < y.toInt then 2 else 0) +
        (if x.toNat < y.toNat then 4 else 0) + (if y.toInt < x.toInt then 8 else 0) +
        (if y.toNat < x.toNat then 16 else 0))) n) ∧
  (∀ (s : State) (d : BitVec 6) (a : Opnd), s.b.held (d :: opRegs a) = false →
    let x := s.b.op32 a
    let n := 1 + litN a
    (∃ z ≤ 32, (∀ j < z, x.getLsbD (31 - j) = false) ∧ (z < 32 → x.getLsbD (31 - z) = true) ∧
      WritesS (.clz d a) s d (BitVec.ofNat 32 z) n) ∧
    (∃ z ≤ 32, (∀ j < z, x.getLsbD j = false) ∧ (z < 32 → x.getLsbD z = true) ∧
      WritesS (.ctz d a) s d (BitVec.ofNat 32 z) n) ∧
    WritesS (.popc d a) s d (BitVec.ofNat 32 ((List.range 32).countP x.getLsbD)) n ∧
    WritesS (.mov d a) s d x n) ∧
  (∀ (s : State) (d : BitVec 6) (i : BitVec 18), s.b.held [d] = false →
    WritesS (.li d i) s d (BitVec.ofInt 32 i.toInt) 1)

/-- Lane j of width w of v is f of the signed lanes of x and y, modulo 2^w, for every lane of the word. -/
def LaneWise (w : Nat) (f : Int → Int → Int) (x y v : Word) : Prop :=
  ∀ j, j < 32 / w →
    v.extractLsb' (w * j) w = BitVec.ofInt w (f (x.extractLsb' (w * j) w).toInt (y.extractLsb' (w * j) w).toInt)

/-- R257: the wide pairs. A 64-bit operand is a pair, a constant, a sign-extended literal word or a 64-bit literal. R258: the
packed instructions act lane by lane on signed lanes of 16, 8 or 4 bits. -/
def Obligations.WideAndPackedResults : Prop :=
  (∀ (s : State) (d : BitVec 6) (a b : Opnd),
    (s.b.held ((d &&& 62) :: (d ||| 1) :: (opRegs64 a ++ opRegs64 b)) = false →
      let x := s.b.op64 a
      let y := s.b.op64 b
      let n := 1 + litN a + litN b
      WritesW (.addw d a b) s d (BitVec.ofInt 64 (x.toInt + y.toInt)) n ∧
      WritesW (.subw d a b) s d (BitVec.ofInt 64 (x.toInt - y.toInt)) n ∧
      WritesW (.shlw d a b) s d (BitVec.ofNat 64 (x.toNat * 2 ^ (y.toNat % 64))) n) ∧
    (s.b.held ((d &&& 62) :: (d ||| 1) :: opRegs64 a) = false → WritesW (.movw d a) s d (s.b.op64 a) (1 + litN a))) ∧
  (∀ (s : State) (d : BitVec 6) (a b : Opnd), s.b.held (d :: (opRegs a ++ opRegs b)) = false →
    let x := s.b.op32 a
    let y := s.b.op32 b
    let n := 1 + litN a + litN b
    let avg : Int → Int → Int := fun p q => (p + q + 1) / 2
    (∃ v, LaneWise 16 (· + ·) x y v ∧ WritesS (.addp16 d a b) s d v n) ∧
    (∃ v, LaneWise 8 (· + ·) x y v ∧ WritesS (.addp8 d a b) s d v n) ∧
    (∃ v, LaneWise 4 (· + ·) x y v ∧ WritesS (.addp4 d a b) s d v n) ∧
    (∃ v, LaneWise 16 (· - ·) x y v ∧ WritesS (.subp16 d a b) s d v n) ∧
    (∃ v, LaneWise 8 (· - ·) x y v ∧ WritesS (.subp8 d a b) s d v n) ∧
    (∃ v, LaneWise 4 (· - ·) x y v ∧ WritesS (.subp4 d a b) s d v n) ∧
    (∃ v, LaneWise 16 max x y v ∧ WritesS (.maxp16 d a b) s d v n) ∧
    (∃ v, LaneWise 8 max x y v ∧ WritesS (.maxp8 d a b) s d v n) ∧
    (∃ v, LaneWise 4 max x y v ∧ WritesS (.maxp4 d a b) s d v n) ∧
    (∃ v, LaneWise 16 min x y v ∧ WritesS (.minp16 d a b) s d v n) ∧
    (∃ v, LaneWise 8 min x y v ∧ WritesS (.minp8 d a b) s d v n) ∧
    (∃ v, LaneWise 4 min x y v ∧ WritesS (.minp4 d a b) s d v n) ∧
    (∃ v, LaneWise 16 avg x y v ∧ WritesS (.avgp16 d a b) s d v n) ∧
    (∃ v, LaneWise 8 avg x y v ∧ WritesS (.avgp8 d a b) s d v n) ∧
    (∃ v, LaneWise 4 avg x y v ∧ WritesS (.avgp4 d a b) s d v n))

/-! ## Scalar floating point (spec/03, spec/11) -/

/-- R75, the modes of codes 000 to 100, with its exact results: rounding a nonzero number m·2^e into any of the eight float
formats without overflow gives the number of the format that the mode chooses, for every m and e, and raises NX exactly when
that number is not m·2^e. -/
def Obligations.RoundingChoosesNeighbour : Prop :=
  ∀ (c : Nat) (f : FF) (o : RMode) (neg : Bool) (m : Nat) (e : Int) (x : Rat),
    ffOf c = some f → o.rm.toNat ≤ 4 → m ≠ 0 → (FV.num neg m e).rat = some x →
    (f.round o neg ⟨m, e, false⟩).2.fl &&& fOF = 0 →
    ∃ v, (f.val (f.round o neg ⟨m, e, false⟩).1).rat = some v ∧
      (v = x ↔ (f.round o neg ⟨m, e, false⟩).2.fl &&& fNX = 0) ∧
      ∀ k u, k < 2 ^ (f.sb + 1) → (f.val k).rat = some u →
        Chosen o.rm x v u ((f.round o neg ⟨m, e, false⟩).1 % 2 == 0)

/-- R259, R260 and R262: FADD, FSUB, FMUL, FFMA, FCVT, FCVTI and FCVTF under every prefix, when the rounding code in force is a
mode of theirs. The result is the exact value delivered once (`FF.deliver`, whose rounding is
`Obligations.RoundingChoosesNeighbour`), FLAGS gains its flags, SATCNT counts a saturated result, and nothing else changes.
R259 and R82: with a rounding code that no scalar float instruction has, FADD, FSUB, FMUL and FFMA take ILLEGAL_ROUNDING at
their own address and write nothing else first. R261: FMIN, FMAX and FCMP on numbers, with −0 below +0 for FMIN and FMAX and
equal for FCMP, and on NaN operands; they raise no flag. `r` gives the rational of a number; an infinity stands beyond every
number. -/
def Obligations.ScalarFloatResultsAndTrap : Prop :=
  ((∀ (s : State) (d : BitVec 6) (a b : Opnd) (c : BitVec 5) (m : BitVec 3),
     roundNoSr (pfxOf s.b.pfx) 0 s.b.drm = some m →
     let o : RMode := { rm := m, sat := (pfxOf s.b.pfx).sat }
     let x := fp32 (s.b.op32 a)
     let y := fp32 (s.b.op32 b)
     let n := 1 + litN a + litN b
     let put (i : Instr) (z : FV × BitVec 7) : Prop :=
       let r := ffFP32.deliver o z.1
       WritesF i s d (BitVec.ofNat 32 r.1) (r.2.fl ||| z.2) (if r.2.sat then 1 else 0) n
     let cvt (i : Instr) (cs cd : Nat) : Prop :=
       let src := (s.b.op32 a).toNat % 2 ^ elW cs
       let r := convEl cs cd o (if isFP6 cs then src % 64 else src)
       if cs = 0 ∨ cd = 0 then WritesF i s d (s.b.op32 a) 0 0 (1 + litN a)
       else WritesF i s d (BitVec.ofNat 32 r.1) r.2.fl (if r.2.sat then 1 else 0) (1 + litN a)
     (s.b.held (d :: (opRegs a ++ opRegs b)) = false →
       put (.fadd d a b) (addFV (m == 2) x y) ∧
       put (.fsub d a b) (addFV (m == 2) x (negFV y)) ∧
       put (.fmul d a b) (mulFV x y) ∧
       put (.ffma d a b) (fmaFV (m == 2) x y (fp32 (s.b.getS d)))) ∧
     (s.b.held (d :: opRegs a) = false →
       cvt (.fcvt d a c) c.toNat (((pfxOf s.b.pfx).fmt.getD 1).toNat) ∧
       cvt (.fcvti d a) 1 9 ∧
       cvt (.fcvtf d a) 9 1)) ∧
   (∀ (s : State) (d : BitVec 6) (a b : Opnd), s.b.held (d :: (opRegs a ++ opRegs b)) = false →
     (let p := pfxOf s.b.pfx
      let c := p.rnd.getD 0
      c = 5 ∨ c = 7 ∨ (c = 6 ∧ (s.b.drm = 5 ∨ s.b.drm = 6 ∨ s.b.drm = 7))) →
     let t := takeTrap { c := .illegalRounding, iaddr := s.b.pc, cutPc := s.b.pc } s
     exec (.fadd d a b) s = .next t ∧ exec (.fsub d a b) s = .next t ∧ exec (.fmul d a b) s = .next t ∧
       exec (.ffma d a b) s = .next t)) ∧
  (∀ (s : State) (d : BitVec 6) (a b : Opnd), s.b.held (d :: (opRegs a ++ opRegs b)) = false →
     let x := s.b.op32 a
     let y := s.b.op32 b
     let n := 1 + litN a + litN b
     (fp32 x = .nan → fp32 y = .nan →
       WritesS (.fmin d a b) s d 0x7FC00000 n ∧ WritesS (.fmax d a b) s d 0x7FC00000 n ∧ WritesS (.fcmp d a b) s d 8 n) ∧
     (fp32 x = .nan → fp32 y ≠ .nan →
       WritesS (.fmin d a b) s d y n ∧ WritesS (.fmax d a b) s d y n ∧ WritesS (.fcmp d a b) s d 8 n) ∧
     (fp32 x ≠ .nan → fp32 y = .nan →
       WritesS (.fmin d a b) s d x n ∧ WritesS (.fmax d a b) s d x n ∧ WritesS (.fcmp d a b) s d 8 n) ∧
     (∀ p q, (fp32 x).rat = some p → (fp32 y).rat = some q →
       WritesS (.fmin d a b) s d (if p < q ∨ (p = q ∧ x.getLsbD 31 = true) then x else y) n ∧
       WritesS (.fmax d a b) s d (if p < q ∨ (p = q ∧ x.getLsbD 31 = true) then y else x) n ∧
       WritesS (.fcmp d a b) s d (if p = q then 1 else if p < q then 2 else 4) n) ∧
     (∀ neg, fp32 x = .inf neg → fp32 y ≠ .nan → fp32 y ≠ .inf neg →
       WritesS (.fmin d a b) s d (if neg then x else y) n ∧ WritesS (.fmax d a b) s d (if neg then y else x) n ∧
       WritesS (.fcmp d a b) s d (if neg then 2 else 4) n) ∧
     (∀ neg, fp32 y = .inf neg → fp32 x ≠ .nan → fp32 x ≠ .inf neg →
       WritesS (.fmin d a b) s d (if neg then y else x) n ∧ WritesS (.fmax d a b) s d (if neg then x else y) n ∧
       WritesS (.fcmp d a b) s d (if neg then 4 else 2) n) ∧
     (∀ neg, fp32 x = .inf neg → fp32 y = .inf neg →
       WritesS (.fmin d a b) s d x n ∧ WritesS (.fmax d a b) s d x n ∧ WritesS (.fcmp d a b) s d 1 n))

/-! ## Row accesses of the control core (spec/02, spec/07) -/

/-- R186 and R187: LDW and STW on a row that the checks of R29 to R37 allow. LDW reads the lane word after a buffered store of
its burner to that row is performed. STW to a local row with a free place in the store buffer enters it, and no byte of
memory changes yet; to a remote row it is performed at once and changes the four bytes of its lane and no other; its
register is only read. The word an LDW of a remote row returns passes through record and replay (R394), which leaves it
alone while off and in the handler of a page fault. R388: with DBG = 1, an LDW of a local row on which a queue's or an engine's
write is issued and not performed takes EARLY_READ instead. -/
def Obligations.LoadAndStoreLane : Prop :=
  ∀ (s : State) (d : BitVec 6) (a b : Opnd) (core row : Nat), s.b.held (d :: (opRegs a ++ opRegs b)) = false →
    let n := 1 + litN a + litN b
    let lane := (s.b.op32 b).toNat % 64
    let addr := core * 0x80000 + row * 256 + 4 * lane
    let w := fp6Mask (bfFmt (s.bfmtAt core row)) (s.b.getS d)
    let early := s.b.dbg && (core == s.b.core) && s.b.pendRow row
    (meshCheck s s.b false (s.b.op32 a).toNat = .ok (core, row) → early = true →
      exec (.ldw d a b) s =
        .next (takeTrap { c := .earlyRead, addr := (s.b.op32 a).setWidth 64, iaddr := s.b.pc, cutPc := s.b.pc } s)) ∧
    (meshCheck s s.b false (s.b.op32 a).toNat = .ok (core, row) → early = false →
      let g := s.drainRow core row
      (∀ g2 x rows, remoteWord core (g.mesh.word addr) g = .ok g2 x rows →
        Retires (.ldw d a b) s (nextPc s n) { g2 with b := g2.b.setS d (x.setWidth 32) }) ∧
      (core = s.b.core ∨ s.b.unlogged = true ∨ s.b.rpMode = 0 →
        Retires (.ldw d a b) s (nextPc s n) { g with b := g.b.setS d (g.mesh.word addr) })) ∧
    (meshCheck s s.b true (s.b.op32 a).toNat = .ok (core, row) →
      (core = s.b.core → s.b.sbuf.length < 8 →
        Retires (.stw d a b) s (nextPc s n) { s with b := { s.b with sbuf := s.b.sbuf ++ [⟨addr, w, s.b.ko⟩] } }) ∧
      (core = s.b.core → 8 ≤ s.b.sbuf.length → exec (.stw d a b) s = .next s) ∧
      (core ≠ s.b.core →
        Retires (.stw d a b) s (nextPc s n) { s.drain with mesh := s.drain.mesh.setWord addr w } ∧
        ∀ m, m < addr ∨ addr + 4 ≤ m → (s.drain.mesh.setWord addr w).get m = s.drain.mesh.get m))

/-- R186: what an atomic leaves in its lane word, from the old word and s(d). -/
def atomicNew : Instr → Word → Word → Word → Word
  | .aadd _ _ _, old, x, _ => BitVec.ofInt 32 (old.toInt + x.toInt)
  | .amax _ _ _, old, x, _ => if x.toInt ≤ old.toInt then old else x
  | .amin _ _ _, old, x, _ => if old.toInt ≤ x.toInt then old else x
  | .axchg _ _ _, _, x, _ => x
  | .acas _ _ _, old, x, y => if old = x then y else old
  | .aor _ _ _, old, x, _ => old ||| x
  | _, old, _, _ => old

/-- R186 and R187: the six atomics on a row that the checks allow, local or outside record and replay: the store buffer is
emptied, s(d) := the old lane word, the lane word takes its new value (bits 7:6 of each byte cleared in an FP6 bank), and
every byte of memory outside that lane word reads as the emptied store buffer leaves it. A failing ACAS writes nothing at
all. R388: with DBG = 1 an atomic on a local row on which a queue's or an engine's write is pending takes EARLY_READ instead.
R55 and R35 to R37: an address that breaks a mesh rule makes LDW, STW and every atomic trap with that rule's cause at their
own address, TADDR being the presented address. -/
def Obligations.RowAtomicsAndAccessTraps : Prop :=
  (∀ (s : State) (d : BitVec 6) (a b : Opnd) (core row : Nat) (i : Instr),
    i ∈ [Instr.aadd d a b, .amax d a b, .amin d a b, .axchg d a b, .acas d a b, .aor d a b] →
    s.b.held (d :: (d ||| 1) :: (opRegs a ++ opRegs b)) = false → s.mesh.wf = true →
    meshCheck s s.b true (s.b.op32 a).toNat = .ok (core, row) → (core = s.b.core ∨ s.b.unlogged = true ∨ s.b.rpMode = 0) →
    (s.b.dbg = false ∨ core ≠ s.b.core ∨ s.b.pendRow row = false) →
    let addr := core * 0x80000 + row * 256 + 4 * ((s.b.op32 b).toNat % 64)
    let g := s.drain
    let old := g.mesh.word addr
    let new := fp6Mask (bfFmt (s.bfmtAt core row)) (atomicNew i old (s.b.getS d) (s.b.getS (d ||| 1)))
    let fails := match i with
      | .acas _ _ _ => decide (old ≠ s.b.getS d)
      | _ => false
    ∃ t, exec i s = .next t ∧ t.b.getS d = old ∧ (∀ r, r ≠ d → t.b.getS r = s.b.getS r) ∧
      Advanced (nextPc s (1 + litN a + litN b)) s t ∧
      t.mesh.word addr = (if fails then old else new) ∧
      (∀ m, m < addr ∨ addr + 4 ≤ m → t.mesh.get m = g.mesh.get m) ∧
      (fails = true → t.mesh = g.mesh) ∧
      t = { g with mesh := t.mesh, b := { g.b with s := t.b.s, pc := t.b.pc, pfx := t.b.pfx, wait := t.b.wait
                                                   skipStop := t.b.skipStop, ko := t.b.ko, rpseq := t.b.rpseq } }) ∧
  (∀ (s : State) (d : BitVec 6) (a b : Opnd) (row : Nat), s.b.held (d :: (d ||| 1) :: (opRegs a ++ opRegs b)) = false →
    meshCheck s s.b true (s.b.op32 a).toNat = .ok (s.b.core, row) → s.b.dbg = true → s.b.pendRow row = true →
    ∀ i ∈ [Instr.aadd d a b, .amax d a b, .amin d a b, .axchg d a b, .acas d a b, .aor d a b],
      exec i s = .next (takeTrap { c := .earlyRead, addr := (s.b.op32 a).setWidth 64, iaddr := s.b.pc, cutPc := s.b.pc } s)) ∧
  (∀ (s : State) (d : BitVec 6) (a b : Opnd) (c : Cause),
    s.b.held (d :: (d ||| 1) :: (opRegs a ++ opRegs b)) = false →
    let t := takeTrap { c := c, addr := (s.b.op32 a).setWidth 64, iaddr := s.b.pc, cutPc := s.b.pc } s
    (meshCheck s s.b false (s.b.op32 a).toNat = .error c → exec (.ldw d a b) s = .next t) ∧
    (meshCheck s s.b true (s.b.op32 a).toNat = .error c →
      ∀ i ∈ [Instr.stw d a b, .aadd d a b, .amax d a b, .amin d a b, .axchg d a b, .acas d a b, .aor d a b],
        exec i s = .next t))

/-- R188 and R189: FENCE holds the control core, changing nothing, until what its mask names has retired or completed or
faulted, no command standing behind a faulted one; then it retires, and with the C bit the store buffer has been emptied.
Mask 0 retires at once. `k` is the model's record of what the control core follows (R172). The model's choices:
log 96. -/
def Obligations.FenceWaits : Prop :=
  ∀ (s : State) (m : BitVec 5) (sys : BitVec 1),
    let met := (m.getLsbD 1 = true → s.b.ql = []) ∧ (m.getLsbD 2 = true → s.b.qx = []) ∧
      (m.getLsbD 3 = true → s.b.qs = []) ∧
      (m.getLsbD 4 = true → ∀ e ∈ s.b.eng.toList, e.fifo = [] ∨ (e.flt ≠ none ∧ e.fifo.length = 1))
    let g := if m.getLsbD 0 then s.drain else s
    (met → ∃ k : Clock, Retires (.fence m sys) s (nextPc s 1) { g with b := { g.b with knows := k } }) ∧
    (¬met → exec (.fence m sys) s = .next s)

/-! ## Branches and loops (spec/01, spec/11) -/

/-- A taken branch of instruction i to t, whose effect before the branch is g: R24's orphan prefix makes it trap with no effect;
otherwise decoding goes on at t. -/
def TakenTo (i : Instr) (s : State) (t : Word) (g : State) : Prop :=
  if orphan s.b t then
    exec i s = .next (takeTrap { c := .orphanPfx, iaddr := s.b.pc, cutPc := s.b.pc } s)
  else Retires i s t g

/-- R24, R25, R263, R264 and R266: every branch, taken or not, in every operand form. R267 and R268: LOOP. An
inactive loop reads operand a, which raises ILLEGAL_OPERAND where its form is barred, and arms with it; an active one keeps
LTRk. While passes remain, ITER counts up in its 27 bits, SP holds the stages at work in the next pass and decoding goes on at
the target, unless that is an orphan prefix's word (ORPHAN_PREFIX, with no effect); after the last pass LSTk is 0 and decoding
falls through. A LOOP trace record is written when it is enabled (R390). R385: with a loop stop due, which QD holds until the
queues are empty, the completed LOOP then takes DEBUG_STOP at the instruction it leads to, or is held there with DM = 1. -/
def Obligations.BranchesAndLoops : Prop :=
  (∀ (s : State) (a : Opnd) (o : BitVec 13) (far : BitVec 24) (e : BitVec 6),
    let cb := s.b.pc + 4 * o.signExtend 32
    let cj := s.b.pc + 4 * far.signExtend 32
    let n := 1 + litN a
    (s.b.held (opRegs a) = false →
      (if s.b.op32 a ≠ 0 then TakenTo (.bcNz a o) s cb s else Retires (.bcNz a o) s (nextPc s n) s) ∧
      (if s.b.op32 a = 0 then TakenTo (.bcZ a o) s cb s else Retires (.bcZ a o) s (nextPc s n) s) ∧
      TakenTo (.jr a) s (s.b.op32 a &&& ~~~3#32) s ∧
      (∀ (h : DWord) (rest : List DWord), s.b.cq = h :: rest → (s.b.op32 a).toNat ≤ 64 →
        let g := { s with b := { s.b with cq := rest, cqc := s.b.cqc.drop 1, knows := s.b.knows.join (s.b.cqc.headD {}) } }
        let hit := if s.b.op32 a = 0 then h ≠ 0 else h.getLsbD ((s.b.op32 a).toNat - 1) = true
        (hit → TakenTo (.bcqAny a o) s cb g ∧ Retires (.bcqNone a o) s (nextPc s n) g) ∧
        (¬hit → TakenTo (.bcqNone a o) s cb g ∧ Retires (.bcqAny a o) s (nextPc s n) g)) ∧
      (s.b.cq = [] → (s.b.op32 a).toNat ≤ 64 → exec (.bcqAny a o) s = .next s ∧ exec (.bcqNone a o) s = .next s) ∧
      (64 < (s.b.op32 a).toNat →
        let t := takeTrap { c := .illegalOperand, iaddr := s.b.pc, cutPc := s.b.pc } s
        exec (.bcqAny a o) s = .next t ∧ exec (.bcqNone a o) s = .next t)) ∧
    (if s.b.ev.getLsbD e.toNat then TakenTo (.bevSet e o) s cb s ∧ Retires (.bevClr e o) s (nextPc s 1) s
      else TakenTo (.bevClr e o) s cb s ∧ Retires (.bevSet e o) s (nextPc s 1) s) ∧
    TakenTo (.b far) s cj s ∧
    (s.b.held [63] = false →
      TakenTo .ret s (s.b.getS 63 &&& ~~~3#32) s ∧
      TakenTo (.call far) s cj { s with b := s.b.setS 63 (nextPc s 1) })) ∧
  (∀ (s : State) (k : BitVec 4) (a : Opnd) (o : BitVec 13),
    let lst := s.b.getLst k
    let act := lst.getLsbD 31
    let v := (s.b.op32 a).toNat
    let fits := act = true ∨ (v / 2 ^ 29 = 0 ∧ v % 2 ^ 27 + v / 2 ^ 27 % 4 ≤ 2 ^ 27 - 1)
    let ltr := if act then s.b.getLtr k else s.b.op32 a
    let iter := ((if act then lst.toNat % 2 ^ 27 else 0) + 1) % 2 ^ 27
    let total := ltr.toNat % 2 ^ 27 + ltr.toNat / 2 ^ 27 % 4
    let taken := decide (iter < total)
    let sp : Nat := if act then lst.toNat / 2 ^ 27 % 16 else 0
    let word : Nat := (if taken then 2 ^ 31 else 0) + sp * 2 ^ 27 + iter
    let t := s.b.pc + 4 * o.signExtend 32
    let next := if taken then t else nextPc s (1 + litN a)
    let trap (c : Cause) := takeTrap { c := c, iaddr := s.b.pc, cutPc := s.b.pc } s
    let due := s.b.te = false ∧ s.b.dLse = true ∧ s.b.dLid = k ∧ (s.b.dLae = true ∨ s.b.diter.toNat % 2 ^ 27 = iter)
    let waits := s.b.dQd = true ∧ ¬(s.b.ql = [] ∧ s.b.qx = [] ∧ s.b.qs = [])
    (act = true ∨ s.b.held (opRegs a) = false) →
    (¬fits → exec (.loop k a o) s = .next (trap .illegalOperand)) ∧
    (fits → taken = true → orphan s.b t = true → exec (.loop k a o) s = .next (trap .orphanPfx)) ∧
    (fits → (taken = true → orphan s.b t = false) →
      (due → waits → exec (.loop k a o) s = .next s) ∧
      ∃ new : Word,
        (taken = true → new.toNat % 2 ^ 27 = iter ∧ new.getLsbD 31 = true ∧
          ∀ j, j < 4 → new.getLsbD (27 + j) =
            decide (j ≤ ltr.toNat / 2 ^ 27 % 4 ∧ j ≤ iter ∧ iter - j < ltr.toNat % 2 ^ 27)) ∧
        (taken = false → new = 0) ∧
        (let g := ({ s with b := { s.b with ltr := s.b.ltr.set k.toNat ltr k.isLt, lst := s.b.lst.set k.toNat new k.isLt } }).traceEv
          0 0 s.b.pc (k.setWidth 32) (BitVec.ofNat 32 word) 0
         let addr : DWord := BitVec.ofNat 64 (k.toNat * 2 ^ 32 + word)
         (¬due → Retires (.loop k a o) s next g) ∧
         (due → ¬waits → s.b.dDm = false → exec (.loop k a o) s = .next (takeTrap
           { c := .debugStop, addr := addr, iaddr := s.b.pc, cutPc := next } (retireAt next g))) ∧
         (due → ¬waits → s.b.dDm = true → ∃ u, exec (.loop k a o) s = .next u ∧ (s.other = none →
           u.b.status = .held ∧ u.b.front = false ∧ u.b.te = false ∧ u.b.pc = next ∧ u.b.tepc = next ∧ u.b.taddr = addr ∧
           u.b.tcause.toNat % 256 = Cause.debugStop.code ∧ u.b.s = s.b.s ∧ u.b.getLst k = new ∧ u.b.getLtr k = ltr)))))

/-! ## Events, barriers, inboxes (spec/09, spec/11) -/

/-- R269 and R270: EVWAIT retires when its bit is 1; EVSET, once no queue store is left, performs the buffered stores and sets
its bit alone; EVCLR clears its bit alone; WAITF on a row the checks allow writes the lane word once it differs from s(d).
While the bit or the word has not changed they wait, lending (the last clause). R217, lending: a front burner that waits in
EVWAIT, WAITF, BWAIT or a CTLR of INBPOP keeps its PC; when the other burner of its core is runnable, that burner becomes
front and the waiting one is not. The model's choices: log 94. -/
def Obligations.EventsWaitsAndLending : Prop :=
  (∀ (s : State) (e : BitVec 6) (d : BitVec 6) (a b : Opnd) (core row : Nat),
    (s.b.ev.getLsbD e.toNat = true → Retires (.evwait e) s (nextPc s 1) s) ∧
    (s.b.ev.getLsbD e.toNat = false → exec (.evwait e) s = .next (lendWait .evwait s)) ∧
    (∃ v : DWord, (∀ k, k < 64 → v.getLsbD k = (decide (k = e.toNat) || s.b.ev.getLsbD k)) ∧
      (s.b.storesLeft = false → Retires (.evset e) s (nextPc s 1) { s.drain with b := { s.drain.b with ev := v } })) ∧
    (∃ v : DWord, (∀ k, k < 64 → v.getLsbD k = (!decide (k = e.toNat) && s.b.ev.getLsbD k)) ∧
      Retires (.evclr e) s (nextPc s 1) { s with b := { s.b with ev := v } }) ∧
    (s.b.held (d :: (opRegs a ++ opRegs b)) = false → meshCheck s s.b false (s.b.op32 a).toNat = .ok (core, row) →
      (s.b.dbg = false ∨ core ≠ s.b.core ∨ s.b.pendRow row = false) →
      let g := s.drainRow core row
      let w := g.mesh.word (core * 0x80000 + row * 256 + 4 * ((s.b.op32 b).toNat % 64))
      (w = s.b.getS d → exec (.waitf d a b) s = .next (lendWait .waitf g)) ∧
      (w ≠ s.b.getS d → (core = s.b.core ∨ s.b.unlogged = true ∨ s.b.rpMode = 0) →
        Retires (.waitf d a b) s (nextPc s (1 + litN a + litN b)) { g with b := g.b.setS d w }))) ∧
  (∀ (s : State) (k : WaitK) (o : Burner), s.b.front = true → s.b.bur ≤ 1 → s.other = some o →
    let t := lendWait k s
    t.b.pc = s.b.pc ∧ t.b.wait = some k ∧
      (o.runnable = true → t.b.front = false ∧ t.b.lend = true ∧
        ∃ o', t.other = some o' ∧ o'.front = true ∧ o'.lend = false ∧ o'.pc = o.pc ∧ o'.s = o.s) ∧
      (o.runnable = false → t = { s with b := { s.b with wait := some k } }))

/-- R272 and R273, BARM: by a member of a group that is not ARMED, with a count from 1 to its live members, it makes the group
ARMED with that count in phase 0, arrivals being its departed members, and drops its killed members. R272 and R273, BARR: by
a live member of an ARMED group that has neither arrived in this phase nor departed, and with no queue store unretired, it
performs the buffered stores and counts one arrival; the arrival that reaches the count ends the phase: the phase number
advances and the arrivals are again the departed members. So R272 gives phase 0 to every BARM, and to one whose count the
departed members alone reach: the model's choice of what ends that phase, the next arrival, is log 24. -/
def Obligations.BarmAndBarr : Prop :=
  (∀ (s : State) (a b : Opnd) (m : GMem),
    let id := (s.b.op32 a).toNat
    let c := (s.b.op32 b).toNat
    let g := s.group id
    s.b.held (opRegs b ++ opRegs a) = false → id ≤ 511 → g.member s.b.core s.b.bur = some m →
    g.st ≠ .armed → 1 ≤ c → c ≤ 65535 → c ≤ (g.mems.filter fun x => !x.killed).length →
    ∃ t g', exec (.barm a b) s = .next t ∧ t = retireAt (nextPc s (1 + litN a + litN b)) (s.setGroup g') ∧
      t.group id = g' ∧ g'.id = g.id ∧ g'.st = .armed ∧ g'.c = c ∧ g'.phase = 0 ∧
      g'.mems.map (fun x => (x.core, x.bur, x.rank, x.departed)) =
        (g.mems.filter fun x => !x.killed).map (fun x => (x.core, x.bur, x.rank, x.departed)) ∧
      (∀ x ∈ g'.mems, x.killed = false ∧ x.arrived = false ∧ x.barr = none) ∧
      g'.arrivals = (g'.mems.filter (·.departed)).length) ∧
  (∀ (s : State) (a : Opnd) (m : GMem),
    let id := (s.b.op32 a).toNat
    let g := s.group id
    s.b.held (opRegs a) = false → id ≤ 511 → g.member s.b.core s.b.bur = some m → g.st = .armed →
    m.arrived = false → m.departed = false → s.b.storesLeft = false →
    ∃ t g', exec (.barr a) s = .next t ∧ t = retireAt (nextPc s (1 + litN a)) (s.drain.setGroup g') ∧ t.group id = g' ∧
      g'.st = .armed ∧ g'.c = g.c ∧ g'.mems.length = g.mems.length ∧
      (g.arrivals + 1 < g.c → g'.phase = g.phase ∧ g'.arrivals = g.arrivals + 1 ∧
        ∀ x ∈ g'.mems, x.core = s.b.core → x.bur = s.b.bur → x.arrived = true ∧ x.barr = some g.phase) ∧
      (g.c ≤ g.arrivals + 1 → g'.phase = g.phase + 1 ∧
        g'.arrivals = (g.mems.filter fun x => x.departed && !x.killed).length ∧
        ∀ x ∈ g'.mems, x.arrived = false ∧ (x.core = s.b.core → x.bur = s.b.bur → x.barr = some g.phase)))

/-- R272 and R273, BWAIT and BLEAVE: BWAIT writes 0 once the phase of the burner's latest BARR has completed; waits, lending,
while an ARMED group has not completed it; and on a BROKEN group writes 1, retires and takes BARRIER_BROKEN with the cut
after it. One that waited while its phase ended or the group broke takes that outcome (`res`) whatever the group has become
since. BLEAVE of an ARMED group records the departure, counts an arrival where there was none in this phase, and may end the
phase. R271 and R273: a group number above 511 takes ILLEGAL_OPERAND, a burner that is no live member BARRIER_STATE; BARM of
an ARMED group takes BARRIER_STATE and a count that is 0, above 65,535 or above the live members BARRIER_COUNT; BARR of a
member that has arrived or departed or of an UNARMED group takes BARRIER_STATE, any other of a BROKEN one BARRIER_BROKEN;
BWAIT without a BARR since arming BARRIER_STATE. Nothing else has changed first. The model's choices: log 24, 25. -/
def Obligations.BwaitBleaveAndBarrierFaults : Prop :=
  (∀ (s : State) (d : BitVec 6) (a : Opnd) (m : GMem),
    let id := (s.b.op32 a).toNat
    let g := s.group id
    let next := nextPc s (1 + litN a)
    id ≤ 511 → g.member s.b.core s.b.bur = some m → g.st ≠ .unarmed →
    (s.b.held (d :: opRegs a) = false →
      let noted (f : GMem → GMem) : State := s.setGroup (g.modMem s.b.core s.b.bur f)
      (m.res = some false →
        Retires (.bwait d a) s next ((noted fun x => { x with res := none }).modB fun b => b.setS d 0)) ∧
      (m.res = some true →
        exec (.bwait d a) s = .next (takeTrap { c := .barrierBroken, iaddr := s.b.pc, cutPc := next }
          (retireAt next ((noted fun x => { x with res := none }).modB fun b => b.setS d 1)))) ∧
      ∀ p, m.barr = some p → m.res = none →
        (p < g.phase → Retires (.bwait d a) s next { s with b := s.b.setS d 0 }) ∧
        (g.phase ≤ p → g.st = .armed → exec (.bwait d a) s = .next (lendWait .bwait (noted fun x => { x with waits := true }))) ∧
        (g.phase ≤ p → g.st = .broken →
          exec (.bwait d a) s = .next (takeTrap { c := .barrierBroken, iaddr := s.b.pc, cutPc := next }
            (retireAt next { s with b := s.b.setS d 1 })))) ∧
    (s.b.held (opRegs a) = false → g.st = .armed → s.b.storesLeft = false →
      ∃ g', Retires (.bleave a) s next (s.drain.setGroup g') ∧ g'.id = g.id ∧ g'.st = .armed ∧ g'.c = g.c ∧
        (∀ x ∈ g'.mems, x.core = s.b.core → x.bur = s.b.bur → x.departed = true) ∧
        (m.departed = true → g'.phase = g.phase ∧ g'.arrivals = g.arrivals) ∧
        (m.departed = false →
          let n := g.arrivals + if m.arrived then 0 else 1
          (n < g.c → g'.phase = g.phase ∧ g'.arrivals = n) ∧ (g.c ≤ n → g'.phase = g.phase + 1)))) ∧
  (∀ (s : State) (d : BitVec 6) (a b : Opnd),
    let id := (s.b.op32 a).toNat
    let c := (s.b.op32 b).toNat
    let g := s.group id
    let trap (k : Cause) := takeTrap { c := k, iaddr := s.b.pc, cutPc := s.b.pc } s
    s.b.held (d :: (opRegs b ++ opRegs a)) = false →
    (511 < id → ∀ i ∈ [Instr.barm a b, .barr a, .bwait d a, .bleave a], exec i s = .next (trap .illegalOperand)) ∧
    (id ≤ 511 → g.member s.b.core s.b.bur = none →
      ∀ i ∈ [Instr.barm a b, .barr a, .bwait d a, .bleave a], exec i s = .next (trap .barrierState)) ∧
    (∀ m, id ≤ 511 → g.member s.b.core s.b.bur = some m →
      (g.st = .armed → exec (.barm a b) s = .next (trap .barrierState)) ∧
      (g.st ≠ .armed → (c = 0 ∨ 65535 < c ∨ (g.mems.filter fun x => !x.killed).length < c) →
        exec (.barm a b) s = .next (trap .barrierCount)) ∧
      (m.arrived = true → exec (.barr a) s = .next (trap .barrierState)) ∧
      (g.st = .armed → m.departed = true → exec (.barr a) s = .next (trap .barrierState)) ∧
      (m.res = none → m.barr = none → exec (.bwait d a) s = .next (trap .barrierState)) ∧
      (g.st = .broken → (m.arrived = false → exec (.barr a) s = .next (trap .barrierBroken)) ∧
        exec (.bleave a) s = .next (trap .barrierBroken)) ∧
      (g.st = .unarmed → exec (.barr a) s = .next (trap .barrierState) ∧
        exec (.bleave a) s = .next (trap .barrierState) ∧
        (m.res = none → exec (.bwait d a) s = .next (trap .barrierState)))))

/-- R209, R210 and R274: SENDT to a bound burner of the sender's fault domain whose ring has a free row, with no queue store
unretired, reads its payload row, writes it into the target's next free ring row and pushes the token word (sender, ring row,
tag); nothing else of the device changes. Where the act's share is one row access it reads the row first, holds it with the
control core, and delivers what it read in a later act (R162; log 107). INBOX_DELIVERY does the same for a token from another
package. A CTLR of INBPOP pops the oldest token and its row stays reserved until a CTLW of INBREL of 1 to that many rows. -/
def Obligations.MessagesArrive : Prop :=
  (∀ (s : State) (a b : Opnd) (core row : Nat) (x : Burner),
    let w := s.b.op32 b
    let tc := w.toNat / 2 ^ 22
    let tb := w.toNat / 2 ^ 21 % 2
    s.b.held (opRegs a ++ opRegs b) = false → w.toNat / 2 ^ 16 % 32 = 0 →
    (s.b.carry = none → meshCheck s s.b false (s.b.op32 a).toNat = .ok (core, row)) → tc < 640 → s.find tc tb = some x → x.bound = true →
    x.inbCnt ≠ 0 → x.region.fd = s.b.region.fd → x.inbox.length + x.inbPopped < x.inbCnt → s.b.storesLeft = false →
    let g := s.drain
    let off := x.inbBase + x.inbNext
    let tok : Word := BitVec.ofNat 10 s.b.core ++ BitVec.ofNat 1 s.b.bur ++ BitVec.ofNat 5 off ++ w.extractLsb' 0 16
    let words := s.b.carry.getD ((List.range 64).map (g.lane core row))
    let put : State := { g with mesh := g.mesh.setBytes (tc * 0x80000 + (1504 + off) * 256) (words.flatMap wordBytes)
                                b := { g.b with carry := none } }
    (s.pace = 1 → s.b.carry = none → exec (.sendt a b) s = .next { g with b := { g.b with carry := some words } }) ∧
    (s.pace ≠ 1 ∨ s.b.carry ≠ none → Retires (.sendt a b) s (nextPc s (1 + litN a + litN b))
      (put.modAt tc tb fun y => { y with inbox := y.inbox ++ [tok], inbNext := (y.inbNext + 1) % y.inbCnt }))) ∧
  (∀ (s : State) (core bur : Nat) (tok : Word) (words : List Word) (x : Burner),
    s.find core bur = some x → x.bound = true → x.inbox.length + x.inbPopped < x.inbCnt →
    let off := x.inbBase + x.inbNext
    exec (.inboxDelivery core bur tok words) s = .next
      ({ s with mesh := s.mesh.setBytes (core * 0x80000 + (1504 + off) * 256) (words.flatMap wordBytes) }.modAt core bur
        fun y => { y with inbox := y.inbox ++ [tok.extractLsb' 21 11 ++ BitVec.ofNat 5 off ++ tok.extractLsb' 0 16]
                          inbNext := (y.inbNext + 1) % y.inbCnt })) ∧
  (∀ (s : State) (d : BitVec 6) (tok : Word) (rest : List Word), s.b.held [d] = false → s.b.inbox = tok :: rest →
    Retires (.inbpop d) s (nextPc s 1)
      { s with b := { s.b.setS d tok with inbox := rest, inbPopped := s.b.inbPopped + 1 } }) ∧
  (∀ (s : State) (d : BitVec 6), s.b.held [d] = false → s.b.inbox = [] →
    exec (.inbpop d) s = .next (lendWait .inbpop s)) ∧
  (∀ (s : State) (a : Opnd), s.b.held (opRegs a) = false →
    let n := (s.b.op32 a).toNat
    (1 ≤ n → n ≤ s.b.inbPopped → Retires (.inbrel a) s (nextPc s (1 + litN a))
      { s with b := { s.b with inbPopped := s.b.inbPopped - n } }) ∧
    (n = 0 ∨ s.b.inbPopped < n →
      exec (.inbrel a) s = .next (takeTrap { c := .illegalOperand, iaddr := s.b.pc, cutPc := s.b.pc } s)))

/-! ## Taking a trap and leaving the handler (spec/16) -/

/-- R371 to R373: taking a trap while TE = 0. A TRAP record is written when enabled (`g`; R390). The stores before the cut
are performed; the record of R372 goes to TREC0; TCAUSE, TADDR and TEPC are set; TE is 1; decoding goes on at TVEC with bits
1:0 taken as 0; NTRAP counts one more. No scalar register, flag, vector register, accumulator, group or other burner changes,
no queue entry but for the marks of a load at the head of the S queue, which the cut withdraws (`Burner.withdrawLoad`; R116,
R123), and no byte of memory but the performed stores. R376, a fault while TE = 1: the record goes to TREC1, T1V is 1, the
burner is FROZEN and front no more; TREC0, TCAUSE, TADDR and TEPC keep the first trap, and no scalar register, flag or queue
entry changes but for those marks. The model's choice: that the nested fault counts in NTRAP and in TREC1's word is log 100.
-/
def Obligations.TrapEntryAndNestedFault : Prop :=
  (∀ (t : TrapInfo) (s : State), s.b.te = false →
    let r := takeTrap t s
    let g := s.drain.traceEv 1 1 t.iaddr r.b.tcause (lo32 t.addr) r.b.ntrap
    let code := t.c.code + 256 * t.src.code + 2 ^ 24 * (t.inner % 256)
    r.b.te = true ∧ r.b.pc = s.b.tvec &&& ~~~3#32 ∧ r.b.tepc = t.cutPc ∧ r.b.taddr = t.addr ∧ r.b.tcause.toNat = code ∧
    r.b.ntrap = s.b.ntrap + 1 ∧ r.b.sbuf = [] ∧
    r.b.trec0.extractLsb' 0 32 = 0x0C645452#32 ∧ r.b.trec0.extractLsb' 32 32 = s.b.ntrap + 1 ∧
    r.b.trec0.extractLsb' 64 64 = BitVec.ofNat 64 s.cycle ∧ r.b.trec0.extractLsb' 128 32 = s.b.satcnt ∧
    r.b.trec0.extractLsb' 160 32 = s.b.flags ∧ (r.b.trec0.extractLsb' 192 32).toNat = code ∧
    r.b.trec0.extractLsb' 224 16 = t.rinfo ∧ r.b.trec0.extractLsb' 240 16 = BitVec.ofNat 16 t.upc ∧
    r.b.trec0.extractLsb' 256 32 = t.tseq ∧ r.b.trec0.extractLsb' 288 32 = t.iaddr ∧
    r.b.trec0.extractLsb' 320 64 = t.addr ∧ r.b.trec0.extractLsb' 384 32 = s.b.engSeq 0 ∧
    r.b.trec0.extractLsb' 512 32 = s.b.engStatus 0 ∧ r.b.trec0.extractLsb' 640 32 = s.b.engProgress 0 ∧
    r.b.trec0.extractLsb' 960 64 = t.cutPc.setWidth 64 ∧ r.b.trec0.extractLsb' 928 32 = s.b.nl ∧
    r.b.trec0.extractLsb' 896 32 = s.b.nx ∧ r.b.trec0.extractLsb' 864 32 = s.b.ns ∧
    r = { g with b := { g.b with
            qs := s.b.withdrawLoad.qs, trec0 := r.b.trec0, tcause := r.b.tcause, taddr := r.b.taddr, tepc := r.b.tepc
            te := true, ntrap := r.b.ntrap, pc := r.b.pc, pfx := none, wait := none } }) ∧
  (∀ (t : TrapInfo) (s : State), s.b.te = true →
    let r := (takeTrap t s).b
    r.status = .frozen ∧ r.front = false ∧ r.t1v = true ∧ r.te = true ∧ r.ntrap = s.b.ntrap + 1 ∧
      r.trec1.extractLsb' 0 32 = 0x0C645452#32 ∧ r.trec1.extractLsb' 32 32 = s.b.ntrap + 1 ∧
      r.trec1.extractLsb' 320 64 = t.addr ∧ r.trec0 = s.b.trec0 ∧ r.tcause = s.b.tcause ∧ r.taddr = s.b.taddr ∧
      r.tepc = s.b.tepc ∧ r.pc = s.b.pc ∧ r.s = s.b.s ∧ r.flags = s.b.flags ∧ r.v = s.b.v ∧ r.ql = s.b.ql ∧ r.qx = s.b.qx ∧
      r.qs = s.b.withdrawLoad.qs)

/-- R279 and R373: TRAP and BKPT take TRAP_INSN and BREAKPOINT with TADDR the value of a and the cut at the next instruction.
TRAP_ENTRY takes the fault of a queue's head entry or of an engine with the cut at the next instruction to decode. -/
def Obligations.TrapInstructionsTrap : Prop :=
  ∀ (s : State) (a : Opnd),
    (s.b.held (opRegs a) = false →
      let n := nextPc s (1 + litN a)
      let addr : DWord := (s.b.op32 a).setWidth 64
      exec (.trap a) s = .next (takeTrap { c := .trapInsn, addr := addr, iaddr := s.b.pc, cutPc := n } (retireAt n s)) ∧
      exec (.bkpt a) s = .next (takeTrap { c := .breakpoint, addr := addr, iaddr := s.b.pc, cutPc := n } (retireAt n s))) ∧
    (∀ (c : Cause) (addr : DWord),
      (∀ e es, s.b.ql = e :: es → exec (.trapEntry c .l addr) s = .next
        (takeTrap { c := c, src := .l, addr := addr, iaddr := e.iaddr, cutPc := s.b.pc, tseq := e.seq, upc := e.upc } s)) ∧
      (∀ e es, s.b.qx = e :: es → exec (.trapEntry c .x addr) s = .next
        (takeTrap { c := c, src := .x, addr := addr, iaddr := e.iaddr, cutPc := s.b.pc, tseq := e.seq, upc := e.upc } s)) ∧
      (∀ e es, s.b.qs = e :: es → exec (.trapEntry c .s addr) s = .next
        (takeTrap { c := c, src := .s, addr := addr, iaddr := e.iaddr, cutPc := s.b.pc, tseq := e.seq, upc := e.upc } s)) ∧
      exec (.trapEntry c .copy addr) s = .next
        (takeTrap { c := c, src := .copy, addr := addr, cutPc := s.b.pc, tseq := s.b.engSeq 0 } s) ∧
      exec (.trapEntry c .gather addr) s = .next
        (takeTrap { c := c, src := .gather, addr := addr, cutPc := s.b.pc, tseq := s.b.engSeq 1 } s) ∧
      exec (.trapEntry c .coll addr) s = .next
        (takeTrap { c := c, src := .coll, addr := addr, cutPc := s.b.pc, tseq := s.b.engSeq 2 } s) ∧
      exec (.trapEntry c .wport addr) s = .next
        (takeTrap { c := c, src := .wport, addr := addr, cutPc := s.b.pc, tseq := s.b.engSeq 3 } s))

/-- The party that a SRC field names (R370). -/
def srcNamed (n : Nat) : Src := ([.cc, .l, .x, .s, .copy, .gather, .coll, .wport] : List Src).getD n .cc
/-- A queue whose head entry, where the SK bit is set, is marked skipped and loses its partial results (R374). -/
def skipped (on : Bool) : List Entry → List Entry
  | [] => []
  | e :: es => (if on then { e with skip := true, part := [], imgs := [], out := none } else e) :: es

/-- R374, RFT while TE = 1, for every state: it completes. Decoding goes on at TEPC with bits 1:0 taken as 0; TE, SKL, SKX
and SKS are cleared; the head entry of each queue whose SK bit was set is marked skipped and loses its partial results, and
every other entry stays; engine commands whose fault was taken resume, one whose fault is still due keeps it; an RFT record
is written when enabled (`g`; R390); WONE arms one watch bypass of the party of TCAUSE.SRC beside those that stand unused
(R387); nothing else changes but retirement. R279: while TE = 0 it takes RFT_STATE. R377: a 1 written to PFWAIT in the
handler of PAGE_NOT_PRESENT, PAGE_PROTECTION or WATCH_HIT completes, for every state: the burner's wait stands in the table
under its region's ASN and the 4 KiB page of TADDR, every entry of another page stays, PW is set, the handler is left as RFT
leaves it, but that a faulted command stays faulted until the page is served, and the burner stands stopped at its cut, front
no more, with its buffered stores performed; the other burner of its core becomes front when it is runnable. `u` is that
state; new entries are then reported (`reportFaults`), which changes nothing while PFR names no ring. Every other value or
cause, or TE = 0, takes ILLEGAL_OPERAND. The model's choices: log 40, 91 (several bypasses), 137, and 148: that a faulted
engine command stays faulted until the page is served is deduced, and no words of R374 or R377. -/
def Obligations.RftAndPfwaitLeaveHandler : Prop :=
  (∀ s : State,
    let party := srcNamed (s.b.tcause.toNat / 256 % 8)
    let armed : List Src := if s.b.dctl.getLsbD 10 ∧ party ∉ s.b.bypass then party :: s.b.bypass else s.b.bypass
    (s.b.te = true →
      let g := s.traceEv 1 2 s.b.tepc
        (BitVec.ofNat 32 (s.b.skl.toNat + 2 * s.b.skx.toNat + 4 * s.b.sks.toNat)) 0 0
      exec .rft s = .next { g with b := { g.b with
        pc := s.b.tepc &&& ~~~3#32, te := false, skl := false, skx := false, sks := false
        ql := skipped s.b.skl s.b.ql, qx := skipped s.b.skx s.b.qx, qs := skipped s.b.sks s.b.qs
        eng := s.b.eng.map fun e => if e.fltDue then e else { e with flt := none }
        pfx := none, wait := none, skipStop := true, ko := s.b.ko + 1, bypass := armed } }) ∧
    (s.b.te = false → exec .rft s = .next (takeTrap { c := .rftState, iaddr := s.b.pc, cutPc := s.b.pc } s))) ∧
  (∀ (s : State) (a : Opnd), s.b.held (opRegs a) = false →
    let code := s.b.tcause.toNat % 256
    let ok := s.b.te = true ∧ s.b.op32 a = 1 ∧ (code = 0x17 ∨ code = 0x1A ∨ code = 0x1B)
    let party := srcNamed (s.b.tcause.toNat / 256 % 8)
    let armed : List Src := if s.b.dctl.getLsbD 10 ∧ party ∉ s.b.bypass then party :: s.b.bypass else s.b.bypass
    let left : Burner := { s.b with
      pc := s.b.tepc &&& ~~~3#32, te := false, skl := false, skx := false, sks := false
      ql := skipped s.b.skl s.b.ql, qx := skipped s.b.skx s.b.qx, qs := skipped s.b.sks s.b.qs
      pfx := none, wait := none, skipStop := true, ko := s.b.ko + 1, bypass := armed }
    (¬ok → exec (.pfwait a) s = .next (takeTrap { c := .illegalOperand, iaddr := s.b.pc, cutPc := s.b.pc } s)) ∧
    (ok → ∃ u, exec (.pfwait a) s = .next (reportFaults u.hostVia u) ∧ (s.pfrN = 0 → reportFaults u.hostVia u = u) ∧
      (∃ e ∈ u.faultTab, e.asn = s.b.region.asn ∧ e.page = s.b.taddr.toNat / 4096 ∧ (s.b.core, s.b.bur) ∈ e.waiters) ∧
      (∀ e ∈ s.faultTab, e.asn ≠ s.b.region.asn ∨ e.page ≠ s.b.taddr.toNat / 4096 → e ∈ u.faultTab) ∧
      u.b = { left.withdrawLoad with
        pw := true, status := .pageWait, front := false, sbuf := [], slotM := u.b.slotM, trlost := u.b.trlost } ∧
      (u.b.slotM = s.b.slotM ∨ u.b.slotM = s.b.slotM + 16) ∧
      u = { s.drain with b := u.b, others := u.others, faultTab := u.faultTab, trace := u.trace, saved := u.saved, leases := u.leases } ∧
      ∀ o, s.other = some o → o.runnable = true → ∃ o', u.other = some o' ∧ o'.front = true ∧ o'.pc = o.pc ∧ o'.s = o.s))

/-! ## System instructions and control registers (spec/03, spec/11, spec/16, spec/17) -/

/-- R22, R275, R277, R278, R375, R379, for every state. NOP retires. PFX is kept for the next instruction and retires nothing
by itself. YIELD retires without a request; with one it waits, changing nothing, until the queues are empty, the engines are
done and the save area has room, and then it saves the burner, which stands yielded with its s registers, memberships and the
PC after the YIELD, and frees its place on the core. BSWITCH retires, and the front passes on when the other burner is
runnable; its outcome passes through record and replay (R394, R397), which leaves it alone while off and in a page fault's
handler. HALT, once the queues are empty and the engines done, stops the burner: its buffered stores are performed, it leaves
its groups, it is front no more, and an unbinding bind record is due; until then the body's changes nothing. In the handler
it first discards unretired entries and commands that have not started. Retiring (`retireAt`, in which the other statements
say it) moves the program counter, uses up a prefix and counts one instruction more, and changes nothing else. The model's
choices: log 29 (the SEQ of the BSWITCH's event), 68, 115. -/
def Obligations.SystemInstructions : Prop :=
  ∀ (s : State),
    exec .nop s = .next (retireAt (nextPc s 1) s) ∧
    (∀ w, exec (.pfx w) s = .next { s with b := { s.b with pfx := some w } }) ∧
    (s.b.yrq = false → exec .yield s = .next (retireAt (nextPc s 1) s)) ∧
    (s.b.yrq = true →
      (¬(s.b.queuesEmpty = true ∧ s.b.enginesDone = true ∧ areaFits .yield s = true) → exec .yield s = .next s) ∧
      (s.b.queuesEmpty = true → s.b.enginesDone = true → areaFits .yield s = true →
        ∃ t k, exec .yield s = .next t ∧ t.b = Burner.fresh s.b.core s.b.bur ∧ t.saved = s.saved ++ [k] ∧
          k.status = .yielded ∧ k.yrq = false ∧ k.front = false ∧ k.pc = nextPc s 1 ∧ k.s = s.b.s ∧ k.membs = s.b.membs ∧
          k.region = s.b.region ∧ k.launch = s.b.launch)) ∧
    (let can := match s.other with
      | some o => o.runnable
      | none => false
     let next (g : State) : State := if can then (retireAt (nextPc s 1) g).passFront 0 else retireAt (nextPc s 1) g
     let did : BitVec 128 := if can then 1 else 0
     (s.b.unlogged = true ∨ s.b.rpMode = 0 → exec .bswitch s = .next (next s)) ∧
     (∀ g x rows, s.b.unlogged = false → logEvent 5 s.b.pc s.b.eventSeq did [] s = .ok g x rows →
       (x = did → exec .bswitch s = .next (next g)) ∧
       (x = 0 → exec .bswitch s = .next (retireAt (nextPc s 1) g)) ∧
       (x = 1 → can = false → exec .bswitch s =
         .next (takeTrap { c := .replayDiverged, addr := s.b.rppos.setWidth 64, iaddr := s.b.pc, cutPc := s.b.pc } s))) ∧
     (∀ c addr, s.b.unlogged = false → logEvent 5 s.b.pc s.b.eventSeq did [] s = .bad c addr →
       exec .bswitch s = .next (takeTrap { c := c, addr := addr, iaddr := s.b.pc, cutPc := s.b.pc } s))) ∧
    (let left (e : Eng) : List EPush := if s.b.te then e.fifo.filter (·.started) else e.fifo
     let ended := (s.b.te = false → s.b.ql = [] ∧ s.b.qx = [] ∧ s.b.qs = [] ∧ ∀ e ∈ s.b.eng.toList, e.fltDue = false) ∧
       ∀ e ∈ s.b.eng.toList, left e = [] ∨ (e.flt ≠ none ∧ (left e).length = 1)
     (ended → ∃ t, exec .halt s = .next t ∧ t.b.status = .halted ∧ t.b.front = false ∧ t.b.sbuf = [] ∧ t.b.s = s.b.s ∧
        (∀ g ∈ t.groups, ∀ m ∈ g.mems, m.core = s.b.core → m.bur = s.b.bur → m.killed = false → m.departed = true) ∧
        t.pending.getLast? = some (.dispatchUnbind (2 * s.b.core + s.b.bur)) ∧
        (tabGet 0 t.slots (2 * s.b.core + s.b.bur)).toNat % 4 = 2) ∧
     (¬ended → s.b.te = false → exec .halt s = .next s) ∧
     (¬ended → s.b.te = true → ∃ t, exec .halt s = .next t ∧ t.b.ql = [] ∧ t.b.qx = [] ∧ t.b.qs = [] ∧ t.b.s = s.b.s ∧
        t.b.pc = s.b.pc ∧ t.b.status = s.b.status)) ∧
    (∀ p, Advanced p s (retireAt p s) ∧ MemSame s (retireAt p s) ∧
      retireAt p s = { s with b := { s.b with pc := p, pfx := none, wait := none, skipStop := (retireAt p s).b.skipStop
                                              ko := (retireAt p s).b.ko, rpseq := (retireAt p s).b.rpseq } })

/-- R72, R276, R368, R369, R383: a CTLR of an assigned register writes its value to s(d) alone; a CTLW changes what the register
holds or, where the register's rules refuse the value, takes their cause and writes nothing. Registers that serialise hold
the instruction, changing nothing, while a queue entry of the burner is unretired. The model's choices: log 26, 27, 28. -/
def Obligations.ControlRegisterAccess : Prop :=
  ∀ (s : State) (d : BitVec 6) (a : Opnd) (c : BitVec 7),
    (s.b.held [d] = false → ctlHeld c.toNat true s.b = false → WritesS (.ctlr d c) s d (s.ctlRead c.toNat) 1) ∧
    (s.b.held (opRegs a) = false → ctlHeld c.toNat false s.b = false →
      (∀ b', ctlWrite c.toNat (s.b.op32 a) s.b = .ok b' → Retires (.ctlw c a) s (nextPc s (1 + litN a)) { s with b := b' }) ∧
      (∀ k, ctlWrite c.toNat (s.b.op32 a) s.b = .error k →
        exec (.ctlw c a) s = .next (takeTrap { c := k, iaddr := s.b.pc, cutPc := s.b.pc } s))) ∧
    (c.toNat ∈ [8, 9, 10, 12, 13, 16, 17, 18, 19, 20, 21, 22, 23, 24, 25, 26, 27, 28, 29, 30, 31] →
      s.b.ql ≠ [] ∨ s.b.qx ≠ [] ∨ s.b.qs ≠ [] → exec (.ctlr d c) s = .next s ∧ exec (.ctlw c a) s = .next s)

/-- R276: a value that a CTLW leaves in a register is what a CTLR of it reads, and no other register reads otherwise, but for
TREC0 and TREC1 after a write of TRIX, which selects their word. TSTAT takes bits 4:2 only; LSTk reads SP as 0 while ACT is
0. -/
def Obligations.ControlWriteThenRead : Prop :=
  ∀ (s : State) (c k : BitVec 7) (w : Word) (b' : Burner), ctlWrite c.toNat w s.b = .ok b' →
    let t : State := { s with b := b' }
    (c ≠ 1 → ¬(48 ≤ c.toNat ∧ c.toNat ≤ 63) → t.ctlRead c.toNat = w) ∧
    (c = 1 → t.ctlRead 1 &&& 0x1C = w &&& 0x1C ∧ t.ctlRead 1 &&& 0xE3 = s.ctlRead 1 &&& 0xE3) ∧
    (48 ≤ c.toNat → c.toNat ≤ 63 → t.ctlRead c.toNat = if w.getLsbD 31 then w else w &&& 0x07FFFFFF) ∧
    (k ≠ c → ¬(c = 11 ∧ (k = 6 ∨ k = 7)) → t.ctlRead k.toNat = s.ctlRead k.toNat)

/-- R79, R81, R267, R390, R396: the writes with an effect of their own. BCTL keeps the value with SLD reading 0, and SLD = 1
loads the generator from SEED; SRSL and SRSH replace one half of the generator's state; LTRk arms its loop in iteration 0;
TRMARK writes a MARK record when enabled; RPCTL sets the mode and restarts the log's position, digest and count. -/
def Obligations.ControlWritesWithEffect : Prop :=
  ∀ (s : State) (a : Opnd) (k : BitVec 4), s.b.held (opRegs a) = false →
    let w := s.b.op32 a
    let n := nextPc s (1 + litN a)
    (s.b.ql = [] → s.b.qx = [] → s.b.qs = [] →
      (w.toNat / 16 % 2048 = 0 → (w.getLsbD 3 = true → s.accept.getLsbD 6 = true) → w.toNat % 8 ≤ 5 →
        (w.toNat % 8 = 5 → s.accept.getLsbD 1 = true) →
        ∃ g : DWord, (w.getLsbD 15 = false → g = s.b.sr) ∧
          (w.getLsbD 15 = true → g.toNat = w.toNat / 2 ^ 16 * 2 ^ 48 + (w.toNat / 2 ^ 16 ^^^ 0xFFFF) * 2 ^ 32 + 0x9E3779B9) ∧
          Retires (.sld a) s n { s with b := { s.b with bctl := w &&& ~~~0x8000#32, sr := g } }) ∧
      Retires (.srsWrite 0 a) s n { s with b := { s.b with sr := hi32 s.b.sr ++ w } } ∧
      Retires (.srsWrite 1 a) s n { s with b := { s.b with sr := w ++ lo32 s.b.sr } }) ∧
    (w.toNat / 2 ^ 29 = 0 → w.toNat % 2 ^ 27 + w.toNat / 2 ^ 27 % 4 ≤ 2 ^ 27 - 1 →
      Retires (.ltrWrite k a) s n { s with b := { s.b with
        ltr := s.b.ltr.set k.toNat w k.isLt
        lst := s.b.lst.set k.toNat (0x80000000#32 ||| if w.toNat % 2 ^ 27 = 0 then 0 else 0x08000000#32) k.isLt } }) ∧
    Retires (.trmark a) s n (s.traceEv 4 5 s.b.pc w 0 0) ∧
    (w = 0 ∨ (s.accept.getLsbD 5 = true ∧ (w = 2 ∨ w = 4)) →
      exec (.mode a) s = .next ((retireAt n s).modB fun b => { b with rpctl := w, rppos := 0, rpseq := 0, rpbytes := [] }))

/-! ## Queues (spec/09) -/

/-- R201, R202, R204, R371, R400, for every queue instruction but RDEF: what keeps it from entering its queue. In the handler it
takes HANDLER_QUEUE; without a reservation QUEUE_UNRESERVED; with an interlocked register or a full queue the control core
holds it and nothing changes. When it enters and is not issued at once, it stands last in its queue, nothing else changes
but retirement, and no byte of memory. The model's choices: log 7, 73. -/
def Obligations.QueueEntryGates : Prop :=
  ∀ (s : State) (i : Instr) (w : Fwd), captured s.b i = some w → srRefused s.b.pfx i s = false →
    (s.b.te = true → exec i s = .next (takeTrap { c := .handlerQueue, iaddr := s.b.pc, cutPc := s.b.pc } s)) ∧
    (s.b.te = false → s.b.reserved w.q = 0 →
      exec i s = .next (takeTrap { c := .queueUnreserved, iaddr := s.b.pc, cutPc := s.b.pc } s)) ∧
    (s.b.te = false → s.b.reserved w.q ≠ 0 →
      (s.b.held (w.rs ++ w.sd) = true ∨ s.b.reserved w.q ≤ (s.b.queue w.q).length) → exec i s = .next s) ∧
    (∀ n rest, s.b.te = false → s.b.held (w.rs ++ w.sd) = false → (s.b.queue w.q).length < s.b.reserved w.q →
      s.sched = (n + 1) :: rest →
      Retires i s (nextPc s w.n)
        { s with sched := rest, b := s.b.setQueue w.q (s.b.queue w.q ++ [w.entry s.b none]) })

/-- R201, R205, R209, R211: what the retirement of a queue's head entry changes: it leaves the queue, the queue's number and
slot count advance by one, a matrix entry's command slot too, its wait token is popped and its push token pushed. Every
other queue stays but for the model's record of what its entries follow (R172), every register, flag and special register stays,
and so does all of memory. The model's choices: log 39. -/
def Obligations.QueueEntryRetires : Prop :=
  ∀ (q : Queue) (e : Entry) (s : State),
    let t := s.modB (retireEntry q e true)
    let plain (x : Entry) : Entry := { x with know := {} }
    t.b.queue q = (s.b.queue q).drop 1 ∧ (∀ p, p ≠ q → (t.b.queue p).map plain = (s.b.queue p).map plain) ∧
    t.b.qn q = s.b.qn q + 1 ∧ (∀ p, p ≠ q → t.b.qn p = s.b.qn p) ∧
    t.b.slot q = s.b.slot q + 1 ∧ (∀ p, p ≠ q → t.b.slot p = s.b.slot p) ∧
    t.b.slotM = s.b.slotM + (if e.mx then 1 else 0) ∧
    (∀ k, 1 ≤ k → k ≤ 6 →
      t.b.tokens k = s.b.tokens k - (if k = e.wsel then 1 else 0) + (if k = e.psel then 1 else 0)) ∧
    t.b.s = s.b.s ∧ t.b.v = s.b.v ∧ t.b.flags = s.b.flags ∧ t.b.satcnt = s.b.satcnt ∧ t.b.mask = s.b.mask ∧
    t.b.cq = s.b.cq ∧ t.b.eng = s.b.eng ∧ t.b.acc = s.b.acc ∧ t.b.ops = s.b.ops ∧ t.b.pc = s.b.pc ∧ t.b.sbuf = s.b.sbuf ∧
    (∀ a, t.mesh.get a = s.mesh.get a) ∧ (∀ a, t.phys.get a = s.phys.get a)

/-- R213 and R214, an exposure window: a write of register d by queue q with latency n issued at slot k, with no earlier
window of d, leaves readers of q at slots before k + n the old value and shows the new one from slot k + n on. R179: a reader
of another queue that follows the write in happens-before obtains the new value; one that does not, where no earlier write of
another queue is on record, the new value or the old. Freeing windows never changes what a reader at the present slot obtains
of a register that no other queue has written over them. The model's choices: log 23. -/
def Obligations.WritesShowAfterLatency : Prop :=
  (∀ (b : Burner) (q : Queue) (d n : Nat) (x : VReg), 0 < n → (∀ w ∈ b.win, w.reg ≠ d) →
    let b' := putV q d n x b
    let old : VReg := { b.cur d with st := .plain }
    let new : VReg := { x with last := (b.cur d).last }
    (∀ k, k < b.slot q + n → winValue k (b'.cur d) (b'.winsOf q false d) = old) ∧
    (∀ k, b.slot q + n ≤ k → winValue k (b'.cur d) (b'.winsOf q false d) = new) ∧
    (∀ rd : Rd, rd.q = q → b'.readAt rd d = old) ∧
    (∀ rd : Rd, rd.q ≠ q → (b.know q).of q < rd.know.of q → b'.readAt rd d = new) ∧
    (∀ rd : Rd, rd.q ≠ q → (∀ h ∈ b.hist, h.reg ≠ d) → b'.readAt rd d = new ∨ b'.readAt rd d = old) ∧
    (∀ r, r ≠ d → b'.cur r = b.cur r)) ∧
  (∀ (b : Burner) (rd : Rd) (r : Nat), (∀ w ∈ b.win, w.reg = r → w.sup = false) → b.settle.readAt rd r = b.readAt rd r)

/-! ## Vector computation (spec/12, spec/13) -/

/-- R221, R282 to R285: a result formed segment by segment is the one formed lane by lane. For views whose runs cover their
lengths, L is the smallest length, and lane i below L holds the operation on the lane words at i where the top mask enables
it and the destination's old lane word (0 beyond its length) elsewhere; under SR each lane draws its own bits. -/
def Obligations.SegmentsMeanLanes : Prop :=
  ∀ (e : VEnv) (d : BitVec 11) (v : View) (vs : List View) (tag : Nat) (o : RMode) (op : LaneFn),
    (∀ u ∈ v :: vs, lenSeg u.runs = u.len) → lenSeg e.mask = 1024 → v.len ≤ 1024 →
    let out := laneOp e d (v :: vs) tag o op
    let draw (i j : Nat) : Nat := if o.rm = 5 then srDraw ((srWords ((out.len + 63) / 64) e.sr).getD (i / 64) 0) i j else 0
    out.len = vs.foldl (fun m u => min m u.len) v.len ∧ lenSeg out.runs = out.len ∧
      out.adv = (if o.rm = 5 then (out.len + 63) / 64 else 0) ∧
      ∀ i, i < out.len → atSeg 0 out.runs i = fp6Mask out.tag
        (if atSeg false e.mask i then (op ((v :: vs).map fun u => u.lane i) (draw i)).1
          else atSeg 0 (e.rd d.toNat).runs i)

/-- R290: the exact result t of an integer vector instruction on one element: x, y and z are the elements of views a and b
and of vd, u the pattern of x and p of y as stored, k the value width and w the storage width. -/
def integerExact : Instr → Nat → Nat → Int → Int → Int → Nat → Nat → Option Int
  | .vadd _, _, _, x, y, _, _, _ => some (x + y)
  | .vsub _, _, _, x, y, _, _, _ => some (x - y)
  | .vmul _, _, _, x, y, _, _, _ => some (x * y)
  | .vmad _, _, _, x, y, z, _, _ => some (x * y + z)
  | .vmulh _, k, _, x, y, _, _, _ => some (x * y / 2 ^ k)
  | .vmin _, _, _, x, y, _, _, _ => some (if x ≤ y then x else y)
  | .vmax _, _, _, x, y, _, _, _ => some (if x ≤ y then y else x)
  | .vabs _, _, _, x, _, _, _, _ => some (if x < 0 then -x else x)
  | .vneg _, _, _, x, _, _, _, _ => some (-x)
  | .vshl _, _, w, x, _, _, _, p => some (x * 2 ^ (p % w))
  | .vshr _, _, w, _, _, _, u, p => some ((u / 2 ^ (p % w) : Nat) : Int)
  | .vsra _, _, w, x, _, _, _, p => some (x / 2 ^ (p % w))
  | .vpopc _, k, _, _, _, _, u, _ => some (((List.range k).countP u.testBit : Nat) : Int)
  | .vclz _, k, _, _, _, _, u, _ => some (((if u = 0 then k else k - 1 - Nat.log2 u) : Nat) : Int)
  | _, _, _, _, _, _, _, _ => none

/-- R290: which of them saturate under sat = 01. -/
def integerSaturates : Instr → Bool
  | .vadd _ | .vsub _ | .vmul _ | .vmad _ | .vabs _ | .vneg _ | .vshl _ => true
  | _ => false

/-- The sources an integer vector instruction reads through its views (R281, R289). -/
def integerSources : Instr → Option VF
  | .vadd f | .vsub f | .vmul f | .vmad f | .vmulh f | .vmin f | .vmax f | .vabs f | .vneg f | .vshl f | .vshr f | .vsra f
  | .vpopc f | .vclz f => some f
  | _ => none

/-- Whether it has a second source, and whether it reads vd as a third (R289). -/
def integerTwo : Instr → Bool
  | .vabs _ | .vneg _ | .vpopc _ | .vclz _ => false
  | _ => true
def integerThree : Instr → Bool
  | .vmad _ => true
  | _ => false

/-- R286, R289 and R290: the integer vector instructions. On tags outside set I, or that do not agree, they answer
FORMAT_MISMATCH. Else every enabled lane below the length holds, sub-element by sub-element, the exact result of R290:
within the tag's range itself, beyond it the nearer bound where the instruction saturates and the prefix asks, else the
element whose k-bit pattern it is modulo 2^k. VAND, VOR, VXOR and VNOT take any tags, and every enabled lane below the length,
which is the smallest of their sources', holds the lane words' combination bit by bit. -/
def Obligations.IntegerVectorElements : Prop :=
  (∀ (i : Instr) (f : VF) (g : VEnv → VRes) (e : VEnv), integerSources i = some f → compOf i = some g →
    lenSeg (e.viewA f).runs = (e.viewA f).len → (e.viewA f).len ≤ 1024 → lenSeg e.mask = 1024 →
    (integerTwo i = true → lenSeg (e.viewB f).runs = (e.viewB f).len) →
    (integerThree i = true → lenSeg (e.viewD f).runs = (e.viewD f).len) →
    let c := (e.viewA f).tag
    let two := integerTwo i
    let three := integerThree i
    (intOf c = none ∨ (two = true ∧ (e.viewB f).tag ≠ c) ∨ (three = true ∧ (e.viewD f).tag ≠ c) →
      g e = .error .formatMismatch) ∧
    (∀ k sg, intOf c = some (k, sg) → (two = true → (e.viewB f).tag = c) → (three = true → (e.viewD f).tag = c) →
      ∃ out, g e = .ok out ∧ ∀ n, n < out.len → atSeg false e.mask n = true →
        atSeg 0 out.runs n = fp6Mask out.tag (packWord c ((List.range (elN c)).map fun j =>
          let p := sub c ((e.viewA f).lane n) j
          let q := if two then sub c ((e.viewB f).lane n) j else 0
          let r := if three then sub c ((e.viewD f).lane n) j else 0
          let t := (integerExact i k (elW c) (intVal k sg p) (intVal k sg q) (intVal k sg r) (p % 2 ^ k) q).getD 0
          let lo : Int := if sg then -(2 ^ (k - 1)) else 0
          let hi : Int := if sg then 2 ^ (k - 1) - 1 else 2 ^ k - 1
          let v : Int := if integerSaturates i && e.p.sat == 1 then (if t < lo then lo else if hi < t then hi else t) else t
          contain c (v % 2 ^ k).toNat)))) ∧
  (∀ (i : Instr) (op : Word → Word → Word) (f : VF) (e : VEnv),
    (i, op) ∈ [(Instr.vand f, fun x y => x &&& y), (.vor f, fun x y => x ||| y), (.vxor f, fun x y => x ^^^ y), (.vnot f, fun x _ => ~~~x)] →
    let v := e.viewA f
    let u := e.viewB f
    lenSeg v.runs = v.len → v.len ≤ 1024 → lenSeg e.mask = 1024 → (i ≠ .vnot f → lenSeg u.runs = u.len) →
    ∃ g out, compOf i = some g ∧ g e = .ok out ∧ out.len = (if i = .vnot f then v.len else min v.len u.len) ∧
      (e.p.fmt = none → out.tag = v.tag) ∧
      ∀ n, n < out.len → atSeg false e.mask n = true → atSeg 0 out.runs n = fp6Mask out.tag (op (v.lane n) (u.lane n)))

/-- R201, R212, R224, R284, R287: every vector instruction of majors 0x20 to 0x25 (VADD to VCLZ, VFADD to VFMAX, VDIV to VCOS,
the eight VCMP, VSEL, VCVT, VSCALE, VQNT, VDQNT, VROT, VBC, VRED, VIOTA, VSPL, VEXT, VINS, VCOAL, VLEN, VOCC: those `compOf`
names) whose sources and destination it accepts, with no recipe attached anywhere and room in the run pool, issues: its
outcome is written to v(d) (VQNT's scales to v(d + 1)), to be visible after its exposed latency; FLAGS and SATCNT gain its
flags and the generator its advances; its sources count as read. `out` is what the instruction computes from the registers
as they stand. R286 to R288: a vector instruction that does not accept its sources' formats or its rounding takes that cause
at issue: its entry stays at the head of the X queue with μPC 0 and the burner takes the trap with the cut at the next
instruction. The model's choices: log 7, 31. -/
def Obligations.VectorInstructionsCompleteOrFault : Prop :=
  (∀ (s : State) (i : Instr) (w : Fwd) (g : VEnv → VRes) (d : Nat) (first out : VOut),
    captured s.b i = some w → compOf i = some g → vdst i = some d → Ready w s → AllPlain s.b →
    let b1 := (entered w s).b
    let b2 := touched (vsrcs i) b1
    let lat := latencyOf i
    let ended (b : Burner) : Burner := { b.raise out.fs with sr := srAfter out.adv b.sr }
    g (readsOf w d s b1) = .ok first → g (readsOf w d s b2) = .ok out →
    (out.snd = none → b2.runUsed + out.runs.length ≤ b2.runq →
      Issues i w s ((entered w s).modB fun _ => ended (putV .x d lat out.reg b2))) ∧
    (∀ runs len tag, out.snd = some (runs, len, tag) → b2.runUsed + (out.runs.length + runs.length) ≤ b2.runq →
      let second : VReg := { runs := runs, len := len, tag := BitVec.ofNat 5 tag }
      Issues i w s ((entered w s).modB fun _ => ended (putV .x (d + 1) lat second (putV .x d lat out.reg b2))))) ∧
  (∀ (s : State) (i : Instr) (w : Fwd) (g : VEnv → VRes) (d : Nat) (c : Cause),
    captured s.b i = some w → compOf i = some g → vdst i = some d → Ready w s →
    g (readsOf w d s (entered w s).b) = .error c →
    exec i s = .next (takeTrap
      { c := c, src := .x, iaddr := s.b.pc, cutPc := nextPc s w.n, tseq := (entryOf w s).seq }
      ((entered w s).modB fun b => { b with qx := [{ entryOf w s with begun := true }] })))

/-- The entry of the mask stack that governs lane i: bit i of the top, 1 where there is none (R310). -/
def topBit (b : Burner) (i : Nat) : Bool :=
  match b.mask with
  | [] => true
  | m :: _ => m.getLsbD i

/-- R310, R311 and R313: MPUSH, MINV, MPOP, MTEST and VCQ. Each condition of a lane is written out over the lanes of the
source's view; `k` is what a reader of VCQ's entry follows (R172). -/
def Obligations.MaskInstructionsComplete : Prop :=
  ∀ (s : State) (f : VF),
    let w (i : Instr) : Fwd := fwdVF i f false
    let b0 := (entered (w (.mpush f)) s).b
    let src := b0.look (b0.reader .x (entryOf (w (.mpush f)) s)) f.a.toNat
    let v := viewOf src f.ha.toNat f.swza.toNat
    let isTrue (i : Nat) : Bool := decide (i < v.len) && v.lane i != 0
    AllPlain s.b → lenSeg v.runs = v.len → v.len ≤ 1024 →
    (Ready (w (.mpush f)) s → s.b.mask.length < 8 →
      ∃ m : BitVec 1024, (∀ i, i < 1024 → m.getLsbD i = (topBit s.b i && isTrue i)) ∧
        Issues (.mpush f) (w (.mpush f)) s ((entered (w (.mpush f)) s).modB fun b =>
          { touch f.a.toNat b with mask := m :: b.mask })) ∧
    (∀ m ms, s.b.mask = m :: ms →
      (Ready (w (.minv f)) s →
        ∃ n : BitVec 1024, (∀ i, i < 1024 → n.getLsbD i = ((match ms with
            | [] => true
            | x :: _ => x.getLsbD i) && !m.getLsbD i)) ∧
          Issues (.minv f) (w (.minv f)) s ((entered (w (.minv f)) s).modB fun b => { b with mask := n :: ms })) ∧
      (Ready (w (.mpop f)) s →
        Issues (.mpop f) (w (.mpop f)) s ((entered (w (.mpop f)) s).modB fun b => { b with mask := ms }))) ∧
    (Ready (w (.mtest f)) s →
      ∃ x : VReg, (∀ i, i < 1024 → atSeg 0 x.runs i = if topBit s.b i then 0xFFFFFFFF else 0) ∧ x.len = 1024 ∧ x.tag = 9 ∧
        x.st = .plain ∧ (s.b.runUsed + x.runs.length ≤ s.b.runq →
          Issues (.mtest f) (w (.mtest f)) s ((entered (w (.mtest f)) s).modB (putV .x f.d.toNat 0 x)))) ∧
    (Ready (w (.vcq f)) s →
      let part (i : Nat) : Prop := i < v.len ∧ topBit s.b i = true
      ∃ q : DWord,
        (f.b.toNat % 4 = 0 → (q = 1 ∨ q = 0) ∧ (q = 1 ↔ ∃ i, i < 1024 ∧ part i ∧ isTrue i = true)) ∧
        (f.b.toNat % 4 = 1 → (q = 1 ∨ q = 0) ∧ (q = 1 ↔ ∀ i, i < 1024 → part i → isTrue i = true)) ∧
        (f.b.toNat % 4 = 2 → ∀ t, t < 64 → (q.getLsbD t = true ↔ ∃ i, 16 * t ≤ i ∧ i < 16 * t + 16 ∧ part i ∧ isTrue i = true)) ∧
        ∃ k : Clock, Issues (.vcq f) (w (.vcq f)) s ((entered (w (.vcq f)) s).modB fun b =>
          { touch f.a.toNat b with cq := b.cq ++ [q], cqc := b.cqc ++ [k] }))

/-- R316, R318 to R320: RDEF defines its entry with the body that follows it and the control core goes on after the body; VTAG
runs the body, whose instructions do not fault, writes its result at once and marks the register TAGGED (`ops` keeps operands it
read as older values, R226); VUNTAG makes a register that holds its runs PLAIN;
VDROP frees the runs of a TAGGED register that may be dropped and does nothing to any other. The model's choices: log 21. -/
def Obligations.RecipeInstructionsComplete : Prop :=
  ∀ (s : State) (f : VF),
    let w (i : Instr) : Fwd := fwdVF i f false
    let d := f.d.toNat
    (∀ xs z rs, bodyCapture (f.a.toNat % 4 + 1) true (s.b.after 2).toNat s = .ok (xs, z, rs) → d % 64 < s.b.rcp →
      Ready { w (.rdef f) with rs := rs } s → AllPlain s.b →
      let body : Recipe := { slots := xs, drm := s.b.drm }
      let e := (w (.rdef f)).entry s.b (some body)
      exec (.rdef f) s = .next (({ entered (w (.rdef f)) s with
          b := { (entered (w (.rdef f)) s).b with pc := BitVec.ofNat 32 z, qx := [e], recipes := tabSet s.b.recipes (d % 64) body } }).modB (retireEntry .x e true))) ∧
    (∀ rc s2 x fs, Ready (w (.vtag f)) s → AllPlain s.b → f.a.toNat % 64 < s.b.rcp →
      s.b.recipe (f.a.toNat % 64) = some rc → d ∉ rc.ops →
      let rd (b : Burner) (r : Nat) : VReg := b.look (b.reader .x (entryOf (w (.vtag f)) s)) r
      bodyCause rd rc.drm rc.slots VReg.empty (entered (w (.vtag f)) s) = none →
      bodyGo rd rc.drm 0 (d :: rc.ops) rc.slots 0 VReg.empty {}
        ((entered (w (.vtag f)) s).modB fun b => touched rc.ops b) = (s2, .ok (x, fs)) → AllPlain s2.b →
      ∃ ops, Issues (.vtag f) (w (.vtag f)) s (s2.modB fun b =>
        { (putV .x d 0 { x with st := .tagged (f.a.toNat % 64) } b).raise fs with tagOps := ops })) ∧
    (Ready (w (.vuntag f)) s → (∀ k, (s.b.cur d).st ≠ .dropped k) →
      Issues (.vuntag f) (w (.vuntag f)) s ((entered (w (.vuntag f)) s).modB fun b =>
        { b.setV d { b.cur d with st := .plain } with tagOps := b.tagOps.filter (·.1 != d) })) ∧
    (Ready (w (.vdrop f)) s →
      (∀ k, (s.b.cur d).st = .tagged k → (∀ x ∈ s.b.win, x.reg ≠ d) → dropDepthOk s.b d = true →
        Issues (.vdrop f) (w (.vdrop f)) s ((entered (w (.vdrop f)) s).modB fun b =>
          b.setV d { b.cur d with runs := [], st := .dropped k })) ∧
      ((∀ k, (s.b.cur d).st ≠ .tagged k) → Issues (.vdrop f) (w (.vdrop f)) s (entered (w (.vdrop f)) s)))

/-! ## Vector memory (spec/14) -/

/-- The form of a load or store. -/
def loadForm : Instr → Option (MForm × MF)
  | .vld f => some (.lin, f)
  | .vldRot f => some (.rot, f)
  | .vldz f => some (.tile, f)
  | .vldm f => some (.strided, f)
  | _ => none
def storeForm : Instr → Option (MForm × MF)
  | .vst f => some (.lin, f)
  | .vstRot f => some (.rot, f)
  | .vstz f => some (.tile, f)
  | .vstm f => some (.strided, f)
  | _ => none

/-- R212, R221, R324 and R326: VLD, VLD_ROT, VLDZ and VLDM, when every row they name may be read: the outcome of the rows is
written to v(d), visible to the L queue after 6 slots where no remote row was read and at once where one was; FLAGS and
SATCNT gain its conversion flags. `Obligations.LinearLoadLanes` says which words the outcome holds. The model's choices: log
22, 30. -/
def Obligations.LoadsComplete : Prop :=
  ∀ (s : State) (i : Instr) (form : MForm) (f : MF) (s1 : State) (out : VOut) (rem : Bool) (imgs : List (List Word))
    (mk : List (List Word) → VOut),
    loadForm i = some (form, f) →
    let w := fwdMF i f .l s.b
    Ready w s → AllPlain s.b → (rem = false ∨ s.b.rpMode = 0) →
    loadRun form f (pfxOf s.b.pfx) s.b.drm s.b.ko (s.b.op32 f.a) (s.b.op32 f.b) [] (entered w s) = .ok s1 out rem imgs mk →
    s1.b.runUsed + out.runs.length ≤ s1.b.runq →
    Issues i w s (s1.modB fun b => (putV .l f.d.toNat (if rem then 0 else 6) out.reg b).raise out.fs)

/-- R323 and R324: which words a load's lanes hold, no store being buffered; no byte of memory changes. Without a prefix:
linear, rotated and strided loads from banks whose format is not BPIk have the control word's N lanes under the bank's
format, and lane j is word (K + j) mod 64 of row floor((K + j) / 64), rows lying `stride` rows apart from the base row (K = 0
but for VLD_ROT, stride 1 but for VLDM). VLDZ from such a bank has the lanes of quarter Q of the tile, linear element e being
the one at position P(r, c) in a Z-order bank and 64r + c in a linear one, r and c exchanged under TR. From a BPIk bank of
which j planes are read the tag is BPIj and bit t of a lane's element is its bit in plane j − 1 − t, the sign's bits repeated
above (R62, R63), VLDZ taking a linear tile of 8-bit elements; nothing is said of lanes past the rows read (log 109). With fe
= 1 the lanes are those of the load without fmt, converted as VCVT converts (R299): each element under the rounding in force
and sat, or copied where either format is RAW32. -/
def Obligations.LinearLoadLanes : Prop :=
  (∀ (s s1 : State) (form : MForm) (f : MF) (a b : Word) (ko : Nat) (c : MCtl) (out : VOut) (rem : Bool)
    (imgs : List (List Word)) (mk : List (List Word) → VOut),
    mctl form true b = some c → s.b.sbuf = [] →
    loadRun form f {} s.b.drm ko a b [] s = .ok s1 out rem imgs mk →
    let base := rowBase a f.off
    let row (r : Int) : Nat := ((base : Int) + 256 * r) % 2 ^ 32 |>.toNat
    s1 = s ∧ out.snd = none ∧ lenSeg out.runs = out.len ∧ (form ≠ .tile → out.len = c.n) ∧
      (form = .tile ∨ c.n ≠ 0 → ∃ core r0, meshCheck s s.b false base = .ok (core, r0) ∧
        let bf := s.bfmtAt core r0
        let fmt := bfFmt bf
        let w := elW fmt
        (isBPI fmt = false → out.tag = fmt) ∧
        (isBPI fmt = false → form ≠ .tile →
          ∀ j, j < c.n → ∃ k r,
            meshCheck s s.b false (row (((c.k + j) / 64 : Nat) * if form = MForm.strided then c.str else 1)) = .ok (k, r) ∧
            atSeg 0 out.runs j = fp6Mask fmt (s.mesh.word (k * 0x80000 + r * 256 + 4 * ((c.k + j) % 64)))) ∧
        (isBPI fmt = false → form = .tile → out.len = min 1024 (128 * w - 1024 * c.q) ∧
          ∀ j x, j < out.len → x < 32 / w →
            let e := 32 / w * (1024 * c.q + j) + x
            let (y, z) := if c.tr then (e % 64, e / 64) else (e / 64, e % 64)
            let p := if bfZ bf then zpos y z else 64 * y + z
            ∃ k r, meshCheck s s.b false (row (p * w / 2048 : Nat)) = .ok (k, r) ∧
              sub fmt (atSeg 0 out.runs j) x =
                sub fmt (fp6Mask fmt (s.mesh.word (k * 0x80000 + r * 256 + 4 * (p * w % 2048 / 32)))) (p % (32 / w))) ∧
        (isBPI fmt = true →
          let planes := if bfPl bf = 0 then fmt - 0x10 else bfPl bf
          2 ≤ planes → planes ≤ fmt - 0x10 → out.tag = 0x10 + planes ∧ (form = .tile → out.len = 1024) ∧
          ∀ j x t, j < out.len → (form ≠ .tile → c.k + j < 512 * ((4 * c.n + 2047) / 2048)) → x < 4 → t < 8 →
            let e := if form = .tile then (if c.tr then 64 * ((4 * j + x) % 64) + (4 * j + x) / 64 else 4 * j + x)
              else 4 * (c.k + j) + x
            ∃ k r, meshCheck s s.b false (row ((fmt - 0x10) * (e / 2048) + (planes - 1 - min t (planes - 1)) : Nat)) = .ok (k, r) ∧
              (sub out.tag (atSeg 0 out.runs j) x).testBit t =
                (s.mesh.word (k * 0x80000 + r * 256 + 4 * (e % 2048 / 32))).getLsbD (e % 32)))) ∧
  (∀ (s s1 : State) (form : MForm) (f : MF) (p : Pfx) (a b : Word) (ko : Nat) (d : BitVec 5) (m drm : BitVec 3) (out : VOut)
    (rem : Bool) (imgs : List (List Word)) (mk : List (List Word) → VOut),
    p.fmt = some d → roundNoSr p f.rm drm = some m → loadRun form f p drm ko a b [] s = .ok s1 out rem imgs mk →
    let dt := d.toNat
    ∃ out0 mk0, loadRun form f { p with fmt := none } drm ko a b [] s = .ok s1 out0 rem imgs mk0 ∧
      out.tag = dt ∧ out.snd = none ∧ lenSeg out.runs = out.len ∧
      (out0.tag = 0 ∨ dt = 0 → out.len = out0.len ∧ ∀ j, j < out.len →
        fp6Mask out0.tag (atSeg 0 out.runs j) = fp6Mask dt (atSeg 0 out0.runs j)) ∧
      (out0.tag ≠ 0 → dt ≠ 0 →
        let n := elN out0.tag
        let cnt := min (out0.len * n) (1024 * elN dt)
        let el (i : Nat) := convEl out0.tag dt { rm := m, sat := p.sat } (sub out0.tag (atSeg 0 out0.runs (i / n)) (i % n))
        out.len = (cnt + elN dt - 1) / elN dt ∧ out.fs = (List.range cnt).foldl (fun acc i => acc.add (el i).2) {} ∧
        ∀ j x, j < out.len → x < elN dt → sub dt (atSeg 0 out.runs j) x =
          if elN dt * j + x < cnt then (el (elN dt * j + x)).1 else 0))

/-- R325 and R326: VST, VST_ROT, VSTZ and VSTM, when every row of their plan may be written: the rows take their new images
in order, the source counts as read and its conversion flags are raised; every byte of memory outside the plan's rows reads
as before but for the buffered stores to them that the queue store performs first. An empty register stores nothing. A tile
form's Q is within the bank's quarters. -/
def Obligations.StoresComplete : Prop :=
  ∀ (s : State) (i : Instr) (form : MForm) (f : MF) (c : MCtl) (m : BitVec 3),
    storeForm i = some (form, f) →
    let w := fwdMF i f .s s.b
    let g := entered w s
    let x := g.b.look (g.b.reader .s (entryOf w s)) f.d.toNat
    let o : RMode := { rm := m, sat := (pfxOf s.b.pfx).sat }
    let base := rowBase (s.b.op32 f.a) f.off
    Ready w s → mctl form false (s.b.op32 f.b) = some c → roundNoSr (pfxOf s.b.pfx) f.rm s.b.drm = some m →
    (∀ k, x.st ≠ .dropped k) → (baseFmt true base g).any (quarterBad form c) = false →
    (x.len = 0 → Issues i w s g) ∧
    (∀ core row, x.len ≠ 0 → meshCheck g g.b true base = .ok (core, row) →
      let bf := g.bfmtAt core row
      let fmt := bfFmt bf
      let ws := storeWords x fmt o
      let els := if x.tag.toNat = fmt ∨ x.tag.toNat = 0 ∨ fmt = 0 then x.len * elN fmt else x.len * elN x.tag.toNat
      let plan := storePlan form c fmt (bfZ bf) base els ws.1
      let begun := g.modB fun b => { b.setHead .s fun h => { h with src := some x } with stPend := [] }
      ∀ g1, rowsWrite s.b.ko fmt plan 1 0 begun = (g1, none) →
        Issues i w s (g1.modB fun b => (touch f.d.toNat b).raise ws.2) ∧
        (s.b.sbuf = [] → ∀ a, (∀ p ∈ plan, ∀ k r, meshCheck g g.b true p.addr = .ok (k, r) →
            a < k * 0x80000 + r * 256 ∨ k * 0x80000 + r * 256 + 256 ≤ a) → g1.mesh.get a = s.mesh.get a))

/-! ## The matrix array (spec/14) -/

/-- R328: an enrolled burner's MLEASE changes nothing; one that finds the lease free, with nobody waiting, is granted it and
enrols. MFREE of a holder gives the lease up; either MFREE counts 16 matrix slots (R211, log 18). R328, the array's own
acts: a free lease goes to the waiting requester next in turn after the last holder, in ascending order of core and burner,
with a new count; a lease whose 64 commands are used up passes on when another waits, which counts 16 matrix slots of its
holder (R211), and else counts again. -/
def Obligations.ArrayLease : Prop :=
  (∀ (s : State) (f : XF),
    let w (i : Instr) : Fwd := fwdXF i f s.b
    let quad := s.b.core / 4
    let me := (s.b.core, s.b.bur)
    (Ready (w (.mlease f)) s →
      (s.b.enrolled = true → Issues (.mlease f) (w (.mlease f)) s (entered (w (.mlease f)) s)) ∧
      (s.b.enrolled = false → (s.lease quad).holder = none → (s.lease quad).reqs = [] →
        ∃ l : Lease, l.quad = (s.lease quad).quad ∧ l.holder = some me ∧ l.last = some me ∧ l.cmds = 0 ∧ l.reqs = [] ∧
          Issues (.mlease f) (w (.mlease f)) s
            (((((entered (w (.mlease f)) s).setLease { s.lease quad with reqs := [me] }).setLease l)).modB fun b =>
              { b with enrolled := true }))) ∧
    (Ready (w (.mfree f)) s →
      ∃ t, exec (.mfree f) s = .next t ∧ t.b.slotM = s.b.slotM + 16 ∧ t.b.enrolled = false ∧ t.b.qx = [] ∧
        (s.b.enrolled = true → (s.lease quad).holder = some me → me ∉ (s.lease quad).reqs →
          (t.lease quad).holder ≠ some me ∧ me ∉ (t.lease quad).reqs))) ∧
  (∀ (s : State) (quad : Nat),
    let l := s.lease quad
    let key (p : Nat × Nat) : Nat := 2 * p.1 + p.2
    (l.holder = none → l.reqs ≠ [] → ∃ x ∈ l.reqs,
      exec (.leaseGrant quad) s = .next
        (s.setLease { l with holder := some x, last := some x, cmds := 0, reqs := l.reqs.filter (· != x) }) ∧
      (l.last = none → ∀ y ∈ l.reqs, key x ≤ key y) ∧
      (∀ h, l.last = some h →
        (key h < key x → ∀ y ∈ l.reqs, key h < key y → key x ≤ key y) ∧
        (key x ≤ key h → ∀ y ∈ l.reqs, key y ≤ key h ∧ key x ≤ key y))) ∧
    (l.holder ≠ none → exec (.leaseGrant quad) s = .next (s.setLease l)) ∧
    (∀ c r, l.holder = some (c, r) → 64 ≤ l.cmds →
      (l.reqs = [] → exec (.leasePass quad) s = .next (s.setLease { l with cmds := 0 })) ∧
      (l.reqs ≠ [] → ∃ x ∈ l.reqs, ∃ t, exec (.leasePass quad) s = .next t ∧ (t.lease quad).holder = some x ∧
        (t.lease quad).cmds = 0 ∧ (s.b.core = c → s.b.bur = r → t.b.slotM = s.b.slotM + 16))))

/-- The burner is enrolled and holds its quad's lease (R328). -/
def Leased (s : State) : Prop :=
  s.b.enrolled = true ∧ (s.lease (s.b.core / 4)).holder = some (s.b.core, s.b.bur)

/-- One matrix command counted (R328): a 64th one starts the count again where nobody waits, and else the lease passes to the
requester next in turn (`ArrayLease` says which), its loss counting 16 matrix slots (R211). -/
def counted (s g : State) : State :=
  let l := s.lease (s.b.core / 4)
  if l.cmds + 1 < 64 then g.setLease { l with cmds := l.cmds + 1 }
  else if l.reqs = [] then g.setLease { l with cmds := 0 }
  else (g.modAt s.b.core s.b.bur fun b => { b with slotM := b.slotM + 16 }).setLease
    (Lease.grant { l with holder := none, cmds := 0 })

/-- R327, R329 and R330: OTAKE binds a free name, whose contents are open; OGIVE unbinds a bound one; OFILL of rows that may
be read, from a bank whose format is not BPIk and without a prefix, fills the slot to be seen after 8 matrix slots, or at
once where a row is remote (R40): element (r, c) is read at P(r, c) in a Z-order bank and at 64r + c in a linear one, r and c
exchanged under TR. OTAKE of a bound name, and OGIVE of an unbound one, take MATRIX_SLOT. The model's choices: log 13. -/
def Obligations.OperandSlotsComplete : Prop :=
  ∀ (s : State) (f : XF),
    let w (i : Instr) : Fwd := fwdXF i f s.b
    let k := f.oa.toNat
    let slot := s.b.ops[k]'(f.oa.isLt)
    k < s.b.resOps →
    (Ready (w (.otake f)) s →
      (slot.bound = false → ∃ o : OSlot, o.bound = true ∧ Issues (.otake f) (w (.otake f)) s
        { entered (w (.otake f)) s with tick := s.tick + 1, b := (entered (w (.otake f)) s).b.setOslot k o }) ∧
      (slot.bound = true → exec (.otake f) s = .next (takeTrap
        { c := .matrixSlot, src := .x, iaddr := s.b.pc, cutPc := nextPc s (w (.otake f)).n, tseq := (entryOf (w (.otake f)) s).seq }
        ((entered (w (.otake f)) s).modB fun b => { b with qx := [{ entryOf (w (.otake f)) s with begun := true }] })))) ∧
    (Ready (w (.ogive f)) s → slot.bound = true →
      Issues (.ogive f) (w (.ogive f)) s ((entered (w (.ogive f)) s).modB fun b =>
        { b.setOslot k {} with opWin := b.opWin.filter (·.1 != k) })) ∧
    (∀ core row s1 imgs rem,
      let g := entered (w (.ofill f)) s
      let lay := (s.b.op32 f.b).toNat
      let base := rowBase (s.b.op32 f.a) 0
      let bf := g.bfmtAt core row
      let fmt := bfFmt bf
      let width := elW fmt
      let cols := if width = 32 then 32 else 64
      Ready (w (.ofill f)) s → Leased s → slot.bound = true → s.b.pfx = none → isBPI fmt = false →
      lay / 32 = 0 → lay / 2 % 8 = 0 → (lay / 16 % 2 = 1 → width = 32) → meshCheck g g.b false base = .ok (core, row) →
      rowsRead s.b.ko fmt none g [] false 0 ((List.range (2 * width)).map fun (i : Nat) => rowPlus base (i : Int)) =
        .ok (s1, imgs, rem) →
      ∃ o : OSlot, o.bound = true ∧ o.tag.toNat = fmt ∧
        (∀ r c, r < 64 → c < cols →
          let (y, x) := if lay % 2 = 1 then (c + 32 * (lay / 16), r) else (r, c + 32 * (lay / 16))
          let p := if bfZ bf then zpos y x else 64 * y + x
          (o.els.getD r []).getD c 0 =
            sub fmt ((imgs.getD (p * width / 2048) []).getD (p * width % 2048 / 32) 0) (p % (32 / width))) ∧
        Issues (.ofill f) (w (.ofill f)) s (counted s (s1.modB fun b =>
          { b.setOslot k o with
            opWin := if rem then b.opWin.filter (·.1 != k) else b.opWin ++ [(k, b.slotM + 8, b.oslot k)] })))

/-- R331 and R332: MMA and MMAZ on two bound slots whose tags pair, the accumulator being of the pairing's kind (MMAZ sets it to
+0 of that kind): every element (m, n) of the tile takes the chunks of row m of A and row n of B in ascending k, FLAGS and
SATCNT gain each element's flags once, and ARD sees the tile after 16 matrix slots. -/
def Obligations.MmaComplete : Prop :=
  ∀ (s : State) (f : XF) (q : Nat) (int zero : Bool),
    let i : Instr := if zero then .mmaz f else .mma f
    let w := fwdXF i f s.b
    let g := entered w s
    let a := g.b.oslotAt f.oa.toNat
    let b := g.b.oslotAt f.ob.toNat
    let t := s.b.acc[f.acc.toNat]'(f.acc.isLt)
    Ready w s → Leased s → f.oa.toNat < s.b.resOps → f.ob.toNat < s.b.resOps → f.acc.toNat < s.b.resAcc →
    (s.b.ops[f.oa.toNat]'(f.oa.isLt)).bound = true → (s.b.ops[f.ob.toNat]'(f.ob.isLt)).bound = true →
    mmaPair a.tag.toNat b.tag.toNat = some (q, int) → (zero = false → t.int = int) →
    let rs := mmaTile q int { rm := 0, sat := (pfxOf s.b.pfx).sat } a b fun k => if zero then 0 else (t.word k).toNat
    Issues i w s (counted s (g.modB fun x =>
      (x.writeTile f.acc.toNat 16 { int := int, ws := rs.map fun r => BitVec.ofNat 32 r.1 }).raise
        (rs.foldl (fun acc r => acc.add r.2) {})))

/-- R331, integer pairings that wrap: whatever the chunk depth, element (m, n) is acc(m, n) plus the sum over k of A(m, k) ×
B(n, k), modulo 2^32, and no flag is raised. -/
def Obligations.IntegerMmaIsDotProduct : Prop :=
  ∀ (q : Nat) (o : RMode) (a b : OSlot) (acc : Nat → Nat) (m n : Nat) (ra rb : List Nat),
    0 < q → o.sat ≠ 1 → b.els.length = 64 → a.els[m]? = some ra → b.els[n]? = some rb →
    ∃ r, (mmaTile q true o a b acc)[64 * m + n]? = some r ∧
      BitVec.ofNat 32 r.1 = BitVec.ofInt 32 ((acc (64 * m + n) : Int) +
        ((ra.zip rb).map fun p => intEl a.tag.toNat p.1 * intEl b.tag.toNat p.2).sum) ∧
      r.2.fl = 0 ∧ r.2.sat = false

/-- R333: ARD writes a quarter of the tile, as it is visible at the ARD's slot, to v(d) in canonical runs under the tile's kind;
AWR writes a quarter from a register of the tile's kind or RAW32, lanes beyond its length as 0; AZERO zeroes the tile and
sets its kind. AWR and AZERO are seen by ARD after 4 matrix slots. -/
def Obligations.AccumulatorAccessCompletes : Prop :=
  ∀ (s : State) (f : XF),
    let w (i : Instr) : Fwd := fwdXF i f s.b
    let n := f.acc.toNat
    let d := f.d.toNat
    let q := (s.b.op32 f.b).toNat
    Leased s → n < s.b.resAcc → AllPlain s.b →
    (Ready (w (.ard f)) s → q ≤ 3 →
      let t := s.b.tileAt n
      ∃ x : VReg, x.len = 1024 ∧ x.tag = (if t.int then 9 else 1) ∧ x.st = .plain ∧
        (∀ j, j < 1024 → atSeg 0 x.runs j = t.ws.getD (1024 * q + j) 0) ∧
        (∀ j, j + 1 < x.runs.length → (x.runs.getD j (0, 0)).1 ≠ (x.runs.getD (j + 1) (0, 0)).1) ∧
        (s.b.runUsed + x.runs.length ≤ s.b.runq →
          Issues (.ard f) (w (.ard f)) s (counted s ((entered (w (.ard f)) s).modB (putV .x d 4 x))))) ∧
    (Ready (w (.awr f)) s → q ≤ 3 →
      let b0 := (entered (w (.awr f)) s).b
      let x := b0.look (b0.reader .x (entryOf (w (.awr f)) s)) d
      let t := s.b.acc[n]'(f.acc.isLt)
      (x.tag = 0 ∨ x.tag = if t.int then 9 else 1) → lenSeg x.runs = x.len →
      ∃ ws : List Word,
        (∀ j, j < 4096 → ws.getD j 0 = if j / 1024 = q then (if j % 1024 < x.len then atSeg 0 x.runs (j % 1024) else 0)
          else t.ws.getD j 0) ∧
        Issues (.awr f) (w (.awr f)) s (counted s ((entered (w (.awr f)) s).modB fun b =>
          (touch d b).writeTile n 4 { t with ws := ws }))) ∧
    (Ready (w (.azero f)) s →
      Issues (.azero f) (w (.azero f)) s (counted s ((entered (w (.azero f)) s).modB fun b =>
        b.writeTile n 4 { int := decide (q = 9), ws := [] })))

/-! ## Engines (spec/14, spec/04) -/

/-- R336 and R341: ESEND of a command that the rules of R342 accept, read from a row that may be read, with fewer commands
outstanding than the declared count: the command enters the unit's FIFO last with the unit's next sequence number, RND 110
replaced by the mode in force, s(d) takes that number, and the buffered stores are performed first. A collective takes the
next place in its member's count of the group (R346). A command the rules refuse takes ENG_COMMAND and pushes nothing. The
model's choices: log 37. -/
def Obligations.EsendPushes : Prop :=
  ∀ (s s1 : State) (f : EF) (r : RowImg),
    let w := fwdEF (.esend f) f false false false [f.d] false s.b
    let u := f.unit.toNat
    let half := (r.ws.drop (32 * (f.imm8.toNat % 2))).take 32
    let raw : Cmd := BitVec.ofNat 1024 (natOfBytes (half.flatMap wordBytes))
    let c := resolveRnd raw s.b.drm
    let g := s1.b.unit u
    Ready w s → u < 4 → rowRead false (entered w s) s.b.ko (s.b.op32 f.a &&& ~~~255#32).toNat = .ok (s1, r) →
    let k := s1.group (cGrp c)
    let push (p : EPush) : State := s1.drain.modB fun b =>
      (b.setUnit u { g with fifo := g.fifo ++ [p], next := g.next + 1 }).setS f.d g.next
    (cmdOk u raw s1 = true → g.ovf = 0 → g.fifo.length + g.out.length < g.limit →
      (isColl c = false → Issues (.esend f) w s (push { item := .cmd c, seq := g.next })) ∧
      (∀ m, isColl c = true → k.member s.b.core s.b.bur = some m →
        Issues (.esend f) w s ((push { item := .cmd c, seq := g.next, era := k.era, cn := m.pushed }).setGroup
          (k.modMem s.b.core s.b.bur fun x => { x with pushed := x.pushed + 1 })))) ∧
    (cmdOk u raw s1 = false →
      exec (.esend f) s = .next (takeTrap
        { c := .engCommand, src := .s, iaddr := s.b.pc, cutPc := nextPc s w.n, tseq := (entryOf w s).seq }
        (s1.modB fun b => { b with qs := [{ entryOf w s with begun := true }] })))

/-- R338 and R339: ERECV pops the oldest completion element into s(d) to s(d + 3), takes ENG_EMPTY with nothing outstanding,
and waits at the head of its queue while a command is outstanding; ESTAT with n = 0 and n = 1 returns status and progress and
changes nothing else; with n = 2 it returns the status word from before the drop; a faulted head command leaves the unit with
the status DROPPED and sets no event bit (R265), and where the head command has not faulted nothing is dropped. The drop of an
arrival-mode ALLRED is also a log event (R394), which record and replay leave alone while off. -/
def Obligations.EngineReadsComplete : Prop :=
  ∀ (s : State) (f : EF),
    let u := f.unit.toNat
    let g := s.b.unit u
    let we := fwdEF (.erecv f) f false false false (quad f.d) true s.b
    u < 4 →
    (Ready we s →
      (∀ x xs, g.out = x :: xs →
        Issues (.erecv f) we s ((entered we s).modB fun b =>
          ((((b.setUnit u { g with out := xs }).setS f.d (x.extractLsb' 0 32)).setS (f.d + 1) (x.extractLsb' 32 32)).setS (f.d + 2)
            (x.extractLsb' 64 32)).setS (f.d + 3) (x.extractLsb' 96 32))) ∧
      (g.out = [] → g.fifo = [] →
        exec (.erecv f) s = .next (takeTrap
          { c := .engEmpty, src := .s, iaddr := s.b.pc, cutPc := nextPc s we.n, tseq := (entryOf we s).seq }
          ((entered we s).modB fun b => { b with qs := [{ entryOf we s with begun := true }] }))) ∧
      (g.out = [] → g.fifo ≠ [] → exec (.erecv f) s = .next (entered we s))) ∧
    (let w := fwdEF (.estatStatus f) f false false false [f.d] false s.b
     Ready w s → Issues (.estatStatus f) w s ((entered w s).modB fun b => b.setS f.d (s.b.engStatus u))) ∧
    (let w := fwdEF (.estatProgress f) f false false false [f.d] false s.b
     Ready w s → Issues (.estatProgress f) w s ((entered w s).modB fun b =>
       b.setS f.d (if g.flt.isSome then BitVec.ofNat 32 g.prog else 0))) ∧
    (let w := fwdEF (.estatDrop f) f false false false [f.d] false s.b
     Ready w s →
       (g.flt = none → Issues (.estatDrop f) w s ((entered w s).modB fun b => b.setS f.d (s.b.engStatus u))) ∧
       (∀ p rest c, g.flt ≠ none → g.fifo = p :: rest → p.item = .cmd c → (arrivalCmd c = false ∨ s.b.rpMode = 0) →
         ∃ (h : State) (x : BitVec 128), Issues (.estatDrop f) w s (h.modB fun b => b.setS f.d (s.b.engStatus u)) ∧ (h.b.unit u).fifo = rest ∧
           (h.b.unit u).out = g.out ++ [x] ∧ x.extractLsb' 8 8 = 0x09#8 ∧ h.b.ev = s.b.ev ∧ h.mesh = s.mesh ∧ h.phys = s.phys))

/-- R103 to R106, R166, R340: BXFORM performs its request in the bank at one point, after the burner's earlier buffered
stores down to the last to a row it reads or writes; a request that R104 refuses takes its cause. EXPAND, ZTRANS, TOZ and
TOLIN are the four acts by which the bank's unit performs a request of their operation. R103 and R107, the re-lays: in a bank
of the burner's own that it may write, TOZ of a tile and then TOLIN of the result give back every byte of the tile, in an FP6
bank with bits 7:6 cleared (R66; elements of 8 bits or more), and neither changes a byte of the mesh outside the destination
rows. -/
def Obligations.TransformsAndRelays : Prop :=
  ((∀ (s : State) (f : EF),
    let w := fwdEF (.bxform f) f true false false [] false s.b
    let g := (entered w s).drainTo s.b.ko (xfTouches (s.b.op64 f.a) s.b.core)
    Ready w s →
    (∀ t, transform (s.b.op64 f.a) s.b.core g = .ok t → Issues (.bxform f) w s t) ∧
    (∀ c a, transform (s.b.op64 f.a) s.b.core g = .error (c, a) →
      exec (.bxform f) s = .next (takeTrap
        { c := c, src := .s, addr := if isAddrCause c then BitVec.ofNat 64 a else 0, iaddr := s.b.pc, cutPc := nextPc s w.n
          tseq := (entryOf w s).seq }
        (g.modB fun b => { b with qs := [{ entryOf w s with begun := true }] })))) ∧
  (∀ (s s1 : State) (r : DWord), transform r s.b.core s = .ok s1 →
    (r.toNat / 2 ^ 60 = 0 → exec (.expand r) s = .next s1) ∧ (r.toNat / 2 ^ 60 = 1 → exec (.ztrans r) s = .next s1) ∧
    (r.toNat / 2 ^ 60 = 2 → exec (.toz r) s = .next s1) ∧ (r.toNat / 2 ^ 60 = 3 → exec (.tolin r) s = .next s1))) ∧
  (∀ (s s1 s2 : State) (ew row : Nat), s.mesh.wf = true → ew < 4 → row < 1536 →
    let rows := 2 * (4 * 2 ^ ew)
    let lo := s.b.core * 0x80000 + row * 256
    let six := isFP6 (bfFmt (s.bfmtAt s.b.core row))
    let req (op : Nat) : DWord := BitVec.ofNat 64 (op * 2 ^ 60 + ew * 2 ^ 58 + row * 2 ^ 11 + row)
    transform (req 2) s.b.core s = .ok s1 → transform (req 3) s.b.core s1 = .ok s2 →
    (six = false ∨ ew ≠ 0 → ∀ a, s2.mesh.get a =
      if six = true ∧ lo ≤ a ∧ a < lo + 256 * rows then s.mesh.get a &&& 0x3F else s.mesh.get a) ∧
    (∀ a, a < lo ∨ lo + 256 * rows ≤ a → s1.mesh.get a = s.mesh.get a))

/-- R182, R344 and R345: the end of a command. Its element is posted last in the unit's completion FIFO, the command leaves
the unit, the CSUM is kept for a chained command, the unit's progress, flags and fault are clear, the signal bits are set in
the event register, and an ENG record is written when enabled (`g`; R390); the other units and all memory stay. The element
holds UNIT, OP, STATUS, TAG, RES, NF, FLG, SATN and CSUM in their places. -/
def Obligations.CompletionElements : Prop :=
  (∀ (s : State) (u : Nat) (e : BitVec 128) (sigm : DWord), u < 4 →
    let g := s.traceEv 3 4 0 (BitVec.ofNat 32 u) (s.b.engSeq u) ((e.extractLsb' 8 8).setWidth 32)
    ∃ t, exec (.engineCompletion u e sigm) s = .next t ∧
      (t.b.unit u).fifo = (s.b.unit u).fifo.drop 1 ∧ (t.b.unit u).out = (s.b.unit u).out ++ [e] ∧
      (t.b.unit u).last = e.extractLsb' 96 32 ∧ (t.b.unit u).prog = 0 ∧ (t.b.unit u).flt = none ∧
      (t.b.unit u).next = (s.b.unit u).next ∧ t.b.ev = s.b.ev ||| sigm ∧
      (∀ v, v < 4 → v ≠ u → t.b.unit v = s.b.unit v) ∧
      t = { g with b := { g.b with eng := t.b.eng, ev := t.b.ev } }) ∧
  (∀ (k : Comp) (u opc : Nat) (seq : Word), u < 16 →
    let e := k.element u opc seq
    (e.extractLsb' 0 4).toNat = u ∧ (e.extractLsb' 4 4).toNat = opc % 16 ∧ e.extractLsb' 8 8 = k.status ∧
      e.extractLsb' 16 16 = seq.extractLsb' 0 16 ∧ e.extractLsb' 32 21 = 0 ∧ e.extractLsb' 53 3 = k.res ∧
      e.getLsbD 56 = k.nf ∧ e.extractLsb' 57 7 = k.fl ∧ (e.extractLsb' 64 32).toNat = min k.satn 0xFFFFFFFF ∧
      e.extractLsb' 96 32 = k.csum)

/-- R343 and R344, COPY and FILL of one inner row of n 32-bit elements between scratchpad addresses that may be read and
written (for COPY of one format, unscaled), XFORM of a request that is performed: the destination's words are the source's as
the command found them (R181), or the fill word, no other byte of memory changes, and the command ends with SUM32 over the
words written, for XFORM those of its destination rows. The model's choices: log 34, 35. -/
def Obligations.CopyEngineCompletes : Prop :=
  ∀ (s : State) (c : Cmd) (n : Nat),
    let g := s.modB (beginCmd 0 c)
    let dst := cDst c
    AtHead 0 c s → s.mesh.wf = true →
    (PlainRow c n → cDfmt c ∈ [0, 1, 9] → dst % 4 = 0 → Allowed s true dst (4 * n) →
      (∃ m t, exec (.fill c) s = .next t ∧
        (∀ i, i < n → m.word (meshByte s (dst + 4 * i)) = BitVec.ofNat 32 (cAux c)) ∧
        (∀ a, (∀ i, i < 4 * n → a ≠ meshByte s (dst + i)) → Memory.get m a = s.mesh.get a) ∧
        Posts 0 c (sum32 (sumStart 0 c s) (List.replicate n (BitVec.ofNat 32 (cAux c)))) {} false 0 { g with mesh := m } t) ∧
      (cSfmt c = cDfmt c → cSrc c % 4 = 0 → copyModes c s = (0, 0) → Allowed s false (cSrc c) (4 * n) →
        (∀ i, i < n → (cSfmt c = 0 ∨ bfSm (bankFmt (cSrc c + 4 * i) s) = 0) ∧ bfSm (bankFmt (dst + 4 * i) s) = 0) →
        ∃ m t, exec (.copy c) s = .next t ∧
          (∀ i, i < n → m.word (meshByte s (dst + 4 * i)) = meshWord s (cSrc c + 4 * i)) ∧
          (∀ a, (∀ i, i < 4 * n → a ≠ meshByte s (dst + i)) → Memory.get m a = s.mesh.get a) ∧
          Posts 0 c (sum32 (sumStart 0 c s) ((List.range n).map fun i => meshWord s (cSrc c + 4 * i))) {} false 0
            { g with mesh := m } t)) ∧
    (∀ core row s1, meshResolve s.b.core dst = .ok (core, row) → transform (BitVec.ofNat 64 (cAux c)) core g = .ok s1 →
      let rows := if cAux c / 2 ^ 60 % 16 = 0 then 16 else 8 * 2 ^ (cAux c / 2 ^ 58 % 4)
      ∃ t, exec (.xform c) s = .next t ∧ Posts 0 c
        (sum32 (sumStart 0 c s)
          ((List.range (64 * rows)).map fun i => s1.mesh.word (core * 0x80000 + (cAux c % 2 ^ 11) * 256 + 4 * i)))
        {} false 0 s1 t)

/-- R109 and R343, COPYQ of one 1 × 32 block of FP32 elements of the scratchpad into a bank of an 8-bit format with scale
mode 1, its scales in an E8M0 bank: the 32 codes and the scale code are those of the block quantised (R90 to R92), no other
byte changes, and the command ends with the flags of the quantisation and SUM32 over the eight element words and the word of
the scale. The model's choices: log 35. -/
def Obligations.CopyqQuantisesBlock : Prop :=
  ∀ (s : State) (c : Cmd),
    let g := s.modB (beginCmd 0 c)
    let dst := cDst c
    let side := cAux c
    AtHead 0 c s → s.mesh.wf = true → PlainRow c 32 → cSfmt c = 1 → cDfmt c ∈ [4, 5, 6, 7] →
    dst % 4 = 0 → cSrc c % 4 = 0 → Allowed s true dst 32 → Allowed s false (cSrc c) 128 → Allowed s true side 1 →
    (∀ i, i < 32 → bfSm (bankFmt (dst + i) s) = 1 ∧ bfSm (bankFmt (cSrc c + 4 * i) s) = 0) → bfFmt (bankFmt side s) = 0x0E →
    (∀ j, j < 32 → meshByte s (dst + j) ≠ meshByte s side) →
    let vs := (List.range 32).map fun i => fp32 (meshWord s (cSrc c + 4 * i))
    let q := quantBlock (cDfmt c) (cmdMode c [] 0) (fun i => (cmdMode c (cmdWords c 32) i).r) vs
    ∃ m t, exec (.copyq c) s = .next t ∧
      (∀ i, i < 32 → m.get (meshByte s (dst + i)) = BitVec.ofNat 8 (q.2.1.getD i 0)) ∧
      m.get (meshByte s side) = BitVec.ofNat 8 q.1 ∧
      (∀ a, (∀ i, i < 32 → a ≠ meshByte s (dst + i)) → a ≠ meshByte s side → Memory.get m a = s.mesh.get a) ∧
      Posts 0 c (sum32 (sumStart 0 c s) ((List.range 8).map (fun i => m.word (meshByte s (dst + 4 * i))) ++
          [m.word (meshByte s (side / 4 * 4))])) q.2.2 false 0
        { g with mesh := m } t

/-- R343, GATHER and SCATTER of n 32-bit elements of one format between scratchpad addresses, every index within the table:
element i of DST is element idx(i) of SRC; element idx(i) of DST is element i of SRC, the last write of a repeated index
standing; source and indices count as the command found them (R181). No other byte changes, and the command ends. The model's
choices: log 34, 35. -/
def Obligations.GatherEngineCompletes : Prop :=
  ∀ (s : State) (c : Cmd) (n : Nat),
    let g := s.modB (beginCmd 1 c)
    let src := cSrc c
    let dst := cDst c
    let idx (i : Nat) : Nat := (meshWord s (cAux c + 4 * i)).toNat
    AtHead 1 c s → s.mesh.wf = true → cDim c 0 = n → cRmt c = false → cSfmt c = cDfmt c → cDfmt c ∈ [0, 1, 9] →
    src % 4 = 0 → dst % 4 = 0 → cAux c % 4 = 0 → Allowed s false (cAux c) (4 * n) →
    (∀ i, i < n → idx i < cDim c 1 ∧ idx i < 2 ^ 31) →
    ((∀ i, i < n → Allowed s false (src + 4 * idx i) 4) → Allowed s true dst (4 * n) →
      ∃ m t, exec (.gather c) s = .next t ∧
        (∀ i, i < n → m.word (meshByte s (dst + 4 * i)) = meshWord s (src + 4 * idx i)) ∧
        (∀ a, (∀ i, i < 4 * n → a ≠ meshByte s (dst + i)) → Memory.get m a = s.mesh.get a) ∧
        Posts 1 c (sum32 (sumStart 1 c s) ((List.range n).map fun i => meshWord s (src + 4 * idx i))) {} false 0
          { g with mesh := m } t) ∧
    (Allowed s false src (4 * n) → (∀ i, i < n → Allowed s true (dst + 4 * idx i) 4) →
      ∃ m t sum, exec (.scatter c) s = .next t ∧
        (∀ i, i < n → (∀ j, i < j → j < n → idx j ≠ idx i) →
          m.word (meshByte s (dst + 4 * idx i)) = meshWord s (src + 4 * i)) ∧
        (∀ a, (∀ i k, i < n → k < 4 → a ≠ meshByte s (dst + 4 * idx i + k)) → Memory.get m a = s.mesh.get a) ∧
        Posts 1 c sum {} false 0 { g with mesh := m } t)

/-- R343, R346 to R348 and R408. A member's collective command, whose place in its count the push gave it, first contributes its
source elements to the pairing of that place, while a route leads to every member in another package and no link that went
down took that pairing; one engine forms the root of a complete pairing, whose elements are for BCAST
those of the rank in AUX, for ALLGATH the contributions in ascending rank and for a REDSCAT of two members the FP32 sums of
R307, or COLL_MISMATCH where the commands disagree. In arrival mode ARRIVAL_COMBINE adds a partial to its die's running sum,
and a die's sum to the package's, each the first of its sum or an FP32 addition element by element. Each member's command
then writes its part of the root to its own destination and ends, no other byte of memory changing. The model's choices: log
64, 65, 66. -/
def Obligations.CollectivesContributeFormAndLand : Prop :=
  (∀ (s : State) (x : EAcc) (c : Cmd) (i : Instr) (m : GMem) (h : EPush) (vs : List Nat),
    i ∈ [Instr.allred c, .bcast c, .redscat c, .allgath c] →
    let g := s.modB (beginCmd 2 c)
    let id := cGrp c
    AtHeadAs 2 h c s → myPairing c g = none → (s.group id).member s.b.core s.b.bur = some m → m.cx = false →
    h.era = (s.group id).era → (s.group id).lost = none → (s.group id).cut.contains (h.era, h.cn) = false →
    (∀ x ∈ (s.group id).counted h.era, x.1 < 2 ^ 64 ∨ (s.routeTo (farPkg x.1)).isSome = true) →
    readEls (srcEl c) (List.range (srcVecs c m.rank * cDim c 0)) (accOf 2 g) = (x, vs, none) →
    ∃ t p, exec i s = .next t ∧ p ∈ (t.group id).pairs ∧ p.era = h.era ∧ p.n = h.cn ∧ p.formed = false ∧
      { rank := m.rank, core := s.b.core, bur := s.b.bur, seq := h.seq, cmd := c, data := chunks (cDim c 0) vs } ∈ p.cs ∧
      t = { x.s with groups := t.groups }) ∧
  (∀ (s : State) (id : Nat) (p : Pairing), (s.group id).pairs = [p] →
    ((s.group id).ready p s = true → replayer p s = none →
      exec (.collectiveRoot id) s = .next (setPairing id p p.form s)) ∧
    (∀ rank k, Pairing.arrives (s.group id) p rank s = true → p.cs.find? (·.rank == rank) = some k →
      (p.dies.find? (·.ranks.contains rank) = none →
        exec (.arrivalCombine id rank) s = .next (setPairing id p (p.atDie k) s) ∧ (p.atDie k).order = p.order ∧
        ((p.dies.find? fun d => d.die == k.die) = none →
          ∃ d, (p.atDie k).dies = p.dies ++ [d] ∧ d.die = k.die ∧ d.ranks = [rank] ∧ d.els = k.data.headD [])) ∧
      (∀ d, p.dies.find? (·.ranks.contains rank) = some d →
        exec (.arrivalCombine id rank) s = .next (setPairing id p (p.atPackage k.cmd d) s) ∧
        (p.atPackage k.cmd d).order = p.order ++ d.ranks ∧ (p.order = [] → (p.atPackage k.cmd d).acc = d.els) ∧
        (∀ j, p.order ≠ [] → cSfmt k.cmd = 1 → cRop k.cmd = 3 → cRnd k.cmd = 0 → j < p.acc.length → j < d.els.length →
          (p.atPackage k.cmd d).acc.getD j 0 = (ffFP32.deliver { rm := 0, sat := BitVec.ofNat 2 (cSat k.cmd) }
            (addFV false (fp32 (BitVec.ofNat 32 (p.acc.getD j 0))) (fp32 (BitVec.ofNat 32 (d.els.getD j 0)))).1).1)))) ∧
  (∀ (p : Pairing) (k : Contrib) (ks : List Contrib), p.cs = k :: ks →
    let c := k.cmd
    p.form.formed = true ∧ p.form.cs = p.cs ∧
    (mismatched p.cs = true → p.form.status = 0x0B) ∧
    (mismatched p.cs = false → p.form.status = p.status ∧
      (cmdOpc c ∈ [8, 9, 10] → p.form.order.Perm (p.cs.map (·.rank)) ∧ p.form.order.Pairwise (· ≤ ·)) ∧
      (∀ x, cmdOpc c = 8 → (∀ y ∈ p.cs, y.data = if y.rank = cAux c then [x] else []) → p.form.acc = x) ∧
      (∀ f : Nat → List Nat, cmdOpc c = 10 → (∀ y ∈ p.cs, y.data = [f y.rank]) → p.form.acc = p.form.order.flatMap f) ∧
      (∀ k' x y j, ks = [k'] → cmdOpc c = 9 → k.rank < k'.rank → k'.rank < 2 ^ 33 → cSfmt c = 1 → cDfmt c = 1 → cRop c = 3 →
        cRnd c = 0 → k.data = [x] → k'.data = [y] → x.length = y.length → j < x.length →
        p.form.acc.getD j 0 = (ffFP32.deliver { rm := 0, sat := BitVec.ofNat 2 (cSat c) }
          (addFV false (fp32 (BitVec.ofNat 32 (x.getD j 0))) (fp32 (BitVec.ofNat 32 (y.getD j 0)))).1).1))) ∧
  (∀ (s : State) (c : Cmd) (p : Pairing) (k : Contrib) (i : Instr) (h : EPush) (rest : List EPush),
    let n := cDim c 0
    let dst := cDst c
    let per := n / p.order.length
    let len := if cmdOpc c = 9 then min per (n - k.rank * per) else if cmdOpc c = 10 then n * p.order.length else n
    let word (e : Nat) : Word := BitVec.ofNat 32 (p.acc.getD (if cmdOpc c = 9 then k.rank * per + e else e) 0)
    let g := s.b.unit 2
    (i = .allred c ∧ cmdOpc c = 7 ∧ cTm c = true) ∨ (i = .bcast c ∧ cmdOpc c = 8) ∨ (i = .redscat c ∧ cmdOpc c = 9) ∨
      (i = .allgath c ∧ cmdOpc c = 10 ∧ p.order = List.range p.order.length) →
    g.fifo = h :: rest → h.item = .cmd c → h.started = true → g.tw = [] → g.pos = none → g.seen = [] → s.pace = 0 →
    myPairing c s = some p → p.formed = true → p.stalled s = false → p.status = 0 → p.cs.find? (·.mine s.b h.seq) = some k →
    cSfmt c = cDfmt c → cDfmt c ∈ [0, 1, 9] → dst % 4 = 0 → s.mesh.wf = true → Allowed s true dst (4 * len) →
    ∃ m t, exec i s = .next t ∧ (∀ e, e < len → m.word (meshByte s (dst + 4 * e)) = word e) ∧
      (∀ a, (∀ j, j < 4 * len → a ≠ meshByte s (dst + j)) → Memory.get m a = s.mesh.get a) ∧
      Posts 2 c (sum32 g.sum ((List.range len).map word)) ⟨p.fl, p.satn⟩ p.nf 0
        (setPairing (cGrp c) p { p with cs := p.cs.filter fun x => !x.mine s.b h.seq } { s with mesh := m }) t)

/-! ## Weights and the stockpot (spec/05) -/

/-- R111 to R117, R120 to R122, R128 to R130 and R134: the weight instructions issued while the weight port holds no request.
s(d) takes the result and the next tag advances. Resolution of a load (R115, R116): the stored step, a reconstructed one at
or above the floor, an extrapolated one, a wait, or a cause. WREG_UNREG unregisters at once, which ends every load of the
tensor that waits (R130), waits, and retires with 0 once the entry is freed. The model's choices: log 43, 45, 52, 54 (a
restore goes on from the slot's SEQ). -/
def Obligations.WeightInstructionsComplete : Prop :=
  (∀ (s : State) (f : EF), (s.b.unit 3).fifo = [] → s.b.rpMode = 0 →
    let ret (b : Burner) (x : Word) : Burner := { b.setS f.d x with wtag := b.wtag + 1 }
    let rec64 := (s.b.op64 f.a).toNat
    (let w := fwdEF (.wquery f) f false false false [f.d] false s.b
     ∀ t, Ready w s → tensorOf (s.b.op32 f.a) s = some t →
      Issues (.wquery f) w s ((entered w s).drain.modB fun b => ret b (queryWord t f.imm8.toNat (entered w s).drain))) ∧
    (let w := fwdEF (.wrelease f) f false true false [f.d] false s.b
     ∀ t, Ready w s → tensorOf (s.b.op32 f.a) s = some t →
      let t1 : Tensor := { t with frel := max t.frel (min (s.b.op64 f.b).toNat t.scur) }
      let g := (entered w s).drain
      Issues (.wrelease f) w s ((settleTensor t.tid (g.setTensor t1)).modB fun b =>
        ret b (BitVec.ofNat 32 (t.ring.filter fun d => decide (d.k ≤ t1.floor) && !t.needs g d).length))) ∧
    (let w := fwdEF (.wreg f) f true false false [f.d] false s.b
     ∀ s1 n die, Ready w s → readRecord rec64 (entered w s).drain = .ok (s1, n, die, none) → freeTids s1 die ≠ [] →
      ∃ (i : Nat) (t : Tensor), i ∈ freeTids s1 die ∧ t.tid = 4096 * die + i ∧ t.rec_ = rec64 ∧ t.rcd = BitVec.ofNat 1024 n ∧ t.region = s1.b.region ∧
        t.s0 = rS0 n ∧ t.scur = rS0 n ∧ t.frel = rS0 n ∧ t.p = rS0 n ∧ t.ring = [] ∧ t.ckSeq = 0 ∧
        Issues (.wreg f) w s ({ s1.draw.2 with tensors := s1.tensors ++ [t] }.modB fun b => ret b (BitVec.ofNat 32 t.tid))) ∧
    (let w := fwdEF (.wregRestore f) f true false false [f.d] false s.b
     ∀ s1 s2 n die k c, Ready w s → readRecord rec64 (entered w s).drain = .ok (s1, n, die, none) → rCkp n = true →
      freeTids s1 die ≠ [] → newestSlot s1.viaB n s1 = some (k, c) → restoreSlot n k c s1 = .ok s2 → freeTids s2 die ≠ [] →
      ∃ (i : Nat) (t : Tensor), i ∈ freeTids s2 die ∧ t.tid = 4096 * die + i ∧ t.rec_ = rec64 ∧ t.rcd = BitVec.ofNat 1024 n ∧ t.scur = c.step ∧
        t.frel = c.step ∧ t.p = c.step ∧ t.ring = [] ∧ t.ckSeq = c.seq ∧
        Issues (.wregRestore f) w s ({ s2.draw.2 with tensors := s2.tensors ++ [t] }.modB fun b =>
          ret b (BitVec.ofNat 32 t.tid))) ∧
    (let w := fwdEF (.wregUnreg f) f false false false [f.d] false s.b
     ∀ t, Ready w s → tensorOf (s.b.op32 f.a) s = some t →
      let g := (entered w s).drain
      ∃ u, exec (.wregUnreg f) s = .next (markWait (u.due (.tensorEntryFree (s.b.op32 f.a)))) ∧
        u = { g with tensors := (g.setTensor { t with unreg := true }).tensors, b := goneLoads t.tid g.b
                     others := g.others.map (goneLoads t.tid), saved := g.saved.map (goneLoads t.tid) }) ∧
    (∀ mode i, (mode, i) ∈ [(0, Instr.wloadPast f), (1, .wloadWait f), (2, .wloadExtrap f)] →
      let w := fwdEF i f true true false [f.d] false s.b
      let g := (entered w s).drain
      let row := (s.b.op64 f.a).toNat % 2 ^ 32
      let tid := BitVec.ofNat 32 ((s.b.op64 f.a).toNat / 2 ^ 32)
      let step := (s.b.op64 f.b).toNat
      let n := f.imm8.toNat + 1
      Ready w s →
      (∀ t r s1 s2 ws k, resolveLoad tid mode step row n false g = .ok (t, r) → r ≠ .wait →
        let l : WLd := { t.load r step false with logged := decide (mode = 1) }
        loadRows l row n (headLoad (some l) g) = .ok (s1, ws) → (s1.tensor t.tid).map (fun u => rFmt u.r) = some (rFmt t.r) →
        landRows (rFmt t.r) (s.b.op32 f.c).toNat (chunks 64 ws) 0 0 s1 = (s2, k, none) →
        Issues i w s ((settleTensor t.tid (headLoad none s2)).modB fun b => ret b (BitVec.ofNat 32 r.code))) ∧
      (∀ t, resolveLoad tid mode step row n false g = .ok (t, .wait) → exec i s = .next (markWait g)))) ∧
  (∀ (s : State) (f : EF) (t : Tensor), occupied (s.b.op32 f.a) s = some t → rRep t.r = false →
    (s.b.unit 3).fifo.length + (s.b.unit 3).out.length < (s.b.unit 3).limit →
    ((s.b.unit 3).fifo.filter fun p => !p.started).length < 8 →
    let push (b : Burner) (x : EItem) : Burner :=
      { (b.setUnit 3 { b.unit 3 with fifo := (b.unit 3).fifo ++ [{ item := x, seq := b.wtag }] }).setS f.d b.wtag with
        wtag := b.wtag + 1 }
    (let w := fwdEF (.wpub f) f false true false [f.d] false s.b
     Ready w s → Issues (.wpub f) w s ((entered w s).drain.modB fun b => push b (.publish (s.b.op32 f.a) (s.b.op64 f.b) f.imm8))) ∧
    (let w := fwdEF (.wcommit f) f false true true [f.d] false s.b
     let a := (s.b.op64 f.b).toNat
     let z := a + 256 * rWlen t.r - 1
     Ready w s → 0 < rWlen t.r → (z < 0x20000000 ∨ (0x40000000 ≤ a ∧ z < 2 ^ 57)) →
     Issues (.wcommit f) w s ((entered w s).drain.modB fun b =>
       push b (.commit (s.b.op32 f.a) (s.b.op64 f.b) (s.b.op64 f.c) f.imm8)))) ∧
  (∀ (s : State) (e : Entry) (es : List Entry) (f : EF), s.b.qs = e :: es → e.ins = .wregUnreg f → e.waited = true →
    e.skip = false → e.msk = false → headHeld .s e s.b = false → s.b.bypass = [] →
    (∀ t, s.tensor (lo32 e.va).toNat = some t → t.unreg = false) →
    issueHead .s s = .next (s.modB fun b => retireEntry .s e true { b.setS f.d 0 with wtag := b.wtag + 1 })) ∧
  (∀ (tid : Nat) (b : Burner), waitsOn tid (goneLoads tid b) = false ∧ (waitsOn tid b = false → goneLoads tid b = b)) ∧
  (∀ (s : State) (l : WLd) (t : Tensor) (row n : Nat), s.tensor l.tid = some t →
    (l.k = 0 → l.base = t.scur → loadRows l row n s = storedRows t row n s) ∧
    (∀ s1 s2 bs ws, l.k = 0 → rdVA s t.via s.b (rWbase t.r + 256 * row) (256 * n) = .ok (s1, bs) →
      loadRows l row n s = .ok (s2, ws) → l.base = t.scur ∨ ws = t.back l.base row (wordsOfBytes bs (64 * n)))) ∧
  (∀ (t : Tensor) (m step : Nat),
    (step = t.scur → t.resolve m step = .stored) ∧
    (step < t.scur → t.floor ≤ step → t.resolve m step = .recon) ∧
    (step < t.scur → step < t.floor → t.resolve m step = .bad .stepGone) ∧
    (t.scur < step → step ≤ t.scur + 8 → t.resolve 1 step = .wait) ∧
    (t.scur < step → step ≤ t.scur + 4 → rExm t.r = true → t.resolve 2 step = .extrap (step - t.scur)) ∧
    (t.scur < step → t.resolve 0 step = .bad .stepAhead) ∧ (t.scur + 8 < step → t.resolve m step = .bad .stepAhead))

/-- R118, R126, R135, R343 and R446: the weight port's commands. WLOADC writes the rows of its step, FP32 as they stand, and
reports the resolution; WDELTA copies the compressed delta of its step. A commit of S_cur + 1 by the burner's head request
makes that step current, retains its delta in the ring and completes with the rows it takes, words 11 to 13 of the record
having been read once; one of any other step completes STEP_ORDER. A publish of steps not yet published to replicas of this
package sends each of them every delta of those steps, in order, and waits for their acknowledgement; one already published
completes DONE. The model's choices: log 35, 55. -/
def Obligations.WeightPortCompletes : Prop :=
  (∀ (s s1 : State) (c : Cmd) (t : Tensor) (r : Resolved) (ws : List Word),
    let g := s.modB (beginCmd 3 c)
    let dst := cDst c
    AtHead 3 c s → (s.b.unit 3).waitFrom = false → (cWmd c ≠ 1 ∨ s.b.rpMode = 0) → cRmt c = false → cCmd c = false → cDfmt c = 1 → dst % 4 = 0 →
    resolveLoad (BitVec.ofNat 32 (cf c 224 32)) (cWmd c) (cStep c) (cf c 192 32) (cDim c 0) false g = .ok (t, r) → r ≠ .wait →
    let l : WLd := { t.load r (cStep c) false with logged := decide (cWmd c = 1) }
    loadRows l (cf c 192 32) (cDim c 0) (unitLoad (some l) g) = .ok (s1, ws) → (s1.tensor t.tid).map (fun u => rFmt u.r) = some 1 → rFmt t.r = 1 →
    s1.mesh.wf = true →
    Allowed s1 true dst (4 * ws.length) →
    ∃ m u, exec (.wloadc c) s = .next (settleTensor t.tid u) ∧ (∀ i, i < ws.length → m.word (meshByte s1 (dst + 4 * i)) = ws.getD i 0) ∧
      (∀ a, (∀ j, j < 4 * ws.length → a ≠ meshByte s1 (dst + j)) → Memory.get m a = s1.mesh.get a) ∧
      Posts 3 c (sum32 (sumStart 3 c s) ws) {} false (BitVec.ofNat 3 r.code) { s1 with mesh := m } u) ∧
  (∀ (s : State) (c : Cmd) (t : Tensor) (d : Delta),
    let g := unitLoad (some { tid := t.tid, base := d.k - 1 }) (s.modB (beginCmd 3 c))
    let dst := cDst c
    let img := deltaImage (rWlen t.r) d.ws
    let ws := wordsOfBytes img (img.length / 4)
    AtHead 3 c s → cRmt c = false → cCmd c = false → dst % 4 = 0 → tensorOf (BitVec.ofNat 32 (cf c 224 32)) s = some t →
    t.ring.find? (·.k == cStep c) = some d → s.mesh.wf = true → Allowed s true dst (4 * ws.length) →
    ∃ m u, exec (.wdelta c) s = .next (settleTensor t.tid u) ∧ (∀ i, i < ws.length → m.word (meshByte s (dst + 4 * i)) = ws.getD i 0) ∧
      (∀ a, (∀ j, j < 4 * ws.length → a ≠ meshByte s (dst + j)) → Memory.get m a = s.mesh.get a) ∧
      Posts 3 c (sum32 (sumStart 3 c s) ws) {} false 0 { g with mesh := m } u) ∧
  (∀ (s s1 : State) (tid : Word) (src step : DWord) (evf : Byte) (tag : Word) (t : Tensor) (n : Nat),
    let g := s.modB beginItem
    let id := tid.toNat
    s.tensor id = some t → (t.unreg = false ∨ headStarted s.b = true) → t.ckpt = none →
    reread t g = .ok (s1, n) → s1.tensor id = some t →
    (∀ s2 bs, (s.b.unit 3).reread = none → rdVA g t.via g.b (t.rec_ + 44) 12 = .ok (s2, bs) →
      n = natOfBytes bs ∧ (s1.b.unit 3).reread = some n) ∧
    (∀ m, (s.b.unit 3).reread = some m → n = m ∧ s1 = g) ∧
    (step.toNat ≠ t.scur + 1 → exec (.stockpotCommit tid src step evf tag) s =
      .next (finishWeight 2 step 0 tag wStepOrder evf s1)) ∧
    (∀ s2 s3 s4 s5 bs old row t2, step.toNat = t.scur + 1 →
      let t1 := t.free s1 (max (max (step.toNat - rD t.r) t.frel) t.s0)
      t1.place = some row → rdVA s1 s1.viaB s1.b src.toNat (256 * rWlen t.r) = .ok (s2, bs) →
      storedRows t 0 (rWlen t.r) s2 = .ok (s3, old) →
      let new := wordsOfBytes bs (64 * rWlen t.r)
      let xs := List.zipWith (· ^^^ ·) old new
      let img := deltaImage (rWlen t.r) xs
      let rows := (img.length + 255) / 256
      reclaim t1 row rows (s3.setTensor t1) = some s4 → rewrite t row xs img new s4 = .ok s5 → s4.tensor id = some t2 →
      rCkp t.r = false →
      ∃ t3 : Tensor, t3.tid = t2.tid ∧ t3.scur = t.scur + 1 ∧ t3.eta = BitVec.ofNat 32 n ∧
        t3.rcd.extractLsb' 352 96 = BitVec.ofNat 96 n ∧ t3.rcd.extractLsb' 0 352 = t.rcd.extractLsb' 0 352 ∧
        t3.ring = t2.ring ++ [{ k := step.toNat, row := row, rows := rows, ws := xs, sum := sum32 0 new }] ∧
        t3.frel = t2.frel ∧ t3.p = t2.p ∧
        exec (.stockpotCommit tid src step evf tag) s =
          .next (finishWeight 2 step rows tag wDone evf (settleTensor id ((s5.setTensor t3).wakeAll id))))) ∧
  (∀ (s : State) (tid : Word) (step : DWord) (evf : Byte) (tag : Word) (t : Tensor),
    s.tensor tid.toNat = some t → t.unreg = false → t.pubs = [] → headStarted s.b = false →
    (step.toNat ≤ t.p → exec (.stockpotPublish tid step evf tag) s =
      .next (finishWeight 3 step 0 tag wDone evf (s.modB beginItem))) ∧
    (∀ s2 bs, t.p < step.toNat → step.toNat ≤ t.scur → t.floor ≤ t.p →
      let g := (s.setTensor { t with pubs := [step.toNat] }).modB beginItem
      rdVA g t.via g.b (rRlist t.r) (8 * rNrep t.r) = .ok (s2, bs) → (∀ e ∈ chunks 8 bs, (replicaEntry e).1 = s.pkg) →
      let ds := t.ring.filter fun d => decide (t.p < d.k) && decide (d.k ≤ step.toNat)
      exec (.stockpotPublish tid step evf tag) s = .next { s2 with
        pending := s2.pending ++ (ds.flatMap fun d => (chunks 8 bs).map fun e =>
          Instr.deltaApply (BitVec.ofNat 32 (replicaEntry e).2.1) (BitVec.ofNat 32 (rRset t.r)) (BitVec.ofNat 64 d.k) d.sum d.ws) ++
          [.publishAck tid step evf tag (rNrep t.r) 0] })) ∧
  (∀ (s : State) (op : BitVec 4) (step : DWord) (val : Nat) (tag : Word) (status evf : Byte),
    s.b.trctl.getLsbD 3 = false → ∃ e : BitVec 128, e.extractLsb' 0 4 = 3 ∧ e.extractLsb' 4 4 = op ∧ e.extractLsb' 8 8 = status ∧
      e.extractLsb' 16 16 = tag.extractLsb' 0 16 ∧ e.extractLsb' 32 32 = BitVec.ofNat 32 val ∧ e.extractLsb' 64 64 = step ∧
      let t := finishWeight op step val tag status evf s
      (t.b.unit 3).out = (s.b.unit 3).out ++ [e] ∧ (t.b.unit 3).fifo = (s.b.unit 3).fifo.drop 1 ∧
        t = { s with b := { s.b with eng := t.b.eng, ev := t.b.ev } })

/-- R126, R128, R130, R132 and R133: what a stockpot does by itself. A replica in step applies a delta and becomes DIVERGED when
the sum disagrees, one out of step becomes DIVERGED, anything else ignores it; an acknowledged publish raises P and
completes the publishing request; deltas at or below the floor that nothing needs are freed; the entry of an idle
unregistered tensor is freed; a checkpoint ends with the record of R133. The model's choices: log 58, 60. -/
def Obligations.StockpotActs : Prop :=
  (∀ (s : State) (tid rset : Word) (step : DWord) (sum : Word) (ws : List Word) (t : Tensor),
    let id := tid.toNat
    s.tensor id = some t →
    (t.unreg = true ∨ rRep t.r = false ∨ BitVec.ofNat 32 (rRset t.r) ≠ rset ∨ t.diverged = true →
      exec (.deltaApply tid rset step sum ws) s = .next s) ∧
    (t.unreg = false → rRep t.r = true → BitVec.ofNat 32 (rRset t.r) = rset → t.diverged = false →
      (t.scur + 1 ≠ step.toNat →
        exec (.deltaApply tid rset step sum ws) s = .next (s.setTensor { t with diverged := true })) ∧
      (∀ t2 row s1 old s2 s3 t3, t.scur + 1 = step.toNat →
        let t1 := t.free s (max (max (step.toNat - rD t.r) t.frel) t.s0)
        makePlace s (t1.ring.length + 1) t1 = some (t2, row) → storedRows t 0 (rWlen t.r) s = .ok (s1, old) →
        ws.length = old.length →
        let new := List.zipWith (· ^^^ ·) old ws
        let img := deltaImage (rWlen t.r) ws
        let rows := (img.length + 255) / 256
        reclaim t2 row rows (s1.setTensor t2) = some s2 → rewrite t row ws img new s2 = .ok s3 → s3.tensor t.tid = some t3 →
        let t4 : Tensor := { t3 with
          scur := step.toNat, diverged := sum32 0 new != sum
          ring := t3.ring ++ [{ k := step.toNat, row := row, rows := rows, ws := ws, sum := sum32 0 new }] }
        let s4 := settleTensor t.tid ((s3.setTensor t4).wakeAll t.tid)
        exec (.deltaApply tid rset step sum ws) s = .next { s4 with pending := countApplied step s4.pending }))) ∧
  (∀ (s : State) (tid : Word) (step : DWord) (evf : Byte) (tag : Word) (sent applied : Nat) (t : Tensor) (rest : List EPush),
    s.tensor tid.toNat = some t →
    let g := settleTensor t.tid (s.setTensor { t with p := max t.p step.toNat, pubs := [] })
    (s.b.unit 3).fifo = { item := .publish tid step evf, seq := tag, started := true } :: rest →
    exec (.publishAck tid step evf tag sent applied) s =
      .next (finishWeight 3 step applied tag (if applied = sent then wDone else wPartial) evf g)) ∧
  (∀ (s : State) (tid : Word) (t : Tensor), s.tensor tid.toNat = some t →
    (∃ u, exec (.deltaFree tid) s = .next u ∧ u = { s with tensors := u.tensors, pantry := u.pantry } ∧
      ∃ x, u.tensor tid.toNat = some x ∧ x.ring = t.ring.filter (fun d => decide (t.floor < d.k) || t.needs s d) ∧
        x.scur = t.scur ∧ x.p = t.p ∧ x.frel = t.frel ∧ x.unreg = t.unreg) ∧
    (t.unreg = true → tensorIdle t s = true →
      ∃ u, exec (.tensorEntryFree tid) s = .next u ∧ u = { s with tensors := u.tensors, pantry := u.pantry } ∧
        u.tensor tid.toNat = none ∧ ∀ k, k ≠ tid.toNat → u.tensor k = s.tensor k) ∧
    (t.unreg = false ∨ tensorIdle t s = false → exec (.tensorEntryFree tid) s = .next s) ∧
    (∀ c s1 s2 s3 ws ds, t.ckpt = some c → c.step < 2 ^ 64 → t.ckSeq + 1 < 2 ^ 64 →
      let a := rSlot t.r c.slot
      let n := rWlen t.r
      storedRows t 0 n s = .ok (s1, ws) → wrVA s1 t.via s1.b (a + 256) ((t.back c.step 0 ws).flatMap wordBytes) = (s2, none) →
      rdVA s2 t.via s2.b (a + 256) (256 * (n + rOptRows t.r)) = .ok (s3, ds) →
      ∃ x : Nat, x % 2 ^ 32 = 0x7C640C4B ∧ x / 2 ^ 32 % 2 ^ 5 = rFmt t.r ∧ (x / 2 ^ 40 % 2 = 1 ↔ rNarrow t.r = true) ∧
        x / 2 ^ 64 % 2 ^ 32 = n ∧ x / 2 ^ 96 % 2 ^ 32 = rOptRows t.r ∧ x / 2 ^ 128 % 2 ^ 64 = c.step ∧
        x / 2 ^ 192 % 2 ^ 64 = t.ckSeq + 1 ∧ x / 2 ^ 256 = (Config.sha3 ds).toNat ∧
        ∀ s4, wrVA s3 t.via s3.b a (bytesOfNat 256 x) = (s4, none) → exec (.checkpointComplete tid) s =
          .next (settleTensor t.tid (s4.setTensor { t with ckpt := none, ckSeq := t.ckSeq + 1 }))))

/-! ## The pantry (spec/06) -/

/-- R139 to R144, R147 to R157: the pantry instructions outside record and replay. A claim of a bound READY name answers READY
with one hold more, of a MAKING name of another maker WAITER, of an unbound name MAKER of the lowest OPEN way of its set
with its generation advanced, and of an unbound name where all eight ways are MAKING or held FULL. CLWAIT delivers a pending
membership and waits otherwise; FULFIL makes the entry READY with a hold for its maker and for every waiter; ABANDON, CLHOLD
and CLFREE end or add one membership. R146 and R158: the removal of an unbound burner ends its memberships one after the
other and leaves none of it; a maker without waiters leaves its entry OPEN, a waiter's record goes, holds go. The firmware
makes an entry whose eviction queue faulted evictable again. Neither changes a byte of memory. The model's choices: log 47. -/
def Obligations.PantryInstructionsComplete : Prop :=
  ((∀ (s : State) (f : EF), s.b.rpMode = 0 →
     let me : Party := .bur s.b.core s.b.bur
     let n : PName := ⟨s.b.op32 f.a, s.b.op64 f.b, s.b.op32 f.c⟩
     let res (b : Burner) (r ticket : Nat) (size : Word) (addr : DWord) : Burner :=
       (((b.setS f.d (BitVec.ofNat 32 (r * 2 ^ 30 + ticket))).setS (f.d + 1) size).setS (f.d + 2) (addr.extractLsb' 0 32)).setS
         (f.d + 3) (addr.extractLsb' 32 32)
     (let w := fwdEF (.claim f) f false true false (quad f.d) true s.b
      let r := claimStep me n s.b.region.fd (entered w s)
      Ready w s → n.fid.toNat < 0xFFFFFF00 → s.b.unitFree = true →
      (∀ m ∈ s.b.membs, ¬(m.fid = n.fid ∧ m.dig = n.dig ∧ m.ver = n.ver ∧ m.fd = s.b.region.fd)) →
      (∀ p, s.named n s.b.region.fd = some p → p.st = .ready → p.holds ≠ 65535) → r.2.2.ticket < 2 ^ 30 →
      (r.2.1 = 0 → Issues (.claim f) w s (r.1.modB fun b =>
        res { b with membs := b.membs ++ [r.2.2.memb .maker 0] } 0 r.2.2.ticket 0 0)) ∧
      (r.2.1 = 1 → Issues (.claim f) w s (r.1.modB fun b =>
        res { b with membs := b.membs ++ [r.2.2.memb .waiting 0] } 1 r.2.2.ticket 0 0)) ∧
      (r.2.1 = 2 → Issues (.claim f) w s (r.1.modB fun b =>
        res { b with membs := addHold (r.2.2.memb .hold 1) b.membs } 2 r.2.2.ticket r.2.2.size r.2.2.addr)) ∧
      (r.2.1 = 3 → Issues (.claim f) w s (r.1.modB fun b => res b 3 0 0 0))) ∧
     (∀ m, membOf (s.b.op32 f.a) s = some m →
       let p := s.pent m.slice m.set m.way
       (let w := fwdEF (.clwait f) f false false false (quad f.d) true s.b
        Ready w s → m.ticket < 2 ^ 30 →
        (m.kind = .waiting → exec (.clwait f) s = .next (entered w s)) ∧
        (m.kind = .pendMaker → Issues (.clwait f) w s ((entered w s).modB fun b =>
          res { b with membs := setKind m.ticket .maker b.membs } 0 m.ticket 0 0)) ∧
        (m.kind = .pendReady → Issues (.clwait f) w s
          ((((entered w s).sliceStep m.slice).1.setPent { p with stamp := ((entered w s).sliceStep m.slice).2 }).modB fun b =>
            res { b with membs := addHold m (dropRole m.ticket b.membs) } 2 m.ticket p.size p.addr))) ∧
       (let w := fwdEF (.fulfil f) f false true false [f.d] false s.b
        Ready w s → m.kind = .maker → (s.b.op64 f.b).toNat < 2 ^ 57 →
        ((s.b.op64 f.b).toNat < 0x20000000 ∨ 0x40000000 ≤ (s.b.op64 f.b).toNat) →
        Issues (.fulfil f) w s ((fulfilStep p (s.b.op64 f.b) (s.b.op32 f.c) s.b.region none (entered w s).drain).1.modB fun b =>
          { b with membs := addHold m (dropRole m.ticket b.membs) }.setS f.d (BitVec.ofNat 32 p.waiters.length))) ∧
       (let w := fwdEF (.abandon f) f false false false [f.d] false s.b
        let g := ((entered w s).sliceStep m.slice).1
        let ends (t : State) (x : Word) : State := t.modB fun b => { b with membs := dropRole m.ticket b.membs }.setS f.d x
        Ready w s →
        (m.kind = .maker ∨ m.kind = .pendMaker →
          (p.waiters = [] → Issues (.abandon f) w s (ends (g.setPent p.unbind) 1)) ∧
          (∀ x xs, p.waiters = x :: xs → Issues (.abandon f) w s
            (ends (setParty x p.ticket .pendMaker (g.setPent { p with maker := some x, waiters := xs })) 0))) ∧
        (m.kind = .waiting →
          Issues (.abandon f) w s (ends (g.setPent { p with waiters := p.waiters.filter (· != me) }) 2)) ∧
        (m.kind = .pendReady → Issues (.abandon f) w s (ends (g.setPent { p with holds := p.holds - 1 }) 2)))) ∧
     (∀ p, s.ticketed (s.b.op32 f.a) = some p → p.st = .ready →
       (let w := fwdEF (.clhold f) f false false false [f.d] false s.b
        Ready w s → s.b.unitFree = true → p.holds < 65535 → Issues (.clhold f) w s
          ((((entered w s).sliceStep p.slice).1.setPent { p with
            holds := p.holds + 1, stamp := ((entered w s).sliceStep p.slice).2 }).modB fun b =>
            { b with membs := addHold (p.memb .hold 1) b.membs }.setS f.d (BitVec.ofNat 32 (p.holds + 1)))) ∧
       (let w := fwdEF (.clfree f) f false false false [f.d] false s.b
        Ready w s → (∃ m ∈ s.b.membs, m.ticket = p.ticket ∧ m.kind = .hold) → Issues (.clfree f) w s
          ((((entered w s).sliceStep p.slice).1.setPent { p with holds := p.holds - 1 }).modB fun b =>
            { b with membs := subHold p.ticket b.membs }.setS f.d (BitVec.ofNat 32 (p.holds - 1)))))) ∧
   (∀ (q : Party) (n : PName) (fd : Nat) (s : State),
     let r := claimStep q n fd s
     let pl := placeOf n fd
     (∀ e, s.named n fd = some e → e.st = .ready →
       r.2.1 = 2 ∧ r.2.2 = { e with holds := e.holds + 1, stamp := (s.sliceStep pl.1).2 } ∧
         r.1 = (s.sliceStep pl.1).1.setPent r.2.2) ∧
     (∀ e, s.named n fd = some e → e.st = .making → e.maker ≠ some q → q ∉ e.waiters → s.waiterRecords e.slice < 16384 →
       r.2.1 = 1 ∧ r.2.2 = { e with waiters := e.waiters ++ [q] } ∧ r.1 = (s.sliceStep pl.1).1.setPent r.2.2) ∧
     (∀ k, s.named n fd = none → k < 8 → (s.pent pl.1 pl.2 k).st = .opened → (∀ j, j < k → (s.pent pl.1 pl.2 j).st ≠ .opened) →
       r.2.1 = 0 ∧ r.1 = (s.sliceStep pl.1).1.setPent r.2.2 ∧ r.2.2.st = .making ∧ r.2.2.way = (s.pent pl.1 pl.2 k).way ∧
         r.2.2.fid = n.fid ∧ r.2.2.dig = n.dig ∧ r.2.2.ver = n.ver ∧ r.2.2.fd = fd ∧ r.2.2.maker = some q ∧ r.2.2.waiters = [] ∧
         r.2.2.holds = 0 ∧ r.2.2.gen = ((s.pent pl.1 pl.2 k).gen + 1) % 1024) ∧
     (s.named n fd = none →
       (∀ k, k < 8 → (s.pent pl.1 pl.2 k).st = .making ∨ ((s.pent pl.1 pl.2 k).st = .ready ∧ (s.pent pl.1 pl.2 k).holds ≠ 0)) →
       r.2.1 = 3 ∧ r.1 = (s.sliceStep pl.1).1)) ∧
   (∀ (e : PEntry) (addr : DWord) (size : Word) (owner : Region) (pot : Option Nat) (s : State),
     let r := fulfilStep e addr size owner pot s
     r.2 = e.waiters.length ∧ ∃ x : PEntry, x.st = .ready ∧ x.holds = 1 + e.waiters.length ∧ x.addr = addr ∧ x.size = size ∧
       x.maker = none ∧ x.waiters = [] ∧ x.fid = e.fid ∧ x.dig = e.dig ∧ x.ver = e.ver ∧ x.gen = e.gen ∧
       r.1.pent e.slice e.set e.way = x)) ∧
  ((∀ (s : State) (core bur : Nat), ∃ t, exec (.pantryRemoval core bur) s = .next t ∧
     (∀ b ∈ t.all ++ t.saved, b.core = core → b.bur = bur → b.membs = []) ∧ t.mesh = s.mesh ∧ t.phys = s.phys ∧
     t.tensors = s.tensors ∧ t.groups = s.groups ∧
     (∀ b m, s.find core bur = some b → b.membs = [m] →
       let e := s.pent m.slice m.set m.way
       m.gen = e.gen →
       (m.kind = .maker → e.waiters = [] → (t.pent m.slice m.set m.way).st = .opened) ∧
       (m.kind = .hold → (t.pent m.slice m.set m.way).holds = e.holds - m.n ∧ (t.pent m.slice m.set m.way).st = e.st) ∧
       (m.kind = .waiting → .bur core bur ∉ (t.pent m.slice m.set m.way).waiters))) ∧
   (∀ (s : State) (slice set way : Nat), ∃ t, exec (.evqFaultClear slice set way) s = .next t ∧
     t.pent slice set way = { s.pent slice set way with evqFault := false } ∧ t = { s with pantry := t.pantry } ∧
     ∀ a b c, (a, b, c) ≠ (slice, set, way) → t.pent a b c = s.pent a b c))

/-! ## Records and launches (spec/15) -/

/-- R51, R278, R354, R364, R377 and R380: the records that launch nothing. Each is refused BAD_RECORD when it breaks R354,
and RCB_INVALID where it names an invalid RCB. NOP completes DONE. INVAL removes exactly the leaves of its address space that
meet its range, serves the page waits whose page its range covers and completes DONE; KILL stops its domain, completes DONE
and ends the domain: it leaves no burner of the domain placed but one whose HALT completed before (R365) and none saved, ends
every launch that had a burner of it with a record of status KILLED, and leaves each burner of another domain as it was,
except that it may become front of its core and lose trace records; then evicted burners come back (R362; `resumeSome`).
YIELDREQ sets YRQ in every burner of its subtree that is neither unbound, halted nor yielded; EVICT makes an evict record for
every burner of its subtree that has its place and is neither FROZEN nor halted; RESUME binds again what it can; each of the
three completes when nothing of its subtree is left to wait for. The model's choices: log 74, 81, 99, 135 (an RCB in a row
with an uncorrected error is found again: `rcbFound`). -/
def Obligations.RecordsComplete : Prop :=
  (∀ (s : State) (q : Nat) (r : Rec512),
    let tag := (recTag r).toNat
    let post (status : Nat) (t : State) : State :=
      { t with pending := t.pending ++ [.completionRecord q (recOp r) tag status 0] }
    exec (.recordNop q r) s = .next (post (if recordOk' r then 0 else 6) s) ∧
    (recordOk' r = false → ∀ i ∈ [Instr.inval q r, .kill q r, .yieldreq q r, .evict q r, .resume q r],
      exec i s = .next (post 6 s)) ∧
    (recordOk' r = true →
      exec (.inval q r) s = .next (post 0 (invalidate (recP3 r) (recP0 r) (recP0 r + recP1 r) s)) ∧
      exec (.kill q r) s = .next (killEnd (recP3 r) 0x51 (post 0 (killStop (recP3 r) s))) ∧
      (s.readRegion (recP0 r) = none → ∀ i ∈ [Instr.yieldreq q r, .evict q r, .resume q r],
        exec i s = .next (post 2 (s.rcbFound (recP0 r)))) ∧
      (∀ g, s.readRegion (recP0 r) = some g →
        let l (slots : List Nat) : Launch := { id := s.nextLaunch, q := q, op := recOp r, tag := recTag r, rcb := recP0 r, slots := slots }
        let asked (slots : List Nat) (t : State) : State :=
          checkRequests { t with launches := s.launches ++ [l slots], nextLaunch := s.nextLaunch + 1 }
        (let hit (b : Burner) : Bool := b.region.chain.contains (recP0 r) && b.status != .unbound && b.status != .halted &&
           b.status != .yielded
         let ask (b : Burner) : Burner := if hit b then { b with yrq := true } else b
         exec (.yieldreq q r) s =
           .next (asked [] { s with b := ask s.b, others := s.others.map ask, saved := s.saved.map ask })) ∧
        (∃ t, exec (.evict q r) s = .next t ∧ t.b = s.b ∧ t.others = s.others ∧ t.mesh = s.mesh ∧ t.phys = s.phys ∧
          ∀ b ∈ s.all, b.placed = true → b.region.chain.contains (recP0 r) = true → b.status ≠ .frozen → b.status ≠ .halted →
            .dispatchEvict (2 * b.core + b.bur) ∈ t.pending) ∧
        exec (.resume q r) s = .next (resumeSome (asked [] s))))) ∧
  (∀ (s : State) (fd cause : Nat), ∃ u, killEnd fd cause s = resumeSome u ∧ u.phys = s.phys ∧
    (∀ b ∈ u.all, b.region.fd = fd → b.placed = false ∨ b.status = .halted) ∧ (∀ b ∈ u.saved, b.region.fd ≠ fd) ∧
    (∀ l ∈ s.launches, l.op = 1 →
      (∃ b ∈ s.all, b.launch = l.id ∧ b.placed = true ∧ b.region.fd = fd ∧ b.status ≠ .halted) →
      Instr.completionRecord l.q l.op l.tag.toNat 5 cause ∈ u.pending ∧ ∀ x ∈ u.launches, x.id ≠ l.id) ∧
    (∀ core bur o, s.find core bur = some o → (∀ b ∈ s.all, b.core = core → b.bur = bur → b.region.fd ≠ fd) →
      ∃ o', u.find core bur = some o' ∧ o' = { o with front := o'.front, lend := o'.lend, trlost := o'.trlost })) ∧
  (∀ (s : State) (asn lo hi : Nat) (e : FaultEnt) (w : Nat × Nat) (b : Burner), s.faultTab = [e] → e.asn = asn →
    e.waiters = [w] → s.pfrN = 0 → s.find w.1 w.2 = some b → b.pw = true →
    ∃ x, (invalidate asn lo hi s).find w.1 w.2 = some x ∧
      (lo ≤ 4096 * e.page → 4096 * e.page + 4096 ≤ hi → x.pw = false ∧ x.status = .running ∧ (invalidate asn lo hi s).faultTab = []) ∧
      (hi < 4096 * e.page + 4096 ∨ 4096 * e.page < lo → x.pw = true ∧ (invalidate asn lo hi s).faultTab = [e])) ∧
  (∀ (s : State) (asn lo hi : Nat), s.faultTab = [] →
    let t := invalidate asn lo hi s
    (∀ e, e ∈ t.tlb ↔ e ∈ s.tlb ∧ ¬(e.asn = asn ∧ e.va < hi ∧ lo < e.va + 2 ^ e.bits)) ∧ t.mesh = s.mesh ∧ t.phys = s.phys)

/-- R355 to R358: LAUNCH. A bad record, an invalid RCB, an image that cannot be read, an invalid header and a lack of
resources are refused with their status; else every core named gets a bind record, carried out one after the other; evicted
burners of its priority or above are bound again first (R362), it waits while room is kept for another launch's evictions,
and with EVOK it asks for the evictions that make room; a burner starts with its argument in w0, its rank in s2, the count in
s3 and every other scalar register 0. A list ends at its NOP with the number of burners it launched and at the first record
that is no LAUNCH with BAD_RECORD. The model's choices: log 12 (which burners are evicted), 20, 70 (evicted burners come back
by themselves), 78, 121 (the launch stands open meanwhile, and room is kept for it), 135 (`rcbFound`). -/
def Obligations.LaunchesComplete : Prop :=
  (∀ (s : State) (q : Nat) (r : Rec512),
    let done (status detail : Nat) (t : State) : State :=
      { t with pending := t.pending ++ [.completionRecord q (recOp r) (recTag r).toNat status detail] }
    (recordOk' r = false → exec (.launch q r) s = .next (done 6 0 s) ∧ exec (.launchList q r) s = .next (done 6 0 s)) ∧
    (recordOk' r = true → s.readRegion (recP0 r) = none →
      exec (.launch q r) s = .next (done 2 0 (s.rcbFound (recP0 r))) ∧
      exec (.launchList q r) s = .next (done 2 0 (s.rcbFound (recP0 r)))) ∧
    (∀ g, recordOk' r = true → s.readRegion (recP0 r) = some g →
      let l (list : Option (Nat × Nat)) : Launch :=
        { id := s.nextLaunch, q := q, op := recOp r, tag := recTag r, rcb := recP0 r, region := g, list := list }
      let opened (list : Option (Nat × Nat)) : State :=
        { s with launches := s.launches ++ [l list], nextLaunch := s.nextLaunch + 1 }
      let v : Via := Via.dev g (recFirst r / 160)
      let x : Todo := { ask := r, node := 0, region := g }
      let s0 := if (opened none).resumesFirst g.prio then resumeSome (opened none) else opened none
      (∀ n, s.rcbAt (recP0 r) = some n → exec (.launchList q r) s = .next { opened (some (n / 2 ^ 128 % 2 ^ 64, 0)) with
        pending := s.pending ++ [.commandListNode s.nextLaunch] }) ∧
      (s0.resumesFirst g.prio = true ∨ s0.roomKept = true →
        exec (.launch q r) s = .next (s0.modLaunch s.nextLaunch fun l => { l with todo := some x })) ∧
      (∀ s1 hb, s0.resumesFirst g.prio = false → s0.roomKept = false → readImage v (recP1 r) 128 s0 = .ok (s1, hb) →
        let h := natOfBytes hb
        (headerOk h = false → exec (.launch q r) s = .next (finishLaunch (l none) 3 0 s1)) ∧
        (∀ s2 rows, headerOk h = true → readTable v (recP1 r) (hdTlen h) (hdDcnt h) s1 = .ok (s2, rows) →
          (rowTableOk (hdBmask h) [] rows = false → exec (.launch q r) s = .next (finishLaunch (l none) 3 0 s2)) ∧
          (rowTableOk (hdBmask h) [] rows = true →
            (∀ ps, reserve g h (recFirst r) (recCount r) s2 = .ok ps →
              exec (.launch q r) s = .next (addBinds s.nextLaunch ps.length (writeBinds g h (recCount r) s.nextLaunch 0
                (BitVec.ofNat 64 (recP2 r)) (BitVec.ofNat 64 (recP1 r)) 0 ps s2))) ∧
            (∀ d, reserve g h (recFirst r) (recCount r) s2 = .error d → recEvok r = false →
              exec (.launch q r) s = .next (finishLaunch (l none) 1 d s2)) ∧
            (∀ d ks, reserve g h (recFirst r) (recCount r) s2 = .error d → recEvok r = true →
              evictRoom g h (recFirst r) (recCount r) s.nextLaunch s2 = some ks →
              exec (.launch q r) s = .next (ks.foldl askEvict (s2.modLaunch s.nextLaunch fun l =>
                { l with todo := some { x with hdr := some h, want := ks } })))))))) ∧
  (∀ (g : Region) (h count id node i : Nat) (arg image : DWord) (ps : List (Nat × Nat)) (s : State),
    let t := writeBinds g h count id node arg image i ps s
    t.pending = s.pending ++ ps.map (fun p => Instr.dispatchBind (slotOf p.1 p.2)) ∧ t.mesh = s.mesh ∧ t.phys = s.phys ∧
      t.launches = s.launches) ∧
  (∀ (g : Region) (h core bur i count launch node : Nat) (arg image : DWord) (inb : Nat),
    let b := boundBurner g h core bur i count launch node arg image inb
    b.getW 0 = arg ∧ b.getS 2 = BitVec.ofNat 32 ((g.rankBase + i) % 65536) ∧ b.getS 3 = BitVec.ofNat 32 count ∧
      (∀ r : BitVec 6, 4 ≤ r.toNat → b.getS r = 0) ∧ b.pc = 0 ∧ b.flags = 0 ∧ b.te = false ∧ b.status = .starting) ∧
  (∀ (s s1 : State) (id base node : Nat) (l : Launch) (bs : List Byte),
    s.launches.find? (·.id == id) = some l → l.list = some (base, node) →
    readImage (Via.dev l.region 0) (base + 64 * node) 64 s = .ok (s1, bs) →
    let r : Rec512 := BitVec.ofNat 512 (natOfBytes bs)
    (recOp r = 0 → exec (.commandListNode id) s = .next (finishLaunch l 0 l.count s1)) ∧
    (recOp r ≠ 0 → (recOp r ≠ 1 ∨ recList r = true ∨ recordOk' r = false) →
      exec (.commandListNode id) s = .next (finishLaunch l 6 0 s1))) ∧
  (∀ (l : Launch) (status detail : Nat) (s : State), finishLaunch l status detail s = { s with
    launches := s.launches.filter (·.id != l.id)
    pending := s.pending ++ [.completionRecord l.q l.op l.tag.toNat status detail] })

/-- R359 to R361, R376 and R380: the dispatcher's acts. A bind whose image loads empties the partition, puts the mailbox and
the text, joins the burner's groups and clears OP; with the last bind of its launch every burner of it starts, and until then
none does. A halted burner is unbound and its launch ends with its last burner; an evict record saves a burner at its cut
unless it has not started, a started command is still at work or its save area has no room; a FROZEN one is unbound by the
firmware once its commands have ended, a started collective among them. Each leaves an absent burner's record as it is. The
model's choices: log 70 (evicted burners come back after an unbind or an evict), 77, 80, 115 (an evict record waits for
room). -/
def Obligations.DispatchCompletes : Prop :=
  ∀ (s : State) (core bur : Nat) (b : Burner), bur < 2 → s.find core bur = some b →
    let slot := 2 * core + bur
    (b.status = .starting → (tabGet 0 s.slots slot).extractLsb' 0 2 = 1 →
      let s1 := clearPartition b { s with mail := tabSet s.mail slot (BitVec.ofNat 256
        (b.image.toNat + b.arg.toNat * 2 ^ 64 + b.rank * 2 ^ 128 + b.count * 2 ^ 192)) }
      ∀ s2 hd text, loadImage b (fun _ => true) s1 = .ok (s2, hd, text) →
        let s3 := setOp slot 0 0 (joinGroups b (s2.modAt core bur fun x => { x with text := text }))
        let s4 : State := { s3 with launches := s3.launches.map fun l => if l.id == b.launch then { l with toBind := l.toBind - 1 } else l }
        ((∃ l ∈ s4.launches, l.id = b.launch ∧ l.toBind ≠ 0) → exec (.dispatchBind slot) s = .next s4) ∧
        ((∀ l ∈ s4.launches, l.id = b.launch → l.toBind = 0) → ∃ t, exec (.dispatchBind slot) s = .next t ∧
          (∀ x ∈ t.all, x.launch = b.launch → x.status ≠ .starting) ∧ t.launches = s4.launches)) ∧
    (b.status ≠ .starting → exec (.dispatchBind slot) s = .next s) ∧
    (b.status = .halted → exec (.dispatchUnbind slot) s = .next (resumeSome (launchEnds b.launch 0 0 (unbindBurner b.core b.bur s)))) ∧
    (b.status ≠ .halted → exec (.dispatchUnbind slot) s = .next s) ∧
    (b.placed = false ∨ b.status = .frozen ∨ b.status = .halted → exec (.dispatchEvict slot) s = .next (checkRequests s)) ∧
    (b.status = .starting → exec (.dispatchEvict slot) s = .next { s with pending := s.pending ++ [.dispatchEvict slot] }) ∧
    (b.status ≠ .starting → b.placed = true → b.status ≠ .frozen → b.status ≠ .halted →
      let room := areaFits .eviction (s.focus b.core b.bur)
      (b.engineBusy = false → room = true → exec (.dispatchEvict slot) s =
        .next (resumeSome (checkRequests (setOp slot 0 0 (evictBurner (s.evictedForRoom slot) b.core b.bur s))))) ∧
      (b.engineBusy = true ∨ room = false → exec (.dispatchEvict slot) s = .next { s with pending := s.pending ++ [.dispatchEvict slot] })) ∧
    (b.status = .frozen → b.engineBusy = false → b.collBusy = false → exec (.firmwareUnbindFrozen core bur) s =
      .next (resumeSome (launchEnds b.launch 5 (b.trec0.extractLsb' 192 8).toNat
        (unbindBurner core bur (loseMember core bur (State.answerGroups { s with groups := s.groups.map fun g => g.killMem core bur })))))) ∧
    (b.status ≠ .frozen ∨ b.engineBusy = true ∨ b.collBusy = true → exec (.firmwareUnbindFrozen core bur) s = .next s) ∧
    (∀ id status detail l, s.launches.find? (·.id == id) = some l → l.left ≤ 1 → l.status = 0 → status ≠ 0 →
      launchEnds id status detail s = { s with
        launches := s.launches.filter (·.id != id)
        pending := s.pending ++ [.completionRecord l.q l.op l.tag.toNat status detail] })

/-- R353, R355 and R402: work queues. A completion record with room, of a queue without an interrupt address, is written at the
ring's place with TAG, STATUS, OP, PH, HEAD and DETAIL, the place moves on and PH turns over at the end of the ring; the
rest of memory stays. A doorbell moves TAIL, or stops a queue it would overrun with BAD_RECORD; a setup entry is written
while EN is 0 and may be enabled when R402 allows it; the completion ring and the interrupt address (`live`) are those of the
last enabling; disabling keeps the entry. An act that makes one access at a time holds the record, whose words are posted one by
one. The model's choices: log 82, 107, 150 (the order of a record's words). -/
def Obligations.WorkQueuesComplete : Prop :=
  (∀ (s : State) (q op tag status detail : Nat),
    let w := s.wq q
    let base := 0x800000000000
    let at' := wqCbase w + 16 * w.cpos
    s.pace = 0 → w.held = [] → w.posted < 2 ^ (w.live.extractLsb' 229 5).toNat → wqIrqa w = 0 → tag < 2 ^ 32 → status < 2 ^ 8 → op < 2 ^ 8 → detail < 2 ^ 32 →
    s.physKind (base + at') = some .host → s.phys.wf = true →
    ∃ t, exec (.completionRecord q op tag status detail) s = .next t ∧
      (let img : BitVec 128 := BitVec.ofNat 32 detail ++ w.head ++ 0#15 ++ BitVec.ofBool w.ph ++ BitVec.ofNat 8 op ++
         BitVec.ofNat 8 status ++ BitVec.ofNat 32 tag
       ∀ k, k < 16 → t.phys.get (base + at' + k) = img.extractLsb' (8 * k) 8) ∧
      (∀ a, a < base + at' ∨ base + at' + 16 ≤ a → t.phys.get a = s.phys.get a) ∧
      t = { s with phys := t.phys, rowKey := t.rowKey, poison := t.poison, wqs := t.wqs } ∧
      let n := 2 ^ (w.live.extractLsb' 229 5).toNat
      let x := t.wq q
      x.posted = w.posted + 1 ∧ (w.cpos + 1 < n → x.cpos = w.cpos + 1 ∧ x.ph = w.ph) ∧ (n ≤ w.cpos + 1 → x.cpos = 0 ∧ x.ph = !w.ph) ∧
        x.head = w.head ∧ x.tail = w.tail ∧ x.setup = w.setup ∧ x.live = w.live ∧ x.held = []) ∧
  (∀ (s : State) (q : Nat) (tail : Word), s.stState = 1 → q < 16384 → (s.wq q).setup.getLsbD 192 = true → (s.wq q).stopped = false →
    let w := s.wq q
    let n := 2 ^ (w.setup.extractLsb' 224 5).toNat
    ((tail - w.head).toNat ≤ n → ∃ t, exec (.doorbell q tail) s = .next t ∧ t.wq q = { w with tail := tail } ∧ t = { s with wqs := t.wqs }) ∧
    (n < (tail - w.head).toNat → ∃ t, exec (.doorbell q tail) s = .next t ∧ (t.wq q).stopped = true ∧
      t = { s with wqs := t.wqs, pending := s.pending ++ [.completionRecord q 0 0 6 1] })) ∧
  (∀ (s : State) (q : Nat) (e : BitVec 256), s.stState = 1 → q < 16384 →
    let w := s.wq q
    ∃ t u, exec (.queueEnable q e) s = .next t ∧ exec (.queueDisable q) s = .next u ∧ t = { s with wqs := t.wqs } ∧
      u = { s with wqs := u.wqs } ∧ (∀ k, k ≠ q → t.wq k = s.wq k ∧ u.wq k = s.wq k) ∧
      (w.setup.getLsbD 192 = true → (u.wq q).setup.getLsbD 192 = false ∧ ∀ k, k ≠ 192 → (u.wq q).setup.getLsbD k = w.setup.getLsbD k) ∧
      (w.setup.getLsbD 192 = false → e.getLsbD 192 = true →
        (setupOk e s = true → (t.wq q).setup = e ∧ (t.wq q).live = e ∧ (t.wq q).head = 0 ∧ (t.wq q).tail = 0 ∧ (t.wq q).cpos = 0 ∧ (t.wq q).ph = true) ∧
        (setupOk e s = false → (t.wq q).setup.getLsbD 192 = false)) ∧
      (w.setup.getLsbD 192 = true → e.getLsbD 192 = true → t = s) ∧
      (e.getLsbD 192 = false → (t.wq q).setup.getLsbD 192 = false))

/-! ## Background acts of a core (spec/02, spec/07, spec/09, spec/17) -/

/-- R48, R168, R214, R217, R385 and R387: the oldest buffered store is performed, changing the four bytes of its lane;
windows that have run out close without changing what any reader of a register sees that has no superseded window; a walk of
a page goes to its tables whatever the TLBs hold, sets A and, for a write, D, caches its leaf for the core, leaves no trace
when it faults, and finds a poisoned table row for the burner's domain (R418); a burner that lent its front gets it back when
its wait ends; a PC stop is taken at the PC, held by the management when DM is set; and the management resumes a held burner.
The model's choices: log 44, 91, 94. -/
def Obligations.CoreActsComplete : Prop :=
  (∀ (s : State) (e : SBuf) (es : List SBuf), s.b.sbuf = e :: es → s.mesh.wf = true →
    ∃ m, exec (.storeBufferPerform) s = .next { s with mesh := m, b := { s.b with sbuf := es } } ∧ Memory.word m e.addr = e.val ∧
      ∀ a, a < e.addr ∨ e.addr + 4 ≤ a → Memory.get m a = s.mesh.get a) ∧
  (∀ s : State, ∃ t, exec .resultVisible s = .next t ∧
    (∀ q r, (∀ w ∈ s.b.win, w.reg = r → w.sup = false) → t.b.readAt q r = s.b.readAt q r) ∧ (∀ r, t.b.cur r = s.b.cur r) ∧
    t = { s with b := { s.b with win := t.b.win, accWin := t.b.accWin, opWin := t.b.opWin } }) ∧
  (∀ (s : State) (va : DWord) (wr : Bool),
    let r := missWalk s { s.viaB with watch := false } wr va.toNat 1
    (0x40000000 ≤ va.toNat → va.toNat < 2 ^ 57 → ∀ row, walkPoison s va.toNat 4 s.b.region.ptroot = some row →
      exec (.pageWalk va wr) s = .next (s.due (.uncorrectedError row s.b.region.fd))) ∧
    (0x40000000 ≤ va.toNat → va.toNat < 2 ^ 57 → walkPoison s va.toNat 4 s.b.region.ptroot = none →
      (∀ s1 pa e, r = .ok (s1, pa, e) → exec (.pageWalk va wr) s = .next s1 ∧
        (∃ x ∈ s1.tlb, x.pte = e ∧ x.asn = s.b.region.asn ∧ x.core = some s.b.core ∧ x.die = s.b.die ∧
          va.toNat / 2 ^ x.bits = x.va / 2 ^ x.bits) ∧ e.getLsbD 7 = true ∧ (wr = true → e.getLsbD 8 = true) ∧
        s1.mesh = s.mesh) ∧
      (∀ c, r = .error c → exec (.pageWalk va wr) s = .next s)) ∧
    (va.toNat < 0x40000000 ∨ 2 ^ 57 ≤ va.toNat → exec (.pageWalk va wr) s = .next s)) ∧
  (∀ (s : State) (core : Nat),
    (∀ b, lendOver core s = some b → b.core = core ∧ b.lend = true ∧ exec (.lendEnd core) s = .next (cutOut core (1 - b.bur) 1 s)) ∧
    (lendOver core s = none → exec (.lendEnd core) s = .next s)) ∧
  (∀ s : State,
    (s.b.dctl.getLsbD 8 = true → s.b.te = false → s.b.skipStop = false → s.b.pfx = none → s.b.pc = s.b.dpc →
      s.b.ql = [] → s.b.qx = [] → s.b.qs = [] →
      (s.b.dDm = false → exec .pcStop s = .next (takeTrap
        { c := .debugStop, addr := s.b.dpc.setWidth 64, iaddr := s.b.pc, cutPc := s.b.pc } s)) ∧
      (s.b.dDm = true → ∃ t, exec .pcStop s = .next t ∧ (s.other = none → t.b.status = .held ∧ t.b.front = false ∧ t.b.te = false ∧
        t.b.tepc = s.b.pc ∧ t.b.tcause.toNat % 256 = Cause.debugStop.code ∧ t.b.s = s.b.s))) ∧
    (s.b.pc ≠ s.b.dpc → exec .pcStop s = .next s) ∧
    (s.b.status = .held → s.b.dctl.getLsbD 10 = false → ∃ t, exec (.managementResume s.b.core s.b.bur) s = .next t ∧
      t.b.status = .running ∧ t.b.skipStop = true ∧ t.b.bypass = s.b.bypass ∧ t.b.pc = s.b.pc ∧
      ((∀ o ∈ s.others, o.core = s.b.core → o.front = false) → t.b.front = true)))

/-! ## Errors, power and the clock (spec/17, spec/18) -/

/-- R392, R410 to R415, R417 to R419: a found uncorrected error is counted on its row's die and poisons the row, and one that
reaches a burner kills its domain; the scrub counts; throttling changes nothing that a program reads; a thermal shutdown
leaves its reason in the start record; a cycle counts one, and a counter without EN stays; a start begins at step 1 and
leaves nothing bound, and all of LPDDR 6 and the keys until their steps. Of the steps that follow (`startStep`, which the
machine takes by itself): step 2 takes the firmware or fails by its version, step 7, which a cold start alone reaches, clears
LPDDR 6 and nothing beyond, step 8 of a cold start draws new keys and of a warm one keeps those retained, step 9 writes OFFER
and is ready. The firmware version floor rises to the version that runs. The model's choices: log 5 (that step 9 offers 0x1FF
is read from R400's example), 11, 85, 88, and 145 (that the start is taken step by step, with LPDDR 6 and the keys standing
until their steps). -/
def Obligations.PowerErrorsAndStarts : Prop :=
  (∀ (s : State) (row fd : Nat),
    let f := s.foundUnc row
    let d := rowDie row
    exec (.uncorrectedError row fd) s = .next (killDomain fd 0x50 f) ∧
    row ∈ f.poison ∧ (∀ x, x ∈ s.poison → x ∈ f.poison) ∧ f.errUnc[d] = min (s.errUnc[d] + 1) 0xFFFFFFFFFFFFFFFF ∧
    f = { s with errUnc := f.errUnc, poison := f.poison } ∧
    (∀ c u, ∃ t, exec (.patrolScrub row c u) s = .next t ∧ t = { s with errCorr := t.errCorr, errUnc := t.errUnc, poison := t.poison } ∧
      t.errCorr[d] = (if c then min (s.errCorr[d] + 1) 0xFFFFFFFFFFFFFFFF else s.errCorr[d]) ∧
      (u = true → row ∈ t.poison) ∧ (u = false → t.poison = s.poison ∧ t.errUnc = s.errUnc))) ∧
  (∀ s : State,
    exec .throttle s = .next { s with throttle := true } ∧ exec .throttleEnd s = .next { s with throttle := false } ∧
    (∃ t, exec .thermalShutdown s = .next t ∧ t.stState = 2 ∧ t.stStep = 9 ∧ t.stCode = 3 ∧ t.stDetail = 0) ∧
    (∃ t, exec .cycle s = .next t ∧ t.cycle = s.cycle + 1 ∧ t.mesh = s.mesh ∧ t.phys = s.phys ∧ t.pending = s.pending ∧
      t.b = { s.b with pcnt := t.b.pcnt } ∧
      (∀ k, k < 4 → (vget s.b.psel k).getLsbD 31 = false → vget t.b.pcnt k = vget s.b.pcnt k)) ∧
    (∃ t u, exec .coldStart s = .next t ∧ exec .warmStart s = .next u ∧ t.others = [] ∧ u.others = [] ∧ t.mesh = [] ∧ u.mesh = [] ∧
      t.b.status = .unbound ∧ u.b.status = .unbound ∧ t.tensors = [] ∧ t.pantry = [] ∧ t.wqs = [] ∧ t.tlb = [] ∧ t.pending = [] ∧
      u.tensors = [] ∧ u.pantry = [] ∧ u.wqs = [] ∧ u.tlb = [] ∧ u.pending = [] ∧
      t.phys = s.phys ∧ u.phys = s.phys ∧ t.keys = s.keys ∧ u.keys = s.keys ∧ t.minSvn = s.minSvn ∧ u.minSvn = s.minSvn ∧
      t.accept = 0 ∧ u.accept = 0 ∧ t.offer = 0 ∧ u.offer = 0 ∧ t.stKind = 1 ∧ u.stKind = 2 ∧ t.stState = 0 ∧ u.stState = 0 ∧
      t.stStep = 1 ∧ u.stStep = 1) ∧
    (let g := startStep s
     (s.stStep ≠ 7 → g.phys = s.phys) ∧
     (s.stStep = 2 → ∀ d v, bootImage = some (d, v) →
       (v.toNat < s.minSvn.toNat → g.stState = 2 ∧ g.stStep = 2 ∧ g.stCode = 2) ∧
       (s.minSvn.toNat ≤ v.toNat → g.stState = s.stState ∧ g.svn = v ∧ g.fwdig = d ∧ g.stStep = if s.stKind = 1 then 3 else 5)) ∧
     (s.stStep = 7 → Config.clearFails s.tick = none → s.phys.wf = true → g.stStep = 8 ∧
       (∀ a, a < 0xC000000000 → g.phys.get a = 0) ∧ (∀ a, 0xC000000000 ≤ a → g.phys.get a = s.phys.get a)) ∧
     (s.stStep = 8 → s.stKind = 1 → Config.entropyPasses s.tick = true → g.stStep = 9 ∧ g.keyGen = s.keyGen + 1 ∧
       ∀ k, (h : k < 16) → g.keys[k] = some (s.keyGen + 1)) ∧
     (s.stStep = 8 → s.stKind = 2 → g.keys = s.keys ∧
       ((∀ k, (h : k < 16) → s.keys[k] ≠ none) → g.stStep = 9) ∧
       ((∃ k, ∃ h : k < 16, s.keys[k] = none) → g.stState = 2 ∧ g.stStep = 8 ∧ g.stCode = 2)) ∧
     (s.stStep = 9 → g.stState = 1 ∧ g.offer = 0x1FF)) ∧
    (s.stState = 1 → s.minSvn.toNat < s.svn.toNat → exec .advanceSvn s = .next { s with minSvn := s.svn }) ∧
    (s.stState ≠ 1 ∨ s.svn.toNat ≤ s.minSvn.toNat → exec .advanceSvn s = .next s))

/-! ## The host and the fabric (spec/18) -/

/-- R398, R399, R401, R411, R412 and R416: the first ACCEPT since the start takes effect, masked by OFFER, and no later one;
HWIN, HRCB and NONCE take window writes, ACCEPT, RESET, AREQ and DOORBELL have their effects through them, and the rest are
discarded; the window reads the start record and the error counts in every state, OFFER and HFLT after a start that
succeeded, and 0 where it has nothing. An aperture access of 8 to 256 aligned bytes gives the host the bytes that the tables
of HRCB translate, and all ones with HFLT one more where they do not; a write writes them or is discarded; AREQ makes one
report due, whose body holds the nonce, the firmware and the accepted features. The model's choices: log 84, 116, 135
(`rcbFound`: HRCB's row with an uncorrected error), and 145: R412 says of a failed start what the clauses under stState other
than 1 say of a start in progress too. -/
def Obligations.HostWindowCompletes : Prop :=
  ∀ s : State,
    (∀ v, s.stState = 1 →
      (s.acceptDone = false → exec (.accept v) s = .next { s with accept := v &&& s.offer, acceptDone := true }) ∧
      (s.acceptDone = true → exec (.accept v) s = .next s)) ∧
    (∀ v : DWord, s.stState = 1 →
      (v.toNat % 2 ^ 30 = 0 → v.toNat ≤ 2 ^ 47 → exec (.windowWrite 0x68 v) s = .next { s with hwin := v.toNat }) ∧
      (v.toNat % 2 ^ 30 ≠ 0 ∨ 2 ^ 47 < v.toNat → exec (.windowWrite 0x68 v) s = .next s) ∧
      (s.faultTab = [] → exec (.windowWrite 0x70 v) s = .next { s with hrcb := v.toNat }) ∧
      (∀ k, k < 4 → s.astat ≠ 1 → ∃ n : BitVec 256, exec (.windowWrite (0x100 + 8 * k) v) s = .next { s with nonce := n } ∧
        n.extractLsb' (64 * k) 64 = v ∧ ∀ j, j < 4 → j ≠ k → n.extractLsb' (64 * j) 64 = s.nonce.extractLsb' (64 * j) 64) ∧
      exec (.windowWrite 0x50 v) s = exec (.accept (v.setWidth 128)) s ∧
      exec (.windowWrite 0x58 v) s = exec (.accept (v.setWidth 128 <<< 64)) s ∧
      exec (.windowWrite 0x120 v) s = exec (.areq (v.setWidth 32)) s ∧
      (∀ q, q < 16384 → exec (.windowWrite (0x20000 + 8 * q) v) s = exec (.doorbell q (v.setWidth 32)) s) ∧
      (∀ off, off < 0x68 → off ≠ 0x50 → off ≠ 0x58 → off ≠ 0x60 → exec (.windowWrite off v) s = .next s)) ∧
    (∀ v : DWord, v.getLsbD 2 = false →
      (v.getLsbD 0 = true → exec (.windowWrite 0x60 v) s = exec .coldStart s) ∧
      (v.getLsbD 0 = false → v.getLsbD 1 = true → exec (.windowWrite 0x60 v) s = exec .warmStart s) ∧
      (v.getLsbD 0 = false → v.getLsbD 1 = false → exec (.windowWrite 0x60 v) s = .next s)) ∧
    exec (.windowWrite 0x60 4) s = exec .advanceSvn s ∧
    (s.stState ≠ 1 → ∀ off v, off ≠ 0x60 → exec (.windowWrite off v) s = .next s) ∧
    ((∀ k, k < 64 → s.windowByte k = BitVec.ofNat 8 (startRecord s / 2 ^ (8 * k))) ∧
     (∀ k, k < 8 → ∀ d, (h : d < 4) →
       s.windowByte (0x220 + 8 * d + k) = BitVec.ofNat 8 (s.errUnc[d] / 2 ^ (8 * k))) ∧
     (s.stState = 1 → (∀ k, k < 16 → s.windowByte (0x40 + k) = s.offer.extractLsb' (8 * k) 8) ∧
       ∀ k, k < 8 → s.windowByte (0x240 + k) = s.hflt.extractLsb' (8 * k) 8) ∧
     (∀ off, 0x60 ≤ off → off < 0x68 → s.windowByte off = 0) ∧
     (s.stState ≠ 1 → ∀ off, 64 ≤ off → off < 0x200 ∨ 0x240 ≤ off → s.windowByte off = 0)) ∧
    (∀ off len, hostAccessOk off len = true → s.hostVia = none → exec (.hostApertureRead off len) s =
      .next { s.rcbFound s.hrcb with hflt := s.hflt + 1, hostData := List.replicate len 0xFF }) ∧
    (∀ off bs, hostAccessOk off bs.length = true → s.hostVia = none →
      exec (.hostApertureWrite off bs) s = .next { s.rcbFound s.hrcb with hflt := s.hflt + 1 }) ∧
    (∀ off len bs, hostAccessOk off len = false → exec (.hostApertureRead off len) s = .next s ∧
      (bs.length = len → exec (.hostApertureWrite off bs) s = .next s)) ∧
    (∀ v off, s.hostVia = some v →
      let u := v.ofHost
      (∀ len, hostAccessOk off len = true →
        (∀ s1 bs, rdVA s u s.b (2 ^ 30 + off) len = .ok (s1, bs) → exec (.hostApertureRead off len) s = .next { s1 with hostData := bs }) ∧
        (∀ c a, rdVA s u s.b (2 ^ 30 + off) len = .error (.cause c, a) → exec (.hostApertureRead off len) s =
          .next { s with hflt := s.hflt + 1, hostData := List.replicate len 0xFF })) ∧
      (∀ bs, hostAccessOk off bs.length = true →
        (∀ s1, wrVA s u s.b (2 ^ 30 + off) bs = (s1, none) → exec (.hostApertureWrite off bs) s = .next s1) ∧
        (∀ s1 c a n, wrVA s u s.b (2 ^ 30 + off) bs = (s1, some (.cause c, a, n)) →
          exec (.hostApertureWrite off bs) s = .next { s with hflt := s.hflt + 1 }))) ∧
    (s.stState = 1 → s.astat ≠ 1 →
      exec (.areq 1) s = .next { s with astat := 1, pending := s.pending ++ [.attestationReport] }) ∧
    (∀ v, v ≠ 1 ∨ s.astat = 1 → exec (.areq v) s = .next s) ∧
    (s.astat ≠ 1 → exec .attestationReport s = .next s) ∧
    (s.astat = 1 → ∃ t, exec .attestationReport s = .next t ∧ t.astat = 2 ∧ t = { s with astat := 2, report := t.report } ∧
      t.report.extractLsb' 0 32 = 0x0C644154#32 ∧ t.report.extractLsb' 32 16 = 1#16 ∧ t.report.extractLsb' 64 256 = s.nonce ∧
      t.report.extractLsb' 320 256 = s.fwdig ∧ t.report.extractLsb' 576 16 = s.svn ∧ t.report.extractLsb' 640 128 = s.accept)

/-- R403 to R408: flits, key epochs and the loss of a link, for every port and every flit, whatever its tag and state are. A
port that is down does nothing. After eight failures of one flit none is taken: the link goes down. A flit that fails its
CRC, its tag or its TYPE puts a retry request on the wire, and counts a failure unless it is a later flit of a burst that a
resend is awaited for; one out of sequence, or that comes while a resend is awaited, changes nothing; one that is taken
clears the failures, takes its credits and removes what it acknowledges from the replay buffer. A data flit for this package
is delivered once, with its source; one for another is sent on where a route has room; a retry request has the rest of the
replay buffer sent again; a key update begins the peer's next epoch. After 2^40 flits REKEY sends a key update and begins the
next epoch. After eight failures the link is down for good: every command with a row in its replay buffer posts PEER_LOST,
none of their rows stays on any link, and nothing is written. The model's choices: log 9, 87, 105, and 132 (which flit of a
burst counts as a failure: R405 counts eight consecutive failures of one flit). -/
def Obligations.FabricCompletes : Prop :=
  ∀ (s : State) (id : Nat) (p : Port), s.ports.find? (·.id == id) = some p →
    (∀ (f : BitVec 2048) (i : Instr) (type' : Nat) (ord : Bool), (i, type', ord) ∈
        [(Instr.flitData id f, 1, true), (.flitIdle id f, 0, false), (.flitRetryRequest id f, 2, false), (.flitKeyUpdate id f, 3, true)] →
      let taken := flitType f = type' ∧ ((p.retry = false ∧ ord = false) ∨ p.seqOf f = p.rx)
      let n := (BitVec.ofNat 16 (flitAck f + 1) - p.acked.extractLsb' 0 16).toNat
      let left := p.replay.drop (if n ≤ p.replay.length then n else 0)
      let text := p.plaintext s.pkg f
      let g := acknowledge id f (s.setPort { p with rx := if ord then p.rx + 1 else p.rx, fails := 0, retry := false })
      (p.up = true → 8 ≤ p.fails → exec i s = exec (.linkDown id) s) ∧
      (p.up = false ∨ p.fails < 8 → ∃ t x, exec i s = .next t ∧ t.ports.find? (·.id == id) = some x ∧ x.up = p.up ∧
          (p.up = false → t = s) ∧
          (p.up = true → p.flitFails s.pkg f = true → t = s.setPort x ∧
            x.fails = p.fails + (if p.retry = true ∧ p.seqOf f ≠ p.rx then 0 else 1) ∧ x.retry = true ∧ x.rx = p.rx ∧
            x.tx = p.tx ∧ x.replay = p.replay ∧ x.delivered = p.delivered ∧
            ∃ r, x.wire = p.wire ++ [r] ∧ flitType r = 2 ∧ flitAck r = (p.rx - 1).toNat % 65536) ∧
          (p.up = true → p.flitFails s.pkg f = false → ¬taken → t = s) ∧
          (p.up = true → p.flitFails s.pkg f = false → taken →
            x.fails = 0 ∧ x.retry = false ∧ x.rx = (if ord then p.rx + 1 else p.rx) ∧ x.credits = p.credits + flitCrd f ∧
            x.rxEpoch = (if type' = 3 then p.rxEpoch + 1 else p.rxEpoch) ∧
            x.delivered = (if type' = 1 ∧ flitDpkg f = s.pkg then p.delivered ++ [(flitSpkg f, text)] else p.delivered) ∧
            (type' ≠ 1 → x.replay = left ∧ x.wire = (if type' = 2 then p.wire ++ left.map (·.flit) else p.wire) ∧ x.tx = p.tx) ∧
            (∀ k, type' = 1 → flitDpkg f ≠ s.pkg → g.routeTo (flitDpkg f) = some k → (g.port k).replay.length < 512 →
              t = g.setPort ((g.port k).send s.pkg (flitSpkg f) (flitDpkg f) 1 text none))))) ∧
    (∃ t, exec (.rekey id) s = .next t ∧
      (p.up = true ∧ 2 ^ 40 ≤ (p.tx - p.since).toNat ∧ p.replay.length < 512 → ∃ x : Port, t = s.setPort x ∧ x.epoch = p.epoch + 1 ∧
        x.since = p.tx + 1 ∧ x.tx = p.tx + 1 ∧ x.rxEpoch = p.rxEpoch ∧ x.up = true ∧
        ∃ r, x.replay = p.replay ++ [r] ∧ flitType r.flit = 3 ∧ flitSeq r.flit = p.tx.toNat % 65536 ∧ x.wire = p.wire ++ [r.flit]) ∧
      (p.up = false ∨ (p.tx - p.since).toNat < 2 ^ 40 ∨ 512 ≤ p.replay.length → t = s)) ∧
    (∃ t, exec (.linkDown id) s = .next t ∧
      (p.up = false ∨ p.fails < 8 → t = s) ∧
      (p.up = true → 8 ≤ p.fails → (∃ x, t.ports.find? (·.id == id) = some x ∧ x.up = false ∧ x.replay = [] ∧ x.delivered = p.delivered) ∧
        t.far = s.far ∧
        ∀ r ∈ p.replay.filterMap (·.row),
          (∀ q ∈ t.ports, ∀ y ∈ q.replay, ∀ z, y.row = some z → ¬(z.core = r.core ∧ z.bur = r.bur ∧ z.unit = r.unit ∧ z.seq = r.seq)) ∧
          (r.current s = true → r.unit < 4 → ∃ b, t.find r.core r.bur = some b ∧ ∃ e ∈ (b.unit r.unit).out, e.extractLsb' 8 8 = 0x0A#8)))

/-! ## The step, the encodings and the machine as a whole (spec/01, spec/10, spec/16) -/

/-- R22, R177, R254 and R367: a step whose choice falls on the control core of the running front burner, with no watch bypass
armed and no PC stop due. The bytes at its program counter are decoded and the instruction is carried out as `exec` says;
bytes that decode to no instruction take their decoding fault there. After a prefix, the step goes on at the next word and no
other party comes between: the prefix is refused with its cause where the instruction does not take it, and is used up by the
instruction where it does. That the next choice is 0 says which of the parties that may act is taken, and that it makes all
its row accesses in this act (log 7, 107). -/
def Obligations.StepRunsTheDecodedInstruction : Prop :=
  ∀ s : State, s.b.status = .running → s.b.front = true → s.b.bypass = [] → s.b.pcStops = false →
    let pc := s.b.pc.toNat
    (∀ rest, s.b.pfx = none → s.sched = 0 :: rest →
      let g : State := { s with sched := rest, pace := 0 }
      (∀ i n, decode (s.b.textAt pc) = .ok (i, n) → step s = match exec i g with
        | .next t => .next { t with pace := 0 }
        | r => r) ∧
      (∀ e, decode (s.b.textAt pc) = .error e → step s = .next { takeTrap
        { c := decCause e, addr := BitVec.ofNat 64 (decTaddr e pc), iaddr := s.b.pc, cutPc := s.b.pc } g with pace := 0 })) ∧
    (∀ w, s.b.pfx = some w →
      let g : State := { s with pace := 0 }
      (∀ i n, decode (s.b.textAt (pc + 4)) = .ok (i, n) →
        (∀ c, pfxCause w i = some c → step s = .next { takeTrap { c := c, iaddr := s.b.pc, cutPc := s.b.pc } g with pace := 0 }) ∧
        (pfxCause w i = none → ∀ t, exec i g = .next t → step s = .next { t.modB fun b => { b with pfx := none } with pace := 0 })) ∧
      (∀ e, decode (s.b.textAt (pc + 4)) = .error e → step s = .next { takeTrap
        { c := decCause e, addr := BitVec.ofNat 64 (decTaddr e (pc + 4)), iaddr := s.b.pc, cutPc := s.b.pc } g with pace := 0 }))

/-- Words that spec/10 to spec/16 write out, decoded: scalar arithmetic with its literals, a wide literal, a compare, branches
back and forward, a loop, fences, system words, control registers, and queue instructions with their second words. A word of
zeros is no instruction, and reserved words are refused by name. -/
def Obligations.DecodeWords : Prop :=
  (decode [0x18A04300] = .ok (.add 3 (.reg 1) (.imm 5), 1) ∧
    decode [0x1FC04300, 0x20] = .ok (.add 3 (.reg 1) (.lit 32), 2) ∧
    decode [0x0FC10208, 0xFFFFFFFF] = .ok (.addw 2 (.reg 4) (.lit 0xFFFFFFFF), 2) ∧
    decode [0x0FE10208, 0xFFFFFFFF, 0] = .ok (.addw 2 (.reg 4) (.lit2 0xFFFFFFFF), 3) ∧
    decode [0xE080C704] = .ok (.cmp 7 (.reg 3) (.reg 4), 1) ∧
    decode [0x0FC04310, 0x3FC00000] = .ok (.fadd 3 (.reg 1) (.lit 0x3FC00000), 2) ∧
    decode [0xD040430C] = .ok (.avgp8 3 (.reg 1) (.reg 2), 1) ∧
    decode [0x0000C114] = .ok (.li 1 3, 1)) ∧
  (decode [0x105FF81C] = .ok (.bcZ (.reg 2) (-8), 1) ∧
    decode [0xFFFFFC20] = .ok (.b (-4), 1) ∧
    decode [0x181FFB28] = .ok (.loop 1 (.imm 0) (-5), 1) ∧
    decode [0x88110018] = .ok (.fence 4 0, 1) ∧
    decode [0x381000F4] = .ok (.halt, 1) ∧
    decode [0x582140F4] = .ok (.ltrWrite 1 (.reg 5), 1) ∧
    decode [0x463006F4] = .ok (.ctlr 6 49, 1)) ∧
  (decode [0x01819185, 0x0019001F] = .ok (.vfadd
      { rm := 0, wsel := 1, psel := 4, swzb := 2, swza := 0, b := 7, a := 12, d := 100, hb := 0, ha := 1 }, 2) ∧
    decode [0x01200099, 3] = .ok (.mpush
      { rm := 0, wsel := 0, psel := 0, swzb := 0, swza := 0, b := 0, a := 9, d := 0, hb := 0, ha := 0 }, 2) ∧
    decode [0x0180C0C1, 0x0003F80B, 0x100] = .ok (.vld
      { rm := 0, wsel := 0, psel := 1, b := .lit 0x100, off := 2, d := 12, a := .reg 3 }, 3) ∧
    decode [0x001000E1, 0x00010157] = .ok (.mma
      { rm := 0, wsel := 0, psel := 0, b := .imm 0, oa := 2, ob := 5, acc := 1, d := 0, a := .imm 0 }, 2) ∧
    decode [0x2FF400E9, 0x00010007, 0x1FF86000] = .ok (.esend
      { wsel := 0, psel := 0, c := .imm 0, imm8 := 1, d := 11, a := .lit 0x1FF86000, b := .imm 0, unit := 0 }, 3)) ∧
  decode [0] = .error .illegalOpcode ∧ decode [0x3E8] = .error .illegalWord

/-- R14 to R21 and R22: for every well-formed instruction that has words, with every operand at every value its encoding admits,
decoding the words of its encoding, whatever follows them, gives it back with their number. (A row of the table that is no
instruction word, a device's or an engine's act, encodes to no word.) -/
def Obligations.EncodingRoundTrip : Prop :=
  ∀ (i : Instr) (rest : List Word), i.WellFormed = true → encode i ≠ [] →
    decode (encode i ++ rest) = .ok (i, (encode i).length)

/-- R1 and R5, and the model's form of memory (log 3, 4): whatever the next act is, a step keeps the canonical form of mesh
storage, of physical memory and of every other package's memory, so that memories that read alike are equal data. -/
def Obligations.StepKeepsMemory : Prop :=
  ∀ s t : State, s.memWf = true → step s = .next t → t.memWf = true

/-- R399, R402, R410 and R411: what a cold start leaves. The start is ready and cold, at step 9, without a code; every SRAM row
and every byte of LPDDR 6 reads 0; no burner is bound; tables, pantry, groups, TLBs, bindings and launches are empty; no
queue is enabled and no ACCEPT has been written. Its memory is in canonical form. No port is up; each die has its trace
unit, whose ring the firmware has still to name; and a step whose choice falls on the clock only counts a cycle. The
model's choices: log 1, 3, 4, 5, 6, 104. -/
def Obligations.ResetState : Prop :=
  let r := State.reset
  r.memWf = true ∧ r.stState = 1 ∧ r.stKind = 1 ∧ r.stStep = 9 ∧ r.stCode = 0 ∧ r.stDetail = 0 ∧
    (∀ a, r.mesh.get a = 0) ∧ (∀ a, r.phys.get a = 0) ∧
    (∀ b ∈ r.all, b.bound = false) ∧ r.saved = [] ∧ r.tensors = [] ∧ r.pantry = [] ∧ r.groups = [] ∧ r.tlb = [] ∧ r.launches = [] ∧
    r.leases = [] ∧ r.faultTab = [] ∧ (∀ k, (r.pent k 0 0).st = .opened) ∧
    (∀ q, (r.wq q).setup.getLsbD 192 = false) ∧ r.accept = 0 ∧ r.acceptDone = false ∧
    (∀ p ∈ r.ports, p.up = false) ∧ r.trace.map (fun u => (u.die, u.n)) = [(0, 0), (1, 0), (2, 0), (3, 0)] ∧
    step { r with sched := [4] } = .next { r with cycle := 1 }
end

