-- ==== Sys2Proof/Laws/Memory.lean ====
section
/-! SUPPORT. Byte memory: every memory operation keeps the canonical form, a byte read after a write, and the same of what the
shared operations of the device do to mesh storage and physical memory. -/
namespace Sys2Proof.Machine

/-! ## The canonical form -/

theorem Memory.wfFrom_mono {lo hi : Nat} (h : lo ≤ hi) : ∀ {m : Memory}, Memory.wfFrom hi m = true → Memory.wfFrom lo m = true
  | [], _ => rfl
  | (k, v) :: t, w => by
    simp only [Memory.wfFrom, Bool.and_eq_true, decide_eq_true_eq] at w ⊢
    exact ⟨⟨by omega, w.1.2⟩, w.2⟩

@[simp] theorem Memory.wf_nil : Memory.wf [] = true := rfl

theorem Memory.wfFrom_cons (lo k : Nat) (v : Byte) (t : Memory) :
    Memory.wfFrom lo ((k, v) :: t) = true ↔ lo ≤ k ∧ v ≠ unlisted ∧ Memory.wfFrom (k + 1) t = true := by
  simp [Memory.wfFrom, unlisted, and_assoc]

/-- Writing at or below the first cell. -/
theorem Memory.set_lt {k a : Nat} (h : a < k) (x v : Byte) (t : Memory) :
    Memory.set ((k, x) :: t) a v = if v = unlisted then (k, x) :: t else (a, v) :: (k, x) :: t := by
  simp [Memory.set, h]
theorem Memory.set_eq (k : Nat) (x v : Byte) (t : Memory) :
    Memory.set ((k, x) :: t) k v = if v = unlisted then t else (k, v) :: t := by
  simp [Memory.set]
theorem Memory.set_gt {k a : Nat} (h : k < a) (x v : Byte) (t : Memory) :
    Memory.set ((k, x) :: t) a v = (k, x) :: Memory.set t a v := by
  simp [Memory.set, Nat.lt_asymm h, Nat.ne_of_gt h]
theorem Memory.get_cons (k a : Nat) (v : Byte) (t : Memory) :
    Memory.get ((k, v) :: t) a = if k = a then v else Memory.get t a := rfl

theorem Memory.wfFrom_set : ∀ (m : Memory) (lo a : Nat) (v : Byte), Memory.wfFrom lo m = true → lo ≤ a →
    Memory.wfFrom lo (m.set a v) = true
  | [], lo, a, v, _, h => by
    by_cases hv : v = unlisted
    · rw [Memory.set, if_pos hv]; rfl
    · rw [Memory.set, if_neg hv, Memory.wfFrom_cons]; exact ⟨h, hv, rfl⟩
  | (k, x) :: t, lo, a, v, w, h => by
    have hw := (Memory.wfFrom_cons lo k x t).1 w
    rcases Nat.lt_trichotomy a k with ha | ha | ha
    · rw [Memory.set_lt ha]
      by_cases hv : v = unlisted
      · rw [if_pos hv]; exact w
      · rw [if_neg hv, Memory.wfFrom_cons, Memory.wfFrom_cons]; exact ⟨h, hv, by omega, hw.2⟩
    · subst ha
      rw [Memory.set_eq]
      by_cases hv : v = unlisted
      · rw [if_pos hv]; exact Memory.wfFrom_mono (by omega) hw.2.2
      · rw [if_neg hv, Memory.wfFrom_cons]; exact ⟨h, hv, hw.2.2⟩
    · rw [Memory.set_gt ha, Memory.wfFrom_cons]
      exact ⟨hw.1, hw.2.1, Memory.wfFrom_set t (k + 1) a v hw.2.2 ha⟩

/-- A write of one byte keeps the canonical form. -/
theorem Memory.wf_set {m : Memory} (h : m.wf = true) (a : Nat) (v : Byte) : (m.set a v).wf = true :=
  Memory.wfFrom_set m 0 a v h (Nat.zero_le a)

theorem Memory.wf_setBytes : ∀ (bs : List Byte) {m : Memory} (a : Nat), m.wf = true → (m.setBytes a bs).wf = true
  | [], _, _, h => h
  | v :: t, _, a, h => Memory.wf_setBytes t (a + 1) (Memory.wf_set h a v)

theorem Memory.wf_setWord {m : Memory} (h : m.wf = true) (a : Nat) (w : Word) : (m.setWord a w).wf = true :=
  Memory.wf_setBytes _ a h

theorem Memory.wfFrom_filter (p : Host.Cell → Bool) : ∀ (m : Memory) (lo : Nat), Memory.wfFrom lo m = true →
    Memory.wfFrom lo (m.filter p) = true
  | [], _, _ => rfl
  | (k, v) :: t, lo, w => by
    simp only [Memory.wfFrom, Bool.and_eq_true, decide_eq_true_eq] at w
    by_cases h : p (k, v)
    · simp only [List.filter_cons, h, if_true, Memory.wfFrom, Bool.and_eq_true, decide_eq_true_eq]
      exact ⟨w.1, Memory.wfFrom_filter p t (k + 1) w.2⟩
    · simp only [List.filter_cons, h]
      exact Memory.wfFrom_mono (by omega) (Memory.wfFrom_filter p t (k + 1) w.2)

theorem Memory.wf_filter {m : Memory} (h : m.wf = true) (p : Host.Cell → Bool) : Memory.wf (m.filter p) = true :=
  Memory.wfFrom_filter p m 0 h

theorem Memory.wf_clear {m : Memory} (h : m.wf = true) (lo n : Nat) : (m.clear lo n).wf = true := Memory.wf_filter h _

/-- A fold of operations that keep the canonical form keeps it. -/
theorem Memory.wf_foldl {α : Type} (f : Memory → α → Memory) (hf : ∀ m x, m.wf = true → (f m x).wf = true) :
    ∀ (xs : List α) {m : Memory}, m.wf = true → (xs.foldl f m).wf = true
  | [], _, h => h
  | x :: xs, _, h => Memory.wf_foldl f hf xs (hf _ x h)

/-! ## Reading after writing -/

theorem Memory.get_of_lt : ∀ (m : Memory) (lo a : Nat), Memory.wfFrom lo m = true → a < lo → m.get a = unlisted
  | [], _, _, _, _ => rfl
  | (k, v) :: t, lo, a, w, h => by
    have hw := (Memory.wfFrom_cons lo k v t).1 w
    rw [Memory.get_cons, if_neg (by omega)]
    exact Memory.get_of_lt t (k + 1) a hw.2.2 (by omega)

theorem Memory.get_set_from : ∀ (m : Memory) (lo a x : Nat) (v : Byte), Memory.wfFrom lo m = true →
    (m.set a v).get x = if x = a then v else m.get x
  | [], lo, a, x, v, _ => by
    by_cases hv : v = unlisted
    · rw [Memory.set, if_pos hv]
      by_cases hx : x = a
      · rw [if_pos hx, hv]; rfl
      · rw [if_neg hx]
    · rw [Memory.set, if_neg hv, Memory.get_cons]
      by_cases hx : x = a
      · rw [if_pos hx, if_pos hx.symm]
      · rw [if_neg hx, if_neg (Ne.symm hx)]
  | (k, y) :: t, lo, a, x, v, w => by
    have hw := (Memory.wfFrom_cons lo k y t).1 w
    have low : ∀ z, z < k + 1 → Memory.get t z = unlisted := fun z hz => Memory.get_of_lt t (k + 1) z hw.2.2 hz
    rcases Nat.lt_trichotomy a k with ha | ha | ha
    · rw [Memory.set_lt ha]
      by_cases hv : v = unlisted
      · rw [if_pos hv]
        by_cases hx : x = a
        · rw [if_pos hx, hx, Memory.get_cons, if_neg (by omega), low a (by omega), hv]
        · rw [if_neg hx]
      · rw [if_neg hv, Memory.get_cons]
        by_cases hx : x = a
        · rw [if_pos hx, if_pos hx.symm]
        · rw [if_neg hx, if_neg (Ne.symm hx)]
    · subst ha
      rw [Memory.set_eq]
      by_cases hv : v = unlisted
      · rw [if_pos hv]
        by_cases hx : x = a
        · rw [if_pos hx, hx, low a (by omega), hv]
        · rw [if_neg hx, Memory.get_cons, if_neg (Ne.symm hx)]
      · rw [if_neg hv, Memory.get_cons]
        by_cases hx : x = a
        · rw [if_pos hx, if_pos hx.symm]
        · rw [if_neg hx, if_neg (Ne.symm hx), Memory.get_cons, if_neg (Ne.symm hx)]
    · rw [Memory.set_gt ha, Memory.get_cons, Memory.get_cons]
      by_cases hx : k = x
      · rw [if_pos hx, if_neg (by omega), if_pos hx]
      · rw [if_neg hx, if_neg hx, Memory.get_set_from t (k + 1) a x v hw.2.2]

/-- A byte read after a byte written: its value there, the old byte everywhere else. -/
theorem Memory.get_set {m : Memory} (h : m.wf = true) (a x : Nat) (v : Byte) :
    (m.set a v).get x = if x = a then v else m.get x :=
  Memory.get_set_from m 0 a x v h

theorem Memory.get_setBytes : ∀ (bs : List Byte) {m : Memory} (a x : Nat), m.wf = true →
    (m.setBytes a bs).get x = if a ≤ x ∧ x < a + bs.length then bs.getD (x - a) 0 else m.get x
  | [], m, a, x, _ => by
    rw [if_neg fun h => by have h2 := h.2; rw [List.length_nil] at h2; omega]
    rfl
  | v :: t, m, a, x, h => by
    rw [Memory.setBytes, Memory.get_setBytes t (a + 1) x (Memory.wf_set h a v), Memory.get_set h]
    simp only [List.length_cons]
    by_cases hxa : x = a
    · subst hxa
      rw [if_neg (by omega), if_pos rfl, if_pos (by omega)]
      simp
    · by_cases hr : a + 1 ≤ x ∧ x < a + 1 + t.length
      · rw [if_pos hr, if_pos (by omega)]
        obtain ⟨n, hn⟩ : ∃ n, x - a = n + 1 := ⟨x - a - 1, by omega⟩
        rw [hn, List.getD_cons_succ, show x - (a + 1) = n by omega]
      · rw [if_neg hr, if_neg hxa, if_neg (by omega)]

/-- Bytes outside a written run are as before. -/
theorem Memory.get_setBytes_outside {m : Memory} (h : m.wf = true) (bs : List Byte) {a x : Nat}
    (hx : x < a ∨ a + bs.length ≤ x) : (m.setBytes a bs).get x = m.get x := by
  rw [Memory.get_setBytes bs a x h, if_neg (by omega)]

/-- Bytes outside a written word are as before. -/
theorem Memory.get_setWord_outside {m : Memory} (h : m.wf = true) (w : Word) {a x : Nat} (hx : x < a ∨ a + 4 ≤ x) :
    (m.setWord a w).get x = m.get x :=
  Memory.get_setBytes_outside h (wordBytes w) hx

/-- A word read where it was written. -/
theorem Memory.word_setWord {m : Memory} (h : m.wf = true) (a : Nat) (w : Word) : (m.setWord a w).word a = w := by
  simp only [Memory.word, Memory.setWord, Memory.get_setBytes _ _ _ h, wordBytes, List.length_cons, List.length_nil]
  rw [if_pos (by omega), if_pos (by omega), if_pos (by omega), if_pos (by omega)]
  rw [show a + 3 - a = 3 by omega, show a + 2 - a = 2 by omega, show a + 1 - a = 1 by omega, show a - a = 0 by omega]
  simp only [List.getD_cons_zero, List.getD_cons_succ]
  ext i hi
  simp only [BitVec.getElem_append, BitVec.getElem_extractLsb']
  split
  · rw [BitVec.getLsbD_eq_getElem (by omega)]; congr 1; omega
  · split
    · rw [← BitVec.getLsbD_eq_getElem]; congr 1; omega
    · split
      · rw [← BitVec.getLsbD_eq_getElem]; congr 1; omega
      · rw [← BitVec.getLsbD_eq_getElem]; congr 1; omega

theorem Memory.ext_from : ∀ (m n : Memory) (lo : Nat), Memory.wfFrom lo m = true → Memory.wfFrom lo n = true →
    (∀ a, m.get a = n.get a) → m = n
  | [], [], _, _, _, _ => rfl
  | [], (k, v) :: t, lo, _, w, h => by
    have := h k
    rw [Memory.get_cons, if_pos rfl] at this
    exact absurd this.symm ((Memory.wfFrom_cons lo k v t).1 w).2.1
  | (k, v) :: t, [], lo, w, _, h => by
    have := h k
    rw [Memory.get_cons, if_pos rfl] at this
    exact absurd this ((Memory.wfFrom_cons lo k v t).1 w).2.1
  | (k, v) :: t, (j, u) :: r, lo, w, z, h => by
    have hw := (Memory.wfFrom_cons lo k v t).1 w
    have hz := (Memory.wfFrom_cons lo j u r).1 z
    have hk := h k
    have hj := h j
    rw [Memory.get_cons, Memory.get_cons, if_pos rfl] at hk
    rw [Memory.get_cons, Memory.get_cons, if_pos (rfl : j = j)] at hj
    rcases Nat.lt_trichotomy k j with hl | hl | hl
    · rw [if_neg (by omega), Memory.get_of_lt r (j + 1) k hz.2.2 (by omega)] at hk
      exact absurd hk hw.2.1
    · subst hl
      rw [if_pos rfl] at hk
      rw [hk, Memory.ext_from t r (k + 1) hw.2.2 hz.2.2 fun a => by
        by_cases ha : a = k
        · rw [ha, Memory.get_of_lt t (k + 1) k hw.2.2 (by omega), Memory.get_of_lt r (k + 1) k hz.2.2 (by omega)]
        · have := h a
          rwa [Memory.get_cons, Memory.get_cons, if_neg (Ne.symm ha), if_neg (Ne.symm ha)] at this]
    · rw [if_neg (by omega), Memory.get_of_lt t (k + 1) j hw.2.2 (by omega)] at hj
      exact absurd hj.symm hz.2.1

/-- Two memories in canonical form that read alike are equal data. -/
theorem Memory.ext_of_wf {m n : Memory} (hm : m.wf = true) (hn : n.wf = true) (h : ∀ a, m.get a = n.get a) : m = n :=
  Memory.ext_from m n 0 hm hn h

end Sys2Proof.Machine
end

