-- ==== Sys2Proof/Laws/Keeps.lean ====
section
/-! SUPPORT. The shared operations of the device keep every memory in canonical form. -/
namespace Sys2Proof.Machine

/-- Where s has its memories in canonical form, t has. -/
def Keeps (s t : State) : Prop := s.memWf = true → t.memWf = true

theorem State.memWf_iff (s : State) :
    s.memWf = true ↔ s.mesh.wf = true ∧ s.phys.wf = true ∧ ∀ p ∈ s.far, p.2.wf = true := by
  simp [State.memWf, and_assoc]

theorem Keeps.refl (s : State) : Keeps s s := id
theorem Keeps.trans {s t u : State} (h : Keeps s t) (g : Keeps t u) : Keeps s u := fun w => g (h w)

theorem Keeps.ite {c : Prop} [Decidable c] {s t u : State} (h : Keeps s t) (g : Keeps s u) : Keeps s (if c then t else u) := by
  split <;> assumption

theorem Keeps.fst_ite {c : Prop} [Decidable c] {β : Type} {s : State} {x y : State × β} (h : Keeps s x.1) (g : Keeps s y.1) :
    Keeps s (if c then x else y).1 := by
  split <;> assumption

/-- A state with the same memories. -/
theorem Keeps.same {s t : State} (hm : t.mesh = s.mesh) (hp : t.phys = s.phys) (hf : t.far = s.far) : Keeps s t := by
  intro h
  rw [State.memWf, hm, hp, hf]
  exact h

/-- A state with the same memories but mesh storage. -/
theorem Keeps.mesh {s t : State} (hm : s.mesh.wf = true → t.mesh.wf = true) (hp : t.phys = s.phys) (hf : t.far = s.far) :
    Keeps s t := by
  intro h
  rw [State.memWf_iff] at h ⊢
  rw [hp, hf]
  exact ⟨hm h.1, h.2⟩

/-- A state with the same memories but physical memory. -/
theorem Keeps.phys {s t : State} (hm : t.mesh = s.mesh) (hp : s.phys.wf = true → t.phys.wf = true) (hf : t.far = s.far) :
    Keeps s t := by
  intro h
  rw [State.memWf_iff] at h ⊢
  rw [hm, hf]
  exact ⟨h.1, hp h.2.1, h.2.2⟩

/-- A fold of steps that keep the form keeps it. -/
theorem Keeps.foldl {α : Type} (f : State → α → State) (hf : ∀ s x, Keeps s (f s x)) :
    ∀ (xs : List α) (s : State), Keeps s (xs.foldl f s)
  | [], s => Keeps.refl s
  | x :: xs, s => (hf s x).trans (Keeps.foldl f hf xs (f s x))

/-! ## Registers and parties -/

theorem keeps_modB (s : State) (f : Burner → Burner) : Keeps s (s.modB f) := Keeps.same rfl rfl rfl
theorem keeps_modWhere (s : State) (p : Burner → Bool) (f : Burner → Burner) : Keeps s (s.modWhere p f) := Keeps.same rfl rfl rfl
theorem keeps_modAt (s : State) (core bur : Nat) (f : Burner → Burner) : Keeps s (s.modAt core bur f) := keeps_modWhere s _ f

theorem focus_same (s : State) (core bur : Nat) :
    (s.focus core bur).mesh = s.mesh ∧ (s.focus core bur).phys = s.phys ∧ (s.focus core bur).far = s.far := by
  unfold State.focus
  split
  · exact ⟨rfl, rfl, rfl⟩
  · split <;> exact ⟨rfl, rfl, rfl⟩
theorem keeps_focus (s : State) (core bur : Nat) : Keeps s (s.focus core bur) :=
  Keeps.same (focus_same s core bur).1 (focus_same s core bur).2.1 (focus_same s core bur).2.2

theorem keeps_draw (s : State) : Keeps s s.draw.2 := by
  unfold State.draw
  split <;> exact Keeps.same rfl rfl rfl

theorem keeps_retireAt (p : Word) (s : State) : Keeps s (retireAt p s) := Keeps.same rfl rfl rfl

/-! ## Rows -/

theorem keeps_setLane (s : State) (core row lane : Nat) (w : Word) : Keeps s (s.setLane core row lane w) :=
  Keeps.mesh (fun h => Memory.wf_setWord h _ _) rfl rfl
theorem keeps_setLanes (s : State) (core row lane : Nat) (ws : List Word) : Keeps s (s.setLanes core row lane ws) :=
  Keeps.mesh (fun h => Memory.wf_setBytes _ _ h) rfl rfl

theorem keeps_performStore (s : State) : Keeps s s.performStore := by
  unfold State.performStore
  split
  · exact Keeps.refl s
  · exact Keeps.mesh (fun h => Memory.wf_setWord h _ _) rfl rfl
theorem keeps_drain (s : State) : Keeps s s.drain :=
  Keeps.mesh (fun h => Memory.wf_foldl _ (fun _ _ g => Memory.wf_setWord g _ _) _ h) rfl rfl

/-! ## Physical memory and translation -/

theorem keeps_physWrite (s : State) (key pa : Nat) (bs : List Byte) : Keeps s (s.physWrite key pa bs) := by
  unfold State.physWrite
  split
  · exact Keeps.refl s
  · split
    · exact Keeps.phys rfl (fun h => Memory.wf_setBytes _ _ h) rfl
    · refine Keeps.phys rfl (fun h => Memory.wf_setBytes _ _ ?_) rfl
      split
      · exact h
      · exact Memory.wf_setBytes _ _ h

/-- Rows written one after the other under key 0 change physical memory, its keys and its poison, and nothing else. -/
theorem writeRows_same : ∀ (bs : List (List Byte)) (a : Nat) (s : State), ∃ p k q,
    (bs.foldl (fun (x : Nat × State) row => (x.1 + 256, x.2.physWrite 0 x.1 row)) (a, s)).2 = { s with phys := p, rowKey := k, poison := q }
  | [], _, s => ⟨s.phys, s.rowKey, s.poison, rfl⟩
  | r :: bs, a, s => by
    obtain ⟨p, k, q, h⟩ := writeRows_same bs (a + 256) (s.physWrite 0 a r)
    rw [List.foldl_cons, h]
    unfold State.physWrite
    split
    · exact ⟨p, k, q, rfl⟩
    · split <;> exact ⟨p, k, q, rfl⟩
theorem keeps_writeRows : ∀ (bs : List (List Byte)) (a : Nat) (s : State),
    Keeps s (bs.foldl (fun (x : Nat × State) row => (x.1 + 256, x.2.physWrite 0 x.1 row)) (a, s)).2
  | [], _, s => Keeps.refl s
  | r :: bs, a, s => (keeps_physWrite s 0 a r).trans (keeps_writeRows bs (a + 256) _)
/-- Writing a save area (R378) changes physical memory, its keys and its poison, and nothing else. -/
theorem writeArea_same (k : SaveKind) (s : State) : ∃ p r q, writeArea k s = { s with phys := p, rowKey := r, poison := q } :=
  writeRows_same _ _ s
theorem keeps_writeArea (k : SaveKind) (s : State) : Keeps s (writeArea k s) := keeps_writeRows _ _ s

theorem keeps_useBypass (v : Via) (a : Access) (va : Nat) (e : DWord) (s : State) : Keeps s (useBypass v a va e s) := by
  unfold useBypass
  exact Keeps.ite (keeps_modB s _) (Keeps.refl s)

theorem keeps_tlbPut (core : Option Nat) (x : TlbEnt) (s : State) : Keeps s (s.tlbPut core x) := by
  unfold State.tlbPut
  dsimp only
  split <;> exact Keeps.same rfl rfl rfl
theorem keeps_tlbFill (v : Via) (x : TlbEnt) (s : State) : Keeps s (s.tlbFill v x) :=
  (keeps_tlbPut none x s).trans (Keeps.ite (keeps_tlbPut _ _ _) (Keeps.refl _))
theorem keeps_ptePut (s : State) (pa : Nat) (e : DWord) : Keeps s (s.ptePut pa e) := by
  unfold State.ptePut
  exact Keeps.ite (Keeps.refl s) (Keeps.phys rfl (fun g => Memory.wf_setBytes _ _ g) rfl)

/-- A walk that finds its leaf (R48): the state keeps its memories in canonical form. -/
theorem keeps_missWalk {s : State} {v : Via} {a : Access} {va : Nat} {t : State} {pa : Nat} {e : DWord}
    (h : missWalkBy s v a va = .ok (t, pa, e)) : Keeps s t := by
  unfold missWalkBy at h
  dsimp only at h
  split at h
  · cases h
  · split at h
    · cases h
    · cases h
      exact (Keeps.ite (Keeps.refl s) (keeps_ptePut s _ _)).trans ((keeps_tlbFill _ _ _).trans (keeps_useBypass _ _ _ _ _))

theorem keeps_translate {s : State} {v : Via} {a : Access} {va : Nat} {t : State} {pa : Nat} {e : DWord}
    (h : translateBy s v a va = .ok (t, pa, e)) : Keeps s t := by
  unfold translateBy at h
  dsimp only at h
  split at h
  · split at h
    · cases h
    · cases h; exact keeps_useBypass _ _ _ _ s
  · split at h
    · split at h
      · cases h
      · cases h
        exact (Keeps.ite (keeps_tlbPut _ _ _) (Keeps.refl s)).trans (keeps_useBypass _ _ _ _ _)
    · exact keeps_missWalk h

theorem keeps_locate {s : State} {v : Via} {b : Burner} {a : Access} {va : Nat} {t : State} {l : Loc}
    (h : locateBy s v b a va = .ok (t, l)) : Keeps s t := by
  unfold locateBy at h
  split at h
  · cases h
  · split at h
    · split at h
      · cases h
      · split at h
        · cases h
        · cases h; exact Keeps.refl s
    · split at h
      · cases h
      · split at h
        · cases h
        · rename_i ht
          have k := keeps_translate ht
          split at h
          · cases h; exact k
          · split at h
            · cases h; exact k.trans (Keeps.same rfl rfl rfl)
            · split at h
              · cases h
              · cases h; exact k

theorem keeps_locWrite (s : State) (l : Loc) (va : Nat) (bs : List Byte) : Keeps s (s.locWrite l va bs) := by
  unfold State.locWrite
  split
  · dsimp only
    split
    all_goals exact Keeps.mesh (fun h => Memory.wf_setBytes _ _ h) rfl rfl
  · exact keeps_physWrite s _ _ bs
  · exact Keeps.refl s

theorem keeps_readVA : ∀ (fuel : Nat) (s : State) (v : Via) (b : Burner) (va n : Nat) (t : State) (bs : List Byte),
    readVA s v b va n fuel = .ok (t, bs) → Keeps s t
  | 0, s, v, b, va, n, t, bs, h => by cases h; exact Keeps.refl s
  | fuel + 1, s, v, b, va, n, t, bs, h => by
    rw [readVA] at h
    split at h
    · cases h; exact Keeps.refl s
    · dsimp only at h
      split at h
      · cases h
      · split at h
        · cases h
        · rename_i hr
          cases h
          exact keeps_readVA fuel _ _ _ _ _ _ _ hr
      · split at h
        · cases h
        · rename_i hl
          split at h
          · cases h
          · rename_i hr
            cases h
            exact (keeps_locate hl).trans (keeps_readVA fuel _ _ _ _ _ _ _ hr)
theorem keeps_rdVA {s : State} {v : Via} {b : Burner} {va n : Nat} {t : State} {bs : List Byte}
    (h : rdVA s v b va n = .ok (t, bs)) : Keeps s t := keeps_readVA _ s v b va n t bs h

theorem keeps_writeVA : ∀ (fuel : Nat) (s : State) (v : Via) (b : Burner) (va : Nat) (bs : List Byte) (done : Nat),
    Keeps s (writeVA s v b va bs fuel done).1
  | 0, s, _, _, _, _, _ => Keeps.refl s
  | fuel + 1, s, v, b, va, bs, done => by
    rw [writeVA]
    split
    · exact Keeps.refl s
    · dsimp only
      split
      · exact Keeps.refl s
      · exact keeps_writeVA fuel _ _ _ _ _ _
      · split
        · exact Keeps.refl s
        · rename_i hl
          exact ((keeps_locate hl).trans (keeps_locWrite _ _ _ _)).trans (keeps_writeVA fuel _ _ _ _ _ _)
theorem keeps_wrVA (s : State) (v : Via) (b : Burner) (va : Nat) (bs : List Byte) : Keeps s (wrVA s v b va bs).1 :=
  keeps_writeVA _ s v b va bs 0

/-! ## Traces, fronts and traps -/

/-- A trace record whose enable bit is off leaves the state as it is (R389). -/
theorem traceEv_off (s : State) (bit kind : Nat) (pc a bb c : Word) (h : s.b.trctl.getLsbD bit = false) :
    s.traceEv bit kind pc a bb c = s := by simp [State.traceEv, h]

/-- A trace record goes to its unit's buffer, or is counted lost (R391): nothing but the trace units and loss counts changes. -/
theorem keeps_traceEv (s : State) (bit kind : Nat) (pc a bb c : Word) : Keeps s (s.traceEv bit kind pc a bb c) := by
  unfold State.traceEv
  split
  · exact Keeps.refl s
  · dsimp only
    split <;> exact Keeps.same rfl rfl rfl

theorem keeps_surrender (s : State) : Keeps s s.surrender := by
  unfold State.surrender
  dsimp only
  split
  · exact Keeps.same rfl rfl rfl
  · exact Keeps.refl s

theorem keeps_leaveFront (s : State) (why : Nat) : Keeps s (s.leaveFront why) := by
  unfold State.leaveFront
  dsimp only
  split
  · refine Keeps.trans ?_ (keeps_traceEv _ _ _ _ _ _ _)
    refine Keeps.trans ?_ (keeps_surrender _); exact Keeps.same rfl rfl rfl
  · refine Keeps.trans ?_ (keeps_surrender _); exact Keeps.same rfl rfl rfl

theorem keeps_passFront (s : State) (why : Nat) : Keeps s (s.passFront why) := by
  unfold State.passFront
  refine (((keeps_modB s Burner.withdrawLoad).trans (keeps_drain _)).trans (keeps_leaveFront _ why)).trans ?_
  dsimp only
  split
  · exact Keeps.refl _
  · split
    · exact (keeps_modAt _ _ _ _).trans ((keeps_focus _ _ _).trans ((keeps_traceEv _ _ _ _ _ _ _).trans (keeps_focus _ _ _)))
    · exact Keeps.refl _

/-- Taking a trap keeps the form. -/
theorem keeps_takeTrap (i : TrapInfo) (s : State) : Keeps s (takeTrap i s) := by
  unfold takeTrap
  refine ((keeps_drain s).trans (keeps_modB _ Burner.withdrawLoad)).trans ?_
  dsimp only
  split
  · refine Keeps.trans ?_ (keeps_passFront _ _); refine Keeps.trans ?_ (keeps_traceEv _ _ _ _ _ _ _); exact Keeps.same rfl rfl rfl
  · refine Keeps.trans ?_ (keeps_traceEv _ _ _ _ _ _ _); exact Keeps.same rfl rfl rfl

theorem keeps_leaveHandler (s : State) : Keeps s (leaveHandler s) :=
  (keeps_traceEv s _ _ _ _ _ _).trans (Keeps.same rfl rfl rfl)

theorem keeps_lendWait (k : WaitK) (s : State) : Keeps s (lendWait k s) := by
  unfold lendWait
  dsimp only
  split
  · exact keeps_modB s _
  · split
    · exact (keeps_modB s _).trans ((keeps_passFront _ _).trans (keeps_modB _ _))
    · exact keeps_modB s _

/-! ## Control-core instructions -/

/-- An outcome whose next state, if it is one, keeps the form. -/
def KeepsO (s : State) (o : Outcome) : Prop := ∀ t, o = .next t → Keeps s t

theorem KeepsO.next {s t : State} (h : Keeps s t) : KeepsO s (.next t) := fun _ e => by cases e; exact h

theorem keeps_ccOp (rs : List (BitVec 6)) (n : Nat) (f : Burner → Burner) (s : State) : KeepsO s (ccOp rs n f s) := by
  unfold ccOp
  split
  · exact KeepsO.next (Keeps.refl s)
  · exact KeepsO.next (Keeps.same rfl rfl rfl)

theorem keeps_ccDo {rs : List (BitVec 6)} {f : State → Outcome} {s : State} (h : KeepsO s (f s)) : KeepsO s (ccDo rs f s) := by
  unfold ccDo
  split
  · exact KeepsO.next (Keeps.refl s)
  · exact h

theorem keeps_ccFault (c : Cause) (addr : DWord) (s : State) : KeepsO s (ccFault c addr s) := KeepsO.next (keeps_takeTrap _ s)

theorem keeps_ccRelease {f : State → Outcome} {s : State} (h : KeepsO s.drain (f s.drain)) : KeepsO s (ccRelease f s) := by
  unfold ccRelease
  split
  · exact KeepsO.next (Keeps.refl s)
  · exact fun t e => (keeps_drain s).trans (h t e)

theorem keeps_serialise {f : State → Outcome} {s : State} (h : KeepsO s (f s)) : KeepsO s (serialise f s) := by
  unfold serialise
  split
  · exact KeepsO.next (Keeps.refl s)
  · exact h

/-- The machine after reset has every memory in canonical form. -/
theorem reset_memWf : State.reset.memWf = true := rfl

end Sys2Proof.Machine
end

