-- ==== Sys2Proof/Laws/State.lean ====
section
/-! SUPPORT. What each update of the state and of a burner leaves in every field, so that no proof unfolds a record update. -/
namespace Sys2Proof.Machine


/-! ### State.modB -/

@[simp] theorem State.modB_others (s : State) (f : Burner → Burner) : (s.modB f).others = s.others := rfl
@[simp] theorem State.modB_mesh (s : State) (f : Burner → Burner) : (s.modB f).mesh = s.mesh := rfl
@[simp] theorem State.modB_phys (s : State) (f : Burner → Burner) : (s.modB f).phys = s.phys := rfl
@[simp] theorem State.modB_far (s : State) (f : Burner → Burner) : (s.modB f).far = s.far := rfl
@[simp] theorem State.modB_peerSum (s : State) (f : Burner → Burner) : (s.modB f).peerSum = s.peerSum := rfl
@[simp] theorem State.modB_owed (s : State) (f : Burner → Burner) : (s.modB f).owed = s.owed := rfl
@[simp] theorem State.modB_rowKey (s : State) (f : Burner → Burner) : (s.modB f).rowKey = s.rowKey := rfl
@[simp] theorem State.modB_poison (s : State) (f : Burner → Burner) : (s.modB f).poison = s.poison := rfl
@[simp] theorem State.modB_reports (s : State) (f : Burner → Burner) : (s.modB f).reports = s.reports := rfl
@[simp] theorem State.modB_tlb (s : State) (f : Burner → Burner) : (s.modB f).tlb = s.tlb := rfl
@[simp] theorem State.modB_tensors (s : State) (f : Burner → Burner) : (s.modB f).tensors = s.tensors := rfl
@[simp] theorem State.modB_pantry (s : State) (f : Burner → Burner) : (s.modB f).pantry = s.pantry := rfl
@[simp] theorem State.modB_pstep (s : State) (f : Burner → Burner) : (s.modB f).pstep = s.pstep := rfl
@[simp] theorem State.modB_groups (s : State) (f : Burner → Burner) : (s.modB f).groups = s.groups := rfl
@[simp] theorem State.modB_leases (s : State) (f : Burner → Burner) : (s.modB f).leases = s.leases := rfl
@[simp] theorem State.modB_fenced (s : State) (f : Burner → Burner) : (s.modB f).fenced = s.fenced := rfl
@[simp] theorem State.modB_slots (s : State) (f : Burner → Burner) : (s.modB f).slots = s.slots := rfl
@[simp] theorem State.modB_mail (s : State) (f : Burner → Burner) : (s.modB f).mail = s.mail := rfl
@[simp] theorem State.modB_launches (s : State) (f : Burner → Burner) : (s.modB f).launches = s.launches := rfl
@[simp] theorem State.modB_nextLaunch (s : State) (f : Burner → Burner) : (s.modB f).nextLaunch = s.nextLaunch := rfl
@[simp] theorem State.modB_saved (s : State) (f : Burner → Burner) : (s.modB f).saved = s.saved := rfl
@[simp] theorem State.modB_savedRows (s : State) (f : Burner → Burner) : (s.modB f).savedRows = s.savedRows := rfl
@[simp] theorem State.modB_faultTab (s : State) (f : Burner → Burner) : (s.modB f).faultTab = s.faultTab := rfl
@[simp] theorem State.modB_wqs (s : State) (f : Burner → Burner) : (s.modB f).wqs = s.wqs := rfl
@[simp] theorem State.modB_lastQ (s : State) (f : Burner → Burner) : (s.modB f).lastQ = s.lastQ := rfl
@[simp] theorem State.modB_accept (s : State) (f : Burner → Burner) : (s.modB f).accept = s.accept := rfl
@[simp] theorem State.modB_acceptDone (s : State) (f : Burner → Burner) : (s.modB f).acceptDone = s.acceptDone := rfl
@[simp] theorem State.modB_offer (s : State) (f : Burner → Burner) : (s.modB f).offer = s.offer := rfl
@[simp] theorem State.modB_hwin (s : State) (f : Burner → Burner) : (s.modB f).hwin = s.hwin := rfl
@[simp] theorem State.modB_hrcb (s : State) (f : Burner → Burner) : (s.modB f).hrcb = s.hrcb := rfl
@[simp] theorem State.modB_nonce (s : State) (f : Burner → Burner) : (s.modB f).nonce = s.nonce := rfl
@[simp] theorem State.modB_astat (s : State) (f : Burner → Burner) : (s.modB f).astat = s.astat := rfl
@[simp] theorem State.modB_hflt (s : State) (f : Burner → Burner) : (s.modB f).hflt = s.hflt := rfl
@[simp] theorem State.modB_pfrBase (s : State) (f : Burner → Burner) : (s.modB f).pfrBase = s.pfrBase := rfl
@[simp] theorem State.modB_pfrN (s : State) (f : Burner → Burner) : (s.modB f).pfrN = s.pfrN := rfl
@[simp] theorem State.modB_errCorr (s : State) (f : Burner → Burner) : (s.modB f).errCorr = s.errCorr := rfl
@[simp] theorem State.modB_errUnc (s : State) (f : Burner → Burner) : (s.modB f).errUnc = s.errUnc := rfl
@[simp] theorem State.modB_report (s : State) (f : Burner → Burner) : (s.modB f).report = s.report := rfl
@[simp] theorem State.modB_stState (s : State) (f : Burner → Burner) : (s.modB f).stState = s.stState := rfl
@[simp] theorem State.modB_stKind (s : State) (f : Burner → Burner) : (s.modB f).stKind = s.stKind := rfl
@[simp] theorem State.modB_stStep (s : State) (f : Burner → Burner) : (s.modB f).stStep = s.stStep := rfl
@[simp] theorem State.modB_stCode (s : State) (f : Burner → Burner) : (s.modB f).stCode = s.stCode := rfl
@[simp] theorem State.modB_stDetail (s : State) (f : Burner → Burner) : (s.modB f).stDetail = s.stDetail := rfl
@[simp] theorem State.modB_svn (s : State) (f : Burner → Burner) : (s.modB f).svn = s.svn := rfl
@[simp] theorem State.modB_fwdig (s : State) (f : Burner → Burner) : (s.modB f).fwdig = s.fwdig := rfl
@[simp] theorem State.modB_minSvn (s : State) (f : Burner → Burner) : (s.modB f).minSvn = s.minSvn := rfl
@[simp] theorem State.modB_keys (s : State) (f : Burner → Burner) : (s.modB f).keys = s.keys := rfl
@[simp] theorem State.modB_keyGen (s : State) (f : Burner → Burner) : (s.modB f).keyGen = s.keyGen := rfl
@[simp] theorem State.modB_ports (s : State) (f : Burner → Burner) : (s.modB f).ports = s.ports := rfl
@[simp] theorem State.modB_trace (s : State) (f : Burner → Burner) : (s.modB f).trace = s.trace := rfl
@[simp] theorem State.modB_pkg (s : State) (f : Burner → Burner) : (s.modB f).pkg = s.pkg := rfl
@[simp] theorem State.modB_cxl (s : State) (f : Burner → Burner) : (s.modB f).cxl = s.cxl := rfl
@[simp] theorem State.modB_cycle (s : State) (f : Burner → Burner) : (s.modB f).cycle = s.cycle := rfl
@[simp] theorem State.modB_issued (s : State) (f : Burner → Burner) : (s.modB f).issued = s.issued := rfl
@[simp] theorem State.modB_throttle (s : State) (f : Burner → Burner) : (s.modB f).throttle = s.throttle := rfl
@[simp] theorem State.modB_hostData (s : State) (f : Burner → Burner) : (s.modB f).hostData = s.hostData := rfl
@[simp] theorem State.modB_pending (s : State) (f : Burner → Burner) : (s.modB f).pending = s.pending := rfl
@[simp] theorem State.modB_sched (s : State) (f : Burner → Burner) : (s.modB f).sched = s.sched := rfl
@[simp] theorem State.modB_tick (s : State) (f : Burner → Burner) : (s.modB f).tick = s.tick := rfl
@[simp] theorem State.modB_pace (s : State) (f : Burner → Burner) : (s.modB f).pace = s.pace := rfl
@[simp] theorem State.modB_trail (s : State) (f : Burner → Burner) : (s.modB f).trail = s.trail := rfl
@[simp] theorem State.modB_b (s : State) (f : Burner → Burner) : (s.modB f).b = f s.b := rfl

/-! ### State.setLane -/

@[simp] theorem State.setLane_b (s : State) (core row lane : Nat) (w : Word) : (s.setLane core row lane w).b = s.b := rfl
@[simp] theorem State.setLane_others (s : State) (core row lane : Nat) (w : Word) : (s.setLane core row lane w).others = s.others := rfl
@[simp] theorem State.setLane_phys (s : State) (core row lane : Nat) (w : Word) : (s.setLane core row lane w).phys = s.phys := rfl
@[simp] theorem State.setLane_far (s : State) (core row lane : Nat) (w : Word) : (s.setLane core row lane w).far = s.far := rfl
@[simp] theorem State.setLane_peerSum (s : State) (core row lane : Nat) (w : Word) : (s.setLane core row lane w).peerSum = s.peerSum := rfl
@[simp] theorem State.setLane_owed (s : State) (core row lane : Nat) (w : Word) : (s.setLane core row lane w).owed = s.owed := rfl
@[simp] theorem State.setLane_rowKey (s : State) (core row lane : Nat) (w : Word) : (s.setLane core row lane w).rowKey = s.rowKey := rfl
@[simp] theorem State.setLane_poison (s : State) (core row lane : Nat) (w : Word) : (s.setLane core row lane w).poison = s.poison := rfl
@[simp] theorem State.setLane_reports (s : State) (core row lane : Nat) (w : Word) : (s.setLane core row lane w).reports = s.reports := rfl
@[simp] theorem State.setLane_tlb (s : State) (core row lane : Nat) (w : Word) : (s.setLane core row lane w).tlb = s.tlb := rfl
@[simp] theorem State.setLane_tensors (s : State) (core row lane : Nat) (w : Word) : (s.setLane core row lane w).tensors = s.tensors := rfl
@[simp] theorem State.setLane_pantry (s : State) (core row lane : Nat) (w : Word) : (s.setLane core row lane w).pantry = s.pantry := rfl
@[simp] theorem State.setLane_pstep (s : State) (core row lane : Nat) (w : Word) : (s.setLane core row lane w).pstep = s.pstep := rfl
@[simp] theorem State.setLane_groups (s : State) (core row lane : Nat) (w : Word) : (s.setLane core row lane w).groups = s.groups := rfl
@[simp] theorem State.setLane_leases (s : State) (core row lane : Nat) (w : Word) : (s.setLane core row lane w).leases = s.leases := rfl
@[simp] theorem State.setLane_fenced (s : State) (core row lane : Nat) (w : Word) : (s.setLane core row lane w).fenced = s.fenced := rfl
@[simp] theorem State.setLane_slots (s : State) (core row lane : Nat) (w : Word) : (s.setLane core row lane w).slots = s.slots := rfl
@[simp] theorem State.setLane_mail (s : State) (core row lane : Nat) (w : Word) : (s.setLane core row lane w).mail = s.mail := rfl
@[simp] theorem State.setLane_launches (s : State) (core row lane : Nat) (w : Word) : (s.setLane core row lane w).launches = s.launches := rfl
@[simp] theorem State.setLane_nextLaunch (s : State) (core row lane : Nat) (w : Word) : (s.setLane core row lane w).nextLaunch = s.nextLaunch := rfl
@[simp] theorem State.setLane_saved (s : State) (core row lane : Nat) (w : Word) : (s.setLane core row lane w).saved = s.saved := rfl
@[simp] theorem State.setLane_savedRows (s : State) (core row lane : Nat) (w : Word) : (s.setLane core row lane w).savedRows = s.savedRows := rfl
@[simp] theorem State.setLane_faultTab (s : State) (core row lane : Nat) (w : Word) : (s.setLane core row lane w).faultTab = s.faultTab := rfl
@[simp] theorem State.setLane_wqs (s : State) (core row lane : Nat) (w : Word) : (s.setLane core row lane w).wqs = s.wqs := rfl
@[simp] theorem State.setLane_lastQ (s : State) (core row lane : Nat) (w : Word) : (s.setLane core row lane w).lastQ = s.lastQ := rfl
@[simp] theorem State.setLane_accept (s : State) (core row lane : Nat) (w : Word) : (s.setLane core row lane w).accept = s.accept := rfl
@[simp] theorem State.setLane_acceptDone (s : State) (core row lane : Nat) (w : Word) : (s.setLane core row lane w).acceptDone = s.acceptDone := rfl
@[simp] theorem State.setLane_offer (s : State) (core row lane : Nat) (w : Word) : (s.setLane core row lane w).offer = s.offer := rfl
@[simp] theorem State.setLane_hwin (s : State) (core row lane : Nat) (w : Word) : (s.setLane core row lane w).hwin = s.hwin := rfl
@[simp] theorem State.setLane_hrcb (s : State) (core row lane : Nat) (w : Word) : (s.setLane core row lane w).hrcb = s.hrcb := rfl
@[simp] theorem State.setLane_nonce (s : State) (core row lane : Nat) (w : Word) : (s.setLane core row lane w).nonce = s.nonce := rfl
@[simp] theorem State.setLane_astat (s : State) (core row lane : Nat) (w : Word) : (s.setLane core row lane w).astat = s.astat := rfl
@[simp] theorem State.setLane_hflt (s : State) (core row lane : Nat) (w : Word) : (s.setLane core row lane w).hflt = s.hflt := rfl
@[simp] theorem State.setLane_pfrBase (s : State) (core row lane : Nat) (w : Word) : (s.setLane core row lane w).pfrBase = s.pfrBase := rfl
@[simp] theorem State.setLane_pfrN (s : State) (core row lane : Nat) (w : Word) : (s.setLane core row lane w).pfrN = s.pfrN := rfl
@[simp] theorem State.setLane_errCorr (s : State) (core row lane : Nat) (w : Word) : (s.setLane core row lane w).errCorr = s.errCorr := rfl
@[simp] theorem State.setLane_errUnc (s : State) (core row lane : Nat) (w : Word) : (s.setLane core row lane w).errUnc = s.errUnc := rfl
@[simp] theorem State.setLane_report (s : State) (core row lane : Nat) (w : Word) : (s.setLane core row lane w).report = s.report := rfl
@[simp] theorem State.setLane_stState (s : State) (core row lane : Nat) (w : Word) : (s.setLane core row lane w).stState = s.stState := rfl
@[simp] theorem State.setLane_stKind (s : State) (core row lane : Nat) (w : Word) : (s.setLane core row lane w).stKind = s.stKind := rfl
@[simp] theorem State.setLane_stStep (s : State) (core row lane : Nat) (w : Word) : (s.setLane core row lane w).stStep = s.stStep := rfl
@[simp] theorem State.setLane_stCode (s : State) (core row lane : Nat) (w : Word) : (s.setLane core row lane w).stCode = s.stCode := rfl
@[simp] theorem State.setLane_stDetail (s : State) (core row lane : Nat) (w : Word) : (s.setLane core row lane w).stDetail = s.stDetail := rfl
@[simp] theorem State.setLane_svn (s : State) (core row lane : Nat) (w : Word) : (s.setLane core row lane w).svn = s.svn := rfl
@[simp] theorem State.setLane_fwdig (s : State) (core row lane : Nat) (w : Word) : (s.setLane core row lane w).fwdig = s.fwdig := rfl
@[simp] theorem State.setLane_minSvn (s : State) (core row lane : Nat) (w : Word) : (s.setLane core row lane w).minSvn = s.minSvn := rfl
@[simp] theorem State.setLane_keys (s : State) (core row lane : Nat) (w : Word) : (s.setLane core row lane w).keys = s.keys := rfl
@[simp] theorem State.setLane_keyGen (s : State) (core row lane : Nat) (w : Word) : (s.setLane core row lane w).keyGen = s.keyGen := rfl
@[simp] theorem State.setLane_ports (s : State) (core row lane : Nat) (w : Word) : (s.setLane core row lane w).ports = s.ports := rfl
@[simp] theorem State.setLane_trace (s : State) (core row lane : Nat) (w : Word) : (s.setLane core row lane w).trace = s.trace := rfl
@[simp] theorem State.setLane_pkg (s : State) (core row lane : Nat) (w : Word) : (s.setLane core row lane w).pkg = s.pkg := rfl
@[simp] theorem State.setLane_cxl (s : State) (core row lane : Nat) (w : Word) : (s.setLane core row lane w).cxl = s.cxl := rfl
@[simp] theorem State.setLane_cycle (s : State) (core row lane : Nat) (w : Word) : (s.setLane core row lane w).cycle = s.cycle := rfl
@[simp] theorem State.setLane_issued (s : State) (core row lane : Nat) (w : Word) : (s.setLane core row lane w).issued = s.issued := rfl
@[simp] theorem State.setLane_throttle (s : State) (core row lane : Nat) (w : Word) : (s.setLane core row lane w).throttle = s.throttle := rfl
@[simp] theorem State.setLane_hostData (s : State) (core row lane : Nat) (w : Word) : (s.setLane core row lane w).hostData = s.hostData := rfl
@[simp] theorem State.setLane_pending (s : State) (core row lane : Nat) (w : Word) : (s.setLane core row lane w).pending = s.pending := rfl
@[simp] theorem State.setLane_sched (s : State) (core row lane : Nat) (w : Word) : (s.setLane core row lane w).sched = s.sched := rfl
@[simp] theorem State.setLane_tick (s : State) (core row lane : Nat) (w : Word) : (s.setLane core row lane w).tick = s.tick := rfl
@[simp] theorem State.setLane_pace (s : State) (core row lane : Nat) (w : Word) : (s.setLane core row lane w).pace = s.pace := rfl
@[simp] theorem State.setLane_trail (s : State) (core row lane : Nat) (w : Word) : (s.setLane core row lane w).trail = s.trail := rfl
@[simp] theorem State.setLane_mesh (s : State) (core row lane : Nat) (w : Word) :
    (s.setLane core row lane w).mesh = s.mesh.setWord (rowAddr core row + 4 * lane) w := rfl

/-! ### State.setLanes -/

@[simp] theorem State.setLanes_b (s : State) (core row lane : Nat) (ws : List Word) : (s.setLanes core row lane ws).b = s.b := rfl
@[simp] theorem State.setLanes_others (s : State) (core row lane : Nat) (ws : List Word) : (s.setLanes core row lane ws).others = s.others := rfl
@[simp] theorem State.setLanes_phys (s : State) (core row lane : Nat) (ws : List Word) : (s.setLanes core row lane ws).phys = s.phys := rfl
@[simp] theorem State.setLanes_far (s : State) (core row lane : Nat) (ws : List Word) : (s.setLanes core row lane ws).far = s.far := rfl
@[simp] theorem State.setLanes_peerSum (s : State) (core row lane : Nat) (ws : List Word) : (s.setLanes core row lane ws).peerSum = s.peerSum := rfl
@[simp] theorem State.setLanes_owed (s : State) (core row lane : Nat) (ws : List Word) : (s.setLanes core row lane ws).owed = s.owed := rfl
@[simp] theorem State.setLanes_rowKey (s : State) (core row lane : Nat) (ws : List Word) : (s.setLanes core row lane ws).rowKey = s.rowKey := rfl
@[simp] theorem State.setLanes_poison (s : State) (core row lane : Nat) (ws : List Word) : (s.setLanes core row lane ws).poison = s.poison := rfl
@[simp] theorem State.setLanes_reports (s : State) (core row lane : Nat) (ws : List Word) : (s.setLanes core row lane ws).reports = s.reports := rfl
@[simp] theorem State.setLanes_tlb (s : State) (core row lane : Nat) (ws : List Word) : (s.setLanes core row lane ws).tlb = s.tlb := rfl
@[simp] theorem State.setLanes_tensors (s : State) (core row lane : Nat) (ws : List Word) : (s.setLanes core row lane ws).tensors = s.tensors := rfl
@[simp] theorem State.setLanes_pantry (s : State) (core row lane : Nat) (ws : List Word) : (s.setLanes core row lane ws).pantry = s.pantry := rfl
@[simp] theorem State.setLanes_pstep (s : State) (core row lane : Nat) (ws : List Word) : (s.setLanes core row lane ws).pstep = s.pstep := rfl
@[simp] theorem State.setLanes_groups (s : State) (core row lane : Nat) (ws : List Word) : (s.setLanes core row lane ws).groups = s.groups := rfl
@[simp] theorem State.setLanes_leases (s : State) (core row lane : Nat) (ws : List Word) : (s.setLanes core row lane ws).leases = s.leases := rfl
@[simp] theorem State.setLanes_fenced (s : State) (core row lane : Nat) (ws : List Word) : (s.setLanes core row lane ws).fenced = s.fenced := rfl
@[simp] theorem State.setLanes_slots (s : State) (core row lane : Nat) (ws : List Word) : (s.setLanes core row lane ws).slots = s.slots := rfl
@[simp] theorem State.setLanes_mail (s : State) (core row lane : Nat) (ws : List Word) : (s.setLanes core row lane ws).mail = s.mail := rfl
@[simp] theorem State.setLanes_launches (s : State) (core row lane : Nat) (ws : List Word) : (s.setLanes core row lane ws).launches = s.launches := rfl
@[simp] theorem State.setLanes_nextLaunch (s : State) (core row lane : Nat) (ws : List Word) : (s.setLanes core row lane ws).nextLaunch = s.nextLaunch := rfl
@[simp] theorem State.setLanes_saved (s : State) (core row lane : Nat) (ws : List Word) : (s.setLanes core row lane ws).saved = s.saved := rfl
@[simp] theorem State.setLanes_savedRows (s : State) (core row lane : Nat) (ws : List Word) : (s.setLanes core row lane ws).savedRows = s.savedRows := rfl
@[simp] theorem State.setLanes_faultTab (s : State) (core row lane : Nat) (ws : List Word) : (s.setLanes core row lane ws).faultTab = s.faultTab := rfl
@[simp] theorem State.setLanes_wqs (s : State) (core row lane : Nat) (ws : List Word) : (s.setLanes core row lane ws).wqs = s.wqs := rfl
@[simp] theorem State.setLanes_lastQ (s : State) (core row lane : Nat) (ws : List Word) : (s.setLanes core row lane ws).lastQ = s.lastQ := rfl
@[simp] theorem State.setLanes_accept (s : State) (core row lane : Nat) (ws : List Word) : (s.setLanes core row lane ws).accept = s.accept := rfl
@[simp] theorem State.setLanes_acceptDone (s : State) (core row lane : Nat) (ws : List Word) : (s.setLanes core row lane ws).acceptDone = s.acceptDone := rfl
@[simp] theorem State.setLanes_offer (s : State) (core row lane : Nat) (ws : List Word) : (s.setLanes core row lane ws).offer = s.offer := rfl
@[simp] theorem State.setLanes_hwin (s : State) (core row lane : Nat) (ws : List Word) : (s.setLanes core row lane ws).hwin = s.hwin := rfl
@[simp] theorem State.setLanes_hrcb (s : State) (core row lane : Nat) (ws : List Word) : (s.setLanes core row lane ws).hrcb = s.hrcb := rfl
@[simp] theorem State.setLanes_nonce (s : State) (core row lane : Nat) (ws : List Word) : (s.setLanes core row lane ws).nonce = s.nonce := rfl
@[simp] theorem State.setLanes_astat (s : State) (core row lane : Nat) (ws : List Word) : (s.setLanes core row lane ws).astat = s.astat := rfl
@[simp] theorem State.setLanes_hflt (s : State) (core row lane : Nat) (ws : List Word) : (s.setLanes core row lane ws).hflt = s.hflt := rfl
@[simp] theorem State.setLanes_pfrBase (s : State) (core row lane : Nat) (ws : List Word) : (s.setLanes core row lane ws).pfrBase = s.pfrBase := rfl
@[simp] theorem State.setLanes_pfrN (s : State) (core row lane : Nat) (ws : List Word) : (s.setLanes core row lane ws).pfrN = s.pfrN := rfl
@[simp] theorem State.setLanes_errCorr (s : State) (core row lane : Nat) (ws : List Word) : (s.setLanes core row lane ws).errCorr = s.errCorr := rfl
@[simp] theorem State.setLanes_errUnc (s : State) (core row lane : Nat) (ws : List Word) : (s.setLanes core row lane ws).errUnc = s.errUnc := rfl
@[simp] theorem State.setLanes_report (s : State) (core row lane : Nat) (ws : List Word) : (s.setLanes core row lane ws).report = s.report := rfl
@[simp] theorem State.setLanes_stState (s : State) (core row lane : Nat) (ws : List Word) : (s.setLanes core row lane ws).stState = s.stState := rfl
@[simp] theorem State.setLanes_stKind (s : State) (core row lane : Nat) (ws : List Word) : (s.setLanes core row lane ws).stKind = s.stKind := rfl
@[simp] theorem State.setLanes_stStep (s : State) (core row lane : Nat) (ws : List Word) : (s.setLanes core row lane ws).stStep = s.stStep := rfl
@[simp] theorem State.setLanes_stCode (s : State) (core row lane : Nat) (ws : List Word) : (s.setLanes core row lane ws).stCode = s.stCode := rfl
@[simp] theorem State.setLanes_stDetail (s : State) (core row lane : Nat) (ws : List Word) : (s.setLanes core row lane ws).stDetail = s.stDetail := rfl
@[simp] theorem State.setLanes_svn (s : State) (core row lane : Nat) (ws : List Word) : (s.setLanes core row lane ws).svn = s.svn := rfl
@[simp] theorem State.setLanes_fwdig (s : State) (core row lane : Nat) (ws : List Word) : (s.setLanes core row lane ws).fwdig = s.fwdig := rfl
@[simp] theorem State.setLanes_minSvn (s : State) (core row lane : Nat) (ws : List Word) : (s.setLanes core row lane ws).minSvn = s.minSvn := rfl
@[simp] theorem State.setLanes_keys (s : State) (core row lane : Nat) (ws : List Word) : (s.setLanes core row lane ws).keys = s.keys := rfl
@[simp] theorem State.setLanes_keyGen (s : State) (core row lane : Nat) (ws : List Word) : (s.setLanes core row lane ws).keyGen = s.keyGen := rfl
@[simp] theorem State.setLanes_ports (s : State) (core row lane : Nat) (ws : List Word) : (s.setLanes core row lane ws).ports = s.ports := rfl
@[simp] theorem State.setLanes_trace (s : State) (core row lane : Nat) (ws : List Word) : (s.setLanes core row lane ws).trace = s.trace := rfl
@[simp] theorem State.setLanes_pkg (s : State) (core row lane : Nat) (ws : List Word) : (s.setLanes core row lane ws).pkg = s.pkg := rfl
@[simp] theorem State.setLanes_cxl (s : State) (core row lane : Nat) (ws : List Word) : (s.setLanes core row lane ws).cxl = s.cxl := rfl
@[simp] theorem State.setLanes_cycle (s : State) (core row lane : Nat) (ws : List Word) : (s.setLanes core row lane ws).cycle = s.cycle := rfl
@[simp] theorem State.setLanes_issued (s : State) (core row lane : Nat) (ws : List Word) : (s.setLanes core row lane ws).issued = s.issued := rfl
@[simp] theorem State.setLanes_throttle (s : State) (core row lane : Nat) (ws : List Word) : (s.setLanes core row lane ws).throttle = s.throttle := rfl
@[simp] theorem State.setLanes_hostData (s : State) (core row lane : Nat) (ws : List Word) : (s.setLanes core row lane ws).hostData = s.hostData := rfl
@[simp] theorem State.setLanes_pending (s : State) (core row lane : Nat) (ws : List Word) : (s.setLanes core row lane ws).pending = s.pending := rfl
@[simp] theorem State.setLanes_sched (s : State) (core row lane : Nat) (ws : List Word) : (s.setLanes core row lane ws).sched = s.sched := rfl
@[simp] theorem State.setLanes_tick (s : State) (core row lane : Nat) (ws : List Word) : (s.setLanes core row lane ws).tick = s.tick := rfl
@[simp] theorem State.setLanes_pace (s : State) (core row lane : Nat) (ws : List Word) : (s.setLanes core row lane ws).pace = s.pace := rfl
@[simp] theorem State.setLanes_trail (s : State) (core row lane : Nat) (ws : List Word) : (s.setLanes core row lane ws).trail = s.trail := rfl
@[simp] theorem State.setLanes_mesh (s : State) (core row lane : Nat) (ws : List Word) :
    (s.setLanes core row lane ws).mesh = s.mesh.setBytes (rowAddr core row + 4 * lane) (ws.flatMap wordBytes) := rfl

/-! ### State.drain -/

@[simp] theorem State.drain_others (s : State)  : (s.drain).others = s.others := rfl
@[simp] theorem State.drain_phys (s : State)  : (s.drain).phys = s.phys := rfl
@[simp] theorem State.drain_far (s : State)  : (s.drain).far = s.far := rfl
@[simp] theorem State.drain_peerSum (s : State)  : (s.drain).peerSum = s.peerSum := rfl
@[simp] theorem State.drain_owed (s : State)  : (s.drain).owed = s.owed := rfl
@[simp] theorem State.drain_rowKey (s : State)  : (s.drain).rowKey = s.rowKey := rfl
@[simp] theorem State.drain_poison (s : State)  : (s.drain).poison = s.poison := rfl
@[simp] theorem State.drain_reports (s : State)  : (s.drain).reports = s.reports := rfl
@[simp] theorem State.drain_tlb (s : State)  : (s.drain).tlb = s.tlb := rfl
@[simp] theorem State.drain_tensors (s : State)  : (s.drain).tensors = s.tensors := rfl
@[simp] theorem State.drain_pantry (s : State)  : (s.drain).pantry = s.pantry := rfl
@[simp] theorem State.drain_pstep (s : State)  : (s.drain).pstep = s.pstep := rfl
@[simp] theorem State.drain_groups (s : State)  : (s.drain).groups = s.groups := rfl
@[simp] theorem State.drain_leases (s : State)  : (s.drain).leases = s.leases := rfl
@[simp] theorem State.drain_fenced (s : State)  : (s.drain).fenced = s.fenced := rfl
@[simp] theorem State.drain_slots (s : State)  : (s.drain).slots = s.slots := rfl
@[simp] theorem State.drain_mail (s : State)  : (s.drain).mail = s.mail := rfl
@[simp] theorem State.drain_launches (s : State)  : (s.drain).launches = s.launches := rfl
@[simp] theorem State.drain_nextLaunch (s : State)  : (s.drain).nextLaunch = s.nextLaunch := rfl
@[simp] theorem State.drain_saved (s : State)  : (s.drain).saved = s.saved := rfl
@[simp] theorem State.drain_savedRows (s : State)  : (s.drain).savedRows = s.savedRows := rfl
@[simp] theorem State.drain_faultTab (s : State)  : (s.drain).faultTab = s.faultTab := rfl
@[simp] theorem State.drain_wqs (s : State)  : (s.drain).wqs = s.wqs := rfl
@[simp] theorem State.drain_lastQ (s : State)  : (s.drain).lastQ = s.lastQ := rfl
@[simp] theorem State.drain_accept (s : State)  : (s.drain).accept = s.accept := rfl
@[simp] theorem State.drain_acceptDone (s : State)  : (s.drain).acceptDone = s.acceptDone := rfl
@[simp] theorem State.drain_offer (s : State)  : (s.drain).offer = s.offer := rfl
@[simp] theorem State.drain_hwin (s : State)  : (s.drain).hwin = s.hwin := rfl
@[simp] theorem State.drain_hrcb (s : State)  : (s.drain).hrcb = s.hrcb := rfl
@[simp] theorem State.drain_nonce (s : State)  : (s.drain).nonce = s.nonce := rfl
@[simp] theorem State.drain_astat (s : State)  : (s.drain).astat = s.astat := rfl
@[simp] theorem State.drain_hflt (s : State)  : (s.drain).hflt = s.hflt := rfl
@[simp] theorem State.drain_pfrBase (s : State)  : (s.drain).pfrBase = s.pfrBase := rfl
@[simp] theorem State.drain_pfrN (s : State)  : (s.drain).pfrN = s.pfrN := rfl
@[simp] theorem State.drain_errCorr (s : State)  : (s.drain).errCorr = s.errCorr := rfl
@[simp] theorem State.drain_errUnc (s : State)  : (s.drain).errUnc = s.errUnc := rfl
@[simp] theorem State.drain_report (s : State)  : (s.drain).report = s.report := rfl
@[simp] theorem State.drain_stState (s : State)  : (s.drain).stState = s.stState := rfl
@[simp] theorem State.drain_stKind (s : State)  : (s.drain).stKind = s.stKind := rfl
@[simp] theorem State.drain_stStep (s : State)  : (s.drain).stStep = s.stStep := rfl
@[simp] theorem State.drain_stCode (s : State)  : (s.drain).stCode = s.stCode := rfl
@[simp] theorem State.drain_stDetail (s : State)  : (s.drain).stDetail = s.stDetail := rfl
@[simp] theorem State.drain_svn (s : State)  : (s.drain).svn = s.svn := rfl
@[simp] theorem State.drain_fwdig (s : State)  : (s.drain).fwdig = s.fwdig := rfl
@[simp] theorem State.drain_minSvn (s : State)  : (s.drain).minSvn = s.minSvn := rfl
@[simp] theorem State.drain_keys (s : State)  : (s.drain).keys = s.keys := rfl
@[simp] theorem State.drain_keyGen (s : State)  : (s.drain).keyGen = s.keyGen := rfl
@[simp] theorem State.drain_ports (s : State)  : (s.drain).ports = s.ports := rfl
@[simp] theorem State.drain_trace (s : State)  : (s.drain).trace = s.trace := rfl
@[simp] theorem State.drain_pkg (s : State)  : (s.drain).pkg = s.pkg := rfl
@[simp] theorem State.drain_cxl (s : State)  : (s.drain).cxl = s.cxl := rfl
@[simp] theorem State.drain_cycle (s : State)  : (s.drain).cycle = s.cycle := rfl
@[simp] theorem State.drain_issued (s : State)  : (s.drain).issued = s.issued := rfl
@[simp] theorem State.drain_throttle (s : State)  : (s.drain).throttle = s.throttle := rfl
@[simp] theorem State.drain_hostData (s : State)  : (s.drain).hostData = s.hostData := rfl
@[simp] theorem State.drain_pending (s : State)  : (s.drain).pending = s.pending := rfl
@[simp] theorem State.drain_sched (s : State)  : (s.drain).sched = s.sched := rfl
@[simp] theorem State.drain_tick (s : State)  : (s.drain).tick = s.tick := rfl
@[simp] theorem State.drain_pace (s : State)  : (s.drain).pace = s.pace := rfl
@[simp] theorem State.drain_trail (s : State)  : (s.drain).trail = s.trail := rfl

/-! ### State.setGroup -/

@[simp] theorem State.setGroup_b (s : State) (g : Group) : (s.setGroup g).b = s.b := rfl
@[simp] theorem State.setGroup_others (s : State) (g : Group) : (s.setGroup g).others = s.others := rfl
@[simp] theorem State.setGroup_mesh (s : State) (g : Group) : (s.setGroup g).mesh = s.mesh := rfl
@[simp] theorem State.setGroup_phys (s : State) (g : Group) : (s.setGroup g).phys = s.phys := rfl
@[simp] theorem State.setGroup_far (s : State) (g : Group) : (s.setGroup g).far = s.far := rfl
@[simp] theorem State.setGroup_peerSum (s : State) (g : Group) : (s.setGroup g).peerSum = s.peerSum := rfl
@[simp] theorem State.setGroup_owed (s : State) (g : Group) : (s.setGroup g).owed = s.owed := rfl
@[simp] theorem State.setGroup_rowKey (s : State) (g : Group) : (s.setGroup g).rowKey = s.rowKey := rfl
@[simp] theorem State.setGroup_poison (s : State) (g : Group) : (s.setGroup g).poison = s.poison := rfl
@[simp] theorem State.setGroup_reports (s : State) (g : Group) : (s.setGroup g).reports = s.reports := rfl
@[simp] theorem State.setGroup_tlb (s : State) (g : Group) : (s.setGroup g).tlb = s.tlb := rfl
@[simp] theorem State.setGroup_tensors (s : State) (g : Group) : (s.setGroup g).tensors = s.tensors := rfl
@[simp] theorem State.setGroup_pantry (s : State) (g : Group) : (s.setGroup g).pantry = s.pantry := rfl
@[simp] theorem State.setGroup_pstep (s : State) (g : Group) : (s.setGroup g).pstep = s.pstep := rfl
@[simp] theorem State.setGroup_leases (s : State) (g : Group) : (s.setGroup g).leases = s.leases := rfl
@[simp] theorem State.setGroup_fenced (s : State) (g : Group) : (s.setGroup g).fenced = s.fenced := rfl
@[simp] theorem State.setGroup_slots (s : State) (g : Group) : (s.setGroup g).slots = s.slots := rfl
@[simp] theorem State.setGroup_mail (s : State) (g : Group) : (s.setGroup g).mail = s.mail := rfl
@[simp] theorem State.setGroup_launches (s : State) (g : Group) : (s.setGroup g).launches = s.launches := rfl
@[simp] theorem State.setGroup_nextLaunch (s : State) (g : Group) : (s.setGroup g).nextLaunch = s.nextLaunch := rfl
@[simp] theorem State.setGroup_saved (s : State) (g : Group) : (s.setGroup g).saved = s.saved := rfl
@[simp] theorem State.setGroup_savedRows (s : State) (g : Group) : (s.setGroup g).savedRows = s.savedRows := rfl
@[simp] theorem State.setGroup_faultTab (s : State) (g : Group) : (s.setGroup g).faultTab = s.faultTab := rfl
@[simp] theorem State.setGroup_wqs (s : State) (g : Group) : (s.setGroup g).wqs = s.wqs := rfl
@[simp] theorem State.setGroup_lastQ (s : State) (g : Group) : (s.setGroup g).lastQ = s.lastQ := rfl
@[simp] theorem State.setGroup_accept (s : State) (g : Group) : (s.setGroup g).accept = s.accept := rfl
@[simp] theorem State.setGroup_acceptDone (s : State) (g : Group) : (s.setGroup g).acceptDone = s.acceptDone := rfl
@[simp] theorem State.setGroup_offer (s : State) (g : Group) : (s.setGroup g).offer = s.offer := rfl
@[simp] theorem State.setGroup_hwin (s : State) (g : Group) : (s.setGroup g).hwin = s.hwin := rfl
@[simp] theorem State.setGroup_hrcb (s : State) (g : Group) : (s.setGroup g).hrcb = s.hrcb := rfl
@[simp] theorem State.setGroup_nonce (s : State) (g : Group) : (s.setGroup g).nonce = s.nonce := rfl
@[simp] theorem State.setGroup_astat (s : State) (g : Group) : (s.setGroup g).astat = s.astat := rfl
@[simp] theorem State.setGroup_hflt (s : State) (g : Group) : (s.setGroup g).hflt = s.hflt := rfl
@[simp] theorem State.setGroup_pfrBase (s : State) (g : Group) : (s.setGroup g).pfrBase = s.pfrBase := rfl
@[simp] theorem State.setGroup_pfrN (s : State) (g : Group) : (s.setGroup g).pfrN = s.pfrN := rfl
@[simp] theorem State.setGroup_errCorr (s : State) (g : Group) : (s.setGroup g).errCorr = s.errCorr := rfl
@[simp] theorem State.setGroup_errUnc (s : State) (g : Group) : (s.setGroup g).errUnc = s.errUnc := rfl
@[simp] theorem State.setGroup_report (s : State) (g : Group) : (s.setGroup g).report = s.report := rfl
@[simp] theorem State.setGroup_stState (s : State) (g : Group) : (s.setGroup g).stState = s.stState := rfl
@[simp] theorem State.setGroup_stKind (s : State) (g : Group) : (s.setGroup g).stKind = s.stKind := rfl
@[simp] theorem State.setGroup_stStep (s : State) (g : Group) : (s.setGroup g).stStep = s.stStep := rfl
@[simp] theorem State.setGroup_stCode (s : State) (g : Group) : (s.setGroup g).stCode = s.stCode := rfl
@[simp] theorem State.setGroup_stDetail (s : State) (g : Group) : (s.setGroup g).stDetail = s.stDetail := rfl
@[simp] theorem State.setGroup_svn (s : State) (g : Group) : (s.setGroup g).svn = s.svn := rfl
@[simp] theorem State.setGroup_fwdig (s : State) (g : Group) : (s.setGroup g).fwdig = s.fwdig := rfl
@[simp] theorem State.setGroup_minSvn (s : State) (g : Group) : (s.setGroup g).minSvn = s.minSvn := rfl
@[simp] theorem State.setGroup_keys (s : State) (g : Group) : (s.setGroup g).keys = s.keys := rfl
@[simp] theorem State.setGroup_keyGen (s : State) (g : Group) : (s.setGroup g).keyGen = s.keyGen := rfl
@[simp] theorem State.setGroup_ports (s : State) (g : Group) : (s.setGroup g).ports = s.ports := rfl
@[simp] theorem State.setGroup_trace (s : State) (g : Group) : (s.setGroup g).trace = s.trace := rfl
@[simp] theorem State.setGroup_pkg (s : State) (g : Group) : (s.setGroup g).pkg = s.pkg := rfl
@[simp] theorem State.setGroup_cxl (s : State) (g : Group) : (s.setGroup g).cxl = s.cxl := rfl
@[simp] theorem State.setGroup_cycle (s : State) (g : Group) : (s.setGroup g).cycle = s.cycle := rfl
@[simp] theorem State.setGroup_issued (s : State) (g : Group) : (s.setGroup g).issued = s.issued := rfl
@[simp] theorem State.setGroup_throttle (s : State) (g : Group) : (s.setGroup g).throttle = s.throttle := rfl
@[simp] theorem State.setGroup_hostData (s : State) (g : Group) : (s.setGroup g).hostData = s.hostData := rfl
@[simp] theorem State.setGroup_pending (s : State) (g : Group) : (s.setGroup g).pending = s.pending := rfl
@[simp] theorem State.setGroup_sched (s : State) (g : Group) : (s.setGroup g).sched = s.sched := rfl
@[simp] theorem State.setGroup_tick (s : State) (g : Group) : (s.setGroup g).tick = s.tick := rfl
@[simp] theorem State.setGroup_pace (s : State) (g : Group) : (s.setGroup g).pace = s.pace := rfl
@[simp] theorem State.setGroup_trail (s : State) (g : Group) : (s.setGroup g).trail = s.trail := rfl

/-! ### State.setLease -/

@[simp] theorem State.setLease_b (s : State) (l : Lease) : (s.setLease l).b = s.b := rfl
@[simp] theorem State.setLease_others (s : State) (l : Lease) : (s.setLease l).others = s.others := rfl
@[simp] theorem State.setLease_mesh (s : State) (l : Lease) : (s.setLease l).mesh = s.mesh := rfl
@[simp] theorem State.setLease_phys (s : State) (l : Lease) : (s.setLease l).phys = s.phys := rfl
@[simp] theorem State.setLease_far (s : State) (l : Lease) : (s.setLease l).far = s.far := rfl
@[simp] theorem State.setLease_peerSum (s : State) (l : Lease) : (s.setLease l).peerSum = s.peerSum := rfl
@[simp] theorem State.setLease_owed (s : State) (l : Lease) : (s.setLease l).owed = s.owed := rfl
@[simp] theorem State.setLease_rowKey (s : State) (l : Lease) : (s.setLease l).rowKey = s.rowKey := rfl
@[simp] theorem State.setLease_poison (s : State) (l : Lease) : (s.setLease l).poison = s.poison := rfl
@[simp] theorem State.setLease_reports (s : State) (l : Lease) : (s.setLease l).reports = s.reports := rfl
@[simp] theorem State.setLease_tlb (s : State) (l : Lease) : (s.setLease l).tlb = s.tlb := rfl
@[simp] theorem State.setLease_tensors (s : State) (l : Lease) : (s.setLease l).tensors = s.tensors := rfl
@[simp] theorem State.setLease_pantry (s : State) (l : Lease) : (s.setLease l).pantry = s.pantry := rfl
@[simp] theorem State.setLease_pstep (s : State) (l : Lease) : (s.setLease l).pstep = s.pstep := rfl
@[simp] theorem State.setLease_groups (s : State) (l : Lease) : (s.setLease l).groups = s.groups := rfl
@[simp] theorem State.setLease_fenced (s : State) (l : Lease) : (s.setLease l).fenced = s.fenced := rfl
@[simp] theorem State.setLease_slots (s : State) (l : Lease) : (s.setLease l).slots = s.slots := rfl
@[simp] theorem State.setLease_mail (s : State) (l : Lease) : (s.setLease l).mail = s.mail := rfl
@[simp] theorem State.setLease_launches (s : State) (l : Lease) : (s.setLease l).launches = s.launches := rfl
@[simp] theorem State.setLease_nextLaunch (s : State) (l : Lease) : (s.setLease l).nextLaunch = s.nextLaunch := rfl
@[simp] theorem State.setLease_saved (s : State) (l : Lease) : (s.setLease l).saved = s.saved := rfl
@[simp] theorem State.setLease_savedRows (s : State) (l : Lease) : (s.setLease l).savedRows = s.savedRows := rfl
@[simp] theorem State.setLease_faultTab (s : State) (l : Lease) : (s.setLease l).faultTab = s.faultTab := rfl
@[simp] theorem State.setLease_wqs (s : State) (l : Lease) : (s.setLease l).wqs = s.wqs := rfl
@[simp] theorem State.setLease_lastQ (s : State) (l : Lease) : (s.setLease l).lastQ = s.lastQ := rfl
@[simp] theorem State.setLease_accept (s : State) (l : Lease) : (s.setLease l).accept = s.accept := rfl
@[simp] theorem State.setLease_acceptDone (s : State) (l : Lease) : (s.setLease l).acceptDone = s.acceptDone := rfl
@[simp] theorem State.setLease_offer (s : State) (l : Lease) : (s.setLease l).offer = s.offer := rfl
@[simp] theorem State.setLease_hwin (s : State) (l : Lease) : (s.setLease l).hwin = s.hwin := rfl
@[simp] theorem State.setLease_hrcb (s : State) (l : Lease) : (s.setLease l).hrcb = s.hrcb := rfl
@[simp] theorem State.setLease_nonce (s : State) (l : Lease) : (s.setLease l).nonce = s.nonce := rfl
@[simp] theorem State.setLease_astat (s : State) (l : Lease) : (s.setLease l).astat = s.astat := rfl
@[simp] theorem State.setLease_hflt (s : State) (l : Lease) : (s.setLease l).hflt = s.hflt := rfl
@[simp] theorem State.setLease_pfrBase (s : State) (l : Lease) : (s.setLease l).pfrBase = s.pfrBase := rfl
@[simp] theorem State.setLease_pfrN (s : State) (l : Lease) : (s.setLease l).pfrN = s.pfrN := rfl
@[simp] theorem State.setLease_errCorr (s : State) (l : Lease) : (s.setLease l).errCorr = s.errCorr := rfl
@[simp] theorem State.setLease_errUnc (s : State) (l : Lease) : (s.setLease l).errUnc = s.errUnc := rfl
@[simp] theorem State.setLease_report (s : State) (l : Lease) : (s.setLease l).report = s.report := rfl
@[simp] theorem State.setLease_stState (s : State) (l : Lease) : (s.setLease l).stState = s.stState := rfl
@[simp] theorem State.setLease_stKind (s : State) (l : Lease) : (s.setLease l).stKind = s.stKind := rfl
@[simp] theorem State.setLease_stStep (s : State) (l : Lease) : (s.setLease l).stStep = s.stStep := rfl
@[simp] theorem State.setLease_stCode (s : State) (l : Lease) : (s.setLease l).stCode = s.stCode := rfl
@[simp] theorem State.setLease_stDetail (s : State) (l : Lease) : (s.setLease l).stDetail = s.stDetail := rfl
@[simp] theorem State.setLease_svn (s : State) (l : Lease) : (s.setLease l).svn = s.svn := rfl
@[simp] theorem State.setLease_fwdig (s : State) (l : Lease) : (s.setLease l).fwdig = s.fwdig := rfl
@[simp] theorem State.setLease_minSvn (s : State) (l : Lease) : (s.setLease l).minSvn = s.minSvn := rfl
@[simp] theorem State.setLease_keys (s : State) (l : Lease) : (s.setLease l).keys = s.keys := rfl
@[simp] theorem State.setLease_keyGen (s : State) (l : Lease) : (s.setLease l).keyGen = s.keyGen := rfl
@[simp] theorem State.setLease_ports (s : State) (l : Lease) : (s.setLease l).ports = s.ports := rfl
@[simp] theorem State.setLease_trace (s : State) (l : Lease) : (s.setLease l).trace = s.trace := rfl
@[simp] theorem State.setLease_pkg (s : State) (l : Lease) : (s.setLease l).pkg = s.pkg := rfl
@[simp] theorem State.setLease_cxl (s : State) (l : Lease) : (s.setLease l).cxl = s.cxl := rfl
@[simp] theorem State.setLease_cycle (s : State) (l : Lease) : (s.setLease l).cycle = s.cycle := rfl
@[simp] theorem State.setLease_issued (s : State) (l : Lease) : (s.setLease l).issued = s.issued := rfl
@[simp] theorem State.setLease_throttle (s : State) (l : Lease) : (s.setLease l).throttle = s.throttle := rfl
@[simp] theorem State.setLease_hostData (s : State) (l : Lease) : (s.setLease l).hostData = s.hostData := rfl
@[simp] theorem State.setLease_pending (s : State) (l : Lease) : (s.setLease l).pending = s.pending := rfl
@[simp] theorem State.setLease_sched (s : State) (l : Lease) : (s.setLease l).sched = s.sched := rfl
@[simp] theorem State.setLease_tick (s : State) (l : Lease) : (s.setLease l).tick = s.tick := rfl
@[simp] theorem State.setLease_pace (s : State) (l : Lease) : (s.setLease l).pace = s.pace := rfl
@[simp] theorem State.setLease_trail (s : State) (l : Lease) : (s.setLease l).trail = s.trail := rfl

/-! ### retireAt -/

@[simp] theorem retireAt_others (s : State) (pc : Word) : (retireAt pc s).others = s.others := rfl
@[simp] theorem retireAt_mesh (s : State) (pc : Word) : (retireAt pc s).mesh = s.mesh := rfl
@[simp] theorem retireAt_phys (s : State) (pc : Word) : (retireAt pc s).phys = s.phys := rfl
@[simp] theorem retireAt_far (s : State) (pc : Word) : (retireAt pc s).far = s.far := rfl
@[simp] theorem retireAt_peerSum (s : State) (pc : Word) : (retireAt pc s).peerSum = s.peerSum := rfl
@[simp] theorem retireAt_owed (s : State) (pc : Word) : (retireAt pc s).owed = s.owed := rfl
@[simp] theorem retireAt_rowKey (s : State) (pc : Word) : (retireAt pc s).rowKey = s.rowKey := rfl
@[simp] theorem retireAt_poison (s : State) (pc : Word) : (retireAt pc s).poison = s.poison := rfl
@[simp] theorem retireAt_reports (s : State) (pc : Word) : (retireAt pc s).reports = s.reports := rfl
@[simp] theorem retireAt_tlb (s : State) (pc : Word) : (retireAt pc s).tlb = s.tlb := rfl
@[simp] theorem retireAt_tensors (s : State) (pc : Word) : (retireAt pc s).tensors = s.tensors := rfl
@[simp] theorem retireAt_pantry (s : State) (pc : Word) : (retireAt pc s).pantry = s.pantry := rfl
@[simp] theorem retireAt_pstep (s : State) (pc : Word) : (retireAt pc s).pstep = s.pstep := rfl
@[simp] theorem retireAt_groups (s : State) (pc : Word) : (retireAt pc s).groups = s.groups := rfl
@[simp] theorem retireAt_leases (s : State) (pc : Word) : (retireAt pc s).leases = s.leases := rfl
@[simp] theorem retireAt_fenced (s : State) (pc : Word) : (retireAt pc s).fenced = s.fenced := rfl
@[simp] theorem retireAt_slots (s : State) (pc : Word) : (retireAt pc s).slots = s.slots := rfl
@[simp] theorem retireAt_mail (s : State) (pc : Word) : (retireAt pc s).mail = s.mail := rfl
@[simp] theorem retireAt_launches (s : State) (pc : Word) : (retireAt pc s).launches = s.launches := rfl
@[simp] theorem retireAt_nextLaunch (s : State) (pc : Word) : (retireAt pc s).nextLaunch = s.nextLaunch := rfl
@[simp] theorem retireAt_saved (s : State) (pc : Word) : (retireAt pc s).saved = s.saved := rfl
@[simp] theorem retireAt_savedRows (s : State) (pc : Word) : (retireAt pc s).savedRows = s.savedRows := rfl
@[simp] theorem retireAt_faultTab (s : State) (pc : Word) : (retireAt pc s).faultTab = s.faultTab := rfl
@[simp] theorem retireAt_wqs (s : State) (pc : Word) : (retireAt pc s).wqs = s.wqs := rfl
@[simp] theorem retireAt_lastQ (s : State) (pc : Word) : (retireAt pc s).lastQ = s.lastQ := rfl
@[simp] theorem retireAt_accept (s : State) (pc : Word) : (retireAt pc s).accept = s.accept := rfl
@[simp] theorem retireAt_acceptDone (s : State) (pc : Word) : (retireAt pc s).acceptDone = s.acceptDone := rfl
@[simp] theorem retireAt_offer (s : State) (pc : Word) : (retireAt pc s).offer = s.offer := rfl
@[simp] theorem retireAt_hwin (s : State) (pc : Word) : (retireAt pc s).hwin = s.hwin := rfl
@[simp] theorem retireAt_hrcb (s : State) (pc : Word) : (retireAt pc s).hrcb = s.hrcb := rfl
@[simp] theorem retireAt_nonce (s : State) (pc : Word) : (retireAt pc s).nonce = s.nonce := rfl
@[simp] theorem retireAt_astat (s : State) (pc : Word) : (retireAt pc s).astat = s.astat := rfl
@[simp] theorem retireAt_hflt (s : State) (pc : Word) : (retireAt pc s).hflt = s.hflt := rfl
@[simp] theorem retireAt_pfrBase (s : State) (pc : Word) : (retireAt pc s).pfrBase = s.pfrBase := rfl
@[simp] theorem retireAt_pfrN (s : State) (pc : Word) : (retireAt pc s).pfrN = s.pfrN := rfl
@[simp] theorem retireAt_errCorr (s : State) (pc : Word) : (retireAt pc s).errCorr = s.errCorr := rfl
@[simp] theorem retireAt_errUnc (s : State) (pc : Word) : (retireAt pc s).errUnc = s.errUnc := rfl
@[simp] theorem retireAt_report (s : State) (pc : Word) : (retireAt pc s).report = s.report := rfl
@[simp] theorem retireAt_stState (s : State) (pc : Word) : (retireAt pc s).stState = s.stState := rfl
@[simp] theorem retireAt_stKind (s : State) (pc : Word) : (retireAt pc s).stKind = s.stKind := rfl
@[simp] theorem retireAt_stStep (s : State) (pc : Word) : (retireAt pc s).stStep = s.stStep := rfl
@[simp] theorem retireAt_stCode (s : State) (pc : Word) : (retireAt pc s).stCode = s.stCode := rfl
@[simp] theorem retireAt_stDetail (s : State) (pc : Word) : (retireAt pc s).stDetail = s.stDetail := rfl
@[simp] theorem retireAt_svn (s : State) (pc : Word) : (retireAt pc s).svn = s.svn := rfl
@[simp] theorem retireAt_fwdig (s : State) (pc : Word) : (retireAt pc s).fwdig = s.fwdig := rfl
@[simp] theorem retireAt_minSvn (s : State) (pc : Word) : (retireAt pc s).minSvn = s.minSvn := rfl
@[simp] theorem retireAt_keys (s : State) (pc : Word) : (retireAt pc s).keys = s.keys := rfl
@[simp] theorem retireAt_keyGen (s : State) (pc : Word) : (retireAt pc s).keyGen = s.keyGen := rfl
@[simp] theorem retireAt_ports (s : State) (pc : Word) : (retireAt pc s).ports = s.ports := rfl
@[simp] theorem retireAt_trace (s : State) (pc : Word) : (retireAt pc s).trace = s.trace := rfl
@[simp] theorem retireAt_pkg (s : State) (pc : Word) : (retireAt pc s).pkg = s.pkg := rfl
@[simp] theorem retireAt_cxl (s : State) (pc : Word) : (retireAt pc s).cxl = s.cxl := rfl
@[simp] theorem retireAt_cycle (s : State) (pc : Word) : (retireAt pc s).cycle = s.cycle := rfl
@[simp] theorem retireAt_issued (s : State) (pc : Word) : (retireAt pc s).issued = s.issued := rfl
@[simp] theorem retireAt_throttle (s : State) (pc : Word) : (retireAt pc s).throttle = s.throttle := rfl
@[simp] theorem retireAt_hostData (s : State) (pc : Word) : (retireAt pc s).hostData = s.hostData := rfl
@[simp] theorem retireAt_pending (s : State) (pc : Word) : (retireAt pc s).pending = s.pending := rfl
@[simp] theorem retireAt_sched (s : State) (pc : Word) : (retireAt pc s).sched = s.sched := rfl
@[simp] theorem retireAt_tick (s : State) (pc : Word) : (retireAt pc s).tick = s.tick := rfl
@[simp] theorem retireAt_pace (s : State) (pc : Word) : (retireAt pc s).pace = s.pace := rfl
@[simp] theorem retireAt_trail (s : State) (pc : Word) : (retireAt pc s).trail = s.trail := rfl
@[simp] theorem retireAt_pc (s : State) (pc : Word) : (retireAt pc s).b.pc = pc := rfl

/-! ### retire -/

@[simp] theorem retire_others (s : State) (n : Nat) : (retire n s).others = s.others := rfl
@[simp] theorem retire_mesh (s : State) (n : Nat) : (retire n s).mesh = s.mesh := rfl
@[simp] theorem retire_phys (s : State) (n : Nat) : (retire n s).phys = s.phys := rfl
@[simp] theorem retire_far (s : State) (n : Nat) : (retire n s).far = s.far := rfl
@[simp] theorem retire_peerSum (s : State) (n : Nat) : (retire n s).peerSum = s.peerSum := rfl
@[simp] theorem retire_owed (s : State) (n : Nat) : (retire n s).owed = s.owed := rfl
@[simp] theorem retire_rowKey (s : State) (n : Nat) : (retire n s).rowKey = s.rowKey := rfl
@[simp] theorem retire_poison (s : State) (n : Nat) : (retire n s).poison = s.poison := rfl
@[simp] theorem retire_reports (s : State) (n : Nat) : (retire n s).reports = s.reports := rfl
@[simp] theorem retire_tlb (s : State) (n : Nat) : (retire n s).tlb = s.tlb := rfl
@[simp] theorem retire_tensors (s : State) (n : Nat) : (retire n s).tensors = s.tensors := rfl
@[simp] theorem retire_pantry (s : State) (n : Nat) : (retire n s).pantry = s.pantry := rfl
@[simp] theorem retire_pstep (s : State) (n : Nat) : (retire n s).pstep = s.pstep := rfl
@[simp] theorem retire_groups (s : State) (n : Nat) : (retire n s).groups = s.groups := rfl
@[simp] theorem retire_leases (s : State) (n : Nat) : (retire n s).leases = s.leases := rfl
@[simp] theorem retire_fenced (s : State) (n : Nat) : (retire n s).fenced = s.fenced := rfl
@[simp] theorem retire_slots (s : State) (n : Nat) : (retire n s).slots = s.slots := rfl
@[simp] theorem retire_mail (s : State) (n : Nat) : (retire n s).mail = s.mail := rfl
@[simp] theorem retire_launches (s : State) (n : Nat) : (retire n s).launches = s.launches := rfl
@[simp] theorem retire_nextLaunch (s : State) (n : Nat) : (retire n s).nextLaunch = s.nextLaunch := rfl
@[simp] theorem retire_saved (s : State) (n : Nat) : (retire n s).saved = s.saved := rfl
@[simp] theorem retire_savedRows (s : State) (n : Nat) : (retire n s).savedRows = s.savedRows := rfl
@[simp] theorem retire_faultTab (s : State) (n : Nat) : (retire n s).faultTab = s.faultTab := rfl
@[simp] theorem retire_wqs (s : State) (n : Nat) : (retire n s).wqs = s.wqs := rfl
@[simp] theorem retire_lastQ (s : State) (n : Nat) : (retire n s).lastQ = s.lastQ := rfl
@[simp] theorem retire_accept (s : State) (n : Nat) : (retire n s).accept = s.accept := rfl
@[simp] theorem retire_acceptDone (s : State) (n : Nat) : (retire n s).acceptDone = s.acceptDone := rfl
@[simp] theorem retire_offer (s : State) (n : Nat) : (retire n s).offer = s.offer := rfl
@[simp] theorem retire_hwin (s : State) (n : Nat) : (retire n s).hwin = s.hwin := rfl
@[simp] theorem retire_hrcb (s : State) (n : Nat) : (retire n s).hrcb = s.hrcb := rfl
@[simp] theorem retire_nonce (s : State) (n : Nat) : (retire n s).nonce = s.nonce := rfl
@[simp] theorem retire_astat (s : State) (n : Nat) : (retire n s).astat = s.astat := rfl
@[simp] theorem retire_hflt (s : State) (n : Nat) : (retire n s).hflt = s.hflt := rfl
@[simp] theorem retire_pfrBase (s : State) (n : Nat) : (retire n s).pfrBase = s.pfrBase := rfl
@[simp] theorem retire_pfrN (s : State) (n : Nat) : (retire n s).pfrN = s.pfrN := rfl
@[simp] theorem retire_errCorr (s : State) (n : Nat) : (retire n s).errCorr = s.errCorr := rfl
@[simp] theorem retire_errUnc (s : State) (n : Nat) : (retire n s).errUnc = s.errUnc := rfl
@[simp] theorem retire_report (s : State) (n : Nat) : (retire n s).report = s.report := rfl
@[simp] theorem retire_stState (s : State) (n : Nat) : (retire n s).stState = s.stState := rfl
@[simp] theorem retire_stKind (s : State) (n : Nat) : (retire n s).stKind = s.stKind := rfl
@[simp] theorem retire_stStep (s : State) (n : Nat) : (retire n s).stStep = s.stStep := rfl
@[simp] theorem retire_stCode (s : State) (n : Nat) : (retire n s).stCode = s.stCode := rfl
@[simp] theorem retire_stDetail (s : State) (n : Nat) : (retire n s).stDetail = s.stDetail := rfl
@[simp] theorem retire_svn (s : State) (n : Nat) : (retire n s).svn = s.svn := rfl
@[simp] theorem retire_fwdig (s : State) (n : Nat) : (retire n s).fwdig = s.fwdig := rfl
@[simp] theorem retire_minSvn (s : State) (n : Nat) : (retire n s).minSvn = s.minSvn := rfl
@[simp] theorem retire_keys (s : State) (n : Nat) : (retire n s).keys = s.keys := rfl
@[simp] theorem retire_keyGen (s : State) (n : Nat) : (retire n s).keyGen = s.keyGen := rfl
@[simp] theorem retire_ports (s : State) (n : Nat) : (retire n s).ports = s.ports := rfl
@[simp] theorem retire_trace (s : State) (n : Nat) : (retire n s).trace = s.trace := rfl
@[simp] theorem retire_pkg (s : State) (n : Nat) : (retire n s).pkg = s.pkg := rfl
@[simp] theorem retire_cxl (s : State) (n : Nat) : (retire n s).cxl = s.cxl := rfl
@[simp] theorem retire_cycle (s : State) (n : Nat) : (retire n s).cycle = s.cycle := rfl
@[simp] theorem retire_issued (s : State) (n : Nat) : (retire n s).issued = s.issued := rfl
@[simp] theorem retire_throttle (s : State) (n : Nat) : (retire n s).throttle = s.throttle := rfl
@[simp] theorem retire_hostData (s : State) (n : Nat) : (retire n s).hostData = s.hostData := rfl
@[simp] theorem retire_pending (s : State) (n : Nat) : (retire n s).pending = s.pending := rfl
@[simp] theorem retire_sched (s : State) (n : Nat) : (retire n s).sched = s.sched := rfl
@[simp] theorem retire_tick (s : State) (n : Nat) : (retire n s).tick = s.tick := rfl
@[simp] theorem retire_pace (s : State) (n : Nat) : (retire n s).pace = s.pace := rfl
@[simp] theorem retire_trail (s : State) (n : Nat) : (retire n s).trail = s.trail := rfl
@[simp] theorem retire_pc (s : State) (n : Nat) : (retire n s).b.pc = s.b.after n := rfl

/-! ### Burner.setS -/

@[simp] theorem Burner.setS_core (b : Burner) (r : BitVec 6) (x : Word) : (b.setS r x).core = b.core := rfl
@[simp] theorem Burner.setS_bur (b : Burner) (r : BitVec 6) (x : Word) : (b.setS r x).bur = b.bur := rfl
@[simp] theorem Burner.setS_status (b : Burner) (r : BitVec 6) (x : Word) : (b.setS r x).status = b.status := rfl
@[simp] theorem Burner.setS_loaded (b : Burner) (r : BitVec 6) (x : Word) : (b.setS r x).loaded = b.loaded := rfl
@[simp] theorem Burner.setS_front (b : Burner) (r : BitVec 6) (x : Word) : (b.setS r x).front = b.front := rfl
@[simp] theorem Burner.setS_lend (b : Burner) (r : BitVec 6) (x : Word) : (b.setS r x).lend = b.lend := rfl
@[simp] theorem Burner.setS_wait (b : Burner) (r : BitVec 6) (x : Word) : (b.setS r x).wait = b.wait := rfl
@[simp] theorem Burner.setS_carry (b : Burner) (r : BitVec 6) (x : Word) : (b.setS r x).carry = b.carry := rfl
@[simp] theorem Burner.setS_pc (b : Burner) (r : BitVec 6) (x : Word) : (b.setS r x).pc = b.pc := rfl
@[simp] theorem Burner.setS_pfx (b : Burner) (r : BitVec 6) (x : Word) : (b.setS r x).pfx = b.pfx := rfl
@[simp] theorem Burner.setS_tlen (b : Burner) (r : BitVec 6) (x : Word) : (b.setS r x).tlen = b.tlen := rfl
@[simp] theorem Burner.setS_ibase (b : Burner) (r : BitVec 6) (x : Word) : (b.setS r x).ibase = b.ibase := rfl
@[simp] theorem Burner.setS_text (b : Burner) (r : BitVec 6) (x : Word) : (b.setS r x).text = b.text := rfl
@[simp] theorem Burner.setS_flags (b : Burner) (r : BitVec 6) (x : Word) : (b.setS r x).flags = b.flags := rfl
@[simp] theorem Burner.setS_satcnt (b : Burner) (r : BitVec 6) (x : Word) : (b.setS r x).satcnt = b.satcnt := rfl
@[simp] theorem Burner.setS_bctl (b : Burner) (r : BitVec 6) (x : Word) : (b.setS r x).bctl = b.bctl := rfl
@[simp] theorem Burner.setS_sr (b : Burner) (r : BitVec 6) (x : Word) : (b.setS r x).sr = b.sr := rfl
@[simp] theorem Burner.setS_bfmt (b : Burner) (r : BitVec 6) (x : Word) : (b.setS r x).bfmt = b.bfmt := rfl
@[simp] theorem Burner.setS_rowq (b : Burner) (r : BitVec 6) (x : Word) : (b.setS r x).rowq = b.rowq := rfl
@[simp] theorem Burner.setS_qres (b : Burner) (r : BitVec 6) (x : Word) : (b.setS r x).qres = b.qres := rfl
@[simp] theorem Burner.setS_runq (b : Burner) (r : BitVec 6) (x : Word) : (b.setS r x).runq = b.runq := rfl
@[simp] theorem Burner.setS_inbq (b : Burner) (r : BitVec 6) (x : Word) : (b.setS r x).inbq = b.inbq := rfl
@[simp] theorem Burner.setS_tok (b : Burner) (r : BitVec 6) (x : Word) : (b.setS r x).tok = b.tok := rfl
@[simp] theorem Burner.setS_tokc (b : Burner) (r : BitVec 6) (x : Word) : (b.setS r x).tokc = b.tokc := rfl
@[simp] theorem Burner.setS_cq (b : Burner) (r : BitVec 6) (x : Word) : (b.setS r x).cq = b.cq := rfl
@[simp] theorem Burner.setS_cqc (b : Burner) (r : BitVec 6) (x : Word) : (b.setS r x).cqc = b.cqc := rfl
@[simp] theorem Burner.setS_knows (b : Burner) (r : BitVec 6) (x : Word) : (b.setS r x).knows = b.knows := rfl
@[simp] theorem Burner.setS_knowL (b : Burner) (r : BitVec 6) (x : Word) : (b.setS r x).knowL = b.knowL := rfl
@[simp] theorem Burner.setS_knowX (b : Burner) (r : BitVec 6) (x : Word) : (b.setS r x).knowX = b.knowX := rfl
@[simp] theorem Burner.setS_knowS (b : Burner) (r : BitVec 6) (x : Word) : (b.setS r x).knowS = b.knowS := rfl
@[simp] theorem Burner.setS_inbox (b : Burner) (r : BitVec 6) (x : Word) : (b.setS r x).inbox = b.inbox := rfl
@[simp] theorem Burner.setS_inbPopped (b : Burner) (r : BitVec 6) (x : Word) : (b.setS r x).inbPopped = b.inbPopped := rfl
@[simp] theorem Burner.setS_inbNext (b : Burner) (r : BitVec 6) (x : Word) : (b.setS r x).inbNext = b.inbNext := rfl
@[simp] theorem Burner.setS_ev (b : Burner) (r : BitVec 6) (x : Word) : (b.setS r x).ev = b.ev := rfl
@[simp] theorem Burner.setS_ltr (b : Burner) (r : BitVec 6) (x : Word) : (b.setS r x).ltr = b.ltr := rfl
@[simp] theorem Burner.setS_lst (b : Burner) (r : BitVec 6) (x : Word) : (b.setS r x).lst = b.lst := rfl
@[simp] theorem Burner.setS_v (b : Burner) (r : BitVec 6) (x : Word) : (b.setS r x).v = b.v := rfl
@[simp] theorem Burner.setS_reads (b : Burner) (r : BitVec 6) (x : Word) : (b.setS r x).reads = b.reads := rfl
@[simp] theorem Burner.setS_win (b : Burner) (r : BitVec 6) (x : Word) : (b.setS r x).win = b.win := rfl
@[simp] theorem Burner.setS_hist (b : Burner) (r : BitVec 6) (x : Word) : (b.setS r x).hist = b.hist := rfl
@[simp] theorem Burner.setS_tagOps (b : Burner) (r : BitVec 6) (x : Word) : (b.setS r x).tagOps = b.tagOps := rfl
@[simp] theorem Burner.setS_slotL (b : Burner) (r : BitVec 6) (x : Word) : (b.setS r x).slotL = b.slotL := rfl
@[simp] theorem Burner.setS_slotX (b : Burner) (r : BitVec 6) (x : Word) : (b.setS r x).slotX = b.slotX := rfl
@[simp] theorem Burner.setS_slotS (b : Burner) (r : BitVec 6) (x : Word) : (b.setS r x).slotS = b.slotS := rfl
@[simp] theorem Burner.setS_slotM (b : Burner) (r : BitVec 6) (x : Word) : (b.setS r x).slotM = b.slotM := rfl
@[simp] theorem Burner.setS_mask (b : Burner) (r : BitVec 6) (x : Word) : (b.setS r x).mask = b.mask := rfl
@[simp] theorem Burner.setS_recipes (b : Burner) (r : BitVec 6) (x : Word) : (b.setS r x).recipes = b.recipes := rfl
@[simp] theorem Burner.setS_rcp (b : Burner) (r : BitVec 6) (x : Word) : (b.setS r x).rcp = b.rcp := rfl
@[simp] theorem Burner.setS_ql (b : Burner) (r : BitVec 6) (x : Word) : (b.setS r x).ql = b.ql := rfl
@[simp] theorem Burner.setS_qx (b : Burner) (r : BitVec 6) (x : Word) : (b.setS r x).qx = b.qx := rfl
@[simp] theorem Burner.setS_qs (b : Burner) (r : BitVec 6) (x : Word) : (b.setS r x).qs = b.qs := rfl
@[simp] theorem Burner.setS_nl (b : Burner) (r : BitVec 6) (x : Word) : (b.setS r x).nl = b.nl := rfl
@[simp] theorem Burner.setS_nx (b : Burner) (r : BitVec 6) (x : Word) : (b.setS r x).nx = b.nx := rfl
@[simp] theorem Burner.setS_ns (b : Burner) (r : BitVec 6) (x : Word) : (b.setS r x).ns = b.ns := rfl
@[simp] theorem Burner.setS_ko (b : Burner) (r : BitVec 6) (x : Word) : (b.setS r x).ko = b.ko := rfl
@[simp] theorem Burner.setS_sbuf (b : Burner) (r : BitVec 6) (x : Word) : (b.setS r x).sbuf = b.sbuf := rfl
@[simp] theorem Burner.setS_stPend (b : Burner) (r : BitVec 6) (x : Word) : (b.setS r x).stPend = b.stPend := rfl
@[simp] theorem Burner.setS_told (b : Burner) (r : BitVec 6) (x : Word) : (b.setS r x).told = b.told := rfl
@[simp] theorem Burner.setS_tvec (b : Burner) (r : BitVec 6) (x : Word) : (b.setS r x).tvec = b.tvec := rfl
@[simp] theorem Burner.setS_te (b : Burner) (r : BitVec 6) (x : Word) : (b.setS r x).te = b.te := rfl
@[simp] theorem Burner.setS_tcause (b : Burner) (r : BitVec 6) (x : Word) : (b.setS r x).tcause = b.tcause := rfl
@[simp] theorem Burner.setS_taddr (b : Burner) (r : BitVec 6) (x : Word) : (b.setS r x).taddr = b.taddr := rfl
@[simp] theorem Burner.setS_tepc (b : Burner) (r : BitVec 6) (x : Word) : (b.setS r x).tepc = b.tepc := rfl
@[simp] theorem Burner.setS_trec0 (b : Burner) (r : BitVec 6) (x : Word) : (b.setS r x).trec0 = b.trec0 := rfl
@[simp] theorem Burner.setS_trec1 (b : Burner) (r : BitVec 6) (x : Word) : (b.setS r x).trec1 = b.trec1 := rfl
@[simp] theorem Burner.setS_trix (b : Burner) (r : BitVec 6) (x : Word) : (b.setS r x).trix = b.trix := rfl
@[simp] theorem Burner.setS_skl (b : Burner) (r : BitVec 6) (x : Word) : (b.setS r x).skl = b.skl := rfl
@[simp] theorem Burner.setS_skx (b : Burner) (r : BitVec 6) (x : Word) : (b.setS r x).skx = b.skx := rfl
@[simp] theorem Burner.setS_sks (b : Burner) (r : BitVec 6) (x : Word) : (b.setS r x).sks = b.sks := rfl
@[simp] theorem Burner.setS_t1v (b : Burner) (r : BitVec 6) (x : Word) : (b.setS r x).t1v = b.t1v := rfl
@[simp] theorem Burner.setS_yrq (b : Burner) (r : BitVec 6) (x : Word) : (b.setS r x).yrq = b.yrq := rfl
@[simp] theorem Burner.setS_pw (b : Burner) (r : BitVec 6) (x : Word) : (b.setS r x).pw = b.pw := rfl
@[simp] theorem Burner.setS_ntrap (b : Burner) (r : BitVec 6) (x : Word) : (b.setS r x).ntrap = b.ntrap := rfl
@[simp] theorem Burner.setS_skipStop (b : Burner) (r : BitVec 6) (x : Word) : (b.setS r x).skipStop = b.skipStop := rfl
@[simp] theorem Burner.setS_bypass (b : Burner) (r : BitVec 6) (x : Word) : (b.setS r x).bypass = b.bypass := rfl
@[simp] theorem Burner.setS_dctl (b : Burner) (r : BitVec 6) (x : Word) : (b.setS r x).dctl = b.dctl := rfl
@[simp] theorem Burner.setS_diter (b : Burner) (r : BitVec 6) (x : Word) : (b.setS r x).diter = b.diter := rfl
@[simp] theorem Burner.setS_trlost (b : Burner) (r : BitVec 6) (x : Word) : (b.setS r x).trlost = b.trlost := rfl
@[simp] theorem Burner.setS_dpc (b : Burner) (r : BitVec 6) (x : Word) : (b.setS r x).dpc = b.dpc := rfl
@[simp] theorem Burner.setS_trctl (b : Burner) (r : BitVec 6) (x : Word) : (b.setS r x).trctl = b.trctl := rfl
@[simp] theorem Burner.setS_wf (b : Burner) (r : BitVec 6) (x : Word) : (b.setS r x).wf = b.wf := rfl
@[simp] theorem Burner.setS_psel (b : Burner) (r : BitVec 6) (x : Word) : (b.setS r x).psel = b.psel := rfl
@[simp] theorem Burner.setS_pcnt (b : Burner) (r : BitVec 6) (x : Word) : (b.setS r x).pcnt = b.pcnt := rfl
@[simp] theorem Burner.setS_rpctl (b : Burner) (r : BitVec 6) (x : Word) : (b.setS r x).rpctl = b.rpctl := rfl
@[simp] theorem Burner.setS_rplog (b : Burner) (r : BitVec 6) (x : Word) : (b.setS r x).rplog = b.rplog := rfl
@[simp] theorem Burner.setS_rplen (b : Burner) (r : BitVec 6) (x : Word) : (b.setS r x).rplen = b.rplen := rfl
@[simp] theorem Burner.setS_rppos (b : Burner) (r : BitVec 6) (x : Word) : (b.setS r x).rppos = b.rppos := rfl
@[simp] theorem Burner.setS_rpseq (b : Burner) (r : BitVec 6) (x : Word) : (b.setS r x).rpseq = b.rpseq := rfl
@[simp] theorem Burner.setS_rpbytes (b : Burner) (r : BitVec 6) (x : Word) : (b.setS r x).rpbytes = b.rpbytes := rfl
@[simp] theorem Burner.setS_eng (b : Burner) (r : BitVec 6) (x : Word) : (b.setS r x).eng = b.eng := rfl
@[simp] theorem Burner.setS_wtag (b : Burner) (r : BitVec 6) (x : Word) : (b.setS r x).wtag = b.wtag := rfl
@[simp] theorem Burner.setS_enrolled (b : Burner) (r : BitVec 6) (x : Word) : (b.setS r x).enrolled = b.enrolled := rfl
@[simp] theorem Burner.setS_acc (b : Burner) (r : BitVec 6) (x : Word) : (b.setS r x).acc = b.acc := rfl
@[simp] theorem Burner.setS_accWin (b : Burner) (r : BitVec 6) (x : Word) : (b.setS r x).accWin = b.accWin := rfl
@[simp] theorem Burner.setS_ops (b : Burner) (r : BitVec 6) (x : Word) : (b.setS r x).ops = b.ops := rfl
@[simp] theorem Burner.setS_opWin (b : Burner) (r : BitVec 6) (x : Word) : (b.setS r x).opWin = b.opWin := rfl
@[simp] theorem Burner.setS_membs (b : Burner) (r : BitVec 6) (x : Word) : (b.setS r x).membs = b.membs := rfl
@[simp] theorem Burner.setS_holdsMax (b : Burner) (r : BitVec 6) (x : Word) : (b.setS r x).holdsMax = b.holdsMax := rfl
@[simp] theorem Burner.setS_region (b : Burner) (r : BitVec 6) (x : Word) : (b.setS r x).region = b.region := rfl
@[simp] theorem Burner.setS_rank (b : Burner) (r : BitVec 6) (x : Word) : (b.setS r x).rank = b.rank := rfl
@[simp] theorem Burner.setS_count (b : Burner) (r : BitVec 6) (x : Word) : (b.setS r x).count = b.count := rfl
@[simp] theorem Burner.setS_arg (b : Burner) (r : BitVec 6) (x : Word) : (b.setS r x).arg = b.arg := rfl
@[simp] theorem Burner.setS_image (b : Burner) (r : BitVec 6) (x : Word) : (b.setS r x).image = b.image := rfl
@[simp] theorem Burner.setS_launch (b : Burner) (r : BitVec 6) (x : Word) : (b.setS r x).launch = b.launch := rfl
@[simp] theorem Burner.setS_tokf (b : Burner) (r : BitVec 6) (x : Word) : (b.setS r x).tokf = b.tokf := rfl
@[simp] theorem Burner.setS_node (b : Burner) (r : BitVec 6) (x : Word) : (b.setS r x).node = b.node := rfl
@[simp] theorem Burner.setS_auto (b : Burner) (r : BitVec 6) (x : Word) : (b.setS r x).auto = b.auto := rfl
@[simp] theorem Burner.setS_area (b : Burner) (r : BitVec 6) (x : Word) : (b.setS r x).area = b.area := rfl
@[simp] theorem Burner.setS_ovPage (b : Burner) (r : BitVec 6) (x : Word) : (b.setS r x).ovPage = b.ovPage := rfl

/-! ### Burner.setV -/

@[simp] theorem Burner.setV_core (b : Burner) (r : Nat) (x : VReg) : (b.setV r x).core = b.core := rfl
@[simp] theorem Burner.setV_bur (b : Burner) (r : Nat) (x : VReg) : (b.setV r x).bur = b.bur := rfl
@[simp] theorem Burner.setV_status (b : Burner) (r : Nat) (x : VReg) : (b.setV r x).status = b.status := rfl
@[simp] theorem Burner.setV_loaded (b : Burner) (r : Nat) (x : VReg) : (b.setV r x).loaded = b.loaded := rfl
@[simp] theorem Burner.setV_front (b : Burner) (r : Nat) (x : VReg) : (b.setV r x).front = b.front := rfl
@[simp] theorem Burner.setV_lend (b : Burner) (r : Nat) (x : VReg) : (b.setV r x).lend = b.lend := rfl
@[simp] theorem Burner.setV_wait (b : Burner) (r : Nat) (x : VReg) : (b.setV r x).wait = b.wait := rfl
@[simp] theorem Burner.setV_carry (b : Burner) (r : Nat) (x : VReg) : (b.setV r x).carry = b.carry := rfl
@[simp] theorem Burner.setV_s (b : Burner) (r : Nat) (x : VReg) : (b.setV r x).s = b.s := rfl
@[simp] theorem Burner.setV_pc (b : Burner) (r : Nat) (x : VReg) : (b.setV r x).pc = b.pc := rfl
@[simp] theorem Burner.setV_pfx (b : Burner) (r : Nat) (x : VReg) : (b.setV r x).pfx = b.pfx := rfl
@[simp] theorem Burner.setV_tlen (b : Burner) (r : Nat) (x : VReg) : (b.setV r x).tlen = b.tlen := rfl
@[simp] theorem Burner.setV_ibase (b : Burner) (r : Nat) (x : VReg) : (b.setV r x).ibase = b.ibase := rfl
@[simp] theorem Burner.setV_text (b : Burner) (r : Nat) (x : VReg) : (b.setV r x).text = b.text := rfl
@[simp] theorem Burner.setV_flags (b : Burner) (r : Nat) (x : VReg) : (b.setV r x).flags = b.flags := rfl
@[simp] theorem Burner.setV_satcnt (b : Burner) (r : Nat) (x : VReg) : (b.setV r x).satcnt = b.satcnt := rfl
@[simp] theorem Burner.setV_bctl (b : Burner) (r : Nat) (x : VReg) : (b.setV r x).bctl = b.bctl := rfl
@[simp] theorem Burner.setV_sr (b : Burner) (r : Nat) (x : VReg) : (b.setV r x).sr = b.sr := rfl
@[simp] theorem Burner.setV_bfmt (b : Burner) (r : Nat) (x : VReg) : (b.setV r x).bfmt = b.bfmt := rfl
@[simp] theorem Burner.setV_rowq (b : Burner) (r : Nat) (x : VReg) : (b.setV r x).rowq = b.rowq := rfl
@[simp] theorem Burner.setV_qres (b : Burner) (r : Nat) (x : VReg) : (b.setV r x).qres = b.qres := rfl
@[simp] theorem Burner.setV_runq (b : Burner) (r : Nat) (x : VReg) : (b.setV r x).runq = b.runq := rfl
@[simp] theorem Burner.setV_inbq (b : Burner) (r : Nat) (x : VReg) : (b.setV r x).inbq = b.inbq := rfl
@[simp] theorem Burner.setV_tok (b : Burner) (r : Nat) (x : VReg) : (b.setV r x).tok = b.tok := rfl
@[simp] theorem Burner.setV_tokc (b : Burner) (r : Nat) (x : VReg) : (b.setV r x).tokc = b.tokc := rfl
@[simp] theorem Burner.setV_cq (b : Burner) (r : Nat) (x : VReg) : (b.setV r x).cq = b.cq := rfl
@[simp] theorem Burner.setV_cqc (b : Burner) (r : Nat) (x : VReg) : (b.setV r x).cqc = b.cqc := rfl
@[simp] theorem Burner.setV_knows (b : Burner) (r : Nat) (x : VReg) : (b.setV r x).knows = b.knows := rfl
@[simp] theorem Burner.setV_knowL (b : Burner) (r : Nat) (x : VReg) : (b.setV r x).knowL = b.knowL := rfl
@[simp] theorem Burner.setV_knowX (b : Burner) (r : Nat) (x : VReg) : (b.setV r x).knowX = b.knowX := rfl
@[simp] theorem Burner.setV_knowS (b : Burner) (r : Nat) (x : VReg) : (b.setV r x).knowS = b.knowS := rfl
@[simp] theorem Burner.setV_inbox (b : Burner) (r : Nat) (x : VReg) : (b.setV r x).inbox = b.inbox := rfl
@[simp] theorem Burner.setV_inbPopped (b : Burner) (r : Nat) (x : VReg) : (b.setV r x).inbPopped = b.inbPopped := rfl
@[simp] theorem Burner.setV_inbNext (b : Burner) (r : Nat) (x : VReg) : (b.setV r x).inbNext = b.inbNext := rfl
@[simp] theorem Burner.setV_ev (b : Burner) (r : Nat) (x : VReg) : (b.setV r x).ev = b.ev := rfl
@[simp] theorem Burner.setV_ltr (b : Burner) (r : Nat) (x : VReg) : (b.setV r x).ltr = b.ltr := rfl
@[simp] theorem Burner.setV_lst (b : Burner) (r : Nat) (x : VReg) : (b.setV r x).lst = b.lst := rfl
@[simp] theorem Burner.setV_reads (b : Burner) (r : Nat) (x : VReg) : (b.setV r x).reads = b.reads := rfl
@[simp] theorem Burner.setV_win (b : Burner) (r : Nat) (x : VReg) : (b.setV r x).win = b.win := rfl
@[simp] theorem Burner.setV_hist (b : Burner) (r : Nat) (x : VReg) : (b.setV r x).hist = b.hist := rfl
@[simp] theorem Burner.setV_tagOps (b : Burner) (r : Nat) (x : VReg) : (b.setV r x).tagOps = b.tagOps := rfl
@[simp] theorem Burner.setV_slotL (b : Burner) (r : Nat) (x : VReg) : (b.setV r x).slotL = b.slotL := rfl
@[simp] theorem Burner.setV_slotX (b : Burner) (r : Nat) (x : VReg) : (b.setV r x).slotX = b.slotX := rfl
@[simp] theorem Burner.setV_slotS (b : Burner) (r : Nat) (x : VReg) : (b.setV r x).slotS = b.slotS := rfl
@[simp] theorem Burner.setV_slotM (b : Burner) (r : Nat) (x : VReg) : (b.setV r x).slotM = b.slotM := rfl
@[simp] theorem Burner.setV_mask (b : Burner) (r : Nat) (x : VReg) : (b.setV r x).mask = b.mask := rfl
@[simp] theorem Burner.setV_recipes (b : Burner) (r : Nat) (x : VReg) : (b.setV r x).recipes = b.recipes := rfl
@[simp] theorem Burner.setV_rcp (b : Burner) (r : Nat) (x : VReg) : (b.setV r x).rcp = b.rcp := rfl
@[simp] theorem Burner.setV_ql (b : Burner) (r : Nat) (x : VReg) : (b.setV r x).ql = b.ql := rfl
@[simp] theorem Burner.setV_qx (b : Burner) (r : Nat) (x : VReg) : (b.setV r x).qx = b.qx := rfl
@[simp] theorem Burner.setV_qs (b : Burner) (r : Nat) (x : VReg) : (b.setV r x).qs = b.qs := rfl
@[simp] theorem Burner.setV_nl (b : Burner) (r : Nat) (x : VReg) : (b.setV r x).nl = b.nl := rfl
@[simp] theorem Burner.setV_nx (b : Burner) (r : Nat) (x : VReg) : (b.setV r x).nx = b.nx := rfl
@[simp] theorem Burner.setV_ns (b : Burner) (r : Nat) (x : VReg) : (b.setV r x).ns = b.ns := rfl
@[simp] theorem Burner.setV_ko (b : Burner) (r : Nat) (x : VReg) : (b.setV r x).ko = b.ko := rfl
@[simp] theorem Burner.setV_sbuf (b : Burner) (r : Nat) (x : VReg) : (b.setV r x).sbuf = b.sbuf := rfl
@[simp] theorem Burner.setV_stPend (b : Burner) (r : Nat) (x : VReg) : (b.setV r x).stPend = b.stPend := rfl
@[simp] theorem Burner.setV_told (b : Burner) (r : Nat) (x : VReg) : (b.setV r x).told = b.told := rfl
@[simp] theorem Burner.setV_tvec (b : Burner) (r : Nat) (x : VReg) : (b.setV r x).tvec = b.tvec := rfl
@[simp] theorem Burner.setV_te (b : Burner) (r : Nat) (x : VReg) : (b.setV r x).te = b.te := rfl
@[simp] theorem Burner.setV_tcause (b : Burner) (r : Nat) (x : VReg) : (b.setV r x).tcause = b.tcause := rfl
@[simp] theorem Burner.setV_taddr (b : Burner) (r : Nat) (x : VReg) : (b.setV r x).taddr = b.taddr := rfl
@[simp] theorem Burner.setV_tepc (b : Burner) (r : Nat) (x : VReg) : (b.setV r x).tepc = b.tepc := rfl
@[simp] theorem Burner.setV_trec0 (b : Burner) (r : Nat) (x : VReg) : (b.setV r x).trec0 = b.trec0 := rfl
@[simp] theorem Burner.setV_trec1 (b : Burner) (r : Nat) (x : VReg) : (b.setV r x).trec1 = b.trec1 := rfl
@[simp] theorem Burner.setV_trix (b : Burner) (r : Nat) (x : VReg) : (b.setV r x).trix = b.trix := rfl
@[simp] theorem Burner.setV_skl (b : Burner) (r : Nat) (x : VReg) : (b.setV r x).skl = b.skl := rfl
@[simp] theorem Burner.setV_skx (b : Burner) (r : Nat) (x : VReg) : (b.setV r x).skx = b.skx := rfl
@[simp] theorem Burner.setV_sks (b : Burner) (r : Nat) (x : VReg) : (b.setV r x).sks = b.sks := rfl
@[simp] theorem Burner.setV_t1v (b : Burner) (r : Nat) (x : VReg) : (b.setV r x).t1v = b.t1v := rfl
@[simp] theorem Burner.setV_yrq (b : Burner) (r : Nat) (x : VReg) : (b.setV r x).yrq = b.yrq := rfl
@[simp] theorem Burner.setV_pw (b : Burner) (r : Nat) (x : VReg) : (b.setV r x).pw = b.pw := rfl
@[simp] theorem Burner.setV_ntrap (b : Burner) (r : Nat) (x : VReg) : (b.setV r x).ntrap = b.ntrap := rfl
@[simp] theorem Burner.setV_skipStop (b : Burner) (r : Nat) (x : VReg) : (b.setV r x).skipStop = b.skipStop := rfl
@[simp] theorem Burner.setV_bypass (b : Burner) (r : Nat) (x : VReg) : (b.setV r x).bypass = b.bypass := rfl
@[simp] theorem Burner.setV_dctl (b : Burner) (r : Nat) (x : VReg) : (b.setV r x).dctl = b.dctl := rfl
@[simp] theorem Burner.setV_diter (b : Burner) (r : Nat) (x : VReg) : (b.setV r x).diter = b.diter := rfl
@[simp] theorem Burner.setV_trlost (b : Burner) (r : Nat) (x : VReg) : (b.setV r x).trlost = b.trlost := rfl
@[simp] theorem Burner.setV_dpc (b : Burner) (r : Nat) (x : VReg) : (b.setV r x).dpc = b.dpc := rfl
@[simp] theorem Burner.setV_trctl (b : Burner) (r : Nat) (x : VReg) : (b.setV r x).trctl = b.trctl := rfl
@[simp] theorem Burner.setV_wf (b : Burner) (r : Nat) (x : VReg) : (b.setV r x).wf = b.wf := rfl
@[simp] theorem Burner.setV_psel (b : Burner) (r : Nat) (x : VReg) : (b.setV r x).psel = b.psel := rfl
@[simp] theorem Burner.setV_pcnt (b : Burner) (r : Nat) (x : VReg) : (b.setV r x).pcnt = b.pcnt := rfl
@[simp] theorem Burner.setV_rpctl (b : Burner) (r : Nat) (x : VReg) : (b.setV r x).rpctl = b.rpctl := rfl
@[simp] theorem Burner.setV_rplog (b : Burner) (r : Nat) (x : VReg) : (b.setV r x).rplog = b.rplog := rfl
@[simp] theorem Burner.setV_rplen (b : Burner) (r : Nat) (x : VReg) : (b.setV r x).rplen = b.rplen := rfl
@[simp] theorem Burner.setV_rppos (b : Burner) (r : Nat) (x : VReg) : (b.setV r x).rppos = b.rppos := rfl
@[simp] theorem Burner.setV_rpseq (b : Burner) (r : Nat) (x : VReg) : (b.setV r x).rpseq = b.rpseq := rfl
@[simp] theorem Burner.setV_rpbytes (b : Burner) (r : Nat) (x : VReg) : (b.setV r x).rpbytes = b.rpbytes := rfl
@[simp] theorem Burner.setV_eng (b : Burner) (r : Nat) (x : VReg) : (b.setV r x).eng = b.eng := rfl
@[simp] theorem Burner.setV_wtag (b : Burner) (r : Nat) (x : VReg) : (b.setV r x).wtag = b.wtag := rfl
@[simp] theorem Burner.setV_enrolled (b : Burner) (r : Nat) (x : VReg) : (b.setV r x).enrolled = b.enrolled := rfl
@[simp] theorem Burner.setV_acc (b : Burner) (r : Nat) (x : VReg) : (b.setV r x).acc = b.acc := rfl
@[simp] theorem Burner.setV_accWin (b : Burner) (r : Nat) (x : VReg) : (b.setV r x).accWin = b.accWin := rfl
@[simp] theorem Burner.setV_ops (b : Burner) (r : Nat) (x : VReg) : (b.setV r x).ops = b.ops := rfl
@[simp] theorem Burner.setV_opWin (b : Burner) (r : Nat) (x : VReg) : (b.setV r x).opWin = b.opWin := rfl
@[simp] theorem Burner.setV_membs (b : Burner) (r : Nat) (x : VReg) : (b.setV r x).membs = b.membs := rfl
@[simp] theorem Burner.setV_holdsMax (b : Burner) (r : Nat) (x : VReg) : (b.setV r x).holdsMax = b.holdsMax := rfl
@[simp] theorem Burner.setV_region (b : Burner) (r : Nat) (x : VReg) : (b.setV r x).region = b.region := rfl
@[simp] theorem Burner.setV_rank (b : Burner) (r : Nat) (x : VReg) : (b.setV r x).rank = b.rank := rfl
@[simp] theorem Burner.setV_count (b : Burner) (r : Nat) (x : VReg) : (b.setV r x).count = b.count := rfl
@[simp] theorem Burner.setV_arg (b : Burner) (r : Nat) (x : VReg) : (b.setV r x).arg = b.arg := rfl
@[simp] theorem Burner.setV_image (b : Burner) (r : Nat) (x : VReg) : (b.setV r x).image = b.image := rfl
@[simp] theorem Burner.setV_launch (b : Burner) (r : Nat) (x : VReg) : (b.setV r x).launch = b.launch := rfl
@[simp] theorem Burner.setV_tokf (b : Burner) (r : Nat) (x : VReg) : (b.setV r x).tokf = b.tokf := rfl
@[simp] theorem Burner.setV_node (b : Burner) (r : Nat) (x : VReg) : (b.setV r x).node = b.node := rfl
@[simp] theorem Burner.setV_auto (b : Burner) (r : Nat) (x : VReg) : (b.setV r x).auto = b.auto := rfl
@[simp] theorem Burner.setV_area (b : Burner) (r : Nat) (x : VReg) : (b.setV r x).area = b.area := rfl
@[simp] theorem Burner.setV_ovPage (b : Burner) (r : Nat) (x : VReg) : (b.setV r x).ovPage = b.ovPage := rfl

/-! ### Burner.raise -/

@[simp] theorem Burner.raise_core (b : Burner) (f : FSum) : (b.raise f).core = b.core := rfl
@[simp] theorem Burner.raise_bur (b : Burner) (f : FSum) : (b.raise f).bur = b.bur := rfl
@[simp] theorem Burner.raise_status (b : Burner) (f : FSum) : (b.raise f).status = b.status := rfl
@[simp] theorem Burner.raise_loaded (b : Burner) (f : FSum) : (b.raise f).loaded = b.loaded := rfl
@[simp] theorem Burner.raise_front (b : Burner) (f : FSum) : (b.raise f).front = b.front := rfl
@[simp] theorem Burner.raise_lend (b : Burner) (f : FSum) : (b.raise f).lend = b.lend := rfl
@[simp] theorem Burner.raise_wait (b : Burner) (f : FSum) : (b.raise f).wait = b.wait := rfl
@[simp] theorem Burner.raise_carry (b : Burner) (f : FSum) : (b.raise f).carry = b.carry := rfl
@[simp] theorem Burner.raise_s (b : Burner) (f : FSum) : (b.raise f).s = b.s := rfl
@[simp] theorem Burner.raise_pc (b : Burner) (f : FSum) : (b.raise f).pc = b.pc := rfl
@[simp] theorem Burner.raise_pfx (b : Burner) (f : FSum) : (b.raise f).pfx = b.pfx := rfl
@[simp] theorem Burner.raise_tlen (b : Burner) (f : FSum) : (b.raise f).tlen = b.tlen := rfl
@[simp] theorem Burner.raise_ibase (b : Burner) (f : FSum) : (b.raise f).ibase = b.ibase := rfl
@[simp] theorem Burner.raise_text (b : Burner) (f : FSum) : (b.raise f).text = b.text := rfl
@[simp] theorem Burner.raise_bctl (b : Burner) (f : FSum) : (b.raise f).bctl = b.bctl := rfl
@[simp] theorem Burner.raise_sr (b : Burner) (f : FSum) : (b.raise f).sr = b.sr := rfl
@[simp] theorem Burner.raise_bfmt (b : Burner) (f : FSum) : (b.raise f).bfmt = b.bfmt := rfl
@[simp] theorem Burner.raise_rowq (b : Burner) (f : FSum) : (b.raise f).rowq = b.rowq := rfl
@[simp] theorem Burner.raise_qres (b : Burner) (f : FSum) : (b.raise f).qres = b.qres := rfl
@[simp] theorem Burner.raise_runq (b : Burner) (f : FSum) : (b.raise f).runq = b.runq := rfl
@[simp] theorem Burner.raise_inbq (b : Burner) (f : FSum) : (b.raise f).inbq = b.inbq := rfl
@[simp] theorem Burner.raise_tok (b : Burner) (f : FSum) : (b.raise f).tok = b.tok := rfl
@[simp] theorem Burner.raise_tokc (b : Burner) (f : FSum) : (b.raise f).tokc = b.tokc := rfl
@[simp] theorem Burner.raise_cq (b : Burner) (f : FSum) : (b.raise f).cq = b.cq := rfl
@[simp] theorem Burner.raise_cqc (b : Burner) (f : FSum) : (b.raise f).cqc = b.cqc := rfl
@[simp] theorem Burner.raise_knows (b : Burner) (f : FSum) : (b.raise f).knows = b.knows := rfl
@[simp] theorem Burner.raise_knowL (b : Burner) (f : FSum) : (b.raise f).knowL = b.knowL := rfl
@[simp] theorem Burner.raise_knowX (b : Burner) (f : FSum) : (b.raise f).knowX = b.knowX := rfl
@[simp] theorem Burner.raise_knowS (b : Burner) (f : FSum) : (b.raise f).knowS = b.knowS := rfl
@[simp] theorem Burner.raise_inbox (b : Burner) (f : FSum) : (b.raise f).inbox = b.inbox := rfl
@[simp] theorem Burner.raise_inbPopped (b : Burner) (f : FSum) : (b.raise f).inbPopped = b.inbPopped := rfl
@[simp] theorem Burner.raise_inbNext (b : Burner) (f : FSum) : (b.raise f).inbNext = b.inbNext := rfl
@[simp] theorem Burner.raise_ev (b : Burner) (f : FSum) : (b.raise f).ev = b.ev := rfl
@[simp] theorem Burner.raise_ltr (b : Burner) (f : FSum) : (b.raise f).ltr = b.ltr := rfl
@[simp] theorem Burner.raise_lst (b : Burner) (f : FSum) : (b.raise f).lst = b.lst := rfl
@[simp] theorem Burner.raise_v (b : Burner) (f : FSum) : (b.raise f).v = b.v := rfl
@[simp] theorem Burner.raise_reads (b : Burner) (f : FSum) : (b.raise f).reads = b.reads := rfl
@[simp] theorem Burner.raise_win (b : Burner) (f : FSum) : (b.raise f).win = b.win := rfl
@[simp] theorem Burner.raise_hist (b : Burner) (f : FSum) : (b.raise f).hist = b.hist := rfl
@[simp] theorem Burner.raise_tagOps (b : Burner) (f : FSum) : (b.raise f).tagOps = b.tagOps := rfl
@[simp] theorem Burner.raise_slotL (b : Burner) (f : FSum) : (b.raise f).slotL = b.slotL := rfl
@[simp] theorem Burner.raise_slotX (b : Burner) (f : FSum) : (b.raise f).slotX = b.slotX := rfl
@[simp] theorem Burner.raise_slotS (b : Burner) (f : FSum) : (b.raise f).slotS = b.slotS := rfl
@[simp] theorem Burner.raise_slotM (b : Burner) (f : FSum) : (b.raise f).slotM = b.slotM := rfl
@[simp] theorem Burner.raise_mask (b : Burner) (f : FSum) : (b.raise f).mask = b.mask := rfl
@[simp] theorem Burner.raise_recipes (b : Burner) (f : FSum) : (b.raise f).recipes = b.recipes := rfl
@[simp] theorem Burner.raise_rcp (b : Burner) (f : FSum) : (b.raise f).rcp = b.rcp := rfl
@[simp] theorem Burner.raise_ql (b : Burner) (f : FSum) : (b.raise f).ql = b.ql := rfl
@[simp] theorem Burner.raise_qx (b : Burner) (f : FSum) : (b.raise f).qx = b.qx := rfl
@[simp] theorem Burner.raise_qs (b : Burner) (f : FSum) : (b.raise f).qs = b.qs := rfl
@[simp] theorem Burner.raise_nl (b : Burner) (f : FSum) : (b.raise f).nl = b.nl := rfl
@[simp] theorem Burner.raise_nx (b : Burner) (f : FSum) : (b.raise f).nx = b.nx := rfl
@[simp] theorem Burner.raise_ns (b : Burner) (f : FSum) : (b.raise f).ns = b.ns := rfl
@[simp] theorem Burner.raise_ko (b : Burner) (f : FSum) : (b.raise f).ko = b.ko := rfl
@[simp] theorem Burner.raise_sbuf (b : Burner) (f : FSum) : (b.raise f).sbuf = b.sbuf := rfl
@[simp] theorem Burner.raise_stPend (b : Burner) (f : FSum) : (b.raise f).stPend = b.stPend := rfl
@[simp] theorem Burner.raise_told (b : Burner) (f : FSum) : (b.raise f).told = b.told := rfl
@[simp] theorem Burner.raise_tvec (b : Burner) (f : FSum) : (b.raise f).tvec = b.tvec := rfl
@[simp] theorem Burner.raise_te (b : Burner) (f : FSum) : (b.raise f).te = b.te := rfl
@[simp] theorem Burner.raise_tcause (b : Burner) (f : FSum) : (b.raise f).tcause = b.tcause := rfl
@[simp] theorem Burner.raise_taddr (b : Burner) (f : FSum) : (b.raise f).taddr = b.taddr := rfl
@[simp] theorem Burner.raise_tepc (b : Burner) (f : FSum) : (b.raise f).tepc = b.tepc := rfl
@[simp] theorem Burner.raise_trec0 (b : Burner) (f : FSum) : (b.raise f).trec0 = b.trec0 := rfl
@[simp] theorem Burner.raise_trec1 (b : Burner) (f : FSum) : (b.raise f).trec1 = b.trec1 := rfl
@[simp] theorem Burner.raise_trix (b : Burner) (f : FSum) : (b.raise f).trix = b.trix := rfl
@[simp] theorem Burner.raise_skl (b : Burner) (f : FSum) : (b.raise f).skl = b.skl := rfl
@[simp] theorem Burner.raise_skx (b : Burner) (f : FSum) : (b.raise f).skx = b.skx := rfl
@[simp] theorem Burner.raise_sks (b : Burner) (f : FSum) : (b.raise f).sks = b.sks := rfl
@[simp] theorem Burner.raise_t1v (b : Burner) (f : FSum) : (b.raise f).t1v = b.t1v := rfl
@[simp] theorem Burner.raise_yrq (b : Burner) (f : FSum) : (b.raise f).yrq = b.yrq := rfl
@[simp] theorem Burner.raise_pw (b : Burner) (f : FSum) : (b.raise f).pw = b.pw := rfl
@[simp] theorem Burner.raise_ntrap (b : Burner) (f : FSum) : (b.raise f).ntrap = b.ntrap := rfl
@[simp] theorem Burner.raise_skipStop (b : Burner) (f : FSum) : (b.raise f).skipStop = b.skipStop := rfl
@[simp] theorem Burner.raise_bypass (b : Burner) (f : FSum) : (b.raise f).bypass = b.bypass := rfl
@[simp] theorem Burner.raise_dctl (b : Burner) (f : FSum) : (b.raise f).dctl = b.dctl := rfl
@[simp] theorem Burner.raise_diter (b : Burner) (f : FSum) : (b.raise f).diter = b.diter := rfl
@[simp] theorem Burner.raise_trlost (b : Burner) (f : FSum) : (b.raise f).trlost = b.trlost := rfl
@[simp] theorem Burner.raise_dpc (b : Burner) (f : FSum) : (b.raise f).dpc = b.dpc := rfl
@[simp] theorem Burner.raise_trctl (b : Burner) (f : FSum) : (b.raise f).trctl = b.trctl := rfl
@[simp] theorem Burner.raise_wf (b : Burner) (f : FSum) : (b.raise f).wf = b.wf := rfl
@[simp] theorem Burner.raise_psel (b : Burner) (f : FSum) : (b.raise f).psel = b.psel := rfl
@[simp] theorem Burner.raise_pcnt (b : Burner) (f : FSum) : (b.raise f).pcnt = b.pcnt := rfl
@[simp] theorem Burner.raise_rpctl (b : Burner) (f : FSum) : (b.raise f).rpctl = b.rpctl := rfl
@[simp] theorem Burner.raise_rplog (b : Burner) (f : FSum) : (b.raise f).rplog = b.rplog := rfl
@[simp] theorem Burner.raise_rplen (b : Burner) (f : FSum) : (b.raise f).rplen = b.rplen := rfl
@[simp] theorem Burner.raise_rppos (b : Burner) (f : FSum) : (b.raise f).rppos = b.rppos := rfl
@[simp] theorem Burner.raise_rpseq (b : Burner) (f : FSum) : (b.raise f).rpseq = b.rpseq := rfl
@[simp] theorem Burner.raise_rpbytes (b : Burner) (f : FSum) : (b.raise f).rpbytes = b.rpbytes := rfl
@[simp] theorem Burner.raise_eng (b : Burner) (f : FSum) : (b.raise f).eng = b.eng := rfl
@[simp] theorem Burner.raise_wtag (b : Burner) (f : FSum) : (b.raise f).wtag = b.wtag := rfl
@[simp] theorem Burner.raise_enrolled (b : Burner) (f : FSum) : (b.raise f).enrolled = b.enrolled := rfl
@[simp] theorem Burner.raise_acc (b : Burner) (f : FSum) : (b.raise f).acc = b.acc := rfl
@[simp] theorem Burner.raise_accWin (b : Burner) (f : FSum) : (b.raise f).accWin = b.accWin := rfl
@[simp] theorem Burner.raise_ops (b : Burner) (f : FSum) : (b.raise f).ops = b.ops := rfl
@[simp] theorem Burner.raise_opWin (b : Burner) (f : FSum) : (b.raise f).opWin = b.opWin := rfl
@[simp] theorem Burner.raise_membs (b : Burner) (f : FSum) : (b.raise f).membs = b.membs := rfl
@[simp] theorem Burner.raise_holdsMax (b : Burner) (f : FSum) : (b.raise f).holdsMax = b.holdsMax := rfl
@[simp] theorem Burner.raise_region (b : Burner) (f : FSum) : (b.raise f).region = b.region := rfl
@[simp] theorem Burner.raise_rank (b : Burner) (f : FSum) : (b.raise f).rank = b.rank := rfl
@[simp] theorem Burner.raise_count (b : Burner) (f : FSum) : (b.raise f).count = b.count := rfl
@[simp] theorem Burner.raise_arg (b : Burner) (f : FSum) : (b.raise f).arg = b.arg := rfl
@[simp] theorem Burner.raise_image (b : Burner) (f : FSum) : (b.raise f).image = b.image := rfl
@[simp] theorem Burner.raise_launch (b : Burner) (f : FSum) : (b.raise f).launch = b.launch := rfl
@[simp] theorem Burner.raise_tokf (b : Burner) (f : FSum) : (b.raise f).tokf = b.tokf := rfl
@[simp] theorem Burner.raise_node (b : Burner) (f : FSum) : (b.raise f).node = b.node := rfl
@[simp] theorem Burner.raise_auto (b : Burner) (f : FSum) : (b.raise f).auto = b.auto := rfl
@[simp] theorem Burner.raise_area (b : Burner) (f : FSum) : (b.raise f).area = b.area := rfl
@[simp] theorem Burner.raise_ovPage (b : Burner) (f : FSum) : (b.raise f).ovPage = b.ovPage := rfl

/-! ### Burner fields after a control-core instruction retires or the store buffer is emptied -/

@[simp] theorem retireAt_b_core (s : State) (pc : Word) : (retireAt pc s).b.core = s.b.core := rfl
@[simp] theorem retire_b_core (s : State) (n : Nat) : (retire n s).b.core = s.b.core := rfl
@[simp] theorem State.drain_b_core (s : State) : s.drain.b.core = s.b.core := rfl
@[simp] theorem retireAt_b_bur (s : State) (pc : Word) : (retireAt pc s).b.bur = s.b.bur := rfl
@[simp] theorem retire_b_bur (s : State) (n : Nat) : (retire n s).b.bur = s.b.bur := rfl
@[simp] theorem State.drain_b_bur (s : State) : s.drain.b.bur = s.b.bur := rfl
@[simp] theorem retireAt_b_status (s : State) (pc : Word) : (retireAt pc s).b.status = s.b.status := rfl
@[simp] theorem retire_b_status (s : State) (n : Nat) : (retire n s).b.status = s.b.status := rfl
@[simp] theorem State.drain_b_status (s : State) : s.drain.b.status = s.b.status := rfl
@[simp] theorem retireAt_b_loaded (s : State) (pc : Word) : (retireAt pc s).b.loaded = s.b.loaded := rfl
@[simp] theorem retire_b_loaded (s : State) (n : Nat) : (retire n s).b.loaded = s.b.loaded := rfl
@[simp] theorem State.drain_b_loaded (s : State) : s.drain.b.loaded = s.b.loaded := rfl
@[simp] theorem retireAt_b_front (s : State) (pc : Word) : (retireAt pc s).b.front = s.b.front := rfl
@[simp] theorem retire_b_front (s : State) (n : Nat) : (retire n s).b.front = s.b.front := rfl
@[simp] theorem State.drain_b_front (s : State) : s.drain.b.front = s.b.front := rfl
@[simp] theorem retireAt_b_lend (s : State) (pc : Word) : (retireAt pc s).b.lend = s.b.lend := rfl
@[simp] theorem retire_b_lend (s : State) (n : Nat) : (retire n s).b.lend = s.b.lend := rfl
@[simp] theorem State.drain_b_lend (s : State) : s.drain.b.lend = s.b.lend := rfl
@[simp] theorem State.drain_b_wait (s : State) : s.drain.b.wait = s.b.wait := rfl
@[simp] theorem retireAt_b_carry (s : State) (pc : Word) : (retireAt pc s).b.carry = s.b.carry := rfl
@[simp] theorem retire_b_carry (s : State) (n : Nat) : (retire n s).b.carry = s.b.carry := rfl
@[simp] theorem State.drain_b_carry (s : State) : s.drain.b.carry = s.b.carry := rfl
@[simp] theorem retireAt_b_s (s : State) (pc : Word) : (retireAt pc s).b.s = s.b.s := rfl
@[simp] theorem retire_b_s (s : State) (n : Nat) : (retire n s).b.s = s.b.s := rfl
@[simp] theorem State.drain_b_s (s : State) : s.drain.b.s = s.b.s := rfl
@[simp] theorem State.drain_b_pc (s : State) : s.drain.b.pc = s.b.pc := rfl
@[simp] theorem State.drain_b_pfx (s : State) : s.drain.b.pfx = s.b.pfx := rfl
@[simp] theorem retireAt_b_tlen (s : State) (pc : Word) : (retireAt pc s).b.tlen = s.b.tlen := rfl
@[simp] theorem retire_b_tlen (s : State) (n : Nat) : (retire n s).b.tlen = s.b.tlen := rfl
@[simp] theorem State.drain_b_tlen (s : State) : s.drain.b.tlen = s.b.tlen := rfl
@[simp] theorem retireAt_b_ibase (s : State) (pc : Word) : (retireAt pc s).b.ibase = s.b.ibase := rfl
@[simp] theorem retire_b_ibase (s : State) (n : Nat) : (retire n s).b.ibase = s.b.ibase := rfl
@[simp] theorem State.drain_b_ibase (s : State) : s.drain.b.ibase = s.b.ibase := rfl
@[simp] theorem retireAt_b_text (s : State) (pc : Word) : (retireAt pc s).b.text = s.b.text := rfl
@[simp] theorem retire_b_text (s : State) (n : Nat) : (retire n s).b.text = s.b.text := rfl
@[simp] theorem State.drain_b_text (s : State) : s.drain.b.text = s.b.text := rfl
@[simp] theorem retireAt_b_flags (s : State) (pc : Word) : (retireAt pc s).b.flags = s.b.flags := rfl
@[simp] theorem retire_b_flags (s : State) (n : Nat) : (retire n s).b.flags = s.b.flags := rfl
@[simp] theorem State.drain_b_flags (s : State) : s.drain.b.flags = s.b.flags := rfl
@[simp] theorem retireAt_b_satcnt (s : State) (pc : Word) : (retireAt pc s).b.satcnt = s.b.satcnt := rfl
@[simp] theorem retire_b_satcnt (s : State) (n : Nat) : (retire n s).b.satcnt = s.b.satcnt := rfl
@[simp] theorem State.drain_b_satcnt (s : State) : s.drain.b.satcnt = s.b.satcnt := rfl
@[simp] theorem retireAt_b_bctl (s : State) (pc : Word) : (retireAt pc s).b.bctl = s.b.bctl := rfl
@[simp] theorem retire_b_bctl (s : State) (n : Nat) : (retire n s).b.bctl = s.b.bctl := rfl
@[simp] theorem State.drain_b_bctl (s : State) : s.drain.b.bctl = s.b.bctl := rfl
@[simp] theorem retireAt_b_sr (s : State) (pc : Word) : (retireAt pc s).b.sr = s.b.sr := rfl
@[simp] theorem retire_b_sr (s : State) (n : Nat) : (retire n s).b.sr = s.b.sr := rfl
@[simp] theorem State.drain_b_sr (s : State) : s.drain.b.sr = s.b.sr := rfl
@[simp] theorem retireAt_b_bfmt (s : State) (pc : Word) : (retireAt pc s).b.bfmt = s.b.bfmt := rfl
@[simp] theorem retire_b_bfmt (s : State) (n : Nat) : (retire n s).b.bfmt = s.b.bfmt := rfl
@[simp] theorem State.drain_b_bfmt (s : State) : s.drain.b.bfmt = s.b.bfmt := rfl
@[simp] theorem retireAt_b_rowq (s : State) (pc : Word) : (retireAt pc s).b.rowq = s.b.rowq := rfl
@[simp] theorem retire_b_rowq (s : State) (n : Nat) : (retire n s).b.rowq = s.b.rowq := rfl
@[simp] theorem State.drain_b_rowq (s : State) : s.drain.b.rowq = s.b.rowq := rfl
@[simp] theorem retireAt_b_qres (s : State) (pc : Word) : (retireAt pc s).b.qres = s.b.qres := rfl
@[simp] theorem retire_b_qres (s : State) (n : Nat) : (retire n s).b.qres = s.b.qres := rfl
@[simp] theorem State.drain_b_qres (s : State) : s.drain.b.qres = s.b.qres := rfl
@[simp] theorem retireAt_b_runq (s : State) (pc : Word) : (retireAt pc s).b.runq = s.b.runq := rfl
@[simp] theorem retire_b_runq (s : State) (n : Nat) : (retire n s).b.runq = s.b.runq := rfl
@[simp] theorem State.drain_b_runq (s : State) : s.drain.b.runq = s.b.runq := rfl
@[simp] theorem retireAt_b_inbq (s : State) (pc : Word) : (retireAt pc s).b.inbq = s.b.inbq := rfl
@[simp] theorem retire_b_inbq (s : State) (n : Nat) : (retire n s).b.inbq = s.b.inbq := rfl
@[simp] theorem State.drain_b_inbq (s : State) : s.drain.b.inbq = s.b.inbq := rfl
@[simp] theorem retireAt_b_tok (s : State) (pc : Word) : (retireAt pc s).b.tok = s.b.tok := rfl
@[simp] theorem retire_b_tok (s : State) (n : Nat) : (retire n s).b.tok = s.b.tok := rfl
@[simp] theorem State.drain_b_tok (s : State) : s.drain.b.tok = s.b.tok := rfl
@[simp] theorem retireAt_b_tokc (s : State) (pc : Word) : (retireAt pc s).b.tokc = s.b.tokc := rfl
@[simp] theorem retire_b_tokc (s : State) (n : Nat) : (retire n s).b.tokc = s.b.tokc := rfl
@[simp] theorem State.drain_b_tokc (s : State) : s.drain.b.tokc = s.b.tokc := rfl
@[simp] theorem retireAt_b_cq (s : State) (pc : Word) : (retireAt pc s).b.cq = s.b.cq := rfl
@[simp] theorem retire_b_cq (s : State) (n : Nat) : (retire n s).b.cq = s.b.cq := rfl
@[simp] theorem State.drain_b_cq (s : State) : s.drain.b.cq = s.b.cq := rfl
@[simp] theorem retireAt_b_cqc (s : State) (pc : Word) : (retireAt pc s).b.cqc = s.b.cqc := rfl
@[simp] theorem retire_b_cqc (s : State) (n : Nat) : (retire n s).b.cqc = s.b.cqc := rfl
@[simp] theorem State.drain_b_cqc (s : State) : s.drain.b.cqc = s.b.cqc := rfl
@[simp] theorem retireAt_b_knows (s : State) (pc : Word) : (retireAt pc s).b.knows = s.b.knows := rfl
@[simp] theorem retire_b_knows (s : State) (n : Nat) : (retire n s).b.knows = s.b.knows := rfl
@[simp] theorem State.drain_b_knows (s : State) : s.drain.b.knows = s.b.knows := rfl
@[simp] theorem retireAt_b_knowL (s : State) (pc : Word) : (retireAt pc s).b.knowL = s.b.knowL := rfl
@[simp] theorem retire_b_knowL (s : State) (n : Nat) : (retire n s).b.knowL = s.b.knowL := rfl
@[simp] theorem State.drain_b_knowL (s : State) : s.drain.b.knowL = s.b.knowL := rfl
@[simp] theorem retireAt_b_knowX (s : State) (pc : Word) : (retireAt pc s).b.knowX = s.b.knowX := rfl
@[simp] theorem retire_b_knowX (s : State) (n : Nat) : (retire n s).b.knowX = s.b.knowX := rfl
@[simp] theorem State.drain_b_knowX (s : State) : s.drain.b.knowX = s.b.knowX := rfl
@[simp] theorem retireAt_b_knowS (s : State) (pc : Word) : (retireAt pc s).b.knowS = s.b.knowS := rfl
@[simp] theorem retire_b_knowS (s : State) (n : Nat) : (retire n s).b.knowS = s.b.knowS := rfl
@[simp] theorem State.drain_b_knowS (s : State) : s.drain.b.knowS = s.b.knowS := rfl
@[simp] theorem retireAt_b_inbox (s : State) (pc : Word) : (retireAt pc s).b.inbox = s.b.inbox := rfl
@[simp] theorem retire_b_inbox (s : State) (n : Nat) : (retire n s).b.inbox = s.b.inbox := rfl
@[simp] theorem State.drain_b_inbox (s : State) : s.drain.b.inbox = s.b.inbox := rfl
@[simp] theorem retireAt_b_inbPopped (s : State) (pc : Word) : (retireAt pc s).b.inbPopped = s.b.inbPopped := rfl
@[simp] theorem retire_b_inbPopped (s : State) (n : Nat) : (retire n s).b.inbPopped = s.b.inbPopped := rfl
@[simp] theorem State.drain_b_inbPopped (s : State) : s.drain.b.inbPopped = s.b.inbPopped := rfl
@[simp] theorem retireAt_b_inbNext (s : State) (pc : Word) : (retireAt pc s).b.inbNext = s.b.inbNext := rfl
@[simp] theorem retire_b_inbNext (s : State) (n : Nat) : (retire n s).b.inbNext = s.b.inbNext := rfl
@[simp] theorem State.drain_b_inbNext (s : State) : s.drain.b.inbNext = s.b.inbNext := rfl
@[simp] theorem retireAt_b_ev (s : State) (pc : Word) : (retireAt pc s).b.ev = s.b.ev := rfl
@[simp] theorem retire_b_ev (s : State) (n : Nat) : (retire n s).b.ev = s.b.ev := rfl
@[simp] theorem State.drain_b_ev (s : State) : s.drain.b.ev = s.b.ev := rfl
@[simp] theorem retireAt_b_ltr (s : State) (pc : Word) : (retireAt pc s).b.ltr = s.b.ltr := rfl
@[simp] theorem retire_b_ltr (s : State) (n : Nat) : (retire n s).b.ltr = s.b.ltr := rfl
@[simp] theorem State.drain_b_ltr (s : State) : s.drain.b.ltr = s.b.ltr := rfl
@[simp] theorem retireAt_b_lst (s : State) (pc : Word) : (retireAt pc s).b.lst = s.b.lst := rfl
@[simp] theorem retire_b_lst (s : State) (n : Nat) : (retire n s).b.lst = s.b.lst := rfl
@[simp] theorem State.drain_b_lst (s : State) : s.drain.b.lst = s.b.lst := rfl
@[simp] theorem retireAt_b_v (s : State) (pc : Word) : (retireAt pc s).b.v = s.b.v := rfl
@[simp] theorem retire_b_v (s : State) (n : Nat) : (retire n s).b.v = s.b.v := rfl
@[simp] theorem State.drain_b_v (s : State) : s.drain.b.v = s.b.v := rfl
@[simp] theorem retireAt_b_reads (s : State) (pc : Word) : (retireAt pc s).b.reads = s.b.reads := rfl
@[simp] theorem retire_b_reads (s : State) (n : Nat) : (retire n s).b.reads = s.b.reads := rfl
@[simp] theorem State.drain_b_reads (s : State) : s.drain.b.reads = s.b.reads := rfl
@[simp] theorem retireAt_b_win (s : State) (pc : Word) : (retireAt pc s).b.win = s.b.win := rfl
@[simp] theorem retire_b_win (s : State) (n : Nat) : (retire n s).b.win = s.b.win := rfl
@[simp] theorem State.drain_b_win (s : State) : s.drain.b.win = s.b.win := rfl
@[simp] theorem retireAt_b_hist (s : State) (pc : Word) : (retireAt pc s).b.hist = s.b.hist := rfl
@[simp] theorem retire_b_hist (s : State) (n : Nat) : (retire n s).b.hist = s.b.hist := rfl
@[simp] theorem State.drain_b_hist (s : State) : s.drain.b.hist = s.b.hist := rfl
@[simp] theorem retireAt_b_tagOps (s : State) (pc : Word) : (retireAt pc s).b.tagOps = s.b.tagOps := rfl
@[simp] theorem retire_b_tagOps (s : State) (n : Nat) : (retire n s).b.tagOps = s.b.tagOps := rfl
@[simp] theorem State.drain_b_tagOps (s : State) : s.drain.b.tagOps = s.b.tagOps := rfl
@[simp] theorem retireAt_b_slotL (s : State) (pc : Word) : (retireAt pc s).b.slotL = s.b.slotL := rfl
@[simp] theorem retire_b_slotL (s : State) (n : Nat) : (retire n s).b.slotL = s.b.slotL := rfl
@[simp] theorem State.drain_b_slotL (s : State) : s.drain.b.slotL = s.b.slotL := rfl
@[simp] theorem retireAt_b_slotX (s : State) (pc : Word) : (retireAt pc s).b.slotX = s.b.slotX := rfl
@[simp] theorem retire_b_slotX (s : State) (n : Nat) : (retire n s).b.slotX = s.b.slotX := rfl
@[simp] theorem State.drain_b_slotX (s : State) : s.drain.b.slotX = s.b.slotX := rfl
@[simp] theorem retireAt_b_slotS (s : State) (pc : Word) : (retireAt pc s).b.slotS = s.b.slotS := rfl
@[simp] theorem retire_b_slotS (s : State) (n : Nat) : (retire n s).b.slotS = s.b.slotS := rfl
@[simp] theorem State.drain_b_slotS (s : State) : s.drain.b.slotS = s.b.slotS := rfl
@[simp] theorem retireAt_b_slotM (s : State) (pc : Word) : (retireAt pc s).b.slotM = s.b.slotM := rfl
@[simp] theorem retire_b_slotM (s : State) (n : Nat) : (retire n s).b.slotM = s.b.slotM := rfl
@[simp] theorem State.drain_b_slotM (s : State) : s.drain.b.slotM = s.b.slotM := rfl
@[simp] theorem retireAt_b_mask (s : State) (pc : Word) : (retireAt pc s).b.mask = s.b.mask := rfl
@[simp] theorem retire_b_mask (s : State) (n : Nat) : (retire n s).b.mask = s.b.mask := rfl
@[simp] theorem State.drain_b_mask (s : State) : s.drain.b.mask = s.b.mask := rfl
@[simp] theorem retireAt_b_recipes (s : State) (pc : Word) : (retireAt pc s).b.recipes = s.b.recipes := rfl
@[simp] theorem retire_b_recipes (s : State) (n : Nat) : (retire n s).b.recipes = s.b.recipes := rfl
@[simp] theorem State.drain_b_recipes (s : State) : s.drain.b.recipes = s.b.recipes := rfl
@[simp] theorem retireAt_b_rcp (s : State) (pc : Word) : (retireAt pc s).b.rcp = s.b.rcp := rfl
@[simp] theorem retire_b_rcp (s : State) (n : Nat) : (retire n s).b.rcp = s.b.rcp := rfl
@[simp] theorem State.drain_b_rcp (s : State) : s.drain.b.rcp = s.b.rcp := rfl
@[simp] theorem retireAt_b_ql (s : State) (pc : Word) : (retireAt pc s).b.ql = s.b.ql := rfl
@[simp] theorem retire_b_ql (s : State) (n : Nat) : (retire n s).b.ql = s.b.ql := rfl
@[simp] theorem State.drain_b_ql (s : State) : s.drain.b.ql = s.b.ql := rfl
@[simp] theorem retireAt_b_qx (s : State) (pc : Word) : (retireAt pc s).b.qx = s.b.qx := rfl
@[simp] theorem retire_b_qx (s : State) (n : Nat) : (retire n s).b.qx = s.b.qx := rfl
@[simp] theorem State.drain_b_qx (s : State) : s.drain.b.qx = s.b.qx := rfl
@[simp] theorem retireAt_b_qs (s : State) (pc : Word) : (retireAt pc s).b.qs = s.b.qs := rfl
@[simp] theorem retire_b_qs (s : State) (n : Nat) : (retire n s).b.qs = s.b.qs := rfl
@[simp] theorem State.drain_b_qs (s : State) : s.drain.b.qs = s.b.qs := rfl
@[simp] theorem retireAt_b_nl (s : State) (pc : Word) : (retireAt pc s).b.nl = s.b.nl := rfl
@[simp] theorem retire_b_nl (s : State) (n : Nat) : (retire n s).b.nl = s.b.nl := rfl
@[simp] theorem State.drain_b_nl (s : State) : s.drain.b.nl = s.b.nl := rfl
@[simp] theorem retireAt_b_nx (s : State) (pc : Word) : (retireAt pc s).b.nx = s.b.nx := rfl
@[simp] theorem retire_b_nx (s : State) (n : Nat) : (retire n s).b.nx = s.b.nx := rfl
@[simp] theorem State.drain_b_nx (s : State) : s.drain.b.nx = s.b.nx := rfl
@[simp] theorem retireAt_b_ns (s : State) (pc : Word) : (retireAt pc s).b.ns = s.b.ns := rfl
@[simp] theorem retire_b_ns (s : State) (n : Nat) : (retire n s).b.ns = s.b.ns := rfl
@[simp] theorem State.drain_b_ns (s : State) : s.drain.b.ns = s.b.ns := rfl
@[simp] theorem State.drain_b_ko (s : State) : s.drain.b.ko = s.b.ko := rfl
@[simp] theorem retireAt_b_sbuf (s : State) (pc : Word) : (retireAt pc s).b.sbuf = s.b.sbuf := rfl
@[simp] theorem retire_b_sbuf (s : State) (n : Nat) : (retire n s).b.sbuf = s.b.sbuf := rfl
@[simp] theorem retireAt_b_stPend (s : State) (pc : Word) : (retireAt pc s).b.stPend = s.b.stPend := rfl
@[simp] theorem retire_b_stPend (s : State) (n : Nat) : (retire n s).b.stPend = s.b.stPend := rfl
@[simp] theorem State.drain_b_stPend (s : State) : s.drain.b.stPend = s.b.stPend := rfl
@[simp] theorem retireAt_b_told (s : State) (pc : Word) : (retireAt pc s).b.told = s.b.told := rfl
@[simp] theorem retire_b_told (s : State) (n : Nat) : (retire n s).b.told = s.b.told := rfl
@[simp] theorem State.drain_b_told (s : State) : s.drain.b.told = s.b.told := rfl
@[simp] theorem retireAt_b_tvec (s : State) (pc : Word) : (retireAt pc s).b.tvec = s.b.tvec := rfl
@[simp] theorem retire_b_tvec (s : State) (n : Nat) : (retire n s).b.tvec = s.b.tvec := rfl
@[simp] theorem State.drain_b_tvec (s : State) : s.drain.b.tvec = s.b.tvec := rfl
@[simp] theorem retireAt_b_te (s : State) (pc : Word) : (retireAt pc s).b.te = s.b.te := rfl
@[simp] theorem retire_b_te (s : State) (n : Nat) : (retire n s).b.te = s.b.te := rfl
@[simp] theorem State.drain_b_te (s : State) : s.drain.b.te = s.b.te := rfl
@[simp] theorem retireAt_b_tcause (s : State) (pc : Word) : (retireAt pc s).b.tcause = s.b.tcause := rfl
@[simp] theorem retire_b_tcause (s : State) (n : Nat) : (retire n s).b.tcause = s.b.tcause := rfl
@[simp] theorem State.drain_b_tcause (s : State) : s.drain.b.tcause = s.b.tcause := rfl
@[simp] theorem retireAt_b_taddr (s : State) (pc : Word) : (retireAt pc s).b.taddr = s.b.taddr := rfl
@[simp] theorem retire_b_taddr (s : State) (n : Nat) : (retire n s).b.taddr = s.b.taddr := rfl
@[simp] theorem State.drain_b_taddr (s : State) : s.drain.b.taddr = s.b.taddr := rfl
@[simp] theorem retireAt_b_tepc (s : State) (pc : Word) : (retireAt pc s).b.tepc = s.b.tepc := rfl
@[simp] theorem retire_b_tepc (s : State) (n : Nat) : (retire n s).b.tepc = s.b.tepc := rfl
@[simp] theorem State.drain_b_tepc (s : State) : s.drain.b.tepc = s.b.tepc := rfl
@[simp] theorem retireAt_b_trec0 (s : State) (pc : Word) : (retireAt pc s).b.trec0 = s.b.trec0 := rfl
@[simp] theorem retire_b_trec0 (s : State) (n : Nat) : (retire n s).b.trec0 = s.b.trec0 := rfl
@[simp] theorem State.drain_b_trec0 (s : State) : s.drain.b.trec0 = s.b.trec0 := rfl
@[simp] theorem retireAt_b_trec1 (s : State) (pc : Word) : (retireAt pc s).b.trec1 = s.b.trec1 := rfl
@[simp] theorem retire_b_trec1 (s : State) (n : Nat) : (retire n s).b.trec1 = s.b.trec1 := rfl
@[simp] theorem State.drain_b_trec1 (s : State) : s.drain.b.trec1 = s.b.trec1 := rfl
@[simp] theorem retireAt_b_trix (s : State) (pc : Word) : (retireAt pc s).b.trix = s.b.trix := rfl
@[simp] theorem retire_b_trix (s : State) (n : Nat) : (retire n s).b.trix = s.b.trix := rfl
@[simp] theorem State.drain_b_trix (s : State) : s.drain.b.trix = s.b.trix := rfl
@[simp] theorem retireAt_b_skl (s : State) (pc : Word) : (retireAt pc s).b.skl = s.b.skl := rfl
@[simp] theorem retire_b_skl (s : State) (n : Nat) : (retire n s).b.skl = s.b.skl := rfl
@[simp] theorem State.drain_b_skl (s : State) : s.drain.b.skl = s.b.skl := rfl
@[simp] theorem retireAt_b_skx (s : State) (pc : Word) : (retireAt pc s).b.skx = s.b.skx := rfl
@[simp] theorem retire_b_skx (s : State) (n : Nat) : (retire n s).b.skx = s.b.skx := rfl
@[simp] theorem State.drain_b_skx (s : State) : s.drain.b.skx = s.b.skx := rfl
@[simp] theorem retireAt_b_sks (s : State) (pc : Word) : (retireAt pc s).b.sks = s.b.sks := rfl
@[simp] theorem retire_b_sks (s : State) (n : Nat) : (retire n s).b.sks = s.b.sks := rfl
@[simp] theorem State.drain_b_sks (s : State) : s.drain.b.sks = s.b.sks := rfl
@[simp] theorem retireAt_b_t1v (s : State) (pc : Word) : (retireAt pc s).b.t1v = s.b.t1v := rfl
@[simp] theorem retire_b_t1v (s : State) (n : Nat) : (retire n s).b.t1v = s.b.t1v := rfl
@[simp] theorem State.drain_b_t1v (s : State) : s.drain.b.t1v = s.b.t1v := rfl
@[simp] theorem retireAt_b_yrq (s : State) (pc : Word) : (retireAt pc s).b.yrq = s.b.yrq := rfl
@[simp] theorem retire_b_yrq (s : State) (n : Nat) : (retire n s).b.yrq = s.b.yrq := rfl
@[simp] theorem State.drain_b_yrq (s : State) : s.drain.b.yrq = s.b.yrq := rfl
@[simp] theorem retireAt_b_pw (s : State) (pc : Word) : (retireAt pc s).b.pw = s.b.pw := rfl
@[simp] theorem retire_b_pw (s : State) (n : Nat) : (retire n s).b.pw = s.b.pw := rfl
@[simp] theorem State.drain_b_pw (s : State) : s.drain.b.pw = s.b.pw := rfl
@[simp] theorem retireAt_b_ntrap (s : State) (pc : Word) : (retireAt pc s).b.ntrap = s.b.ntrap := rfl
@[simp] theorem retire_b_ntrap (s : State) (n : Nat) : (retire n s).b.ntrap = s.b.ntrap := rfl
@[simp] theorem State.drain_b_ntrap (s : State) : s.drain.b.ntrap = s.b.ntrap := rfl
@[simp] theorem State.drain_b_skipStop (s : State) : s.drain.b.skipStop = s.b.skipStop := rfl
@[simp] theorem retireAt_b_bypass (s : State) (pc : Word) : (retireAt pc s).b.bypass = s.b.bypass := rfl
@[simp] theorem retire_b_bypass (s : State) (n : Nat) : (retire n s).b.bypass = s.b.bypass := rfl
@[simp] theorem State.drain_b_bypass (s : State) : s.drain.b.bypass = s.b.bypass := rfl
@[simp] theorem retireAt_b_dctl (s : State) (pc : Word) : (retireAt pc s).b.dctl = s.b.dctl := rfl
@[simp] theorem retire_b_dctl (s : State) (n : Nat) : (retire n s).b.dctl = s.b.dctl := rfl
@[simp] theorem State.drain_b_dctl (s : State) : s.drain.b.dctl = s.b.dctl := rfl
@[simp] theorem retireAt_b_diter (s : State) (pc : Word) : (retireAt pc s).b.diter = s.b.diter := rfl
@[simp] theorem retire_b_diter (s : State) (n : Nat) : (retire n s).b.diter = s.b.diter := rfl
@[simp] theorem State.drain_b_diter (s : State) : s.drain.b.diter = s.b.diter := rfl
@[simp] theorem retireAt_b_trlost (s : State) (pc : Word) : (retireAt pc s).b.trlost = s.b.trlost := rfl
@[simp] theorem retire_b_trlost (s : State) (n : Nat) : (retire n s).b.trlost = s.b.trlost := rfl
@[simp] theorem State.drain_b_trlost (s : State) : s.drain.b.trlost = s.b.trlost := rfl
@[simp] theorem retireAt_b_dpc (s : State) (pc : Word) : (retireAt pc s).b.dpc = s.b.dpc := rfl
@[simp] theorem retire_b_dpc (s : State) (n : Nat) : (retire n s).b.dpc = s.b.dpc := rfl
@[simp] theorem State.drain_b_dpc (s : State) : s.drain.b.dpc = s.b.dpc := rfl
@[simp] theorem retireAt_b_trctl (s : State) (pc : Word) : (retireAt pc s).b.trctl = s.b.trctl := rfl
@[simp] theorem retire_b_trctl (s : State) (n : Nat) : (retire n s).b.trctl = s.b.trctl := rfl
@[simp] theorem State.drain_b_trctl (s : State) : s.drain.b.trctl = s.b.trctl := rfl
@[simp] theorem retireAt_b_wf (s : State) (pc : Word) : (retireAt pc s).b.wf = s.b.wf := rfl
@[simp] theorem retire_b_wf (s : State) (n : Nat) : (retire n s).b.wf = s.b.wf := rfl
@[simp] theorem State.drain_b_wf (s : State) : s.drain.b.wf = s.b.wf := rfl
@[simp] theorem retireAt_b_psel (s : State) (pc : Word) : (retireAt pc s).b.psel = s.b.psel := rfl
@[simp] theorem retire_b_psel (s : State) (n : Nat) : (retire n s).b.psel = s.b.psel := rfl
@[simp] theorem State.drain_b_psel (s : State) : s.drain.b.psel = s.b.psel := rfl
@[simp] theorem retireAt_b_pcnt (s : State) (pc : Word) : (retireAt pc s).b.pcnt = s.b.pcnt := rfl
@[simp] theorem retire_b_pcnt (s : State) (n : Nat) : (retire n s).b.pcnt = s.b.pcnt := rfl
@[simp] theorem State.drain_b_pcnt (s : State) : s.drain.b.pcnt = s.b.pcnt := rfl
@[simp] theorem retireAt_b_rpctl (s : State) (pc : Word) : (retireAt pc s).b.rpctl = s.b.rpctl := rfl
@[simp] theorem retire_b_rpctl (s : State) (n : Nat) : (retire n s).b.rpctl = s.b.rpctl := rfl
@[simp] theorem State.drain_b_rpctl (s : State) : s.drain.b.rpctl = s.b.rpctl := rfl
@[simp] theorem retireAt_b_rplog (s : State) (pc : Word) : (retireAt pc s).b.rplog = s.b.rplog := rfl
@[simp] theorem retire_b_rplog (s : State) (n : Nat) : (retire n s).b.rplog = s.b.rplog := rfl
@[simp] theorem State.drain_b_rplog (s : State) : s.drain.b.rplog = s.b.rplog := rfl
@[simp] theorem retireAt_b_rplen (s : State) (pc : Word) : (retireAt pc s).b.rplen = s.b.rplen := rfl
@[simp] theorem retire_b_rplen (s : State) (n : Nat) : (retire n s).b.rplen = s.b.rplen := rfl
@[simp] theorem State.drain_b_rplen (s : State) : s.drain.b.rplen = s.b.rplen := rfl
@[simp] theorem retireAt_b_rppos (s : State) (pc : Word) : (retireAt pc s).b.rppos = s.b.rppos := rfl
@[simp] theorem retire_b_rppos (s : State) (n : Nat) : (retire n s).b.rppos = s.b.rppos := rfl
@[simp] theorem State.drain_b_rppos (s : State) : s.drain.b.rppos = s.b.rppos := rfl
@[simp] theorem State.drain_b_rpseq (s : State) : s.drain.b.rpseq = s.b.rpseq := rfl
@[simp] theorem retireAt_b_rpbytes (s : State) (pc : Word) : (retireAt pc s).b.rpbytes = s.b.rpbytes := rfl
@[simp] theorem retire_b_rpbytes (s : State) (n : Nat) : (retire n s).b.rpbytes = s.b.rpbytes := rfl
@[simp] theorem State.drain_b_rpbytes (s : State) : s.drain.b.rpbytes = s.b.rpbytes := rfl
@[simp] theorem retireAt_b_eng (s : State) (pc : Word) : (retireAt pc s).b.eng = s.b.eng := rfl
@[simp] theorem retire_b_eng (s : State) (n : Nat) : (retire n s).b.eng = s.b.eng := rfl
@[simp] theorem State.drain_b_eng (s : State) : s.drain.b.eng = s.b.eng := rfl
@[simp] theorem retireAt_b_wtag (s : State) (pc : Word) : (retireAt pc s).b.wtag = s.b.wtag := rfl
@[simp] theorem retire_b_wtag (s : State) (n : Nat) : (retire n s).b.wtag = s.b.wtag := rfl
@[simp] theorem State.drain_b_wtag (s : State) : s.drain.b.wtag = s.b.wtag := rfl
@[simp] theorem retireAt_b_enrolled (s : State) (pc : Word) : (retireAt pc s).b.enrolled = s.b.enrolled := rfl
@[simp] theorem retire_b_enrolled (s : State) (n : Nat) : (retire n s).b.enrolled = s.b.enrolled := rfl
@[simp] theorem State.drain_b_enrolled (s : State) : s.drain.b.enrolled = s.b.enrolled := rfl
@[simp] theorem retireAt_b_acc (s : State) (pc : Word) : (retireAt pc s).b.acc = s.b.acc := rfl
@[simp] theorem retire_b_acc (s : State) (n : Nat) : (retire n s).b.acc = s.b.acc := rfl
@[simp] theorem State.drain_b_acc (s : State) : s.drain.b.acc = s.b.acc := rfl
@[simp] theorem retireAt_b_accWin (s : State) (pc : Word) : (retireAt pc s).b.accWin = s.b.accWin := rfl
@[simp] theorem retire_b_accWin (s : State) (n : Nat) : (retire n s).b.accWin = s.b.accWin := rfl
@[simp] theorem State.drain_b_accWin (s : State) : s.drain.b.accWin = s.b.accWin := rfl
@[simp] theorem retireAt_b_ops (s : State) (pc : Word) : (retireAt pc s).b.ops = s.b.ops := rfl
@[simp] theorem retire_b_ops (s : State) (n : Nat) : (retire n s).b.ops = s.b.ops := rfl
@[simp] theorem State.drain_b_ops (s : State) : s.drain.b.ops = s.b.ops := rfl
@[simp] theorem retireAt_b_opWin (s : State) (pc : Word) : (retireAt pc s).b.opWin = s.b.opWin := rfl
@[simp] theorem retire_b_opWin (s : State) (n : Nat) : (retire n s).b.opWin = s.b.opWin := rfl
@[simp] theorem State.drain_b_opWin (s : State) : s.drain.b.opWin = s.b.opWin := rfl
@[simp] theorem retireAt_b_membs (s : State) (pc : Word) : (retireAt pc s).b.membs = s.b.membs := rfl
@[simp] theorem retire_b_membs (s : State) (n : Nat) : (retire n s).b.membs = s.b.membs := rfl
@[simp] theorem State.drain_b_membs (s : State) : s.drain.b.membs = s.b.membs := rfl
@[simp] theorem retireAt_b_holdsMax (s : State) (pc : Word) : (retireAt pc s).b.holdsMax = s.b.holdsMax := rfl
@[simp] theorem retire_b_holdsMax (s : State) (n : Nat) : (retire n s).b.holdsMax = s.b.holdsMax := rfl
@[simp] theorem State.drain_b_holdsMax (s : State) : s.drain.b.holdsMax = s.b.holdsMax := rfl
@[simp] theorem retireAt_b_region (s : State) (pc : Word) : (retireAt pc s).b.region = s.b.region := rfl
@[simp] theorem retire_b_region (s : State) (n : Nat) : (retire n s).b.region = s.b.region := rfl
@[simp] theorem State.drain_b_region (s : State) : s.drain.b.region = s.b.region := rfl
@[simp] theorem retireAt_b_rank (s : State) (pc : Word) : (retireAt pc s).b.rank = s.b.rank := rfl
@[simp] theorem retire_b_rank (s : State) (n : Nat) : (retire n s).b.rank = s.b.rank := rfl
@[simp] theorem State.drain_b_rank (s : State) : s.drain.b.rank = s.b.rank := rfl
@[simp] theorem retireAt_b_count (s : State) (pc : Word) : (retireAt pc s).b.count = s.b.count := rfl
@[simp] theorem retire_b_count (s : State) (n : Nat) : (retire n s).b.count = s.b.count := rfl
@[simp] theorem State.drain_b_count (s : State) : s.drain.b.count = s.b.count := rfl
@[simp] theorem retireAt_b_arg (s : State) (pc : Word) : (retireAt pc s).b.arg = s.b.arg := rfl
@[simp] theorem retire_b_arg (s : State) (n : Nat) : (retire n s).b.arg = s.b.arg := rfl
@[simp] theorem State.drain_b_arg (s : State) : s.drain.b.arg = s.b.arg := rfl
@[simp] theorem retireAt_b_image (s : State) (pc : Word) : (retireAt pc s).b.image = s.b.image := rfl
@[simp] theorem retire_b_image (s : State) (n : Nat) : (retire n s).b.image = s.b.image := rfl
@[simp] theorem State.drain_b_image (s : State) : s.drain.b.image = s.b.image := rfl
@[simp] theorem retireAt_b_launch (s : State) (pc : Word) : (retireAt pc s).b.launch = s.b.launch := rfl
@[simp] theorem retire_b_launch (s : State) (n : Nat) : (retire n s).b.launch = s.b.launch := rfl
@[simp] theorem State.drain_b_launch (s : State) : s.drain.b.launch = s.b.launch := rfl
@[simp] theorem retireAt_b_tokf (s : State) (pc : Word) : (retireAt pc s).b.tokf = s.b.tokf := rfl
@[simp] theorem retire_b_tokf (s : State) (n : Nat) : (retire n s).b.tokf = s.b.tokf := rfl
@[simp] theorem State.drain_b_tokf (s : State) : s.drain.b.tokf = s.b.tokf := rfl
@[simp] theorem retireAt_b_node (s : State) (pc : Word) : (retireAt pc s).b.node = s.b.node := rfl
@[simp] theorem retire_b_node (s : State) (n : Nat) : (retire n s).b.node = s.b.node := rfl
@[simp] theorem State.drain_b_node (s : State) : s.drain.b.node = s.b.node := rfl
@[simp] theorem retireAt_b_auto (s : State) (pc : Word) : (retireAt pc s).b.auto = s.b.auto := rfl
@[simp] theorem retire_b_auto (s : State) (n : Nat) : (retire n s).b.auto = s.b.auto := rfl
@[simp] theorem State.drain_b_auto (s : State) : s.drain.b.auto = s.b.auto := rfl
@[simp] theorem retireAt_b_area (s : State) (pc : Word) : (retireAt pc s).b.area = s.b.area := rfl
@[simp] theorem retire_b_area (s : State) (n : Nat) : (retire n s).b.area = s.b.area := rfl
@[simp] theorem State.drain_b_area (s : State) : s.drain.b.area = s.b.area := rfl
@[simp] theorem retireAt_b_ovPage (s : State) (pc : Word) : (retireAt pc s).b.ovPage = s.b.ovPage := rfl
@[simp] theorem retire_b_ovPage (s : State) (n : Nat) : (retire n s).b.ovPage = s.b.ovPage := rfl
@[simp] theorem State.drain_b_ovPage (s : State) : s.drain.b.ovPage = s.b.ovPage := rfl
@[simp] theorem State.drain_b_sbuf (s : State) : s.drain.b.sbuf = [] := rfl

end Sys2Proof.Machine
end

