-- ==== Sys2Proof/Laws/Control.lean ====
section
/-! SUPPORT. What each shared operation of the control core does, said once: registers, retirement, traps, row checks. -/
namespace Sys2Proof.Machine

/-! ## Registers (R9) -/

theorem Burner.getS_setS (b : Burner) (r d : BitVec 6) (x : Word) : (b.setS d x).getS r = if r = d then x else b.getS r := by
  unfold Burner.getS Burner.setS
  simp only [Vector.getElem_set]
  by_cases h : r = d
  · subst h; simp
  · rw [if_neg h, if_neg]
    exact fun e => h (BitVec.eq_of_toNat_eq e.symm)
@[simp] theorem Burner.getS_setS_self (b : Burner) (d : BitVec 6) (x : Word) : (b.setS d x).getS d = x := by
  rw [Burner.getS_setS, if_pos rfl]
theorem Burner.getS_setS_ne (b : Burner) {r d : BitVec 6} (h : r ≠ d) (x : Word) : (b.setS d x).getS r = b.getS r := by
  rw [Burner.getS_setS, if_neg h]

theorem pair_ne (d : BitVec 6) : (d &&& 62) ≠ (d ||| 1) := by revert d; decide
theorem pair_low (d : BitVec 6) : ((d &&& 62) ||| 1) = (d ||| 1) := by revert d; decide

/-- A pair read after it is written. -/
theorem Burner.getW_setW (b : Burner) (d : BitVec 6) (x : DWord) : (b.setW d x).getW d = x := by
  unfold Burner.getW Burner.setW
  rw [Burner.getS_setS_self, Burner.getS_setS_ne _ (pair_ne d), Burner.getS_setS_self]
  ext i hi
  simp only [BitVec.getElem_append, BitVec.getElem_extractLsb']
  split
  · rw [BitVec.getLsbD_eq_getElem (by omega)]; congr 1; omega
  · rw [BitVec.getLsbD_eq_getElem (by omega)]; congr 1; omega
theorem Burner.getS_setW_ne (b : Burner) {r d : BitVec 6} (h : r ≠ d &&& 62) (g : r ≠ d ||| 1) (x : DWord) :
    (b.setW d x).getS r = b.getS r := by
  unfold Burner.setW
  rw [Burner.getS_setS_ne _ g, Burner.getS_setS_ne _ h]

/-! ## Retiring (R22, R254, R395) -/

theorem advanced_retireAt (p : Word) (s : State) : Advanced p s (retireAt p s) := ⟨rfl, rfl, rfl, rfl, rfl⟩

@[simp] theorem retireAt_getS (p : Word) (s : State) (r : BitVec 6) : (retireAt p s).b.getS r = s.b.getS r := rfl
@[simp] theorem retireAt_getW (p : Word) (s : State) (r : BitVec 6) : (retireAt p s).b.getW r = s.b.getW r := rfl

/-- The address after an instruction is the same whatever it writes to scalar registers. -/
theorem after_eq (s : State) (n : Nat) : s.b.after n = nextPc s n := rfl

/-! ## The shapes of control-core instructions -/

/-- An instruction that writes one scalar register, once its operands are ready. -/
theorem ccOp_writesS {i : Instr} {s : State} {rs : List (BitVec 6)} {n : Nat} {d : BitVec 6} {f : Burner → Burner} {v : Word}
    (he : exec i s = ccOp rs n f s) (hf : f s.b = s.b.setS d v) (hr : s.b.held rs = false) : WritesS i s d v n := by
  refine ⟨retire n (s.modB f), ?_, ?_, ?_, ?_, ?_, ?_⟩
  · rw [he, ccOp, if_neg (by simp [hr])]
  · simp [retire, State.modB, hf]
  · intro r hd
    simp [retire, State.modB, hf, Burner.getS_setS_ne _ hd]
  · simp [retire, Advanced, retireAt, State.modB, hf, Burner.setS, Burner.after, Burner.ilen, nextPc]
  · simp [retire, retireAt, State.modB, hf, Burner.setS]
  · exact ⟨fun _ => rfl, fun _ => rfl⟩

/-- Two 32-bit sources: what `op2` does. -/
theorem op2_writesS {i : Instr} {s : State} {d : BitVec 6} {a b : Opnd} {f : Word → Word → Word}
    (he : exec i s = op2 d a b f s) (hr : s.b.held (d :: (opRegs a ++ opRegs b)) = false) :
    WritesS i s d (f (s.b.op32 a) (s.b.op32 b)) (1 + litN a + litN b) :=
  ccOp_writesS he rfl hr

/-- One 32-bit source: what `op1` does. -/
theorem op1_writesS {i : Instr} {s : State} {d : BitVec 6} {a : Opnd} {f : Word → Word}
    (he : exec i s = op1 d a f s) (hr : s.b.held (d :: opRegs a) = false) : WritesS i s d (f (s.b.op32 a)) (1 + litN a) :=
  ccOp_writesS he rfl hr

/-- Two 64-bit sources and a pair: what `opW2` does. -/
theorem opW2_writesW {i : Instr} {s : State} {d : BitVec 6} {a b : Opnd} {f : DWord → DWord → DWord}
    (he : exec i s = opW2 d a b f s) (hr : s.b.held ((d &&& 62) :: (d ||| 1) :: (opRegs64 a ++ opRegs64 b)) = false) :
    WritesW i s d (f (s.b.op64 a) (s.b.op64 b)) (1 + litN a + litN b) := by
  refine ⟨retire (1 + litN a + litN b) (s.modB fun x => x.setW d (f (x.op64 a) (x.op64 b))), ?_, Burner.getW_setW s.b d _,
    fun r h g => Burner.getS_setW_ne s.b h g _, ⟨rfl, rfl, rfl, rfl, rfl⟩, rfl, fun _ => rfl, fun _ => rfl⟩
  rw [he, opW2, ccOp, hr]
  rfl

/-- An operand that waits for a queue holds its instruction at decode and changes nothing (R202). -/
theorem ccOp_held {rs : List (BitVec 6)} {n : Nat} {f : Burner → Burner} {s : State} (h : s.b.held rs = true) :
    ccOp rs n f s = .next s := by
  rw [ccOp, if_pos h]
theorem ccDo_ready {rs : List (BitVec 6)} {f : State → Outcome} {s : State} (h : s.b.held rs = false) : ccDo rs f s = f s := by
  rw [ccDo, if_neg (by simp [h])]

/-! ## Traps (R371 to R373) -/

/-- Taking a trap outside a handler, with TRAP trace records off. -/
theorem takeTrap_enter {i : TrapInfo} {s : State} (h : s.b.te = false) (ht : s.b.trctl.getLsbD 1 = false) :
    ∃ t, takeTrap i s = t ∧ t.b.te = true ∧ t.b.tcause = i.tcause ∧ t.b.taddr = i.addr ∧ t.b.tepc = i.cutPc ∧
      t.b.pc = s.b.tvec &&& 0xFFFFFFFC ∧ t.b.ntrap = s.b.ntrap + 1 ∧ t.b.s = s.b.s ∧ t.b.sbuf = [] ∧ t.mesh = s.drain.mesh ∧
      t.phys = s.phys ∧ t.others = s.others := by
  refine ⟨_, rfl, ?_⟩
  have hq : ∀ b : Burner, b.withdrawLoad = { b with carry := none, qs := b.withdrawLoad.qs } := by
    intro b
    unfold Burner.withdrawLoad
    dsimp only
    split
    · rfl
    · split <;> rfl
  unfold takeTrap
  dsimp only
  rw [if_neg (by rw [State.modB, hq]; simp [State.drain, h]), traceEv_off _ _ _ _ _ _ _ (by
    show ((s.drain.modB Burner.withdrawLoad).b.trctl).getLsbD 1 = false
    rw [State.modB, hq]; exact ht)]
  rw [State.modB, hq]
  exact ⟨rfl, rfl, rfl, rfl, rfl, rfl, rfl, rfl, rfl, rfl, rfl⟩

/-! ## Row checks (R29 to R37) -/

/-- A row that the checks allow is a row of the mesh that the address names. -/
theorem meshCheck_ok {s : State} {b : Burner} {wr : Bool} {a core row : Nat} (h : meshCheck s b wr a = .ok (core, row)) :
    meshResolve b.core a = .ok (core, row) ∧ meshAllowed s b wr core row = .ok () := by
  unfold meshCheck at h
  split at h
  · cases h
  · split at h
    · cases h
    · cases h; exact ⟨‹_›, ‹_›⟩

theorem meshResolve_ok {self a core row : Nat} (h : meshResolve self a = .ok (core, row)) :
    a < 0x20000000 ∧ row = a / 256 % 2048 ∧ row < 1536 ∧
      (core = self ∧ a / 0x80000 = 1023 ∨ core = a / 0x80000 ∧ core < 640) := by
  unfold meshResolve at h
  dsimp only at h
  split at h
  · cases h
  · rename_i hc
    simp only [ge_iff_le, Bool.or_eq_true, Bool.and_eq_true, decide_eq_true_eq, bne_iff_ne] at hc
    injection h with h
    injection h with h1 h2
    refine ⟨by omega, h2.symm, by omega, ?_⟩
    split at h1 <;> omega

end Sys2Proof.Machine
end

