-- ==== Sys2Proof/Laws/Leases.lean ====
section
/-! SUPPORT. The array's leases: a lease written reads back, and a held one passed on goes to the next in turn (R328). -/
namespace Sys2Proof.Machine
theorem State.setLease_setLease (s : State) {l m : Lease} (h : l.quad = m.quad) : (s.setLease l).setLease m = s.setLease m := by
  unfold State.setLease
  by_cases ha : s.leases.any (·.quad == l.quad) = true
  · have hb : (s.leases.map fun x => if x.quad == l.quad then l else x).any (·.quad == m.quad) = true := by
      simp only [List.any_eq_true, List.mem_map] at ha ⊢
      obtain ⟨x, hx, hq⟩ := ha
      exact ⟨_, ⟨x, hx, rfl⟩, by simp only [hq, if_true]; simp [h]⟩
    simp only [ha, if_true, hb]
    rw [← h] at *
    simp only [ha, if_true, List.map_map]
    congr 1
    apply List.map_congr_left
    intro x _
    simp only [Function.comp]
    by_cases hx : (x.quad == l.quad) = true
    · simp [hx]
    · simp [hx]
  · have hm : ¬ (s.leases.any (·.quad == m.quad) = true) := h ▸ ha
    simp only [if_neg ha, if_neg hm]
    have hb : (s.leases ++ [l]).any (·.quad == m.quad) = true := by simp [h]
    simp only [hb, if_true, List.map_append, List.map_cons, List.map_nil, h, BEq.rfl]
    congr 2
    rw [List.map_congr_left (g := id)]
    · simp
    · intro x hx
      rw [if_neg]
      · rfl
      · intro hq
        exact hm (List.any_eq_true.2 ⟨x, hx, hq⟩)

theorem State.lease_setLease (s : State) (l : Lease) : (s.setLease l).lease l.quad = l := by
  unfold State.setLease State.lease
  by_cases ha : s.leases.any (·.quad == l.quad) = true
  · simp only [ha, if_true]
    rw [List.find?_map]
    have hf : ((fun x : Lease => x.quad == l.quad) ∘ fun x : Lease => if (x.quad == l.quad) = true then l else x) =
        fun x => x.quad == l.quad := by
      funext x
      simp only [Function.comp]
      split <;> simp_all
    rw [hf]
    obtain ⟨y, hy, hq⟩ := List.any_eq_true.1 ha
    cases hfind : s.leases.find? (fun x => x.quad == l.quad) with
    | none => exact absurd hq (by simpa using List.find?_eq_none.1 hfind y hy)
    | some x =>
      have hx := List.find?_some hfind
      simp_all
  · simp only [if_neg ha]
    have : s.leases.find? (fun x => x.quad == l.quad) = none := by
      rw [List.find?_eq_none]
      intro x hx hq
      exact ha (List.any_eq_true.2 ⟨x, hx, hq⟩)
    simp [List.find?_append, this]

theorem State.lease_quad (s : State) (n : Nat) : (s.lease n).quad = n := by
  unfold State.lease
  cases h : s.leases.find? (·.quad == n) with
  | none => rfl
  | some x => simpa using List.find?_some h

theorem Lease.grant_quad (l : Lease) : l.grant.quad = l.quad := by
  unfold Lease.grant
  split
  · rfl
  · split <;> rfl

/-- A held lease that passes on: its holder's slots, and the grant to the next in turn. -/
theorem grant_passLease {s : State} {n c r : Nat} (h : (s.lease n).holder = some (c, r)) :
    grantLease n (passLease n s) = (s.modAt c r fun b => { b with slotM := b.slotM + 16 }).setLease
      (Lease.grant { s.lease n with holder := none, cmds := 0 }) := by
  have hq : ({ s.lease n with holder := none, cmds := 0 } : Lease).quad = n := s.lease_quad n
  have hl := State.lease_setLease (s.modAt c r fun b => { b with slotM := b.slotM + 16 }) { s.lease n with holder := none, cmds := 0 }
  rw [hq] at hl
  unfold grantLease passLease
  simp only [h, hl]
  exact State.setLease_setLease _ (Lease.grant_quad _).symm

end Sys2Proof.Machine
end

