-- ==== Sys2Proof/Laws/Queues.lean ====
section
/-! SUPPORT. What entering an empty queue and issuing at once does, said once for every queue instruction: `Ready` and how its
performance ends give the next state (R201 to R206, R212, R314, R371). -/
namespace Sys2Proof.Machine

@[simp] theorem obtain_bypass (b : Burner) (k : Rd) (rs : List Nat) : (b.obtain k rs).bypass = b.bypass := rfl
@[simp] theorem setQueue_bypass (b : Burner) (q : Queue) (es : List Entry) : (b.setQueue q es).bypass = b.bypass := by
  cases q <;> rfl
@[simp] theorem setQueue_mask (b : Burner) (q : Queue) (es : List Entry) : (b.setQueue q es).mask = b.mask := by cases q <;> rfl
@[simp] theorem setQueue_cq (b : Burner) (q : Queue) (es : List Entry) : (b.setQueue q es).cq = b.cq := by cases q <;> rfl
@[simp] theorem setQueue_tokens (b : Burner) (q : Queue) (es : List Entry) (n : Nat) : (b.setQueue q es).tokens n = b.tokens n := by
  cases q <;> rfl
@[simp] theorem setQueue_queue (b : Burner) (q : Queue) (es : List Entry) : (b.setQueue q es).queue q = es := by cases q <;> rfl
theorem setQueue_queue_ne (b : Burner) {q r : Queue} (h : r ≠ q) (es : List Entry) : (b.setQueue q es).queue r = b.queue r := by
  cases q <;> cases r <;> first | rfl | exact absurd rfl h
theorem setQueue_setQueue (b : Burner) (q : Queue) (es fs : List Entry) : (b.setQueue q es).setQueue q fs = b.setQueue q fs := by
  cases q <;> rfl

theorem bypass_setTokens (b : Burner) (n k : Nat) : (b.setTokens n k).bypass = b.bypass := by
  unfold Burner.setTokens
  split <;> rfl
theorem bypass_bumpQ (b : Burner) (q : Queue) : (b.bumpQ q).bypass = b.bypass := by cases q <;> rfl
theorem bypass_bumpSlot (b : Burner) (q : Queue) : (b.bumpSlot q).bypass = b.bypass := by cases q <;> rfl

theorem bypass_setTokenClocks (b : Burner) (n : Nat) (f : List Clock → List Clock) : (b.setTokenClocks n f).bypass = b.bypass := by
  unfold Burner.setTokenClocks
  split <;> rfl
theorem bypass_setKnow (b : Burner) (q : Queue) (k : Clock) : (b.setKnow q k).bypass = b.bypass := by cases q <;> rfl
theorem bypass_noteRetired (q : Queue) (e : Entry) (b : Burner) : (noteRetired q e b).bypass = b.bypass := by
  have h : ∀ p : Bool, (if p = true then b else b.obtain (b.reader q e) (if (e.src.isNone && e.out.isNone) = true then vsrcs e.ins
      else [])).bypass = b.bypass := fun p => by cases p <;> rfl
  unfold noteRetired
  dsimp only
  split <;> split <;> split <;> simp only [Burner.settleHist, bypass_setKnow, bypass_setTokenClocks, h]

/-- Retiring an entry leaves the watch bypass. -/
theorem bypass_retireEntry (q : Queue) (e : Entry) (slot : Bool) (b : Burner) : (retireEntry q e slot b).bypass = b.bypass := by
  have h1 : (((noteRetired q e b).setQueue q ((b.queue q).drop 1)).bumpQ q).bypass = b.bypass := by
    rw [bypass_bumpQ, setQueue_bypass, bypass_noteRetired]
  unfold retireEntry
  dsimp only
  split <;> split <;> split <;> simp only [Burner.settle, bypass_setTokens, bypass_bumpSlot, h1]

/-- Forwarding a ready instruction puts its entry alone in its queue; then the queue takes its turn. -/
theorem forward_enters {w : Fwd} {s : State} (h : Ready w s) : forward w s = issueHead w.q (entered w s) := by
  obtain ⟨-, hte, -, hsr, hres, hheld, hq, -, -, -, -, -, rest, hs⟩ := h
  have hg : fwdGate w s.b = .pass := by
    unfold fwdGate
    rw [if_neg (by simp [hte]), if_neg hres, if_neg (by simp [hheld]), if_neg (by rw [hq]; simp; omega)]
  have he : (enqueue w none s).sched = 0 :: rest := by simp [enqueue, retire, retireAt, State.modB, hs]
  have hb : { enqueue w none s with sched := rest } = entered w s := by
    unfold enqueue entered entryOf retire retireAt
    simp only [State.modB, hq, List.nil_append, hs, List.drop_succ_cons, List.drop_zero]
    cases hw : w.q <;> simp [Burner.setQueue, Burner.after, Burner.ilen, nextPc, hte]
  unfold forward
  rw [if_neg (by simp [hsr]), hg]
  have hr : runsAt (enqueue w none s) = (true, entered w s) := by
    simp only [runsAt, State.draw, he]
    rw [hb]
    rfl
  simp only [mayIssue, hr]
  rw [if_pos]
  simp only [entered]
  cases w.q <;> rfl

theorem entered_head {w : Fwd} {s : State} (h : Ready w s) :
    (entered w s).b.queue w.q = [entryOf w s] ∧ headHeld w.q (entryOf w s) (entered w s).b = false ∧
      (entryOf w s).skip = false ∧ maskSkips (entryOf w s) (entered w s).b = false ∧ (entered w s).b.bypass = [] ∧
      (entered w s).b.setHead w.q (fun x => { x with part := [] }) = (entered w s).b := by
  obtain ⟨-, hte, hby, -, -, -, hq, hacq, hws, hps, hcq, hmsk, -⟩ := h
  have hqq : (entered w s).b.queue w.q = [entryOf w s] := by
    simp only [entered]
    cases w.q <;> rfl
  have hby' : (entered w s).b.bypass = [] := by
    simp only [entered]
    rw [setQueue_bypass]
    exact hby
  refine ⟨hqq, ?_, rfl, ?_, hby', ?_⟩
  · have ht : ∀ n, (entered w s).b.tokens n = s.b.tokens n := fun n => by
      show (s.b.setQueue w.q [entryOf w s]).tokens n = _
      rw [setQueue_tokens]
    have hc : (entered w s).b.cq = s.b.cq := by
      simp only [entered]
      rw [setQueue_cq]
    have h1 : (w.q != .s && (entered w s).b.qs.any fun x => x.acq && decide (x.ko < (entryOf w s).ko)) = false := by
      by_cases hs : w.q = .s
      · simp [hs]
      · have hqs : (entered w s).b.qs = s.b.qs := by
          simp only [entered]
          cases hw : w.q <;> first | rfl | exact absurd hw hs
        have : (s.b.qs.any fun x => x.acq && decide (x.ko < (entryOf w s).ko)) = false := by
          rw [List.any_eq_false]
          intro x hx
          simp [hacq hs x hx]
        rw [hqs, this, Bool.and_false]
    have h2 : ((entryOf w s).wsel != 0 && (entered w s).b.tokens (entryOf w s).wsel == 0) = false := by
      rw [ht]
      show (w.ws.toNat != 0 && s.b.tokens w.ws.toNat == 0) = false
      rcases hws with h | h
      · simp [h]
      · simp [h]
    have h3 : ((entryOf w s).psel != 0 && decide (16 ≤ (entered w s).b.tokens (entryOf w s).psel)) = false := by
      rw [ht]
      show (w.ps.toNat != 0 && decide (16 ≤ s.b.tokens w.ps.toNat)) = false
      rcases hps with h | h
      · simp [h]
      · simp [Nat.not_le.2 h]
    unfold headHeld
    rw [h1, h2, h3, hc]
    simp only [Bool.false_or]
    split
    · simp [Nat.not_le.2 hcq]
    · rfl
  · unfold maskSkips
    have hm : (entered w s).b.mask = s.b.mask := by
      simp only [entered]
      rw [setQueue_mask]
    rw [hm]
    show (w.msk && _) = false
    cases hw : w.msk
    · rfl
    · cases hk : s.b.mask with
      | nil => rfl
      | cons m ms => simpa using hmsk hw m ms hk
  · unfold Burner.setHead
    rw [hqq]
    show (entered w s).b.setQueue w.q [entryOf w s] = (entered w s).b
    simp only [entered]
    cases w.q <;> rfl

theorem modB_of_eq {s : State} {f : Burner → Burner} (h : f s.b = s.b) : s.modB f = s := by rw [State.modB, h]

/-- The turn of the queue after a ready instruction has entered it, by how its performance ends. -/
theorem issueHead_ready {w : Fwd} {s : State} (h : Ready w s) :
    (∀ g, perform w.ins (entryOf w s) (entered w s) = .done g → g.b.bypass = [] →
      issueHead w.q (entered w s) = .next (g.modB (retireEntry w.q (entryOf w s) true))) ∧
    (∀ g, perform w.ins (entryOf w s) (entered w s) = .wait g →
      issueHead w.q (entered w s) = .next (g.modB fun b => b.setHead w.q fun x => { x with part := [] })) ∧
    (∀ c a u p ri inn g, perform w.ins (entryOf w s) (entered w s) = .trap c a u p ri inn g →
      issueHead w.q (entered w s) = .next (entryFault w.q (entryOf w s) c a u p ri inn g)) := by
  obtain ⟨h1, h2, h3, h4, h5, h6⟩ := entered_head h
  have hs : ∀ t, showBypass (queueSrc w.q) (entered w s).b t = t := fun t => by simp [showBypass, h5]
  have hh : (hideBypass (queueSrc w.q) (entered w s)).modB (fun b => b.setHead w.q fun x => { x with part := [] }) = entered w s := by
    rw [show hideBypass (queueSrc w.q) (entered w s) = entered w s by simp [hideBypass, h5]]
    exact modB_of_eq h6
  have hi : (entryOf w s).ins = w.ins := rfl
  unfold issueHead
  rw [h1]
  simp only [h2, h3, h4, Bool.false_eq_true, if_false, hh, hi, hs]
  refine ⟨fun g hp hg => ?_, fun g hp => ?_, fun c a u p ri inn g hp => ?_⟩
  · rw [hp]
    refine congrArg Host.Outcome.next (congrArg (fun x : Burner => { g with b := x }) ?_)
    dsimp only
    rw [endBypass, if_neg]
    rw [bypass_retireEntry, hg]
    simp
  · rw [hp]; rfl
  · rw [hp]

/-- A ready instruction that its queue performs to the end retires. -/
theorem issues_of_done {i : Instr} {w : Fwd} {s g : State} (he : exec i s = forward w s) (h : Ready w s)
    (hp : perform w.ins (entryOf w s) (entered w s) = .done g) (hg : g.b.bypass = []) : Issues i w s g := by
  rw [Issues, he, forward_enters h, (issueHead_ready h).1 g hp hg]

/-- A ready instruction whose performance faults takes its trap with the entry at the head of its queue. -/
theorem forward_trap {w : Fwd} {s g : State} {c : Cause} {a : DWord} {u : Nat} {p : Runs} {ri : BitVec 16} {inn : Nat}
    (h : Ready w s) (hp : perform w.ins (entryOf w s) (entered w s) = .trap c a u p ri inn g) :
    forward w s = .next (entryFault w.q (entryOf w s) c a u p ri inn g) := by
  rw [forward_enters h, (issueHead_ready h).2.2 c a u p ri inn g hp]

end Sys2Proof.Machine
end

