-- ==== Sys2Proof/Tests/Slice0.lean ====
section
/-! SUPPORT. Tests of the model: words written out from the spec's encoding tables and what the decoder reads from them, terms that
each check of WellFormed refuses, the worked examples of the spec's rules, and for every statement with hypotheses a state and operands
that meet them (the theorems `witness_…`, one for each clause where the clauses do not share one). -/

open Sys2Proof Sys2Proof.Machine

namespace Sys2Proof.Tests

set_option Elab.async false

theorem test_decode_int1 :
    decode [0x18624500] = .ok (.add 5 (.reg 9) (.imm 3), 1) ∧
    decode [0x28624500] = .ok (.sub 5 (.reg 9) (.imm 3), 1) ∧
    decode [0x38624500] = .ok (.mul 5 (.reg 9) (.imm 3), 1) ∧
    decode [0x48624500] = .ok (.mulh 5 (.reg 9) (.imm 3), 1) ∧
    decode [0x58624500] = .ok (.mulhu 5 (.reg 9) (.imm 3), 1) ∧
    decode [0x68624500] = .ok (.div 5 (.reg 9) (.imm 3), 1) ∧
    decode [0x78624500] = .ok (.divu 5 (.reg 9) (.imm 3), 1) ∧
    decode [0x88624500] = .ok (.rem 5 (.reg 9) (.imm 3), 1) ∧
    decode [0x98624500] = .ok (.remu 5 (.reg 9) (.imm 3), 1) ∧
    decode [0xA8624500] = .ok (.and 5 (.reg 9) (.imm 3), 1) ∧
    decode [0xB8624500] = .ok (.or 5 (.reg 9) (.imm 3), 1) ∧
    decode [0xC8624500] = .ok (.xor 5 (.reg 9) (.imm 3), 1) ∧
    decode [0xD8624500] = .ok (.shl 5 (.reg 9) (.imm 3), 1) ∧
    decode [0xE8624500] = .ok (.shr 5 (.reg 9) (.imm 3), 1) ∧
    decode [0xF8624500] = .ok (.sra 5 (.reg 9) (.imm 3), 1) :=
  ⟨rfl, rfl, rfl, rfl, rfl, rfl, rfl, rfl, rfl, rfl, rfl, rfl, rfl, rfl, rfl⟩

theorem test_decode_int2 :
    decode [0x08624504] = .ok (.andn 5 (.reg 9) (.imm 3), 1) ∧
    decode [0x18624504] = .ok (.rol 5 (.reg 9) (.imm 3), 1) ∧
    decode [0x28624504] = .ok (.ror 5 (.reg 9) (.imm 3), 1) ∧
    decode [0x38624504] = .ok (.min 5 (.reg 9) (.imm 3), 1) ∧
    decode [0x48624504] = .ok (.max 5 (.reg 9) (.imm 3), 1) ∧
    decode [0x58624504] = .ok (.minu 5 (.reg 9) (.imm 3), 1) ∧
    decode [0x68624504] = .ok (.maxu 5 (.reg 9) (.imm 3), 1) ∧
    decode [0xA8624504] = .ok (.sext 5 (.reg 9) (.imm 3), 1) ∧
    decode [0xB8624504] = .ok (.zext 5 (.reg 9) (.imm 3), 1) ∧
    decode [0xD8624504] = .ok (.sel 5 (.reg 9) (.imm 3), 1) ∧
    decode [0xE8624504] = .ok (.cmp 5 (.reg 9) (.imm 3), 1) ∧
    decode [0x78024504] = .ok (.clz 5 (.reg 9), 1) ∧
    decode [0x88024504] = .ok (.ctz 5 (.reg 9), 1) ∧
    decode [0x98024504] = .ok (.popc 5 (.reg 9), 1) ∧
    decode [0xC8024504] = .ok (.mov 5 (.reg 9), 1) ∧
    decode [0xA96CC514] = .ok (.li 5 0x2A5B3, 1) :=
  ⟨rfl, rfl, rfl, rfl, rfl, rfl, rfl, rfl, rfl, rfl, rfl, rfl, rfl, rfl, rfl, rfl⟩

theorem test_decode_wide :
    decode [0x08628608] = .ok (.addw 6 (.reg 10) (.imm 3), 1) ∧
    decode [0x18628608] = .ok (.subw 6 (.reg 10) (.imm 3), 1) ∧
    decode [0x28628608] = .ok (.shlw 6 (.reg 10) (.imm 3), 1) ∧
    decode [0x38028608] = .ok (.movw 6 (.reg 10), 1) :=
  ⟨rfl, rfl, rfl, rfl⟩

theorem test_decode_packed :
    decode [0x0862450C] = .ok (.addp16 5 (.reg 9) (.imm 3), 1) ∧
    decode [0x1862450C] = .ok (.addp8 5 (.reg 9) (.imm 3), 1) ∧
    decode [0x2862450C] = .ok (.addp4 5 (.reg 9) (.imm 3), 1) ∧
    decode [0x3862450C] = .ok (.subp16 5 (.reg 9) (.imm 3), 1) ∧
    decode [0x4862450C] = .ok (.subp8 5 (.reg 9) (.imm 3), 1) ∧
    decode [0x5862450C] = .ok (.subp4 5 (.reg 9) (.imm 3), 1) ∧
    decode [0x6862450C] = .ok (.maxp16 5 (.reg 9) (.imm 3), 1) ∧
    decode [0x7862450C] = .ok (.maxp8 5 (.reg 9) (.imm 3), 1) ∧
    decode [0x8862450C] = .ok (.maxp4 5 (.reg 9) (.imm 3), 1) ∧
    decode [0x9862450C] = .ok (.minp16 5 (.reg 9) (.imm 3), 1) ∧
    decode [0xA862450C] = .ok (.minp8 5 (.reg 9) (.imm 3), 1) ∧
    decode [0xB862450C] = .ok (.minp4 5 (.reg 9) (.imm 3), 1) ∧
    decode [0xC862450C] = .ok (.avgp16 5 (.reg 9) (.imm 3), 1) ∧
    decode [0xD862450C] = .ok (.avgp8 5 (.reg 9) (.imm 3), 1) ∧
    decode [0xE862450C] = .ok (.avgp4 5 (.reg 9) (.imm 3), 1) :=
  ⟨rfl, rfl, rfl, rfl, rfl, rfl, rfl, rfl, rfl, rfl, rfl, rfl, rfl, rfl, rfl⟩

theorem test_decode_float :
    decode [0x08624510] = .ok (.fadd 5 (.reg 9) (.imm 3), 1) ∧
    decode [0x18624510] = .ok (.fsub 5 (.reg 9) (.imm 3), 1) ∧
    decode [0x28624510] = .ok (.fmul 5 (.reg 9) (.imm 3), 1) ∧
    decode [0x38624510] = .ok (.ffma 5 (.reg 9) (.imm 3), 1) ∧
    decode [0x48624510] = .ok (.fmin 5 (.reg 9) (.imm 3), 1) ∧
    decode [0x58624510] = .ok (.fmax 5 (.reg 9) (.imm 3), 1) ∧
    decode [0x68624510] = .ok (.fcmp 5 (.reg 9) (.imm 3), 1) ∧
    decode [0x78824510] = .ok (.fcvt 5 (.reg 9) 4, 1) ∧
    decode [0x88024510] = .ok (.fcvti 5 (.reg 9), 1) ∧
    decode [0x98024510] = .ok (.fcvtf 5 (.reg 9), 1) :=
  ⟨rfl, rfl, rfl, rfl, rfl, rfl, rfl, rfl, rfl, rfl⟩

theorem test_decode_memory :
    decode [0x08624518] = .ok (.ldw 5 (.reg 9) (.imm 3), 1) ∧
    decode [0x18624518] = .ok (.stw 5 (.reg 9) (.imm 3), 1) ∧
    decode [0x28624518] = .ok (.aadd 5 (.reg 9) (.imm 3), 1) ∧
    decode [0x38624518] = .ok (.amax 5 (.reg 9) (.imm 3), 1) ∧
    decode [0x48624518] = .ok (.amin 5 (.reg 9) (.imm 3), 1) ∧
    decode [0x58624518] = .ok (.axchg 5 (.reg 9) (.imm 3), 1) ∧
    decode [0x78624518] = .ok (.aor 5 (.reg 9) (.imm 3), 1) ∧
    decode [0x68624618] = .ok (.acas 6 (.reg 9) (.imm 3), 1) ∧
    decode [0x8834C018] = .ok (.fence 19 1, 1) :=
  ⟨rfl, rfl, rfl, rfl, rfl, rfl, rfl, rfl, rfl⟩

theorem test_decode_branch :
    decode [0x013ED41C] = .ok (.bcNz (.reg 9) (-300), 1) ∧
    decode [0x113ED41C] = .ok (.bcZ (.reg 9) (-300), 1) ∧
    decode [0x213ED41C] = .ok (.bcqAny (.reg 9) (-300), 1) ∧
    decode [0x313ED41C] = .ok (.bcqNone (.reg 9) (-300), 1) ∧
    decode [0x45212C1C] = .ok (.bevSet 41 300, 1) ∧
    decode [0x55212C1C] = .ok (.bevClr 41 300, 1) ∧
    decode [0x6120001C] = .ok (.jr (.reg 9), 1) ∧
    decode [0x7800001C] = .ok (.ret, 1) ∧
    decode [0xFEEE9020] = .ok (.b (-70000), 1) ∧
    decode [0x01117024] = .ok (.call 70000, 1) ∧
    decode [0xB13ED428] = .ok (.loop 11 (.reg 9) (-300), 1) :=
  ⟨rfl, rfl, rfl, rfl, rfl, rfl, rfl, rfl, rfl, rfl, rfl⟩

theorem test_decode_sync :
    decode [0x080A402C] = .ok (.evwait 41, 1) ∧
    decode [0x180A402C] = .ok (.evset 41, 1) ∧
    decode [0x280A402C] = .ok (.evclr 41, 1) ∧
    decode [0x3862452C] = .ok (.waitf 5 (.reg 9) (.imm 3), 1) ∧
    decode [0x08624030] = .ok (.barm (.reg 9) (.imm 3), 1) ∧
    decode [0x18024030] = .ok (.barr (.reg 9), 1) ∧
    decode [0x28024530] = .ok (.bwait 5 (.reg 9), 1) ∧
    decode [0x38024030] = .ok (.bleave (.reg 9), 1) ∧
    decode [0x08624034] = .ok (.sendt (.reg 9) (.imm 3), 1) :=
  ⟨rfl, rfl, rfl, rfl, rfl, rfl, rfl, rfl, rfl⟩

theorem test_decode_system :
    decode [0x080240F4] = .ok (.trap (.reg 9), 1) ∧
    decode [0x780240F4] = .ok (.bkpt (.reg 9), 1) ∧
    decode [0x181000F4] = .ok (.rft, 1) ∧
    decode [0x281000F4] = .ok (.yield, 1) ∧
    decode [0x381000F4] = .ok (.halt, 1) ∧
    decode [0x681000F4] = .ok (.nop, 1) ∧
    decode [0x881000F4] = .ok (.bswitch, 1) ∧
    decode [0x423005F4] = .ok (.ctlr 5 17, 1) ∧
    decode [0x455005F4] = .ok (.inbpop 5, 1) ∧
    decode [0x520240F4] = .ok (.ctlw 16 (.reg 9), 1) ∧
    decode [0x556240F4] = .ok (.inbrel (.reg 9), 1) ∧
    decode [0x510240F4] = .ok (.sld (.reg 9), 1) ∧
    decode [0x518240F4] = .ok (.srsWrite 0 (.reg 9), 1) ∧
    decode [0x51A240F4] = .ok (.srsWrite 1 (.reg 9), 1) ∧
    decode [0x596240F4] = .ok (.ltrWrite 11 (.reg 9), 1) ∧
    decode [0x55A240F4] = .ok (.pfwait (.reg 9), 1) ∧
    decode [0x55E240F4] = .ok (.trmark (.reg 9), 1) ∧
    decode [0x5C8240F4] = .ok (.mode (.reg 9), 1) ∧
    decode [0x0005E0FA] = .ok (.pfx 0x0005E0, 1) :=
  ⟨rfl, rfl, rfl, rfl, rfl, rfl, rfl, rfl, rfl, rfl, rfl, rfl, rfl, rfl, rfl, rfl, rfl, rfl, rfl⟩

theorem test_decode_vint :
    decode [0x48AD9E81, 0x0017348F] = .ok (.vadd { rm := 0, wsel := 1, psel := 3, swzb := 2, swza := 1, b := 1315, a := 581, d := 871, hb := 1, ha := 0 }, 2) ∧
    decode [0x48AD9E81, 0x0417348F] = .ok (.vsub { rm := 0, wsel := 1, psel := 3, swzb := 2, swza := 1, b := 1315, a := 581, d := 871, hb := 1, ha := 0 }, 2) ∧
    decode [0x48AD9E81, 0x0817348F] = .ok (.vmul { rm := 0, wsel := 1, psel := 3, swzb := 2, swza := 1, b := 1315, a := 581, d := 871, hb := 1, ha := 0 }, 2) ∧
    decode [0x48AD9E81, 0x0C17348F] = .ok (.vmulh { rm := 0, wsel := 1, psel := 3, swzb := 2, swza := 1, b := 1315, a := 581, d := 871, hb := 1, ha := 0 }, 2) ∧
    decode [0x48AD9E81, 0x1017348F] = .ok (.vmad { rm := 0, wsel := 1, psel := 3, swzb := 2, swza := 1, b := 1315, a := 581, d := 871, hb := 1, ha := 0 }, 2) ∧
    decode [0x48AD9E81, 0x1417348F] = .ok (.vmin { rm := 0, wsel := 1, psel := 3, swzb := 2, swza := 1, b := 1315, a := 581, d := 871, hb := 1, ha := 0 }, 2) ∧
    decode [0x48AD9E81, 0x1817348F] = .ok (.vmax { rm := 0, wsel := 1, psel := 3, swzb := 2, swza := 1, b := 1315, a := 581, d := 871, hb := 1, ha := 0 }, 2) ∧
    decode [0x48AD9E81, 0x2417348F] = .ok (.vand { rm := 0, wsel := 1, psel := 3, swzb := 2, swza := 1, b := 1315, a := 581, d := 871, hb := 1, ha := 0 }, 2) ∧
    decode [0x48AD9E81, 0x2817348F] = .ok (.vor { rm := 0, wsel := 1, psel := 3, swzb := 2, swza := 1, b := 1315, a := 581, d := 871, hb := 1, ha := 0 }, 2) ∧
    decode [0x48AD9E81, 0x2C17348F] = .ok (.vxor { rm := 0, wsel := 1, psel := 3, swzb := 2, swza := 1, b := 1315, a := 581, d := 871, hb := 1, ha := 0 }, 2) ∧
    decode [0x48AD9E81, 0x3417348F] = .ok (.vshl { rm := 0, wsel := 1, psel := 3, swzb := 2, swza := 1, b := 1315, a := 581, d := 871, hb := 1, ha := 0 }, 2) ∧
    decode [0x48AD9E81, 0x3817348F] = .ok (.vshr { rm := 0, wsel := 1, psel := 3, swzb := 2, swza := 1, b := 1315, a := 581, d := 871, hb := 1, ha := 0 }, 2) ∧
    decode [0x48AD9E81, 0x3C17348F] = .ok (.vsra { rm := 0, wsel := 1, psel := 3, swzb := 2, swza := 1, b := 1315, a := 581, d := 871, hb := 1, ha := 0 }, 2) ∧
    decode [0x48AD9D81, 0x1C162003] = .ok (.vabs { rm := 0, wsel := 1, psel := 3, swzb := 0, swza := 1, b := 0, a := 581, d := 871, hb := 0, ha := 1 }, 2) ∧
    decode [0x48AD9D81, 0x20162003] = .ok (.vneg { rm := 0, wsel := 1, psel := 3, swzb := 0, swza := 1, b := 0, a := 581, d := 871, hb := 0, ha := 1 }, 2) ∧
    decode [0x48AD9D81, 0x30162003] = .ok (.vnot { rm := 0, wsel := 1, psel := 3, swzb := 0, swza := 1, b := 0, a := 581, d := 871, hb := 0, ha := 1 }, 2) ∧
    decode [0x48AD9D81, 0x40162003] = .ok (.vpopc { rm := 0, wsel := 1, psel := 3, swzb := 0, swza := 1, b := 0, a := 581, d := 871, hb := 0, ha := 1 }, 2) ∧
    decode [0x48AD9D81, 0x44162003] = .ok (.vclz { rm := 0, wsel := 1, psel := 3, swzb := 0, swza := 1, b := 0, a := 581, d := 871, hb := 0, ha := 1 }, 2) :=
  ⟨rfl, rfl, rfl, rfl, rfl, rfl, rfl, rfl, rfl, rfl, rfl, rfl, rfl, rfl, rfl, rfl, rfl, rfl⟩

theorem test_decode_vfloat :
    decode [0x48AD9E85, 0x0197348F] = .ok (.vfadd { rm := 3, wsel := 1, psel := 3, swzb := 2, swza := 1, b := 1315, a := 581, d := 871, hb := 1, ha := 0 }, 2) ∧
    decode [0x48AD9E85, 0x0597348F] = .ok (.vfsub { rm := 3, wsel := 1, psel := 3, swzb := 2, swza := 1, b := 1315, a := 581, d := 871, hb := 1, ha := 0 }, 2) ∧
    decode [0x48AD9E85, 0x0997348F] = .ok (.vfmul { rm := 3, wsel := 1, psel := 3, swzb := 2, swza := 1, b := 1315, a := 581, d := 871, hb := 1, ha := 0 }, 2) ∧
    decode [0x48AD9E85, 0x0D97348F] = .ok (.vfma { rm := 3, wsel := 1, psel := 3, swzb := 2, swza := 1, b := 1315, a := 581, d := 871, hb := 1, ha := 0 }, 2) ∧
    decode [0x48AD9E85, 0x1997348F] = .ok (.vdiv { rm := 3, wsel := 1, psel := 3, swzb := 2, swza := 1, b := 1315, a := 581, d := 871, hb := 1, ha := 0 }, 2) ∧
    decode [0x48AD9E85, 0x1017348F] = .ok (.vfmin { rm := 0, wsel := 1, psel := 3, swzb := 2, swza := 1, b := 1315, a := 581, d := 871, hb := 1, ha := 0 }, 2) ∧
    decode [0x48AD9E85, 0x1417348F] = .ok (.vfmax { rm := 0, wsel := 1, psel := 3, swzb := 2, swza := 1, b := 1315, a := 581, d := 871, hb := 1, ha := 0 }, 2) ∧
    decode [0x48AD9C85, 0x1D162003] = .ok (.vsqrt { rm := 2, wsel := 1, psel := 3, swzb := 0, swza := 1, b := 0, a := 581, d := 871, hb := 0, ha := 0 }, 2) ∧
    decode [0x48AD9C85, 0x21162003] = .ok (.vrcp { rm := 2, wsel := 1, psel := 3, swzb := 0, swza := 1, b := 0, a := 581, d := 871, hb := 0, ha := 0 }, 2) ∧
    decode [0x48AD9C85, 0x25162003] = .ok (.vrsq { rm := 2, wsel := 1, psel := 3, swzb := 0, swza := 1, b := 0, a := 581, d := 871, hb := 0, ha := 0 }, 2) ∧
    decode [0x48AD9C85, 0x29162003] = .ok (.vexp2 { rm := 2, wsel := 1, psel := 3, swzb := 0, swza := 1, b := 0, a := 581, d := 871, hb := 0, ha := 0 }, 2) ∧
    decode [0x48AD9C85, 0x2D162003] = .ok (.vlog2 { rm := 2, wsel := 1, psel := 3, swzb := 0, swza := 1, b := 0, a := 581, d := 871, hb := 0, ha := 0 }, 2) ∧
    decode [0x48AD9C85, 0x31162003] = .ok (.vsin { rm := 2, wsel := 1, psel := 3, swzb := 0, swza := 1, b := 0, a := 581, d := 871, hb := 0, ha := 0 }, 2) ∧
    decode [0x48AD9C85, 0x35162003] = .ok (.vcos { rm := 2, wsel := 1, psel := 3, swzb := 0, swza := 1, b := 0, a := 581, d := 871, hb := 0, ha := 0 }, 2) ∧
    decode [0x48AD9C85, 0x39162003] = .ok (.vtanh { rm := 2, wsel := 1, psel := 3, swzb := 0, swza := 1, b := 0, a := 581, d := 871, hb := 0, ha := 0 }, 2) :=
  ⟨rfl, rfl, rfl, rfl, rfl, rfl, rfl, rfl, rfl, rfl, rfl, rfl, rfl, rfl, rfl⟩

theorem test_decode_vconv :
    decode [0x48AD9E89, 0x0017348F] = .ok (.vcmpEq { rm := 0, wsel := 1, psel := 3, swzb := 2, swza := 1, b := 1315, a := 581, d := 871, hb := 1, ha := 0 }, 2) ∧
    decode [0x48AD9E89, 0x0417348F] = .ok (.vcmpNe { rm := 0, wsel := 1, psel := 3, swzb := 2, swza := 1, b := 1315, a := 581, d := 871, hb := 1, ha := 0 }, 2) ∧
    decode [0x48AD9E89, 0x0817348F] = .ok (.vcmpLt { rm := 0, wsel := 1, psel := 3, swzb := 2, swza := 1, b := 1315, a := 581, d := 871, hb := 1, ha := 0 }, 2) ∧
    decode [0x48AD9E89, 0x0C17348F] = .ok (.vcmpLe { rm := 0, wsel := 1, psel := 3, swzb := 2, swza := 1, b := 1315, a := 581, d := 871, hb := 1, ha := 0 }, 2) ∧
    decode [0x48AD9E89, 0x1017348F] = .ok (.vcmpGt { rm := 0, wsel := 1, psel := 3, swzb := 2, swza := 1, b := 1315, a := 581, d := 871, hb := 1, ha := 0 }, 2) ∧
    decode [0x48AD9E89, 0x1417348F] = .ok (.vcmpGe { rm := 0, wsel := 1, psel := 3, swzb := 2, swza := 1, b := 1315, a := 581, d := 871, hb := 1, ha := 0 }, 2) ∧
    decode [0x48AD9E89, 0x1817348F] = .ok (.vcmpLtu { rm := 0, wsel := 1, psel := 3, swzb := 2, swza := 1, b := 1315, a := 581, d := 871, hb := 1, ha := 0 }, 2) ∧
    decode [0x48AD9E89, 0x1C17348F] = .ok (.vcmpGeu { rm := 0, wsel := 1, psel := 3, swzb := 2, swza := 1, b := 1315, a := 581, d := 871, hb := 1, ha := 0 }, 2) ∧
    decode [0x48AD9E89, 0x2017348F] = .ok (.vsel { rm := 0, wsel := 1, psel := 3, swzb := 2, swza := 1, b := 1315, a := 581, d := 871, hb := 1, ha := 0 }, 2) ∧
    decode [0x48AD9C8D, 0x00962013] = .ok (.vcvt { rm := 1, wsel := 1, psel := 3, swzb := 0, swza := 1, b := 4, a := 581, d := 871, hb := 0, ha := 0 }, 2) ∧
    decode [0x48AD9C8D, 0x04962013] = .ok (.vscale { rm := 1, wsel := 1, psel := 3, swzb := 0, swza := 1, b := 4, a := 581, d := 871, hb := 0, ha := 0 }, 2) ∧
    decode [0x48AD9E8D, 0x08962013] = .ok (.vqnt { rm := 1, wsel := 1, psel := 3, swzb := 0, swza := 1, b := 4, a := 581, d := 871, hb := 1, ha := 0 }, 2) ∧
    decode [0x48AD9E8D, 0x0C96348F] = .ok (.vdqnt { rm := 1, wsel := 1, psel := 3, swzb := 0, swza := 1, b := 1315, a := 581, d := 871, hb := 1, ha := 0 }, 2) :=
  ⟨rfl, rfl, rfl, rfl, rfl, rfl, rfl, rfl, rfl, rfl, rfl, rfl, rfl⟩

theorem test_decode_vshape :
    decode [0x48AD9D91, 0x00162027] = .ok (.vrotr { rm := 0, wsel := 1, psel := 3, swza := 1, b := .reg 9, a := 581, d := 871, ha := 1 }, 2) ∧
    decode [0x48AD9D91, 0x04162027] = .ok (.vrotc { rm := 0, wsel := 1, psel := 3, swza := 1, b := .reg 9, a := 581, d := 871, ha := 1 }, 2) ∧
    decode [0x48AD9D91, 0x08162027] = .ok (.vbcr { rm := 0, wsel := 1, psel := 3, swza := 1, b := .reg 9, a := 581, d := 871, ha := 1 }, 2) ∧
    decode [0x48AD9D91, 0x0C162027] = .ok (.vbcc { rm := 0, wsel := 1, psel := 3, swza := 1, b := .reg 9, a := 581, d := 871, ha := 1 }, 2) ∧
    decode [0x48AD9D91, 0x24162027] = .ok (.vext { rm := 0, wsel := 1, psel := 3, swza := 1, b := .reg 9, a := 581, d := 871, ha := 1 }, 2) ∧
    decode [0x48AD9D91, 0x28162027] = .ok (.vins { rm := 0, wsel := 1, psel := 3, swza := 1, b := .reg 9, a := 581, d := 871, ha := 1 }, 2) ∧
    decode [0x48AD9C91, 0x1116200F] = .ok (.vredr { rm := 2, wsel := 1, psel := 3, swzb := 0, swza := 1, b := 3, a := 581, d := 871, hb := 0, ha := 0 }, 2) ∧
    decode [0x48AD9C91, 0x1516200F] = .ok (.vredc { rm := 2, wsel := 1, psel := 3, swzb := 0, swza := 1, b := 3, a := 581, d := 871, hb := 0, ha := 0 }, 2) ∧
    decode [0x48AD9C91, 0x1916200F] = .ok (.vreda { rm := 2, wsel := 1, psel := 3, swzb := 0, swza := 1, b := 3, a := 581, d := 871, hb := 0, ha := 0 }, 2) ∧
    decode [0x000D9C91, 0x1C160027] = .ok (.viota { rm := 0, wsel := 1, psel := 3, swza := 0, b := .reg 9, a := 0, d := 871, ha := 0 }, 2) ∧
    decode [0x000D9C91, 0x20160027] = .ok (.vspl { rm := 0, wsel := 1, psel := 3, swza := 0, b := .reg 9, a := 0, d := 871, ha := 0 }, 2) ∧
    decode [0x48AD9C95, 0x00162003] = .ok (.vcoal { rm := 0, wsel := 1, psel := 3, swzb := 0, swza := 1, b := 0, a := 581, d := 871, hb := 0, ha := 0 }, 2) ∧
    decode [0x48AD9D95, 0x04162027] = .ok (.vlen { rm := 0, wsel := 1, psel := 3, swza := 1, b := .reg 9, a := 581, d := 871, ha := 1 }, 2) ∧
    decode [0x48AD9C95, 0x08162003] = .ok (.vocc { rm := 0, wsel := 1, psel := 3, swzb := 0, swza := 1, b := 0, a := 581, d := 871, hb := 0, ha := 0 }, 2) :=
  ⟨rfl, rfl, rfl, rfl, rfl, rfl, rfl, rfl, rfl, rfl, rfl, rfl, rfl, rfl⟩

theorem test_decode_vmask :
    decode [0x48A00099, 0x00162003] = .ok (.mpush { rm := 0, wsel := 1, psel := 3, swzb := 0, swza := 1, b := 0, a := 581, d := 0, hb := 0, ha := 0 }, 2) ∧
    decode [0x00000099, 0x04160003] = .ok (.minv { rm := 0, wsel := 1, psel := 3, swzb := 0, swza := 0, b := 0, a := 0, d := 0, hb := 0, ha := 0 }, 2) ∧
    decode [0x00000099, 0x08160003] = .ok (.mpop { rm := 0, wsel := 1, psel := 3, swzb := 0, swza := 0, b := 0, a := 0, d := 0, hb := 0, ha := 0 }, 2) ∧
    decode [0x000D9C99, 0x0C160003] = .ok (.mtest { rm := 0, wsel := 1, psel := 3, swzb := 0, swza := 0, b := 0, a := 0, d := 871, hb := 0, ha := 0 }, 2) ∧
    decode [0x48A00099, 0x1016200B] = .ok (.vcq { rm := 0, wsel := 1, psel := 3, swzb := 0, swza := 1, b := 2, a := 581, d := 0, hb := 0, ha := 0 }, 2) ∧
    decode [0x0040949D, 0x00160003] = .ok (.rdef { rm := 0, wsel := 1, psel := 3, swzb := 0, swza := 0, b := 0, a := 2, d := 37, hb := 0, ha := 0 }, 2) ∧
    decode [0x04AD9C9D, 0x04160003] = .ok (.vtag { rm := 0, wsel := 1, psel := 3, swzb := 0, swza := 0, b := 0, a := 37, d := 871, hb := 0, ha := 0 }, 2) ∧
    decode [0x000D9C9D, 0x08160003] = .ok (.vuntag { rm := 0, wsel := 1, psel := 3, swzb := 0, swza := 0, b := 0, a := 0, d := 871, hb := 0, ha := 0 }, 2) ∧
    decode [0x000D9C9D, 0x0C160003] = .ok (.vdrop { rm := 0, wsel := 1, psel := 3, swzb := 0, swza := 0, b := 0, a := 0, d := 871, hb := 0, ha := 0 }, 2) :=
  ⟨rfl, rfl, rfl, rfl, rfl, rfl, rfl, rfl, rfl⟩

theorem test_decode_vmem :
    decode [0x6CE240C1, 0x01330FCF] = .ok (.vld { rm := 2, wsel := 3, psel := 1, b := .imm 3, off := 0xF3, d := 0x367, a := .reg 9 }, 2) ∧
    decode [0x6CE240C1, 0x05330FCF] = .ok (.vldRot { rm := 2, wsel := 3, psel := 1, b := .imm 3, off := 0xF3, d := 0x367, a := .reg 9 }, 2) ∧
    decode [0x6CE240C9, 0x01330FCF] = .ok (.vldz { rm := 2, wsel := 3, psel := 1, b := .imm 3, off := 0xF3, d := 0x367, a := .reg 9 }, 2) ∧
    decode [0x6CE240D1, 0x01330FCF] = .ok (.vldm { rm := 2, wsel := 3, psel := 1, b := .imm 3, off := 0xF3, d := 0x367, a := .reg 9 }, 2) ∧
    decode [0x6CE240C5, 0x012B0FCF] = .ok (.vst { rm := 2, wsel := 2, psel := 5, b := .imm 3, off := 0xF3, d := 0x367, a := .reg 9 }, 2) ∧
    decode [0x6CE240C5, 0x052B0FCF] = .ok (.vstRot { rm := 2, wsel := 2, psel := 5, b := .imm 3, off := 0xF3, d := 0x367, a := .reg 9 }, 2) ∧
    decode [0x6CE240CD, 0x012B0FCF] = .ok (.vstz { rm := 2, wsel := 2, psel := 5, b := .imm 3, off := 0xF3, d := 0x367, a := .reg 9 }, 2) ∧
    decode [0x6CE240D5, 0x012B0FCF] = .ok (.vstm { rm := 2, wsel := 2, psel := 5, b := .imm 3, off := 0xF3, d := 0x367, a := .reg 9 }, 2) :=
  ⟨rfl, rfl, rfl, rfl, rfl, rfl, rfl, rfl⟩

theorem test_decode_matrix :
    decode [0x001000D9, 0x00170003] = .ok (.mlease { rm := 0, wsel := 1, psel := 3, b := .imm 0, oa := 0, ob := 0, acc := 0, d := 0, a := .imm 0 }, 2) ∧
    decode [0x001000D9, 0x04170003] = .ok (.mfree { rm := 0, wsel := 1, psel := 3, b := .imm 0, oa := 0, ob := 0, acc := 0, d := 0, a := .imm 0 }, 2) ∧
    decode [0x001000D9, 0x08170283] = .ok (.otake { rm := 0, wsel := 1, psel := 3, b := .imm 0, oa := 5, ob := 0, acc := 0, d := 0, a := .imm 0 }, 2) ∧
    decode [0x001000D9, 0x0C170283] = .ok (.ogive { rm := 0, wsel := 1, psel := 3, b := .imm 0, oa := 5, ob := 0, acc := 0, d := 0, a := .imm 0 }, 2) ∧
    decode [0x0001C0DD, 0x00162683] = .ok (.ofill { rm := 0, wsel := 1, psel := 3, b := .reg 9, oa := 5, ob := 0, acc := 0, d := 0, a := .reg 7 }, 2) ∧
    decode [0x001000E1, 0x001702EB] = .ok (.mma { rm := 0, wsel := 1, psel := 3, b := .imm 0, oa := 5, ob := 6, acc := 2, d := 0, a := .imm 0 }, 2) ∧
    decode [0x001000E1, 0x041702EB] = .ok (.mmaz { rm := 0, wsel := 1, psel := 3, b := .imm 0, oa := 5, ob := 6, acc := 2, d := 0, a := .imm 0 }, 2) ∧
    decode [0x6CF000E5, 0x0016240B] = .ok (.ard { rm := 0, wsel := 1, psel := 3, b := .reg 9, oa := 0, ob := 0, acc := 2, d := 871, a := .imm 0 }, 2) ∧
    decode [0x6CF000E5, 0x0416240B] = .ok (.awr { rm := 0, wsel := 1, psel := 3, b := .reg 9, oa := 0, ob := 0, acc := 2, d := 871, a := .imm 0 }, 2) ∧
    decode [0x001000E5, 0x0817040B] = .ok (.azero { rm := 0, wsel := 1, psel := 3, b := .imm 1, oa := 0, ob := 0, acc := 2, d := 0, a := .imm 0 }, 2) :=
  ⟨rfl, rfl, rfl, rfl, rfl, rfl, rfl, rfl, rfl, rfl⟩

theorem test_decode_engine :
    decode [0x2CAC02E9, 0x002B0007] = .ok (.esend { wsel := 2, psel := 5, c := .imm 0, imm8 := 1, d := 11, a := .reg 21, b := .imm 0, unit := 2 }, 2) ∧
    decode [0x320401E9, 0x042B0003] = .ok (.erecv { wsel := 2, psel := 5, c := .imm 0, imm8 := 0, d := 12, a := .imm 0, b := .imm 0, unit := 1 }, 2) ∧
    decode [0x2E0403E9, 0x082B0003] = .ok (.estatStatus { wsel := 2, psel := 5, c := .imm 0, imm8 := 0, d := 11, a := .imm 0, b := .imm 0, unit := 3 }, 2) ∧
    decode [0x2E0403E9, 0x082B0007] = .ok (.estatProgress { wsel := 2, psel := 5, c := .imm 0, imm8 := 1, d := 11, a := .imm 0, b := .imm 0, unit := 3 }, 2) ∧
    decode [0x2E0403E9, 0x082B000B] = .ok (.estatDrop { wsel := 2, psel := 5, c := .imm 0, imm8 := 2, d := 11, a := .imm 0, b := .imm 0, unit := 3 }, 2) ∧
    decode [0x00A400E9, 0x0C2B0003] = .ok (.bxform { wsel := 2, psel := 5, c := .imm 0, imm8 := 0, d := 0, a := .reg 20, b := .imm 0, unit := 0 }, 2) :=
  ⟨rfl, rfl, rfl, rfl, rfl, rfl⟩

theorem test_decode_pantry :
    decode [0x30AA20ED, 0x002A2403] = .ok (.claim { wsel := 2, psel := 5, c := .reg 9, imm8 := 0, d := 12, a := .reg 21, b := .reg 34, unit := 0 }, 2) ∧
    decode [0x30AC00ED, 0x042B0003] = .ok (.clwait { wsel := 2, psel := 5, c := .imm 0, imm8 := 0, d := 12, a := .reg 21, b := .imm 0, unit := 0 }, 2) ∧
    decode [0x2CAA20ED, 0x082A2403] = .ok (.fulfil { wsel := 2, psel := 5, c := .reg 9, imm8 := 0, d := 11, a := .reg 21, b := .reg 34, unit := 0 }, 2) ∧
    decode [0x2CAC00ED, 0x0C2B0003] = .ok (.abandon { wsel := 2, psel := 5, c := .imm 0, imm8 := 0, d := 11, a := .reg 21, b := .imm 0, unit := 0 }, 2) ∧
    decode [0x2CAC00ED, 0x102B0003] = .ok (.clhold { wsel := 2, psel := 5, c := .imm 0, imm8 := 0, d := 11, a := .reg 21, b := .imm 0, unit := 0 }, 2) ∧
    decode [0x2CAC00ED, 0x142B0003] = .ok (.clfree { wsel := 2, psel := 5, c := .imm 0, imm8 := 0, d := 11, a := .reg 21, b := .imm 0, unit := 0 }, 2) :=
  ⟨rfl, rfl, rfl, rfl, rfl, rfl⟩

theorem test_decode_weight :
    decode [0x2CA400F1, 0x002B0003] = .ok (.wreg { wsel := 2, psel := 5, c := .imm 0, imm8 := 0, d := 11, a := .reg 20, b := .imm 0, unit := 0 }, 2) ∧
    decode [0x2CAC01F1, 0x002B0003] = .ok (.wregUnreg { wsel := 2, psel := 5, c := .imm 0, imm8 := 0, d := 11, a := .reg 21, b := .imm 0, unit := 1 }, 2) ∧
    decode [0x2CA402F1, 0x002B0003] = .ok (.wregRestore { wsel := 2, psel := 5, c := .imm 0, imm8 := 0, d := 11, a := .reg 20, b := .imm 0, unit := 2 }, 2) ∧
    decode [0x2CA220F1, 0x042A241F] = .ok (.wloadPast { wsel := 2, psel := 5, c := .reg 9, imm8 := 7, d := 11, a := .reg 20, b := .reg 34, unit := 0 }, 2) ∧
    decode [0x2CA221F1, 0x042A241F] = .ok (.wloadWait { wsel := 2, psel := 5, c := .reg 9, imm8 := 7, d := 11, a := .reg 20, b := .reg 34, unit := 1 }, 2) ∧
    decode [0x2CA222F1, 0x042A241F] = .ok (.wloadExtrap { wsel := 2, psel := 5, c := .reg 9, imm8 := 7, d := 11, a := .reg 20, b := .reg 34, unit := 2 }, 2) ∧
    decode [0x2CAA20F1, 0x082A2017] = .ok (.wcommit { wsel := 2, psel := 5, c := .reg 8, imm8 := 5, d := 11, a := .reg 21, b := .reg 34, unit := 0 }, 2) ∧
    decode [0x2CAA20F1, 0x0C2B0217] = .ok (.wpub { wsel := 2, psel := 5, c := .imm 0, imm8 := 133, d := 11, a := .reg 21, b := .reg 34, unit := 0 }, 2) ∧
    decode [0x2CAA20F1, 0x102B0003] = .ok (.wrelease { wsel := 2, psel := 5, c := .imm 0, imm8 := 0, d := 11, a := .reg 21, b := .reg 34, unit := 0 }, 2) ∧
    decode [0x2CAC00F1, 0x142B000F] = .ok (.wquery { wsel := 2, psel := 5, c := .imm 0, imm8 := 3, d := 11, a := .reg 21, b := .imm 0, unit := 0 }, 2) :=
  ⟨rfl, rfl, rfl, rfl, rfl, rfl, rfl, rfl, rfl, rfl⟩

/-! ## Ill-formed terms, each of which one check of WellFormed refuses (R15 to R21, R26) -/

def fv : VF := { rm := 0, wsel := 0, psel := 0, swzb := 0, swza := 0, b := 0, a := 0, d := 0, hb := 0, ha := 0 }
def fs : VSF := { rm := 0, wsel := 0, psel := 0, swza := 0, b := .imm 0, a := 0, d := 0, ha := 0 }
def fm : MF := { rm := 0, wsel := 0, psel := 0, b := .imm 0, off := 0, d := 0, a := .imm 0 }
def fx : XF := { rm := 0, wsel := 0, psel := 0, b := .imm 0, oa := 0, ob := 0, acc := 0, d := 0, a := .imm 0 }
def fe : EF := { wsel := 0, psel := 0, c := .imm 0, imm8 := 0, d := 0, a := .imm 0, b := .imm 0, unit := 0 }

theorem test_illformed_operands :
    (Instr.add 1 (.lit2 0) (.imm 0)).WellFormed = false ∧ (Instr.addw 2 (.reg 3) (.imm 0)).WellFormed = false ∧
    (Instr.addw 3 (.reg 2) (.imm 0)).WellFormed = false ∧ (Instr.movw 1 (.imm 0)).WellFormed = false ∧
    (Instr.acas 5 (.imm 0) (.imm 0)).WellFormed = false ∧ (Instr.fcvt 1 (.imm 0) 0x0F).WellFormed = false ∧
    (Instr.ctlr 1 14).WellFormed = false ∧ (Instr.ctlr 1 42).WellFormed = false ∧ (Instr.ctlw 109 (.imm 0)).WellFormed = false ∧
    (Instr.ctlw 8 (.imm 0)).WellFormed = false ∧ (Instr.wpub { fe with b := .reg 3 }).WellFormed = false ∧
    (Instr.wquery { fe with b := .reg 2 }).WellFormed = false ∧ (Instr.mma { fx with a := .imm 1 }).WellFormed = false := by decide

theorem test_illformed_tokens :
    (Instr.vld { fm with wsel := 1 }).WellFormed = false ∧ (Instr.vld { fm with psel := 3 }).WellFormed = false ∧
    (Instr.vadd { fv with wsel := 2 }).WellFormed = false ∧ (Instr.vadd { fv with psel := 1 }).WellFormed = false ∧
    (Instr.vst { fm with wsel := 1 }).WellFormed = false ∧ (Instr.vst { fm with psel := 2 }).WellFormed = false ∧
    (Instr.vlen { fs with wsel := 7 }).WellFormed = false ∧ (Instr.mlease { fx with psel := 5 }).WellFormed = false ∧
    (Instr.claim { fe with wsel := 5 }).WellFormed = false := by decide

theorem test_illformed_zero_fields :
    (Instr.vnot { fv with b := 1 }).WellFormed = false ∧ (Instr.mpop { fv with a := 1 }).WellFormed = false ∧
    (Instr.viota { fs with ha := 1 }).WellFormed = false ∧ (Instr.mpush { fv with d := 1 }).WellFormed = false ∧
    (Instr.vand { fv with rm := 1 }).WellFormed = false ∧ (Instr.vredr { fv with b := 8 }).WellFormed = false ∧
    (Instr.vredr { fv with b := 1, rm := 1 }).WellFormed = false ∧ (Instr.vcq { fv with b := 3 }).WellFormed = false ∧
    (Instr.rdef { fv with d := 64 }).WellFormed = false ∧ (Instr.rdef { fv with a := 4 }).WellFormed = false ∧
    (Instr.vtag { fv with a := 64 }).WellFormed = false ∧ (Instr.mma { fx with d := 1 }).WellFormed = false ∧
    (Instr.mfree { fx with oa := 1 }).WellFormed = false ∧ (Instr.azero { fx with rm := 1 }).WellFormed = false := by decide

theorem test_illformed_codes :
    (Instr.esend { fe with imm8 := 2 }).WellFormed = false ∧ (Instr.estatDrop { fe with imm8 := 4 }).WellFormed = false ∧
    (Instr.erecv { fe with imm8 := 1 }).WellFormed = false ∧ (Instr.wcommit { fe with imm8 := 0x40 }).WellFormed = false ∧
    (Instr.vcvt { fv with b := 0x0F }).WellFormed = false ∧ (Instr.vqnt { fv with b := 4, d := 2047 }).WellFormed = false ∧
    (Instr.vscale { fv with b := 9 }).WellFormed = false ∧ (Instr.vfadd { fv with rm := 7 }).WellFormed = false ∧
    (Instr.vst { fm with rm := 5 }).WellFormed = false ∧ (Instr.vredr { fv with b := 3, rm := 5 }).WellFormed = false ∧
    (Instr.mma { fx with rm := 1 }).WellFormed = false := by decide

/-- PFX fields (R21): bits 31:20 of the word, sat 11, fmt without fe, rnd without re, a reserved format. -/
theorem test_illformed_prefixes :
    (Instr.pfx 0x001000).WellFormed = false ∧ (Instr.pfx 0x000030).WellFormed = false ∧ (Instr.pfx 0x000080).WellFormed = false ∧
    (Instr.pfx 0x000001).WellFormed = false ∧ (Instr.pfx 0x0007C0).WellFormed = false ∧ (Instr.pfx 0x0001DB).WellFormed = true := by
  decide

theorem test_wellformed :
    (Instr.addw 2 (.reg 4) (.lit2 0)).WellFormed = true ∧ (Instr.vld { fm with wsel := 3, psel := 1 }).WellFormed = true ∧
    (Instr.vst { fm with wsel := 2, psel := 5 }).WellFormed = true ∧ (Instr.vfadd { fv with rm := 5 }).WellFormed = true ∧
    (Instr.wcommit { fe with imm8 := 0xBF }).WellFormed = true := by decide

theorem test_refused_words :
    decode [0] = .error .illegalOpcode ∧ decode [0x3E8] = .error .illegalWord ∧ decode [0x640] = .error .illegalOpcode ∧
    decode [0x38] = .error .illegalOpcode := ⟨rfl, rfl, rfl, rfl⟩

/-! ## One step on a small state; the expected results are the spec's worked examples or tables -/

/-- A burner bound with every reservation of core 0 (R216), running and front, whose next choices fall on it. -/
def base : State := { State.reset with b := { placed 0 0 with status := .running, front := true }, sched := [0] }
def withB (f : Burner → Burner) : State := { base with b := f base.b }
def withS (l : List (BitVec 6 × Word)) : State := withB fun b => l.foldl (fun b p => b.setS p.1 p.2) b
def withV (l : List (Nat × Runs × Nat × BitVec 5)) : State :=
  withB fun b => l.foldl (fun b p => b.setV p.1 { runs := p.2.1, len := p.2.2.1, tag := p.2.2.2 }) b
/-- The state an outcome goes on in. -/
def after (o : Host.Outcome State Fault Refusal) : State :=
  match o with
  | .next t => t
  | _ => State.reset

/-- R255's example. -/
theorem test_cmp : (after (exec (.cmp 7 (.reg 3) (.reg 4)) (withS [(3, 0xFFFFFFFE), (4, 5)]))).b.getS 7 = 0x12 := by decide +kernel
/-- R256: a divisor of 0, and the most negative number by −1. -/
theorem test_div : (after (exec (.div 7 (.reg 3) (.imm 0)) (withS [(3, 5)]))).b.getS 7 = 0xFFFFFFFF ∧
    (after (exec (.div 7 (.reg 3) (.lit 0xFFFFFFFF)) (withS [(3, 0x80000000)]))).b.getS 7 = 0x80000000 := by decide +kernel
theorem test_rem : (after (exec (.rem 7 (.reg 3) (.imm 0)) (withS [(3, 5)]))).b.getS 7 = 5 ∧
    (after (exec (.rem 7 (.lit 0xFFFFFFF9) (.imm 2)) base)).b.getS 7 = 0xFFFFFFFF := by decide +kernel
/-- R258's example. -/
theorem test_packed :
    (after (exec (.addp8 3 (.reg 1) (.reg 2)) (withS [(1, 0x7F8001FF), (2, 0x01800101)]))).b.getS 3 = 0x80000200 ∧
    (after (exec (.avgp8 3 (.reg 1) (.reg 2)) (withS [(1, 0x7F8001FF), (2, 0x01800101)]))).b.getS 3 = 0x40800100 := by decide +kernel
/-- R257: a source pair that is the destination, with a borrow between the halves. -/
theorem test_subw : (after (exec (.subw 2 (.reg 2) (.imm 1)) (withS [(3, 1)]))).b.getW 2 = 0xFFFFFFFF := by decide +kernel
/-- R262's example: 500.0 into FP8 E4M3, with and without saturation. -/
theorem test_fcvt_sat :
    let t := after (exec (.fcvt 4 (.reg 2) 1) { withS [(2, 0x43FA0000)] with b := { (withS [(2, 0x43FA0000)]).b with pfx := some 0x000258 } })
    t.b.getS 4 = 0x7E ∧ t.b.flags = BitVec.setWidth 32 (fOF ||| fNX ||| fSAT) ∧ t.b.satcnt = 1 := by decide +kernel
theorem test_fcvt_wrap :
    let t := after (exec (.fcvt 4 (.reg 2) 1) { withS [(2, 0x43FA0000)] with b := { (withS [(2, 0x43FA0000)]).b with pfx := some 0x000248 } })
    t.b.getS 4 = 0x7F ∧ t.b.flags = BitVec.setWidth 32 (fOF ||| fNX) ∧ t.b.satcnt = 0 := by decide +kernel
/-- The second pass of R390's example: LST1 goes from 0x88000001 to 0x98000002 and decoding goes back to 0x10. -/
theorem test_loop :
    let t := after (exec (.loop 1 (.imm 0) (-5)) (withB fun b =>
      { b with pc := 0x24, ltr := b.ltr.set 1 0x08000004, lst := b.lst.set 1 0x88000001 }))
    t.b.getLst 1 = 0x98000002 ∧ t.b.pc = 0x10 := by decide +kernel
/-- R29's example: core 517's row 1200, and its self alias. -/
theorem test_meshAddress : meshResolve 0 0x102CB000 = .ok (517, 1200) ∧ meshResolve 517 0x1FFCB0FF = .ok (517, 1200) ∧
    bankOf 1200 = 12 ∧ meshResolve 0 (640 * 0x80000) = .error .meshHole ∧ meshResolve 0 (1536 * 256) = .error .meshHole := ⟨rfl, rfl, rfl, rfl, rfl⟩
/-- R107's example. -/
theorem test_zorder : zpos 5 9 = 101 ∧ zpos 9 5 = 149 := by decide +kernel
/-- R139's and R142's examples. -/
theorem test_pantryPlace : placeOf ⟨0x42, 7, 3⟩ 1 = (4, 0x16F8) ∧ ticketOf 4 0x16F8 0 6 = 0x64B7C0 := by decide +kernel
/-- R118's example: the delta of one changed lane word of one row takes 84 bytes. -/
theorem test_deltaBytes : (deltaImage 1 (0x00FFC000 :: List.replicate 63 0)).length = 84 := by decide +kernel
/-- R93's example, the block quantised by COPYQ and VQNT. -/
theorem test_quantBlock :
    let q := quantBlock 4 { rm := 0, sat := 1 } (fun _ => 0)
      (fp32 0x447A0000 :: fp32 0x40533333 :: fp32 0xBA902DE0 :: fp32 0x3B89A027 :: List.replicate 28 (fp32 0x3F000000))
    q.1 = 0x80 ∧ q.2.1 = 0x7E :: 0x3D :: 0x80 :: 0x01 :: List.replicate 28 0x28 ∧ q.2.2 = ⟨fNX ||| fOF ||| fUF ||| fSAT, 1⟩ := by
  decide +kernel
/-- The example of VSEL, VADD and VCMP of spec/12: canonical runs, a half view, and lengths. -/
theorem test_vcmp :
    let t := after (exec (.vcmpLt { fv with a := 1, b := 2, d := 3 }) (withV [(1, [(5, 600), (0xFFFFFFFD, 424)], 1024, 9), (2, [(0, 300), (9, 212)], 512, 9)]))
    (t.b.cur 3).len = 512 ∧ (t.b.cur 3).runs = [(0, 300), (0xFFFFFFFF, 212)] ∧ (t.b.cur 3).tag = 9 := by decide +kernel
theorem test_vadd :
    let t := after (exec (.vadd { fv with a := 1, ha := 1, b := 1, d := 4 }) (withV [(1, [(5, 600), (0xFFFFFFFD, 424)], 1024, 9)]))
    (t.b.cur 4).len = 512 ∧ (t.b.cur 4).runs = [(10, 88), (2, 424)] := by decide +kernel
/-- R307's example. -/
theorem test_vreda :
    let t := after (exec (.vreda { fv with a := 1, b := 3, d := 5 }) (withV [(1, [(0x4B800000, 1), (0x3F800000, 1023)], 1024, 1)]))
    (t.b.cur 5).runs = [(0x4B8001FF, 1)] ∧ (t.b.cur 5).len = 1 ∧ t.b.flags = BitVec.setWidth 32 fNX := by decide +kernel
/-- R303's example. -/
theorem test_vrotr :
    let t := after (exec (.vrotr { fs with a := 6, b := .imm 1, d := 7 }) (withV [(6, [(0x3F800000, 64), (0x40000000, 64)], 128, 1)]))
    (t.b.cur 7).runs = [(0x40000000, 64), (0, 64)] ∧ (t.b.cur 7).len = 128 := by decide +kernel
/-- R313: VCQ.tiles, truth in tile 1 only. -/
theorem test_vcq :
    (after (exec (.vcq { fv with a := 7, b := 2 }) (withV [(7, [(0, 16), (1, 16)], 32, 9)]))).b.cq = [2] := by decide +kernel
/-- R399's example. -/
theorem test_accept : (after (exec (.accept 0x117) base)).accept = 0x117 := by decide +kernel
/-- A store to a local row is buffered, performed, and read back little-endian. -/
theorem test_store :
    let t := after (exec .storeBufferPerform (after (exec (.stw 3 (.lit 0x1FF80000) (.imm 2)) (withS [(3, 0x11223344)]))))
    t.mesh = [(8, 0x44), (9, 0x33), (10, 0x22), (11, 0x11)] ∧ (after (exec (.ldw 4 (.lit 0x1FF80000) (.imm 2)) t)).b.getS 4 = 0x11223344 := by
  decide +kernel

/-! ## Witnesses: a concrete state and operands that meet the hypotheses of each statement, clause by clause -/

def member (core bur : Nat) : GMem := { core := core, bur := bur, rank := core, fd := 0 }
/-- Another burner of core 0, and a burner of core 1. -/
def two : State := { base with others := [{ placed 0 1 with status := .running }, { placed 1 0 with status := .running, inbq := 0x0100 }] }
def grouped (st : GState) (f : GMem → GMem) : State :=
  { two with groups := [{ id := 3, st := st, c := 2, phase := 1, mems := [f (member 0 0), member 1 0] }] }
/-- A vector instruction stands in the X queue, reserving s(7). -/
def queued : State := withB fun b => { b with qx := [{ seq := 0, ko := 0, ins := .vadd fv, sd := [7], store := true }] }
def selfRow : Opnd := .lit 0x1FF80000
def farRow : Opnd := .lit 0x80000
/-- With DBG = 1, a queue's write to row 0 is issued and not performed. -/
def written : State := withB fun b => { b with bctl := 8, stPend := [0] }

theorem witness_ScalarIntegerResults :
    base.b.held (7 :: (opRegs (.reg 7) ++ opRegs (.lit 5))) = false ∧ base.b.held (63 :: opRegs (.reg 0)) = false ∧
    base.b.held [63] = false := by decide

theorem witness_WideAndPackedResults :
    base.b.held ((63 &&& 62) :: (63 ||| 1) :: (opRegs64 (.reg 62) ++ opRegs64 (.lit2 0))) = false ∧
    base.b.held ((0 &&& 62) :: (0 ||| 1) :: opRegs64 (.reg 0)) = false ∧ base.b.held (1 :: (opRegs (.reg 1) ++ opRegs (.imm 63))) = false := by
  decide

theorem witness_RoundingChoosesNeighbour :
    ffOf 1 = some ffFP32 ∧ (3 : BitVec 3).toNat ≤ 4 ∧ (FV.num true 5 (-200)).rat = some ((-1) * ((5 : Nat) : Rat) * (2 : Rat) ^ (-200 : Int)) ∧
    (ffFP32.round { rm := 3 } true ⟨5, -200, false⟩).2.fl &&& fOF = 0 := ⟨rfl, by decide, by simp [FV.rat], by decide⟩

theorem witness_ScalarFloatResultsAndTrap :
    roundNoSr (pfxOf base.b.pfx) 0 base.b.drm = some 0 ∧ base.b.held (5 :: (opRegs (.reg 5) ++ opRegs (.imm 0))) = false ∧
    roundNoSr (pfxOf (some 0x00000C)) 0 base.b.drm = some 4 ∧
    (pfxOf (some 0x00000D)).rnd.getD 0 = 5 ∧ (pfxOf (some 0x00000F)).rnd.getD 0 = 7 ∧ (pfxOf (some 0x00000E)).rnd.getD 0 = 6 ∧
    (withB fun b => { b with bctl := 5 }).b.drm = 5 ∧
    fp32 0x7FC00001 = .nan ∧ fp32 0x80000000 ≠ .nan ∧ (fp32 0x80000000).rat = some ((-1) * ((0 : Nat) : Rat) * (2 : Rat) ^ (-149 : Int)) ∧
    fp32 0xFF800000 = .inf true ∧ fp32 0x7F800000 ≠ .nan ∧ fp32 0x7F800000 ≠ .inf true ∧ fp32 0 ≠ .nan := by
  refine ⟨by decide, by decide, by decide, by decide, by decide, by decide, by decide, by decide, by decide, ?_, by decide, by decide,
    by decide, by decide⟩
  have : fp32 0x80000000 = .num true 0 (-149) := by decide
  rw [this]
  simp [FV.rat]

theorem witness_LoadAndStoreLane :
    two.b.held (7 :: (opRegs selfRow ++ opRegs (.imm 63))) = false ∧
    meshCheck two two.b false (two.b.op32 selfRow).toNat = .ok (0, 0) ∧ meshCheck two two.b true (two.b.op32 selfRow).toNat = .ok (0, 0) ∧
    meshCheck two two.b false (two.b.op32 farRow).toNat = .ok (1, 0) ∧ meshCheck two two.b true (two.b.op32 farRow).toNat = .ok (1, 0) ∧
    (two.b.dbg && two.b.pendRow 0) = false ∧
    (∃ g x rows, remoteWord 1 0 (two.drainRow 1 0) = .ok g x rows) ∧ two.b.rpMode = 0 ∧ two.b.sbuf.length < 8 ∧
    8 ≤ (withB fun b => { b with sbuf := List.replicate 8 ⟨0, 1, 0⟩ }).b.sbuf.length ∧
    meshCheck written written.b false (written.b.op32 selfRow).toNat = .ok (0, 0) ∧
    (written.b.dbg && written.b.pendRow 0) = true ∧ written.b.held (7 :: (opRegs selfRow ++ opRegs (.imm 63))) = false :=
  ⟨by decide, rfl, rfl, rfl, rfl, by decide, ⟨_, _, _, rfl⟩, by decide, by decide, by decide, rfl, by decide, by decide⟩

theorem witness_RowAtomicsAndAccessTraps :
    two.b.held (6 :: (6 ||| 1) :: (opRegs farRow ++ opRegs (.imm 63))) = false ∧ two.mesh.wf = true ∧
    meshCheck two two.b true (two.b.op32 farRow).toNat = .ok (1, 0) ∧ two.b.rpMode = 0 ∧ two.b.dbg = false ∧
    meshCheck written written.b true (written.b.op32 selfRow).toNat = .ok (written.b.core, 0) ∧ written.b.dbg = true ∧
    written.b.pendRow 0 = true ∧ written.b.held (6 :: (6 ||| 1) :: (opRegs selfRow ++ opRegs (.imm 63))) = false ∧
    meshCheck two two.b false (two.b.op32 (.lit 0x20000000)).toNat = .error .meshHole ∧
    meshCheck two two.b true (two.b.op32 (.lit 0x1FFDE000)).toNat = .error .inboxWrite :=
  ⟨by decide, by decide, rfl, by decide, by decide, rfl, by decide, by decide, by decide, rfl, rfl⟩

theorem witness_FenceWaits :
    base.b.ql = [] ∧ base.b.qx = [] ∧ base.b.qs = [] ∧
    (∀ e ∈ base.b.eng.toList, e.fifo = [] ∨ (e.flt ≠ none ∧ e.fifo.length = 1)) ∧
    (4 : BitVec 5).getLsbD 2 = true ∧ queued.b.qx ≠ [] := by decide

theorem witness_BranchesAndLoops :
    base.b.held (opRegs (.reg 2)) = false ∧ base.b.op32 (.imm 1) ≠ 0 ∧ base.b.op32 (.reg 2) = 0 ∧
    (withB fun b => { b with cq := [2, 5] }).b.cq = [2, 5] ∧ (base.b.op32 (.lit 64)).toNat ≤ 64 ∧ base.b.cq = [] ∧
    64 < (base.b.op32 (.lit 65)).toNat ∧ (withB fun b => { b with ev := 2 }).b.ev.getLsbD 1 = true ∧ base.b.held [63] = false ∧
    base.b.dLse = false ∧ ((withB fun b => { b with lst := b.lst.set 15 0x80000000 }).b.getLst 15).getLsbD 31 = true ∧
    (base.b.getLst 15).getLsbD 31 = false ∧ (base.b.op32 (.lit 0x1FFFFFFC)).toNat / 2 ^ 29 = 0 ∧
    (base.b.op32 (.lit 0x1FFFFFFC)).toNat % 2 ^ 27 + (base.b.op32 (.lit 0x1FFFFFFC)).toNat / 2 ^ 27 % 4 ≤ 2 ^ 27 - 1 ∧
    orphan base.b 0x10 = false ∧ (base.b.op32 (.lit 0x20000000)).toNat / 2 ^ 29 ≠ 0 ∧
    (0x0FFFFFFF : Nat) % 2 ^ 27 + 0x0FFFFFFF / 2 ^ 27 % 4 > 2 ^ 27 - 1 ∧
    (let s := withB fun b => { b with tlen := 32, text := b.text.set 0xC 0xFA }
     orphan s.b 0x10 = true) ∧
    (let s := withB fun b => { b with dctl := 0xC0 }
     s.b.te = false ∧ s.b.dLse = true ∧ s.b.dLid = 0 ∧ s.b.dLae = true ∧ s.b.dQd = false ∧ s.b.dDm = false ∧ s.other = none) ∧
    (let s := withB fun b => { b with dctl := 0xA4F, diter := 1, ql := [entryOf (fwdXF (.otake fx) fx b) base] }
     s.b.dLse = true ∧ s.b.dLid = 15 ∧ s.b.diter.toNat % 2 ^ 27 = 1 ∧ s.b.dDm = true ∧ s.b.dQd = true ∧
       ¬(s.b.ql = [] ∧ s.b.qx = [] ∧ s.b.qs = [])) := by decide

theorem witness_EventsWaitsAndLending :
    (withB fun b => { b with ev := 0x8000000000000000 }).b.ev.getLsbD 63 = true ∧ base.b.ev.getLsbD 63 = false ∧ base.b.storesLeft = false ∧
    base.b.held (7 :: (opRegs selfRow ++ opRegs (.imm 0))) = false ∧ meshCheck base base.b false (base.b.op32 selfRow).toNat = .ok (0, 0) ∧
    base.b.dbg = false ∧ base.b.rpMode = 0 ∧ (base.drainRow 0 0).mesh.word 0 = base.b.getS 7 ∧ (withS [(7, 1)]).mesh.word 0 ≠ (withS [(7, 1)]).b.getS 7 ∧
    two.b.front = true ∧ two.b.bur ≤ 1 ∧ (∃ o, two.other = some o ∧ o.runnable = true) ∧
    (∃ o, ({ base with others := [placed 0 1] } : State).other = some o ∧ o.runnable = false) :=
  ⟨by decide, by decide, by decide, by decide, rfl, by decide, by decide, by decide, by decide, by decide, by decide, ⟨_, rfl, by decide⟩,
    ⟨_, rfl, by decide⟩⟩

theorem witness_BarmAndBarr :
    (let s := grouped .unarmed id
     s.b.held (opRegs (.imm 2) ++ opRegs (.imm 3)) = false ∧ (s.group 3).member 0 0 = some (member 0 0) ∧ (s.group 3).st ≠ .armed ∧
       2 ≤ ((s.group 3).mems.filter fun x => !x.killed).length) ∧
    (let s := grouped .armed id
     (s.group 3).member 0 0 = some (member 0 0) ∧ (s.group 3).st = .armed ∧ s.b.storesLeft = false ∧
       (s.group 3).arrivals + 1 < (s.group 3).c) ∧
    (let g : Group := { id := 3, st := .armed, c := 1, mems := [member 0 0] }
     g.member 0 0 = some (member 0 0) ∧ g.c ≤ g.arrivals + 1) := by decide

theorem witness_BwaitBleaveAndBarrierFaults :
    (let s := grouped .armed fun m => { m with barr := some 0 }
     (s.group 3).member 0 0 = some { member 0 0 with barr := some 0 } ∧ (s.group 3).st ≠ .unarmed ∧ 0 < (s.group 3).phase ∧
       s.b.held (7 :: opRegs (.imm 3)) = false) ∧
    (let s := grouped .armed fun m => { m with barr := some 1, arrived := true, departed := true }
     (s.group 3).member 0 0 = some { member 0 0 with barr := some 1, arrived := true, departed := true } ∧ (s.group 3).phase ≤ 1) ∧
    (let s := grouped .broken fun m => { m with barr := some 1 }
     (s.group 3).member 0 0 = some { member 0 0 with barr := some 1 } ∧ (s.group 3).st = .broken ∧ (s.group 3).phase ≤ 1) ∧
    (let s := grouped .armed fun m => { m with res := some false, waits := true }
     (s.group 3).member 0 0 = some { member 0 0 with res := some false, waits := true } ∧ (s.group 3).st ≠ .unarmed ∧
       s.b.held (7 :: opRegs (.imm 3)) = false) ∧
    (let s := grouped .broken fun m => { m with res := some true, waits := true }
     (s.group 3).member 0 0 = some { member 0 0 with res := some true, waits := true } ∧ (s.group 3).st ≠ .unarmed) ∧
    (let s := grouped .unarmed id
     511 < (s.b.op32 (.lit 512)).toNat ∧ (s.group 511).member 0 0 = none ∧ (s.group 3).member 0 0 = some (member 0 0) ∧
       (s.group 3).st = .unarmed ∧ ((s.group 3).mems.filter fun x => !x.killed).length < 3 ∧ (member 0 0).barr = none ∧
       s.b.held (7 :: (opRegs (.imm 2) ++ opRegs (.imm 3))) = false) := by decide

theorem witness_MessagesArrive :
    (let w : Word := 0x00400009
     two.b.held (opRegs selfRow ++ opRegs (.lit w)) = false ∧ w.toNat / 2 ^ 16 % 32 = 0 ∧ w.toNat / 2 ^ 22 < 640 ∧
       meshCheck two two.b false (two.b.op32 selfRow).toNat = .ok (0, 0) ∧
       (∃ x, two.find (w.toNat / 2 ^ 22) (w.toNat / 2 ^ 21 % 2) = some x ∧ x.bound = true ∧ x.inbCnt ≠ 0 ∧
         x.region.fd = two.b.region.fd ∧ x.inbox.length + x.inbPopped < x.inbCnt) ∧ two.b.storesLeft = false) ∧
    (({ two with pace := 1 } : State).pace = 1 ∧ two.b.carry = none ∧ two.pace ≠ 1) ∧
    (let s := withB fun b => { b with inbox := [5], inbPopped := 2 }
     s.b.held [7] = false ∧ s.b.inbox = [5] ∧ 2 ≤ s.b.inbPopped ∧ s.b.inbPopped < 3) ∧ base.b.inbox = [] :=
  ⟨⟨by decide, by decide, by decide, rfl, ⟨_, rfl, by decide, by decide, by decide, by decide⟩, by decide⟩, by decide, by decide, by decide⟩

theorem witness_TrapEntryAndNestedFault :
    base.b.te = false ∧ base.b.trctl.getLsbD 1 = false ∧ (withB fun b => { b with te := true }).b.te = true ∧
    (withB fun b => { b with te := true }).other = none := by decide

theorem witness_TrapInstructionsTrap :
    base.b.held (opRegs (.reg 0)) = false ∧
    (let e : Entry := { seq := 4, ko := 0, ins := .vld fm }
     (withB fun b => { b with ql := [e], qx := [e], qs := [e] }).b.ql = [e]) := by decide

/-- A burner in its handler, each queue's head to be skipped, after PAGE_NOT_PRESENT. -/
def handler : State := withB fun b =>
  { b with te := true, skl := true, skx := true, sks := true, tcause := 0x17, taddr := 0x40001000
           ql := [{ seq := 0, ko := 0, ins := .vld fm }], qx := [{ seq := 0, ko := 0, ins := .vadd fv }] }

theorem witness_RftAndPfwaitLeaveHandler :
    handler.b.te = true ∧ handler.b.trctl.getLsbD 1 = false ∧ handler.b.skl = true ∧ handler.b.ql ≠ [] ∧ handler.b.qx ≠ [] ∧
    (∀ e ∈ handler.b.eng.toList, e.fltDue = false) ∧ base.b.te = false ∧ base.b.skl = false ∧
    handler.b.held (opRegs (.imm 1)) = false ∧ handler.b.op32 (.imm 1) = 1 ∧ handler.b.tcause.toNat % 256 = 0x17 ∧
    handler.b.op32 (.imm 0) ≠ 1 ∧ handler.pfrN = 0 ∧ handler.other = none ∧ handler.b.dctl.getLsbD 10 = false ∧
    (let s : State := { handler with others := two.others }
     ∃ o, s.other = some o ∧ o.runnable = true) :=
  ⟨by decide, by decide, by decide, by decide, by decide, by decide, by decide, by decide, by decide, by decide, by decide, by decide,
    by decide, by decide, by decide, ⟨_, rfl, by decide⟩⟩

theorem witness_SystemInstructions :
    base.b.yrq = false ∧ base.b.rpMode = 0 ∧ (∃ o, two.other = some o ∧ o.runnable = true) ∧ base.other = none ∧ base.b.te = false ∧
    base.b.ql = [] ∧ base.b.qx = [] ∧ base.b.qs = [] ∧ (∀ e ∈ base.b.eng.toList, e.fltDue = false) ∧
    (∀ e ∈ base.b.eng.toList, e.fifo = [] ∨ (e.flt ≠ none ∧ e.fifo.length = 1)) ∧ queued.b.te = false ∧ queued.b.qx ≠ [] :=
  ⟨by decide, by decide, ⟨_, rfl, by decide⟩, by decide, by decide, by decide, by decide, by decide, by decide, by decide, by decide,
    by decide⟩

/-- A yield is requested; a command is left in an engine as well. -/
def yielding : State := withB fun b => { b with yrq := true }
def busy : State :=
  withB fun b => { b with yrq := true, eng := b.eng.set 0 { limit := 16, fifo := [{ item := .cmd 0, seq := 0 }], next := 1 } }
/-- The head command of unit 0 has started and another waits behind it, in the handler. -/
def busyHandler : State :=
  let g : Eng := { limit := 16, fifo := [{ item := .cmd 0, seq := 0, started := true }, { item := .cmd 0, seq := 1 }], next := 2 }
  withB fun b => { b with te := true, eng := b.eng.set 0 g }

theorem enginesDone_list (b : Burner) :
    b.enginesDone = b.eng.toList.all fun e => e.fifo.isEmpty || (e.flt.isSome && e.fifo.length == 1) := by
  unfold Burner.enginesDone
  rw [Vector.all_toList]

theorem witness_SystemInstructionsWait :
    yielding.b.yrq = true ∧ yielding.b.queuesEmpty = true ∧ yielding.b.enginesDone = true ∧ areaFits .yield yielding = true ∧
    busy.b.yrq = true ∧ busy.b.enginesDone = false ∧ busyHandler.b.te = true ∧
    (∃ e ∈ busyHandler.b.eng.toList, ¬(e.fifo.filter (·.started) = [] ∨ (e.flt ≠ none ∧ (e.fifo.filter (·.started)).length = 1))) ∧
    (∃ e ∈ busy.b.eng.toList, ¬(e.fifo = [] ∨ (e.flt ≠ none ∧ e.fifo.length = 1))) ∧ busy.b.te = false := by
  rw [enginesDone_list, enginesDone_list]
  decide +kernel

/-- Record with room for one event at a mapped address, and with no room. -/
def recording (len : Word) : State := withB fun b => { b with rpctl := 2, rplog := 0x40005000, rplen := len }

theorem witness_SystemInstructionsRecord :
    (∃ g x rows, logEvent 5 two.b.pc (two.b.rpseq + 1) 1 [] two = .ok g x rows ∧ x = 1) ∧
    (∃ g x rows, logEvent 5 base.b.pc (base.b.rpseq + 1) 0 [] base = .ok g x rows ∧ x = 0) ∧
    (∃ c addr, logEvent 5 (recording 0).b.pc ((recording 0).b.rpseq + 1) 0 [] (recording 0) = .bad c addr) :=
  ⟨⟨_, _, _, rfl, rfl⟩, ⟨_, _, _, rfl, rfl⟩, ⟨_, _, rfl⟩⟩

theorem witness_ControlRegisterAccess :
    base.b.held [7] = false ∧ ctlHeld 108 true base.b = false ∧ base.b.held (opRegs (.reg 7)) = false ∧ ctlHeld 16 false base.b = false ∧
    (∃ b', ctlWrite 16 1 base.b = .ok b') ∧ ctlWrite 5 1 base.b = .error .illegalOperand ∧ ctlWrite 9 0x80 base.b = .error .illegalOperand ∧
    queued.b.qx ≠ [] := ⟨by decide, by decide, by decide, by decide +kernel, ⟨_, rfl⟩, rfl, rfl, by decide⟩

theorem witness_ControlWriteThenRead :
    (∃ b', ctlWrite 0 0x123 base.b = .ok b') ∧ (∃ b', ctlWrite 1 0x1C handler.b = .ok b') ∧ (∃ b', ctlWrite 48 0x80000001 base.b = .ok b') ∧
    (∃ b', ctlWrite 63 0x78000001 base.b = .ok b') ∧ (∃ b', ctlWrite 11 31 base.b = .ok b') :=
  ⟨⟨_, rfl⟩, ⟨_, rfl⟩, ⟨_, rfl⟩, ⟨_, rfl⟩, ⟨_, rfl⟩⟩

theorem witness_ControlWritesWithEffect :
    base.b.held (opRegs (.reg 7)) = false ∧ base.b.ql = [] ∧ base.b.qx = [] ∧ base.b.qs = [] ∧
    (let w : Word := 0xFFFF8004
     w.toNat / 16 % 2048 = 0 ∧ w.getLsbD 3 = false ∧ w.toNat % 8 ≤ 5 ∧ w.toNat % 8 ≠ 5 ∧ w.getLsbD 15 = true) ∧
    (let w : Word := 0xD
     w.toNat % 8 = 5 ∧ w.getLsbD 3 = true ∧ ({ base with accept := 0x1FF } : State).accept.getLsbD 6 = true ∧
       ({ base with accept := 0x1FF } : State).accept.getLsbD 1 = true) ∧
    (let w : Word := 0x1FFFFFFC
     w.toNat / 2 ^ 29 = 0 ∧ w.toNat % 2 ^ 27 + w.toNat / 2 ^ 27 % 4 ≤ 2 ^ 27 - 1) ∧
    ({ base with accept := 0x1FF } : State).accept.getLsbD 5 = true := by decide

/-- A burner with nothing in its queues, condition queue and mask stack, in its body, whose next choice falls on it. -/
def idle (s : State) : Bool :=
  !s.b.te && s.b.bypass.isEmpty && s.b.ql.isEmpty && s.b.qx.isEmpty && s.b.qs.isEmpty && s.b.cq.isEmpty && s.b.mask.isEmpty &&
    s.sched.head? == some 0 && s.pace == 0
def okP {ε α : Type} (x : Except ε α) (p : α → Bool) : Bool :=
  match x with
  | .ok y => p y
  | .error _ => false
theorem exists_ok {ε α : Type} {x : Except ε α} {p : α → Bool} (h : okP x p = true) : ∃ y, x = .ok y ∧ p y = true := by
  cases x with
  | error _ => simp [okP] at h
  | ok y => exact ⟨y, rfl, h⟩

theorem exists_any {ε α : Type} {x : Except ε α} (h : okP x (fun _ => true) = true) : ∃ y, x = .ok y := by
  obtain ⟨y, hy, -⟩ := exists_ok h
  exact ⟨y, hy⟩

/-- Such a burner is ready for every queue instruction with a reservation that names no token. -/
theorem ready_idle {s : State} {w : Fwd} (h : idle s = true) (hr : s.b.reserved w.q ≠ 0) (hw : w.ws = 0) (hp : w.ps = 0)
    (hs : srRefused s.b.pfx w.ins s = false) : Ready w s := by
  simp only [idle, Bool.and_eq_true, Bool.not_eq_true', List.isEmpty_iff, beq_iff_eq] at h
  obtain ⟨⟨⟨⟨⟨⟨⟨⟨hte, hb⟩, hl⟩, hx⟩, hq⟩, hc⟩, hm⟩, hd⟩, hpace⟩ := h
  have hbusy : ∀ r, s.b.busy r = false := fun r => by simp [Burner.busy, hl, hx, hq]
  refine ⟨hpace, hte, hb, hs, hr, by simp [Burner.held, hbusy], ?_, by simp [hq], .inl hw, .inl hp, by simp [hc], by simp [hm], ?_⟩
  · cases w.q <;> simp [Burner.queue, hl, hx, hq]
  · cases hsc : s.sched with
    | nil => simp [hsc] at hd
    | cons a t => exact ⟨t, by simp [hsc] at hd; rw [hd]⟩

theorem base_plain : AllPlain base.b := by unfold AllPlain; decide

/-- Two vector registers of FP32 and INT32 lanes. -/
def vectors : State := withV [(1, [(5, 2), (0xFFFFFFFD, 2)], 4, 9), (2, [(9, 4)], 4, 9), (3, [(0x3F800000, 64)], 64, 1)]
theorem vectors_plain : AllPlain vectors.b := by unfold AllPlain; decide

theorem witness_QueueEntryGates :
    captured base.b (.vadd fv) = some (fwdVF (.vadd fv) fv true) ∧ srRefused base.b.pfx (.vadd fv) base = false ∧ base.b.te = false ∧
    handler.b.te = true ∧ (withB fun b => { b with qres := 0 }).b.reserved .x = 0 ∧ base.b.reserved .x ≠ 0 ∧
    captured queued.b (.esend fe) = some (fwdEF (.esend fe) fe false false false [0] false queued.b) ∧
    queued.b.held [7] = true ∧ queued.b.held [0] = false ∧ (base.b.queue .x).length < base.b.reserved .x ∧
    ({ base with sched := [1] } : State).sched = [0 + 1] ∧
    (withB fun b => { b with qres := 1, qs := queued.b.qx }).b.reserved .s ≤ ((withB fun b => { b with qs := queued.b.qx }).b.queue .s).length :=
  ⟨rfl, by decide, by decide, by decide, by decide, by decide, rfl, by decide, by decide, by decide, by decide, by decide⟩

theorem witness_WritesShowAfterLatency :
    0 < 2 ∧ (∀ w ∈ base.b.win, w.reg ≠ 3) ∧ base.b.slot .x < base.b.slot .x + 2 ∧ (∀ h ∈ base.b.hist, h.reg ≠ 3) ∧
    (base.b.know .x).of .x < (Rd.mk .l 0 ⟨0, 1, 0⟩).know.of .x ∧ (∀ w ∈ base.b.win, w.reg = 3 → w.sup = false) := by
  decide

/-- The registers of `vectors` and the base mask, as a vector computation reads them. -/
def env : VEnv := ⟨fun r => vectors.b.cur r, [(true, 1024)], Pfx.none, 0, 0x0000FFFF9E3779B9, 0, 0⟩

theorem witness_SegmentsMeanLanes :
    (∀ u ∈ [env.viewA { fv with a := 1 }, env.viewB { fv with b := 3 }], lenSeg u.runs = u.len) ∧ lenSeg env.mask = 1024 ∧
    (env.viewA { fv with a := 1 }).len ≤ 1024 ∧
    (laneOp env 4 [env.viewA { fv with a := 1 }] 9 { rm := 5 } (fun xs _ => (xs.headD 0, {}))).len = 4 := by decide

theorem witness_IntegerVectorElements :
    (let f : VF := { fv with a := 1, b := 2, d := 1 }
     integerSources (.vmad f) = some f ∧ compOf (.vmad f) = some (compVmad f) ∧ lenSeg (env.viewA f).runs = (env.viewA f).len ∧
       (env.viewA f).len ≤ 1024 ∧ lenSeg env.mask = 1024 ∧ lenSeg (env.viewB f).runs = (env.viewB f).len ∧
       lenSeg (env.viewD f).runs = (env.viewD f).len ∧ intOf (env.viewA f).tag = some (32, true) ∧ (env.viewB f).tag = (env.viewA f).tag ∧
       (env.viewD f).tag = (env.viewA f).tag) ∧
    (let f : VF := { fv with a := 3, b := 2 }
     intOf (env.viewA f).tag = none ∧ integerTwo (.vadd f) = true ∧ (env.viewB f).tag ≠ (env.viewA f).tag ∧
       lenSeg (env.viewA f).runs = (env.viewA f).len ∧ (env.viewA f).len ≤ 1024 ∧ lenSeg (env.viewB f).runs = (env.viewB f).len ∧
       env.p.fmt = none) :=
  ⟨⟨rfl, rfl, by decide, by decide, by decide, by decide, by decide, by decide, by decide, by decide⟩, by decide, rfl, by decide,
    by decide, by decide, by decide, rfl⟩

theorem witness_VectorInstructionsCompleteOrFault :
    (let f : VF := { fv with a := 1, b := 2, d := 5 }
     let w := fwdVF (.vadd f) f true
     captured vectors.b (.vadd f) = some w ∧ compOf (.vadd f) = some (compVadd f) ∧ vdst (.vadd f) = some 5 ∧ Ready w vectors ∧
       AllPlain vectors.b ∧ (∃ out, compVadd f (readsOf w 5 vectors (entered w vectors).b) = .ok out) ∧
       (∃ out, compVadd f (readsOf w 5 vectors (touched (vsrcs (.vadd f)) (entered w vectors).b)) = .ok out ∧
         (decide (out.snd = none) && decide ((touched (vsrcs (.vadd f)) (entered w vectors).b).runUsed + out.runs.length ≤ 65536)) = true)) ∧
    (let f : VF := { fv with a := 3, b := 4, d := 5 }
     let w := fwdVF (.vqnt f) f true
     Ready w vectors ∧ compOf (.vqnt f) = some (compVqnt f) ∧
       (∃ out, compVqnt f (readsOf w 5 vectors (touched (vsrcs (.vqnt f)) (entered w vectors).b)) = .ok out ∧ out.snd.isSome = true)) ∧
    (let f : VF := { fv with a := 1, b := 3, d := 5 }
     let w := fwdVF (.vadd f) f true
     Ready w vectors ∧ compVadd f (readsOf w 5 vectors (entered w vectors).b) = .error .formatMismatch) := by
  refine ⟨⟨rfl, rfl, rfl, ready_idle (by decide) (by decide) rfl rfl (by decide), vectors_plain, ?_, exists_ok (by decide +kernel)⟩,
    ⟨ready_idle (by decide) (by decide) rfl rfl (by decide), rfl, exists_ok (by decide +kernel)⟩,
    ready_idle (by decide) (by decide) rfl rfl (by decide), rfl⟩
  obtain ⟨y, hy, -⟩ := exists_ok (x := compVadd { fv with a := 1, b := 2, d := 5 } (readsOf (fwdVF (.vadd { fv with a := 1, b := 2, d := 5 })
    { fv with a := 1, b := 2, d := 5 } true) 5 vectors (entered (fwdVF (.vadd { fv with a := 1, b := 2, d := 5 })
    { fv with a := 1, b := 2, d := 5 } true) vectors).b)) (p := fun _ => true) (by decide +kernel)
  exact ⟨y, hy⟩

theorem witness_MaskInstructionsComplete :
    (let f : VF := { fv with a := 2, d := 6, b := 1 }
     let b := (entered (fwdVF (.mpush f) f false) vectors).b
     let v := viewOf (b.look (b.reader .x (entryOf (fwdVF (.mpush f) f false) vectors)) f.a.toNat) f.ha.toNat f.swza.toNat
     AllPlain vectors.b ∧ lenSeg v.runs = v.len ∧ v.len ≤ 1024 ∧ Ready (fwdVF (.mpush f) f false) vectors ∧ vectors.b.mask.length < 8 ∧
       Ready (fwdVF (.vcq f) f false) vectors ∧ Ready (fwdVF (.mtest f) f false) vectors ∧ vectors.b.runUsed + 1 ≤ vectors.b.runq) ∧
    (let s := withB fun b => { b with mask := [3] }
     s.b.mask = [3] ∧ Ready (fwdVF (.minv fv) fv false) s ∧ Ready (fwdVF (.mpop fv) fv false) s) := by
  refine ⟨⟨vectors_plain, by decide, by decide, ready_idle (by decide) (by decide) rfl rfl (by decide), by decide,
    ready_idle (by decide) (by decide) rfl rfl (by decide), ready_idle (by decide) (by decide) rfl rfl (by decide), by decide⟩,
    rfl, ?_, ?_⟩ <;>
  · refine ⟨by decide, by decide, by decide, by decide, by decide, by decide, by decide, by decide, .inl rfl, .inl rfl, by decide, ?_, [],
      rfl⟩
    intro h
    exact absurd h (by decide)

/-- A body of one VADD at address 8 of the text, and v7 TAGGED by its recipe. -/
def recipes : State :=
  let f : VF := { fv with a := 1, b := 2, d := 2047 }
  { vectors with b := { vectors.b with
      tlen := 32, text := Memory.setBytes [] 8 ((encode (.vadd f)).flatMap wordBytes)
      recipes := [(2, { slots := [{ ins := .vadd f, pfx := none, va := 0, vb := 0 }], drm := 0 })] } }

theorem witness_RecipeInstructionsComplete :
    (let f : VF := { fv with d := 2, a := 0 }
     (∃ y, bodyCapture (f.a.toNat % 4 + 1) true (recipes.b.after 2).toNat recipes = .ok y ∧
         (y.1.length == 1 && y.2.1 == 16 && y.2.2 == []) = true) ∧
       f.d.toNat % 64 < recipes.b.rcp ∧ Ready { fwdVF (.rdef f) f false with rs := [] } recipes ∧ AllPlain recipes.b) ∧
    (let f : VF := { fv with d := 7, a := 2 }
     Ready (fwdVF (.vtag f) f false) recipes ∧ f.a.toNat % 64 < recipes.b.rcp ∧
       ∃ rc, recipes.b.recipe (f.a.toNat % 64) = some rc ∧ f.d.toNat ∉ rc.ops ∧
         (let rd (b : Burner) (r : Nat) : VReg := b.look (b.reader .x (entryOf (fwdVF (.vtag f) f false) recipes)) r
          let g := entered (fwdVF (.vtag f) f false) recipes
          let run := bodyGo rd rc.drm 0 (f.d.toNat :: rc.ops) rc.slots 0 VReg.empty {} (g.modB fun b => touched rc.ops b)
          bodyCause rd rc.drm rc.slots VReg.empty g = none ∧ (∃ y, run.2 = .ok y ∧ y.1.len == 4) ∧ AllPlain run.1.b)) ∧
    (let f : VF := { fv with d := 3 }
     let s : State := { vectors with b := vectors.b.setV 3 { vectors.b.cur 3 with st := .tagged 2 } }
     Ready (fwdVF (.vuntag f) f false) vectors ∧ (vectors.b.cur 3).st = .plain ∧ Ready (fwdVF (.vdrop f) f false) vectors ∧
       Ready (fwdVF (.vdrop f) f false) s ∧ (s.b.cur 3).st = .tagged 2 ∧ (∀ x ∈ s.b.win, x.reg ≠ 3) ∧ dropDepthOk s.b 3 = true) := by
  refine ⟨⟨exists_ok (by decide +kernel), by decide, ready_idle (by decide) (by decide) rfl rfl (by decide), vectors_plain⟩,
    ⟨ready_idle (by decide) (by decide) rfl rfl (by decide), by decide, _, rfl, by decide, by decide +kernel, exists_ok (by decide +kernel),
      by unfold AllPlain; decide +kernel⟩,
    ready_idle (by decide) (by decide) rfl rfl (by decide), by decide, ready_idle (by decide) (by decide) rfl rfl (by decide),
    ready_idle (by decide) (by decide) rfl rfl (by decide), by decide, by decide, by decide +kernel⟩

def ldP (x : LdRes) (p : State → VOut → Bool → Bool) : Bool :=
  match x with
  | .ok s o r _ _ => p s o r
  | .bad .. | .pause .. => false
theorem exists_ld {x : LdRes} {p : State → VOut → Bool → Bool} (h : ldP x p = true) :
    ∃ s o r imgs mk, x = .ok s o r imgs mk ∧ p s o r = true := by
  cases x with
  | bad | pause => simp [ldP] at h
  | ok s o r imgs mk => exact ⟨s, o, r, imgs, mk, rfl, h⟩
theorem exists_read {α β γ : Type} {x : α × β × Option γ} (h : x.2.2.isNone = true) : ∃ a b, x = (a, b, none) :=
  ⟨x.1, x.2.1, by rw [← Option.isNone_iff_eq_none.1 h]⟩
theorem exists_pair {α β : Type} {x : α × Option β} (h : x.2.isNone = true) : ∃ a, x = (a, none) :=
  ⟨x.1, by rw [← Option.isNone_iff_eq_none.1 h]⟩

/-- A load of 65 lanes from the two first rows of the burner's own core. -/
def loadF : MF := { fm with a := .lit 0x1FF80000, b := .lit 65, d := 4 }

theorem witness_LoadsComplete :
    loadForm (.vld loadF) = some (.lin, loadF) ∧ Ready (fwdMF (.vld loadF) loadF .l base.b) base ∧ AllPlain base.b ∧
    ∃ s1 out rem imgs mk, loadRun .lin loadF (pfxOf base.b.pfx) base.b.drm base.b.ko (base.b.op32 loadF.a) (base.b.op32 loadF.b) []
        (entered (fwdMF (.vld loadF) loadF .l base.b) base) = .ok s1 out rem imgs mk ∧
      (!rem && decide (s1.b.runUsed + out.runs.length ≤ s1.b.runq)) = true :=
  ⟨rfl, ready_idle (by decide) (by decide) rfl rfl (by decide), base_plain, exists_ld (by decide +kernel)⟩

/-- The base state with format word f in its first bank. -/
def banked (f : Word) : State := withB fun b => { b with bfmt := b.bfmt.set 0 f }

theorem witness_LinearLoadLanes :
    MForm.strided ≠ .tile ∧ mctl .strided true 0xFFFF0041 = some { n := 65, str := -1 } ∧ mctl .rot true 0x003F0041 = some { n := 65, k := 63 } ∧
    base.b.sbuf = [] ∧
    (∃ s1 out rem imgs mk, loadRun .strided { fm with off := 1 } {} base.b.drm 0 0x1FF80000 0xFFFF0041 [] base = .ok s1 out rem imgs mk ∧
      decide (out.len = 65) = true) ∧
    (∃ s1 out rem imgs mk, loadRun .lin fm {} base.b.drm 0 0x1FF80000 0 [] base = .ok s1 out rem imgs mk ∧ decide (out.len = 0) = true) ∧
    meshCheck base base.b false (rowBase 0x1FF80000 1) = .ok (0, 1) ∧ isBPI (bfFmt (base.bfmtAt 0 1)) = false ∧
    (let s := banked 0
     mctl .tile true 1 = some { tr := true, q := 0 } ∧ elW (bfFmt (s.bfmtAt 0 0)) = 32 ∧
       ∃ s1 out rem imgs mk, loadRun .tile fm {} s.b.drm 0 0x1FF80000 1 [] s = .ok s1 out rem imgs mk ∧ decide (out.tag = 0) = true) ∧
    (let s := banked 0x414
     isBPI (bfFmt (s.bfmtAt 0 0)) = true ∧ bfPl (s.bfmtAt 0 0) = 2 ∧ mctl .rot true 0x003F0002 = some { n := 2, k := 63 } ∧
       ∃ s1 out rem imgs mk, loadRun .rot fm {} s.b.drm 0 0x1FF80000 0x003F0002 [] s = .ok s1 out rem imgs mk ∧
         decide (out.tag = 0x12) = true) ∧
    (let s := banked 1
     roundNoSr { fmt := some 2 } fm.rm s.b.drm = some 0 ∧
       ∃ s1 out rem imgs mk, loadRun .lin fm { fmt := some 2 } s.b.drm 0 0x1FF80000 3 [] s = .ok s1 out rem imgs mk ∧
         decide (out.len = 2) = true) :=
  ⟨by decide, by decide, by decide, by decide, exists_ld (by decide +kernel), exists_ld (by decide +kernel), rfl, by decide,
    ⟨by decide, by decide, exists_ld (by decide +kernel)⟩, ⟨by decide, by decide, by decide, exists_ld (by decide +kernel)⟩,
    by decide, exists_ld (by decide +kernel)⟩

/-- A store of the four lanes of v1, and of an empty register. -/
def storeF : MF := { fm with a := .lit 0x1FF80000, d := 1 }

theorem witness_StoresComplete :
    (let w := fwdMF (.vst storeF) storeF .s vectors.b
     let g := entered w vectors
     storeForm (.vst storeF) = some (.lin, storeF) ∧ Ready w vectors ∧ mctl .lin false (vectors.b.op32 storeF.b) = some {} ∧
       roundNoSr (pfxOf vectors.b.pfx) storeF.rm vectors.b.drm = some 0 ∧
       (baseFmt true (rowBase (vectors.b.op32 storeF.a) storeF.off) g).any (quarterBad .lin {}) = false ∧
       (let x := g.b.look (g.b.reader .s (entryOf w vectors)) 1
        x.st = .plain ∧ x.len = 4 ∧ meshCheck g g.b true (rowBase (vectors.b.op32 storeF.a) storeF.off) = .ok (0, 0) ∧
          bfFmt (g.bfmtAt 0 0) = 0 ∧ vectors.b.sbuf = [] ∧
          ∃ g1, rowsWrite vectors.b.ko 0 (storePlan .lin {} 0 false (rowBase (vectors.b.op32 storeF.a) storeF.off) 4
            (storeWords x 0 { rm := 0 }).1) 1 0 (g.modB fun b => { b.setHead .s fun h => { h with src := some x } with stPend := [] }) =
              (g1, none))) ∧
    (let f : MF := { storeF with d := 9 }
     let w := fwdMF (.vst f) f .s vectors.b
     let g := entered w vectors
     Ready w vectors ∧ (g.b.look (g.b.reader .s (entryOf w vectors)) 9).len = 0) ∧
    mctl .tile false 0 = some {} ∧ quarterBad .tile {} 0 = false :=
  ⟨⟨rfl, ready_idle (by decide) (by decide) rfl rfl (by decide), by decide, by decide, by decide, by decide, by decide, rfl, by decide,
    by decide, exists_pair (by decide +kernel)⟩, ⟨ready_idle (by decide) (by decide) rfl rfl (by decide), by decide⟩, by decide, by decide⟩

/-- The burner holds its quad's lease; name 2 and 5 are bound, name 1 is free. -/
def leased : State :=
  { withB fun b => { b with
      enrolled := true, v := vectors.b.v
      ops := ((b.ops.set 2 { bound := true, tag := 0x0B, els := [[1, 2]] }).set 5 { bound := true, tag := 0x0C, els := List.replicate 64 [3, 4] }) }
    with leases := [{ quad := 0, holder := some (0, 0), cmds := 62, last := some (0, 0) }] }

theorem witness_ArrayLease :
    Ready (fwdXF (.mlease fx) fx leased.b) leased ∧ leased.b.enrolled = true ∧ Ready (fwdXF (.mfree fx) fx leased.b) leased ∧
    (leased.lease 0).holder = some (0, 0) ∧ (0, 0) ∉ (leased.lease 0).reqs ∧
    Ready (fwdXF (.mlease fx) fx base.b) base ∧ base.b.enrolled = false ∧ (base.lease 0).holder = none ∧ (base.lease 0).reqs = [] ∧
    (let l : Lease := { quad := 0, holder := none, last := some (1, 0), reqs := [(0, 0), (2, 1)] }
     ({ base with leases := [l] } : State).lease 0 = l ∧ l.reqs ≠ []) ∧
    (let l : Lease := { quad := 0, holder := some (0, 0), cmds := 64, reqs := [(1, 0)] }
     ({ base with leases := [l] } : State).lease 0 = l ∧ 64 ≤ l.cmds) :=
  ⟨ready_idle (by decide) (by decide) rfl rfl (by decide), by decide, ready_idle (by decide) (by decide) rfl rfl (by decide), by decide,
    by decide, ready_idle (by decide) (by decide) rfl rfl (by decide), by decide, by decide, by decide, by decide, by decide⟩

theorem leased_leased : Leased leased := ⟨by decide, by decide⟩

/-- Leased with 63 commands counted, nobody waiting or one other burner. -/
def leasedOut (reqs : List (Nat × Nat)) : State :=
  { leased with leases := [{ quad := 0, holder := some (0, 0), cmds := 63, last := some (0, 0), reqs := reqs }] }

theorem leasedOut_leased : Leased (leasedOut []) ∧ Leased (leasedOut [(1, 0)]) ∧
    (counted (leasedOut []) (leasedOut [])).lease 0 = { quad := 0, holder := some (0, 0), cmds := 0, last := some (0, 0) } ∧
    (counted (leasedOut [(1, 0)]) (leasedOut [(1, 0)])).lease 0 =
      { quad := 0, holder := some (1, 0), cmds := 0, last := some (1, 0) } :=
  ⟨⟨by decide, by decide⟩, ⟨by decide, by decide⟩, by decide, by decide⟩

theorem witness_OperandSlotsComplete :
    (let f : XF := { fx with oa := 1 }
     f.oa.toNat < leased.b.resOps ∧ Ready (fwdXF (.otake f) f leased.b) leased ∧ leased.b.ops[1].bound = false) ∧
    (let f : XF := { fx with oa := 2, a := .lit 0x1FF80000, b := .imm 1 }
     f.oa.toNat < leased.b.resOps ∧ Ready (fwdXF (.otake f) f leased.b) leased ∧ Ready (fwdXF (.ogive f) f leased.b) leased ∧
       Ready (fwdXF (.ofill f) f leased.b) leased ∧ leased.b.ops[2].bound = true ∧ Leased leased ∧ leased.b.pfx = none ∧
       (let g := entered (fwdXF (.ofill f) f leased.b) leased
        meshCheck g g.b false (rowBase (leased.b.op32 f.a) 0) = .ok (0, 0) ∧ isBPI (bfFmt (g.bfmtAt 0 0)) = false ∧
          (leased.b.op32 f.b).toNat / 32 = 0 ∧ (leased.b.op32 f.b).toNat / 2 % 8 = 0 ∧
          ∃ y, rowsRead leased.b.ko 0 none g [] false 0
              ((List.range 64).map fun (i : Nat) => rowPlus (rowBase (leased.b.op32 f.a) 0) (i : Int)) = .ok y ∧
            (y.2.1.length == 64) = true)) :=
  ⟨⟨by decide, ready_idle (by decide) (by decide) rfl rfl (by decide), by decide⟩,
    by decide, ready_idle (by decide) (by decide) rfl rfl (by decide), ready_idle (by decide) (by decide) rfl rfl (by decide),
    ready_idle (by decide) (by decide) rfl rfl (by decide), by decide, leased_leased, rfl, rfl, by decide, by decide, by decide,
    exists_ok (by decide +kernel)⟩

theorem witness_MmaComplete :
    (let f : XF := { fx with oa := 2, ob := 5, acc := 3 }
     Ready (fwdXF (.mmaz f) f leased.b) leased ∧ Leased leased ∧ f.oa.toNat < leased.b.resOps ∧ f.ob.toNat < leased.b.resOps ∧
       f.acc.toNat < leased.b.resAcc ∧ leased.b.ops[2].bound = true ∧ leased.b.ops[5].bound = true ∧
       mmaPair ((entered (fwdXF (.mmaz f) f leased.b) leased).b.oslotAt 2).tag.toNat
         ((entered (fwdXF (.mmaz f) f leased.b) leased).b.oslotAt 5).tag.toNat = some (8, true)) ∧
    leased.b.acc[3].int = false ∧ mmaPair 4 8 = some (8, false) :=
  ⟨⟨ready_idle (by decide) (by decide) rfl rfl (by decide), leased_leased, by decide, by decide, by decide, by decide, by decide, by decide⟩,
    by decide, by decide⟩

theorem witness_IntegerMmaIsDotProduct :
    0 < 8 ∧ ({ rm := 0 } : RMode).sat ≠ 1 ∧ leased.b.ops[5].els.length = 64 ∧ leased.b.ops[2].els[0]? = some [1, 2] ∧
    leased.b.ops[5].els[63]? = some [3, 4] := by decide

theorem witness_AccumulatorAccessCompletes :
    Leased leased ∧ (3 : Nat) < leased.b.resAcc ∧ AllPlain leased.b ∧
    (let f : XF := { fx with acc := 3, d := 5, b := .imm 3 }
     Ready (fwdXF (.ard f) f leased.b) leased ∧ (leased.b.op32 f.b).toNat ≤ 3) ∧
    (let f : XF := { fx with acc := 3, d := 3, b := .imm 3 }
     let b := (entered (fwdXF (.awr f) f leased.b) leased).b
     let x := b.look (b.reader .x (entryOf (fwdXF (.awr f) f leased.b) leased)) 3
     Ready (fwdXF (.awr f) f leased.b) leased ∧ x.tag = (if leased.b.acc[3].int then 9 else 1) ∧ lenSeg x.runs = x.len) ∧
    Ready (fwdXF (.azero { fx with b := .imm 9 }) { fx with b := .imm 9 } leased.b) leased :=
  ⟨leased_leased, by decide, vectors_plain, ⟨ready_idle (by decide) (by decide) rfl rfl (by decide), by decide⟩,
    ⟨ready_idle (by decide) (by decide) rfl rfl (by decide), by decide, by decide⟩, ready_idle (by decide) (by decide) rfl rfl (by decide)⟩

/-- A command from its fields: bit number and value. -/
def mkCmd (l : List (Nat × Nat)) : Cmd := BitVec.ofNat 1024 (l.foldl (fun n p => n ||| p.2 <<< p.1) 0)
def row0 : Nat := 0x1FF80000
def row1 : Nat := 0x1FF80100
/-- COPY of two RAW32 elements from row 0 to row 1 of the own core, and FILL of them with 7. -/
def copyCmd : Cmd := mkCmd [(0, 1), (64, row0), (128, row1), (448, 2), (480, 1), (512, 1), (544, 1)]
def fillCmd : Cmd := mkCmd [(0, 4), (128, row1), (192, 7), (448, 2), (480, 1), (512, 1), (544, 1)]
/-- XFORM of a TOZ of the 4-bit tile in rows 0 to 7 of the own core. -/
def xformCmd : Cmd := mkCmd [(0, 3), (128, row0), (192, 2 * 2 ^ 60), (448, 1), (480, 1), (512, 1), (544, 1)]
/-- Command c at the head of unit u. -/
def atHead (u : Fin 4) (c : Cmd) : State :=
  withB fun b => { b with eng := b.eng.set u { limit := 16, fifo := [{ item := .cmd c, seq := 0 }], next := 1 } }
/-- A state whose unit u is at rest with command c alone in its FIFO is one where c stands at its head. -/
theorem atHead_of {u : Nat} {c : Cmd} {s : State} (h : s.b.unit u = { limit := 16, fifo := [{ item := .cmd c, seq := 0 }], next := 1 })
    (hp : s.pace = 0) : AtHeadAs u { item := .cmd c, seq := 0 } c s := by
  unfold AtHeadAs
  rw [h]
  exact ⟨rfl, rfl, ⟨[], rfl⟩, rfl, rfl, rfl, rfl, rfl, rfl, rfl, rfl, rfl, rfl, hp⟩
theorem atHead_atHead (u : Fin 4) (c : Cmd) : AtHead u c (atHead u c) := by
  refine ⟨_, atHead_of ?_ rfl⟩
  match u with
  | 0 | 1 | 2 | 3 => rfl
theorem allowed_of {s : State} {wr : Bool} {a n : Nat} (ha : a + n ≤ 0x20000000)
    (h : (List.range n).all (fun k => okP (meshCheck s s.b wr (a + k)) fun p => !s.poison.contains (meshRow p.1 p.2)) = true) :
    Allowed s wr a n := by
  refine ⟨ha, fun k hk => ?_⟩
  obtain ⟨p, hp, hq⟩ := exists_ok (List.all_eq_true.1 h k (List.mem_range.2 hk))
  exact ⟨p, hp, by simpa using hq⟩
theorem apart_of {n m : Nat} {f g : Nat → Nat}
    (h : (List.range n).all (fun i => (List.range m).all fun j => f i != g j) = true) : ∀ i j, i < n → j < m → f i ≠ g j := by
  intro i j hi hj
  have := List.all_eq_true.1 (List.all_eq_true.1 h i (List.mem_range.2 hi)) j (List.mem_range.2 hj)
  simpa using this

theorem witness_EsendPushes :
    (let f : EF := { fe with d := 11, a := .lit 0x1FF80000 }
     let w := fwdEF (.esend f) f false false false [f.d] false base.b
     let s : State := { base with mesh := Memory.setBytes [] 0 ((wordsOfBytes (bytesOfNat 128 copyCmd.toNat) 32).flatMap wordBytes) }
     Ready w s ∧ f.unit.toNat < 4 ∧
       (∃ y, rowRead false (entered w s) s.b.ko (s.b.op32 f.a &&& ~~~255#32).toNat = .ok y ∧
         (cmdOk 0 (BitVec.ofNat 1024 (natOfBytes (((y.2.ws.drop 0).take 32).flatMap wordBytes))) y.1 && (y.1.b.unit 0).ovf == 0 &&
           decide ((y.1.b.unit 0).fifo.length + (y.1.b.unit 0).out.length < (y.1.b.unit 0).limit)) = true)) ∧
    (let f : EF := { fe with d := 11, a := .lit 0x1FF80000, imm8 := 1 }
     let w := fwdEF (.esend f) f false false false [f.d] false base.b
     Ready w base ∧ ∃ y, rowRead false (entered w base) base.b.ko (base.b.op32 f.a &&& ~~~255#32).toNat = .ok y ∧
       (!cmdOk 0 (BitVec.ofNat 1024 (natOfBytes (((y.2.ws.drop 32).take 32).flatMap wordBytes))) y.1) = true) ∧
    isColl copyCmd = false ∧
    (let c : Cmd := mkCmd [(0, 8), (8, 1), (13, 1), (32, 3), (64, row0), (128, row1), (448, 2), (480, 1), (512, 1), (544, 1)]
     let s : State := { grouped .unarmed id with mesh := Memory.setBytes [] 0 ((wordsOfBytes (bytesOfNat 128 c.toNat) 32).flatMap wordBytes) }
     let f : EF := { fe with d := 11, a := .lit 0x1FF80000, unit := 2 }
     let w := fwdEF (.esend f) f false false false [f.d] false s.b
     isColl c = true ∧ Ready w s ∧ (∃ y, rowRead false (entered w s) s.b.ko (s.b.op32 f.a &&& ~~~255#32).toNat = .ok y ∧
       (BitVec.ofNat 1024 (natOfBytes (((y.2.ws.drop 0).take 32).flatMap wordBytes)) == c && cmdOk 2 c y.1 && (y.1.b.unit 2).ovf == 0 &&
         (y.1.group (cGrp c)).member 0 0 == some (member 0 0) &&
         decide ((y.1.b.unit 2).fifo.length + (y.1.b.unit 2).out.length < (y.1.b.unit 2).limit)) = true)) :=
  ⟨⟨ready_idle (by decide) (by decide) rfl rfl (by decide), by decide, exists_ok (by decide +kernel)⟩,
    ⟨ready_idle (by decide) (by decide) rfl rfl (by decide), exists_ok (by decide +kernel)⟩, by decide +kernel, by decide +kernel,
    ready_idle (by decide) (by decide) rfl rfl (by decide), exists_ok (by decide +kernel)⟩

theorem witness_EngineReadsComplete :
    Ready (fwdEF (.erecv fe) fe false false false (quad 0) true base.b) base ∧ (base.b.unit 0).out = [] ∧ (base.b.unit 0).fifo = [] ∧
    (let s := atHead 0 copyCmd
     Ready (fwdEF (.erecv fe) fe false false false (quad 0) true s.b) s ∧ (s.b.unit 0).out = [] ∧ (s.b.unit 0).fifo ≠ [] ∧
       Ready (fwdEF (.estatDrop fe) fe false false false [0] false s.b) s ∧ (s.b.unit 0).flt = none) ∧
    (let s := withB fun b => { b with eng := b.eng.set 0 { out := [5, 6] } }
     Ready (fwdEF (.erecv fe) fe false false false (quad 0) true s.b) s ∧ (s.b.unit 0).out = [5, 6]) ∧
    (let s := withB fun b => { b with eng := b.eng.set 0 { (atHead 0 copyCmd).b.unit 0 with flt := some (.engCommand, 0) } }
     Ready (fwdEF (.estatStatus fe) fe false false false [0] false s.b) s ∧ Ready (fwdEF (.estatProgress fe) fe false false false [0] false s.b) s ∧
       Ready (fwdEF (.estatDrop fe) fe false false false [0] false s.b) s ∧ (s.b.unit 0).flt ≠ none ∧ s.b.trctl.getLsbD 3 = false ∧ s.b.rpMode = 0) :=
  ⟨ready_idle (by decide) (by decide) rfl rfl (by decide), rfl, rfl,
    ⟨ready_idle (by decide) (by decide) rfl rfl (by decide), rfl, by decide, ready_idle (by decide) (by decide) rfl rfl (by decide), rfl⟩,
    ⟨ready_idle (by decide) (by decide) rfl rfl (by decide), rfl⟩,
    ready_idle (by decide) (by decide) rfl rfl (by decide), ready_idle (by decide) (by decide) rfl rfl (by decide),
    ready_idle (by decide) (by decide) rfl rfl (by decide), by decide, by decide, by decide⟩

theorem witness_TransformsAndRelays :
    (let f : EF := { fe with a := .lit2 0x2000000000000000 }
     let w := fwdEF (.bxform f) f true false false [] false base.b
     Ready w base ∧ (∃ y, transform (base.b.op64 f.a) base.b.core ((entered w base).drainTo base.b.ko (xfTouches (base.b.op64 f.a) base.b.core)) = .ok y)) ∧
    (let f : EF := { fe with a := .lit2 0x8000000000000000 }
     let w := fwdEF (.bxform f) f true false false [] false base.b
     Ready w base ∧ okP (transform (base.b.op64 f.a) base.b.core ((entered w base).drainTo base.b.ko (xfTouches (base.b.op64 f.a) base.b.core))) (fun _ => true) = false) ∧
    (∃ y, transform 0x0040000000000060 base.b.core base = .ok y) ∧
    (∃ y, transform 0x1000000000000000 base.b.core base = .ok y) ∧ base.mesh.wf = true ∧
    (∃ y, transform (BitVec.ofNat 64 (2 * 2 ^ 60 + 0 * 2 ^ 58 + 8 * 2 ^ 11 + 8)) base.b.core base = .ok y ∧
      okP (transform (BitVec.ofNat 64 (3 * 2 ^ 60 + 0 * 2 ^ 58 + 8 * 2 ^ 11 + 8)) base.b.core y) (fun _ => true) = true) :=
  ⟨⟨ready_idle (by decide) (by decide) rfl rfl (by decide), exists_any (by decide +kernel)⟩,
    ⟨ready_idle (by decide) (by decide) rfl rfl (by decide), by decide +kernel⟩, exists_any (by decide +kernel), exists_any (by decide +kernel), by decide, exists_ok (by decide +kernel)⟩

theorem witness_CompletionElements : 3 < 4 ∧ 15 < 16 := by decide

theorem witness_CopyEngineCompletes :
    AtHead 0 copyCmd (atHead 0 copyCmd) ∧ (atHead 0 copyCmd).mesh.wf = true ∧ PlainRow copyCmd 2 ∧ cDfmt copyCmd ∈ [0, 1, 9] ∧
    cDst copyCmd % 4 = 0 ∧ Allowed (atHead 0 copyCmd) true (cDst copyCmd) 8 ∧ cSfmt copyCmd = cDfmt copyCmd ∧ cSrc copyCmd % 4 = 0 ∧
    copyModes copyCmd (atHead 0 copyCmd) = (0, 0) ∧ Allowed (atHead 0 copyCmd) false (cSrc copyCmd) 8 ∧
    (∀ i, i < 2 → (cSfmt copyCmd = 0 ∨ bfSm (bankFmt (cSrc copyCmd + 4 * i) (atHead 0 copyCmd)) = 0) ∧
      bfSm (bankFmt (cDst copyCmd + 4 * i) (atHead 0 copyCmd)) = 0) ∧
    AtHead 0 fillCmd (atHead 0 fillCmd) ∧ PlainRow fillCmd 2 ∧ cDfmt fillCmd ∈ [0, 1, 9] ∧
    Allowed (atHead 0 fillCmd) true (cDst fillCmd) 8 ∧
    AtHead 0 xformCmd (atHead 0 xformCmd) ∧ (∃ p, meshResolve 0 (cDst xformCmd) = .ok p ∧ (p == (0, 0)) = true) ∧
    (∃ y, transform (BitVec.ofNat 64 (cAux xformCmd)) 0 ((atHead 0 xformCmd).modB (beginCmd 0 xformCmd)) = .ok y) :=
  ⟨atHead_atHead 0 _, by decide, by unfold PlainRow; decide +kernel, by decide +kernel, by decide +kernel,
    allowed_of (by decide +kernel) (by decide +kernel), by decide +kernel, by decide +kernel, by decide +kernel,
    allowed_of (by decide +kernel) (by decide +kernel), by decide +kernel, atHead_atHead 0 _,
    by unfold PlainRow; decide +kernel, by decide +kernel, allowed_of (by decide +kernel) (by decide +kernel), atHead_atHead 0 _,
    exists_ok (by decide +kernel), exists_any (by decide +kernel)⟩

/-- COPYQ of 32 FP32 elements of bank 0 into bank 1, of FP8 E4M3 with 1 × 32 blocks, its scale in bank 2, of E8M0. -/
def copyqCmd : Cmd :=
  mkCmd [(0, 2), (8, 1), (13, 4), (64, row0), (128, 0x1FF86000), (192, 0x1FF8C000), (448, 32), (480, 1), (512, 1), (544, 1)]
def quantising : State :=
  { atHead 0 copyqCmd with b := { (atHead 0 copyqCmd).b with bfmt := ((base.b.bfmt.set 0 1).set 1 0x44).set 2 0x0E } }

theorem witness_CopyqQuantisesBlock :
    AtHead 0 copyqCmd quantising ∧ quantising.mesh.wf = true ∧ PlainRow copyqCmd 32 ∧ cSfmt copyqCmd = 1 ∧ cDfmt copyqCmd ∈ [4, 5, 6, 7] ∧
    cDst copyqCmd % 4 = 0 ∧ cSrc copyqCmd % 4 = 0 ∧ Allowed quantising true (cDst copyqCmd) 32 ∧
    Allowed quantising false (cSrc copyqCmd) 128 ∧ Allowed quantising true (cAux copyqCmd) 1 ∧
    (∀ i, i < 32 → bfSm (bankFmt (cDst copyqCmd + i) quantising) = 1 ∧ bfSm (bankFmt (cSrc copyqCmd + 4 * i) quantising) = 0) ∧
    bfFmt (bankFmt (cAux copyqCmd) quantising) = 0x0E ∧
    (∀ i j, i < 32 → j < 1 → meshByte quantising (cDst copyqCmd + i) ≠ meshByte quantising (cAux copyqCmd)) :=
  ⟨⟨_, atHead_of rfl rfl⟩, by decide, by unfold PlainRow; decide +kernel, by decide +kernel, by decide +kernel, by decide +kernel,
    by decide +kernel, allowed_of (by decide +kernel) (by decide +kernel), allowed_of (by decide +kernel) (by decide +kernel),
    allowed_of (by decide +kernel) (by decide +kernel), by decide +kernel, by decide +kernel, apart_of (by decide +kernel)⟩

/-- GATHER and SCATTER of two elements through the indices 1, 0 of row 2. -/
def gatherCmd : Cmd := mkCmd [(0, 5), (64, row0), (128, row1), (192, 0x1FF80200), (448, 2), (480, 2), (512, 1), (544, 1)]
def gathering : State := { atHead 1 gatherCmd with mesh := [(512, 1)] }

theorem witness_GatherEngineCompletes :
    AtHead 1 gatherCmd gathering ∧ gathering.mesh.wf = true ∧ cDim gatherCmd 0 = 2 ∧ cRmt gatherCmd = false ∧
    cSfmt gatherCmd = cDfmt gatherCmd ∧ cDfmt gatherCmd ∈ [0, 1, 9] ∧ cSrc gatherCmd % 4 = 0 ∧ cDst gatherCmd % 4 = 0 ∧
    cAux gatherCmd % 4 = 0 ∧ Allowed gathering false (cAux gatherCmd) 8 ∧
    (∀ i < 2, (meshWord gathering (cAux gatherCmd + 4 * i)).toNat < cDim gatherCmd 1 ∧
      (meshWord gathering (cAux gatherCmd + 4 * i)).toNat < 2 ^ 31) ∧
    Allowed gathering false (cSrc gatherCmd + 4) 4 ∧ Allowed gathering false (cSrc gatherCmd) 8 ∧
    Allowed gathering true (cDst gatherCmd) 8 ∧ Allowed gathering true (cDst gatherCmd + 4) 4 :=
  ⟨⟨_, atHead_of rfl rfl⟩, by decide, by decide +kernel, by decide +kernel, by decide +kernel, by decide +kernel, by decide +kernel,
    by decide +kernel, by decide +kernel, allowed_of (by decide +kernel) (by decide +kernel), by decide +kernel,
    allowed_of (by decide +kernel) (by decide +kernel), allowed_of (by decide +kernel) (by decide +kernel),
    allowed_of (by decide +kernel) (by decide +kernel), allowed_of (by decide +kernel) (by decide +kernel)⟩

/-- Two members of group 3, at cores 0 and 1. -/
def collGroup (ps : List Pairing) : Group := { id := 3, st := .unarmed, mems := [member 0 0, member 1 0], pairs := ps }
/-- BCAST of rank 0, REDSCAT in tree mode, ALLGATH and ALLRED in either mode, of two FP32 elements of group 3. -/
def collCmd (op : Nat) (more : List (Nat × Nat)) : Cmd :=
  mkCmd ([(0, op), (8, 1), (13, 1), (32, 3), (64, row0), (128, row1), (448, 2), (480, 1), (512, 1), (544, 1)] ++ more)
def bcast : Cmd := collCmd 8 []
def redscat : Cmd := collCmd 9 [(27, 1), (28, 3)]
def allgath : Cmd := collCmd 10 []
def arrivals : Cmd := collCmd 7 [(28, 3)]
def allred : Cmd := collCmd 7 [(27, 1), (28, 3), (224, 1)]
def part (rank : Nat) (c : Cmd) (xs : List (List Nat)) : Contrib := { rank := rank, core := rank, bur := 0, seq := 0, cmd := c, data := xs }
/-- Member 0's engine with command c at its head, not begun, and the group's pairings. -/
def collecting (c : Cmd) (ps : List Pairing) : State :=
  { atHead 2 c with others := two.others, groups := [collGroup ps] }
/-- The same with the command begun. -/
def landing (c : Cmd) (ps : List Pairing) : State :=
  { collecting c ps with b := { (collecting c ps).b with
      eng := base.b.eng.set 2 { limit := 8, fifo := [{ item := .cmd c, seq := 0, started := true }], next := 1 } } }
def rooted (c : Cmd) : Pairing := { n := 0, cs := [part 0 c [[1, 2]], part 1 c [[3, 4]]], acc := [1, 2, 3, 4], order := [0, 1], formed := true }

theorem witness_CollectivesContribute :
    (let s := collecting bcast []
     myPairing bcast (s.modB (beginCmd 2 bcast)) = none ∧ (s.group (cGrp bcast)).member 0 0 = some (member 0 0) ∧ (member 0 0).cx = false ∧
       (s.group (cGrp bcast)).lost = none ∧ (s.group (cGrp bcast)).cut.contains (0, 0) = false ∧
       (∀ x ∈ (s.group (cGrp bcast)).counted 0, x.1 < 2 ^ 64 ∨ (s.routeTo (farPkg x.1)).isSome = true) ∧
       AtHeadAs 2 { item := .cmd bcast, seq := 0 } bcast s ∧
       ∃ x vs, readEls (srcEl bcast) (List.range (srcVecs bcast (member 0 0).rank * cDim bcast 0)) (accOf 2 (s.modB (beginCmd 2 bcast))) =
         (x, vs, none)) ∧
    (let p : Pairing := { n := 0, cs := [part 0 allgath [[1]], part 1 allgath [[2]]] }
     let s := collecting allgath [p]
     (s.group 3).pairs = [p] ∧ (s.group 3).ready p s = true ∧ replayer p s = none) ∧
    (let p : Pairing := { n := 0, cs := [part 0 arrivals [[1]], part 1 arrivals [[2]]] }
     let s := collecting arrivals [p]
     (s.group 3).pairs = [p] ∧ Pairing.arrives (s.group 3) p 1 s = true ∧ p.cs.find? (·.rank == 1) = some (part 1 arrivals [[2]]) ∧
       p.dies.find? (·.ranks.contains 1) = none ∧ (p.dies.find? fun d => d.die == (part 1 arrivals [[2]]).die) = none) ∧
    (let d : DieSum := { die := 0, els := [1], ranks := [0, 1] }
     let p : Pairing := { n := 0, cs := [part 0 arrivals [[1]], part 1 arrivals [[2]]], dies := [d] }
     let s := collecting arrivals [p]
     (s.group 3).pairs = [p] ∧ Pairing.arrives (s.group 3) p 1 s = true ∧ p.cs.find? (·.rank == 1) = some (part 1 arrivals [[2]]) ∧
       p.dies.find? (·.ranks.contains 1) = some d ∧ p.order = []) ∧
    (let d : DieSum := { die := 0, els := [1], ranks := [1] }
     let far : Contrib := { part 0 arrivals [[1]] with core := 320 }
     let p : Pairing := { n := 0, cs := [far, part 1 arrivals [[2]]], dies := [d], order := [0], acc := [7] }
     let s : State := { collecting arrivals [p] with groups := [{ collGroup [p] with mems := [member 320 0, member 1 0] }] }
     (s.group 3).pairs = [p] ∧ Pairing.arrives (s.group 3) p 1 s = true ∧ p.cs.find? (·.rank == 1) = some (part 1 arrivals [[2]]) ∧
       p.dies.find? (·.ranks.contains 1) = some d ∧ p.order ≠ [] ∧ cSfmt arrivals = 1 ∧ cRop arrivals = 3 ∧ cRnd arrivals = 0 ∧
       0 < p.acc.length ∧ 0 < d.els.length) := by
  refine ⟨⟨by decide +kernel, by decide +kernel, by decide, by decide +kernel, by decide +kernel,
    fun x hx => .inl ((show ∀ x ∈ (((collecting bcast []).group (cGrp bcast)).counted 0), x.1 < 2 ^ 64 by decide +kernel) x hx), atHead_of rfl rfl,
    exists_read (by decide +kernel)⟩, ?_, ?_, ?_, ?_⟩ <;> decide +kernel

theorem witness_CollectivesForm :
    mismatched [part 0 bcast [], part 1 allgath []] = true ∧
    (let cs := [part 1 bcast [], part 0 bcast [[5, 6]]]
     mismatched cs = false ∧ cmdOpc bcast = 8 ∧ ∀ y ∈ cs, y.data = if y.rank = cAux bcast then [[5, 6]] else []) ∧
    (let cs := [part 1 allgath [[3]], part 0 allgath [[5]]]
     let f : Nat → List Nat := fun r => if r = 0 then [5] else [3]
     mismatched cs = false ∧ cmdOpc allgath = 10 ∧ ∀ y ∈ cs, y.data = [f y.rank]) ∧
    (let cs := [part 0 redscat [[0x3F800000, 0]], part 1 redscat [[0x40000000, 0]]]
     mismatched cs = false ∧ cmdOpc redscat = 9 ∧ cSfmt redscat = 1 ∧ cDfmt redscat = 1 ∧ cRop redscat = 3 ∧ cRnd redscat = 0 ∧
       (part 0 redscat [[0x3F800000, 0]]).rank < (part 1 redscat [[0x40000000, 0]]).rank) := by decide +kernel

theorem landing_ok (c : Cmd) (hc : c ∈ [bcast, redscat, allgath, allred]) :
    let s := landing c [rooted c]
    let len := if cmdOpc c = 9 then 1 else if cmdOpc c = 10 then 4 else 2
    (s.b.unit 2).tw = [] ∧ (s.b.unit 2).pos = none ∧ (s.b.unit 2).seen = [] ∧ s.pace = 0 ∧ (rooted c).stalled s = false ∧
    myPairing c s = some (rooted c) ∧ (rooted c).formed = true ∧ (rooted c).status = 0 ∧
    (rooted c).cs.find? (·.mine s.b 0) = some (part 0 c [[1, 2]]) ∧ cSfmt c = cDfmt c ∧ cDfmt c ∈ [0, 1, 9] ∧ cDst c % 4 = 0 ∧
    s.mesh.wf = true ∧ Allowed s true (cDst c) (4 * len) := by
  simp only [List.mem_cons, List.not_mem_nil, or_false] at hc
  rcases hc with rfl | rfl | rfl | rfl <;>
  exact ⟨by decide +kernel, by decide +kernel, by decide +kernel, rfl, by decide +kernel, by decide +kernel, rfl, rfl, by decide +kernel, by decide +kernel, by decide +kernel,
    by decide +kernel, by decide +kernel, allowed_of (by decide +kernel) (by decide +kernel)⟩

theorem witness_CollectivesLand :
    cmdOpc allred = 7 ∧ cTm allred = true ∧ cmdOpc bcast = 8 ∧ cmdOpc redscat = 9 ∧ cmdOpc allgath = 10 ∧
    (rooted allgath).order = List.range (rooted allgath).order.length ∧
    ((landing bcast [rooted bcast]).b.unit 2).fifo = [{ item := .cmd bcast, seq := 0, started := true }] := by decide +kernel

/-! ### Weights -/

/-- A region whose level-2 table maps the gigabyte at VA 0x40000000 onto physical memory from 0, and that leaf in the TLBs of core 0
and die 0. -/
def rgn : Region := { ptroot := 0x1000, rcb := 0x40005000, chain := [0x40005000] }
def tables : Memory := [(0x1000, 1), (0x1001, 0x20), (0x2000, 1), (0x2001, 0x30), (0x3008, 0xC7), (0x3009, 1)]
def leaf : TlbEnt := { die := 0, asn := 0, va := 0x40000000, bits := 30, pte := 0x1C7 }
def leafC : TlbEnt := { leaf with core := some 0 }
def mapped (m : Memory) : State := { withB fun b => { b with region := rgn } with phys := tables ++ m, tlb := [leafC, leaf] }
/-- The record of one row of FP32 weights, D = 2, S0 = 40, with and without checkpoints. -/
def rcd (more : List (Nat × Nat)) : BitVec 1024 :=
  mkCmd ([(0, 1), (16, 2), (256, 1), (448, 64), (512, 0x40010000), (576, 40), (640, 0x40020000)] ++ more)
def ckp : List (Nat × Nat) := [(9, 1), (832, 0x40030000), (896, 0x40040000)]
def bytesFrom (a : Nat) (bs : List Byte) : Memory := (bs.zipIdx.map fun p => (a + p.2, p.1)).filter fun c => c.2 != 0
def delta42 : Delta := { k := 42, row := 0, rows := 1, ws := 5 :: List.replicate 63 0, sum := 0 }
def tensor7 : Tensor :=
  { tid := 7, region := rgn, core := 0, rec_ := 0x40008000, rcd := rcd [], scur := 42, s0 := 40, frel := 40, p := 40, eta := 0, ring := [delta42] }
def weights (t : Tensor) : State := { mapped (bytesFrom 0x8000 (bytesOfNat 128 (rcd []).toNat)) with tensors := [t], accept := 0x1FF }
def portFull (s : State) (x : EItem) (started : Bool) : State :=
  { s with b := { s.b with eng := s.b.eng.set 3 { limit := 8, fifo := [{ item := x, seq := 4, started := started }] } } }

theorem witness_WeightInstructionsComplete :
    (let s := weights tensor7
     let f : EF := { fe with d := 9, a := .imm 7, b := .imm 41 }
     (s.b.unit 3).fifo = [] ∧ s.b.rpMode = 0 ∧ tensorOf (s.b.op32 f.a) s = some tensor7 ∧
       Ready (fwdEF (.wquery f) f false false false [f.d] false s.b) s ∧ Ready (fwdEF (.wrelease f) f false true false [f.d] false s.b) s ∧
       Ready (fwdEF (.wregUnreg f) f false false false [f.d] false s.b) s) ∧
    (let s := weights tensor7
     let f : EF := { fe with d := 9, a := .lit2 0x40008000 }
     let w := fwdEF (.wreg f) f true false false [f.d] false s.b
     Ready w s ∧ ∃ y, readRecord (s.b.op64 f.a).toNat (entered w s).drain = .ok y ∧
       (y.2.2.1 == 0 && y.2.2.2.isNone && decide (freeTids y.1 0 ≠ [])) = true) ∧
    (let s := weights tensor7
     let f : EF := { fe with d := 9, a := .lit2 0x700000000, b := .imm 41, c := .lit 0x1FF80000 }
     let w := fwdEF (.wloadPast f) f true true false [f.d] false s.b
     let g := (entered w s).drain
     let l : WLd := { tensor7.load .recon 41 false with logged := false }
     Ready w s ∧ resolveLoad 7 0 41 0 1 false g = .ok (tensor7, .recon) ∧
       ∃ y, loadRows l 0 1 (headLoad (some l) g) = .ok y ∧ ((y.1.tensor 7).map (fun u => rFmt u.r) == some (rFmt tensor7.r) &&
         (landRows 1 (s.b.op32 f.c).toNat (chunks 64 y.2) 0 0 y.1).2.2.isNone && y.2.headD 0 == 5) = true) ∧
    (let s := weights tensor7
     let f : EF := { fe with d := 9, a := .lit2 0x700000000, b := .imm 43, c := .lit 0x1FF80000 }
     let w := fwdEF (.wloadWait f) f true true false [f.d] false s.b
     Ready w s ∧ resolveLoad 7 1 43 0 1 false (entered w s).drain = .ok (tensor7, .wait)) ∧
    (let s := weights tensor7
     let f : EF := { fe with d := 9, a := .imm 7, b := .lit2 0x40050000, c := .imm 43 }
     Ready (fwdEF (.wpub f) f false true false [f.d] false s.b) s ∧ Ready (fwdEF (.wcommit f) f false true true [f.d] false s.b) s ∧
       occupied (s.b.op32 f.a) s = some tensor7 ∧ rRep tensor7.r = false ∧ ((s.b.unit 3).fifo.filter fun p => !p.started).length < 8 ∧
       (s.b.unit 3).fifo.length + (s.b.unit 3).out.length < (s.b.unit 3).limit ∧ 0 < rWlen tensor7.r ∧
       0x40000000 ≤ (s.b.op64 f.b).toNat ∧ (s.b.op64 f.b).toNat + 256 * rWlen tensor7.r - 1 < 2 ^ 57) ∧
    (let e : Entry := { seq := 0, ko := 0, ins := .wregUnreg fe, va := 9, waited := true }
     let s : State := { weights tensor7 with b := { base.b with qs := [e] } }
     headHeld .s e s.b = false ∧ s.b.bypass = [] ∧ s.tensor (lo32 e.va).toNat = none) ∧
    (let s := weights tensor7
     s.tensor 7 = some tensor7 ∧ tensor7.scur = 42 ∧
       (∃ y, rdVA s tensor7.via s.b (rWbase tensor7.r + 256 * 0) (256 * 1) = .ok y ∧ (y.2.length == 256) = true) ∧
       ∃ y, loadRows { tid := 7, base := 41 } 0 1 s = .ok y ∧ (y.2.headD 0 == 5) = true) ∧
    tensor7.floor = 40 ∧ rExm (rcd [(8, 1)]).toNat = true := by
  refine ⟨⟨by decide, by decide, by decide +kernel, ready_idle (by decide) (by decide) rfl rfl (by decide),
    ready_idle (by decide) (by decide) rfl rfl (by decide), ready_idle (by decide) (by decide) rfl rfl (by decide)⟩,
    ⟨ready_idle (by decide) (by decide) rfl rfl (by decide), exists_ok (by decide +kernel)⟩,
    ⟨ready_idle (by decide) (by decide) rfl rfl (by decide), ?_, exists_ok (by decide +kernel)⟩,
    ⟨ready_idle (by decide) (by decide) rfl rfl (by decide), ?_⟩,
    ⟨ready_idle (by decide) (by decide) rfl rfl (by decide), ready_idle (by decide) (by decide) rfl rfl (by decide), by decide +kernel,
      by decide +kernel, by decide, by decide, by decide +kernel, by decide +kernel, by decide +kernel⟩,
    by decide +kernel, ⟨by decide +kernel, rfl, exists_ok (by decide +kernel), exists_ok (by decide +kernel)⟩, by decide +kernel,
    by decide +kernel⟩
  · obtain ⟨y, hy, h⟩ := exists_ok (x := resolveLoad 7 0 41 0 1 false (entered (fwdEF (.wloadPast { fe with d := 9, a := .lit2 0x700000000, b := .imm 41, c := .lit 0x1FF80000 }) { fe with d := 9, a := .lit2 0x700000000, b := .imm 41, c := .lit 0x1FF80000 } true true false [9] false (weights tensor7).b) (weights tensor7)).drain) (p := fun y => y == (tensor7, .recon)) (by decide +kernel)
    exact (eq_of_beq h) ▸ hy
  · obtain ⟨y, hy, h⟩ := exists_ok (x := resolveLoad 7 1 43 0 1 false (entered (fwdEF (.wloadWait { fe with d := 9, a := .lit2 0x700000000, b := .imm 43, c := .lit 0x1FF80000 }) { fe with d := 9, a := .lit2 0x700000000, b := .imm 43, c := .lit 0x1FF80000 } true true false [9] false (weights tensor7).b) (weights tensor7)).drain) (p := fun y => y == (tensor7, .wait)) (by decide +kernel)
    exact (eq_of_beq h) ▸ hy

def wloadc : Cmd := mkCmd [(0, 11), (13, 1), (128, row0), (224, 7), (256, 42), (448, 1), (480, 1), (512, 1), (544, 1)]
def wdelta : Cmd := mkCmd [(0, 12), (128, row0), (224, 7), (256, 42), (448, 1), (480, 1), (512, 1), (544, 1)]
def portState (x : EItem) (started : Bool) : State := portFull (weights tensor7) x started
def allowedAll (s : State) (a n : Nat) : Bool :=
  decide (a + n ≤ 0x20000000) && (List.range n).all fun k => okP (meshCheck s s.b true (a + k)) fun p => !s.poison.contains (meshRow p.1 p.2)

/-- The hypotheses of a commit of step 43, one after the other: the record's words, the source, the stored rows, room, the writes. -/
def commits (t : Tensor) (tid src step : Nat) (s : State) : Bool :=
  okP (reread t (s.modB beginItem)) fun y1 =>
    let t1 := t.free y1.1 (max (max (step - rD t.r) t.frel) t.s0)
    y1.1.tensor tid == some t && match t1.place with
    | none => false
    | some row => okP (rdVA y1.1 y1.1.viaB y1.1.b src (256 * rWlen t.r)) fun y2 => okP (storedRows t 0 (rWlen t.r) y2.1) fun y3 =>
      let new := wordsOfBytes y2.2 (64 * rWlen t.r)
      let xs := List.zipWith (· ^^^ ·) y3.2 new
      let img := deltaImage (rWlen t.r) xs
      match reclaim t1 row ((img.length + 255) / 256) (y3.1.setTensor t1) with
      | none => false
      | some s4 => okP (rewrite t row xs img new s4) fun _ => (s4.tensor tid).isSome && step == t.scur + 1 && !rCkp t.r
/-- The same of a delta of 64 words that arrives at a replica. -/
def applies (t : Tensor) (ws : List Word) (s : State) : Bool :=
  let t1 := t.free s (max (max (t.scur + 1 - rD t.r) t.frel) t.s0)
  match makePlace s (t1.ring.length + 1) t1 with
  | none => false
  | some (t2, row) => okP (storedRows t 0 (rWlen t.r) s) fun y =>
    let img := deltaImage (rWlen t.r) ws
    match reclaim t2 row ((img.length + 255) / 256) (y.1.setTensor t2) with
    | none => false
    | some s2 => okP (rewrite t row ws img (List.zipWith (· ^^^ ·) y.2 ws) s2) fun s3 => (s3.tensor t.tid).isSome && ws.length == y.2.length

theorem witness_WeightPortCompletes :
    (let s : State := { weights tensor7 with b := { (weights tensor7).b with eng := (atHead 3 wloadc).b.eng } }
     let l : WLd := { tensor7.load .stored (cStep wloadc) false with logged := decide (cWmd wloadc = 1) }
     AtHead 3 wloadc s ∧ (s.b.unit 3).waitFrom = false ∧ cWmd wloadc ≠ 1 ∧ cRmt wloadc = false ∧ cCmd wloadc = false ∧
       cDfmt wloadc = 1 ∧ cDst wloadc % 4 = 0 ∧
       (∃ y, resolveLoad (BitVec.ofNat 32 (cf wloadc 224 32)) (cWmd wloadc) (cStep wloadc) (cf wloadc 192 32) (cDim wloadc 0) false
         (s.modB (beginCmd 3 wloadc)) = .ok y ∧ (y == (tensor7, .stored)) = true) ∧
       (∃ y, loadRows l (cf wloadc 192 32) (cDim wloadc 0) (unitLoad (some l) (s.modB (beginCmd 3 wloadc))) = .ok y ∧
         ((y.1.tensor 7).map (fun u => rFmt u.r) == some 1 && y.1.mesh.wf && y.2.length == 64 && allowedAll y.1 (cDst wloadc) 256) = true) ∧ rFmt tensor7.r = 1) ∧
    (let s : State := { weights tensor7 with b := { (weights tensor7).b with eng := (atHead 3 wdelta).b.eng } }
     let ws := wordsOfBytes (deltaImage (rWlen tensor7.r) delta42.ws) ((deltaImage (rWlen tensor7.r) delta42.ws).length / 4)
     AtHead 3 wdelta s ∧ cRmt wdelta = false ∧ cCmd wdelta = false ∧ cDst wdelta % 4 = 0 ∧
       tensorOf (BitVec.ofNat 32 (cf wdelta 224 32)) s = some tensor7 ∧ tensor7.ring.find? (·.k == cStep wdelta) = some delta42 ∧
       s.mesh.wf = true ∧ ws.length = 21 ∧ allowedAll s (cDst wdelta) (4 * ws.length) = true) ∧
    (let s := portState (.commit 7 0x40050000 43 0) false
     s.tensor 7 = some tensor7 ∧ tensor7.unreg = false ∧ tensor7.ckpt = none ∧ (44 : DWord).toNat ≠ tensor7.scur + 1 ∧
       commits tensor7 7 0x40050000 43 s = true ∧ (s.b.unit 3).reread = none ∧
       (∃ y, rdVA (s.modB beginItem) tensor7.via (s.modB beginItem).b (tensor7.rec_ + 44) 12 = .ok y ∧ (y.2.length == 12) = true) ∧
       (let s' : State := { s with b := s.b.setUnit 3 { s.b.unit 3 with reread := some 5 } }
        (s'.b.unit 3).reread = some 5 ∧ s'.tensor 7 = some tensor7 ∧ okP (reread tensor7 (s'.modB beginItem)) (fun y => y.2 == 5) = true)) ∧
    (let t : Tensor := { tensor7 with rcd := rcd [(320, 1), (768, 0x40010400)] }
     let s : State := { portState (.publish 7 42 0) false with tensors := [t], phys := tables ++ bytesFrom 0x10400 [2] }
     let g := (s.setTensor { t with pubs := [42] }).modB beginItem
     s.tensor 7 = some t ∧ t.pubs = [] ∧ headStarted s.b = false ∧ (40 : DWord).toNat ≤ t.p ∧ t.p < (42 : DWord).toNat ∧
       (42 : DWord).toNat ≤ t.scur ∧ t.floor ≤ t.p ∧ rNrep t.r = 1 ∧ s.b.trctl.getLsbD 3 = false ∧
       okP (rdVA g t.via g.b (rRlist t.r) (8 * rNrep t.r)) (fun y => (chunks 8 y.2).length == 1 &&
         (chunks 8 y.2).all fun e => (replicaEntry e).1 == s.pkg) = true) := by
  refine ⟨⟨⟨_, atHead_of rfl rfl⟩, rfl, by decide +kernel, by decide +kernel, by decide +kernel, by decide +kernel, by decide +kernel,
    exists_ok (by decide +kernel), exists_ok (by decide +kernel), by decide +kernel⟩,
    ⟨⟨_, atHead_of rfl rfl⟩, by decide +kernel, by decide +kernel, by decide +kernel, by decide +kernel, by decide +kernel, by decide,
      by decide +kernel, by decide +kernel⟩,
    ⟨by decide +kernel, rfl, rfl, by decide, by decide +kernel, rfl, exists_ok (by decide +kernel), by decide +kernel⟩,
    by decide +kernel⟩

/-- A replica of set 0, an idle unregistered tensor, and one with a checkpoint of step 42 in slot 1. -/
def replica : Tensor := { tensor7 with rcd := rcd [(11, 1)] }
def checkpointed : Tensor := { tensor7 with rcd := rcd ckp, ckpt := some { step := 42, slot := 1, who := ⟨0, 0, 0⟩ } }
/-- The accesses of CHECKPOINT_COMPLETE before the record is written, and the place of the record. -/
def checkpoints (t : Tensor) (s : State) : Bool :=
  okP (storedRows t 0 (rWlen t.r) s) fun y =>
    match wrVA y.1 t.via y.1.b (rSlot t.r 1 + 256) ((t.back 42 0 y.2).flatMap wordBytes) with
    | (s2, none) => okP (rdVA s2 t.via s2.b (rSlot t.r 1 + 256) (256 * (rWlen t.r + rOptRows t.r))) fun z =>
        (wrVA z.1 t.via z.1.b (rSlot t.r 1) (bytesOfNat 256 0)).2.isNone
    | _ => false

theorem witness_StockpotActs :
    (let s := weights { tensor7 with unreg := true }
     s.tensor 7 = some { tensor7 with unreg := true } ∧ tensorIdle { tensor7 with unreg := true } s = true) ∧
    (let s := weights replica
     s.tensor 7 = some replica ∧ replica.unreg = false ∧ rRep replica.r = true ∧ BitVec.ofNat 32 (rRset replica.r) = (0 : Word) ∧
       replica.diverged = false ∧ replica.scur + 1 ≠ (44 : DWord).toNat ∧ replica.scur + 1 = (43 : DWord).toNat ∧
       applies replica (3 :: List.replicate 63 0) s = true) ∧
    (let s := portState (.publish 7 42 0x85) true
     s.tensor 7 = some tensor7 ∧ (s.b.unit 3).fifo = [{ item := .publish 7 42 0x85, seq := 4, started := true }]) ∧
    (let s := weights checkpointed
     s.tensor 7 = some checkpointed ∧ checkpointed.ckpt = some { step := 42, slot := 1, who := ⟨0, 0, 0⟩ } ∧ checkpointed.ckSeq + 1 < 2 ^ 64 ∧
       checkpoints checkpointed s = true) := by
  refine ⟨?_, ?_, ?_, ?_⟩ <;> decide +kernel

/-! ### The pantry, records and dispatch -/

def name1 : PName := ⟨0x42, 7, 3⟩
def pe (st : PState) (maker : Option Party) (waiters : List Party) (holds : Nat) : PEntry :=
  { slice := (placeOf name1 0).1, set := (placeOf name1 0).2, way := 0, st := st, fid := 0x42, dig := 7, ver := 3, gen := 5
    maker := maker, waiters := waiters, holds := holds }
def stocked (e : PEntry) (ms : List Memb) : State := { withB fun b => { b with membs := ms } with pantry := [e] }
def claimF : EF := { fe with d := 12, a := .lit 0x42, b := .imm 7, c := .imm 3 }
def claimR (s : State) : Nat := (claimStep (.bur 0 0) name1 0 (entered (fwdEF (.claim claimF) claimF false true false (quad 12) true s.b) s)).2.1
def ticket1 : Nat := (pe .making none [] 0).ticket
def memb1 (k : MKind) (n : Nat) : Memb := (pe .making none [] 0).memb k n
def ticketF : EF := { fe with d := 12, a := .lit (BitVec.ofNat 32 ticket1), b := .lit2 0x40000000, c := .imm 8 }
def full : State :=
  { base with pantry := (List.range 8).map fun k => { pe .making none [] 0 with way := k, fid := BitVec.ofNat 32 (k + 100) } }

theorem witness_PantryClaims :
    base.b.rpMode = 0 ∧ name1.fid.toNat < 0xFFFFFF00 ∧ base.b.unitFree = true ∧ base.b.membs = [] ∧ base.named name1 0 = none ∧
    claimR base = 0 ∧ claimR (stocked (pe .making (some (.bur 9 0)) [] 0) []) = 1 ∧ claimR (stocked (pe .ready none [] 3) []) = 2 ∧
    claimR full = 3 ∧ (pe .ready none [] 3).holds ≠ 65535 ∧ ticket1 < 2 ^ 30 ∧ full.named name1 0 = none ∧
    (stocked (pe .making (some (.bur 9 0)) [] 0) []).named name1 0 = some (pe .making (some (.bur 9 0)) [] 0) ∧
    base.waiterRecords 0 < 16384 := by decide +kernel

theorem witness_PantryReady :
    Ready (fwdEF (.claim claimF) claimF false true false (quad 12) true base.b) base ∧
    Ready (fwdEF (.clwait ticketF) ticketF false false false (quad 12) true base.b) base ∧
    Ready (fwdEF (.fulfil ticketF) ticketF false true false [12] false base.b) base ∧
    Ready (fwdEF (.abandon ticketF) ticketF false false false [12] false base.b) base ∧
    Ready (fwdEF (.clhold ticketF) ticketF false false false [12] false base.b) base ∧
    Ready (fwdEF (.clfree ticketF) ticketF false false false [12] false base.b) base := by
  refine ⟨?_, ?_, ?_, ?_, ?_, ?_⟩ <;> exact ready_idle (by decide) (by decide) rfl rfl (by decide)

theorem witness_PantryInstructionsComplete :
    (∀ k ∈ [MKind.waiting, .pendMaker, .pendReady, .maker],
      let s := stocked (pe .making (some (.bur 0 0)) [] 0) [memb1 k 0]
      idle s = true ∧ membOf (s.b.op32 ticketF.a) s = some (memb1 k 0)) ∧
    (memb1 .maker 0).ticket < 2 ^ 30 ∧ (base.b.op64 ticketF.b).toNat < 2 ^ 57 ∧ 0x40000000 ≤ (base.b.op64 ticketF.b).toNat ∧
    (let s := stocked (pe .ready none [] 3) [memb1 .hold 2]
     s.ticketed (s.b.op32 ticketF.a) = some (pe .ready none [] 3) ∧ s.b.unitFree = true ∧ (pe .ready none [] 3).holds < 65535 ∧
       (memb1 .hold 2).ticket = (pe .ready none [] 3).ticket) ∧
    (let s := stocked (pe .making (some (.bur 0 0)) [.bur 1 0] 0) [memb1 .maker 0]
     s.find 0 0 = some s.b ∧ s.b.membs = [memb1 .maker 0] ∧ (s.pent (pe .making none [] 0).slice (pe .making none [] 0).set 0).waiters = [.bur 1 0]) := by
  decide +kernel

def record (op : Nat) (more : List (Nat × Nat)) : Rec512 :=
  BitVec.ofNat 512 (((0, op) :: more).foldl (fun n p => n ||| p.2 <<< p.1) 0)
/-- A root region's RCB at physical address 0x5000, with every budget the device has. -/
def rcb : Nat :=
  [(0, 0x0C645243), (32, 1), (192, 0x1000), (256, 0x40060000), (619, 640), (629, 1280), (658, 0xFFFFF), (678, 0x3FFFFFF), (729, 0x3FFFF),
    (747, 0x1FFFFF), (832, 0x1FFF)].foldl (fun n p => n ||| p.2 <<< p.1) 0
/-- An image at VA 0x40007000: its header, and HALT as its text. -/
def header : Nat := [(0, 0x0C644B48), (32, 1), (64, 4)].foldl (fun n p => n ||| p.2 <<< p.1) 0
def imaged (more : Memory) : State :=
  { base with phys := tables ++ bytesFrom 0x5000 (bytesOfNat 256 rcb) ++ bytesFrom 0x7000 (bytesOfNat 128 header ++ wordBytes 0x381000F4) ++ more
              tlb := [leafC, leaf], b := { placed 0 0 with status := .unbound } }
/-- The region of that RCB. -/
def rgn5 : Region :=
  { rgn with rcb := 0x5000, chain := [0x5000], evq := 0x40060000, bud := [(0x5000, [0, 640, 1280, 0xFFFFF, 0x3FFFFFF, 0x3FFFF, 0x1FFFFF])] }
def launch1 (more : List (Nat × Nat)) : Rec512 := record 1 ([(64, 0x5000), (128, 0x40007000), (256, 0x10000)] ++ more)

theorem witness_RecordsComplete :
    recordOk' (record 0 [(32, 9)]) = true ∧ recordOk' (record 7 []) = false ∧ recordOk' (record 2 [(64, 0x40000000), (128, 0x1000)]) = true ∧
    recordOk' (record 3 [(256, 1)]) = true ∧ recordOk' (record 4 [(64, 0x5000)]) = true ∧ recordOk' (record 6 [(64, 0x5000)]) = true ∧
    base.readRegion 0x5000 = none ∧ (imaged []).readRegion 0x5000 = some rgn5 ∧
    (imaged []).faultTab = [] ∧ two.b.bound = true ∧ two.b.status ≠ .frozen ∧ two.b.status ≠ .halted ∧
    (let e : FaultEnt := { die := 0, asn := 3, page := 0x40001, waiters := [(0, 0)], reported := true }
     let s : State := { withB fun b => { b with pw := true, status := .pageWait } with faultTab := [e] }
     s.faultTab = [e] ∧ s.pfrN = 0 ∧ s.find 0 0 = some s.b ∧ s.b.pw = true ∧ 0x40001000 ≤ 4096 * e.page ∧ 4096 * e.page + 4096 ≤ 0x40002000 ∧
       4096 * e.page < 0x40001100) ∧
    (let s : State := { withB fun b => { b with region := { b.region with fd := 9 }, launch := 4 } with
       others := [placed 0 1], launches := [{ id := 4, q := 0, op := 1, tag := 0, left := 1 }] }
     (∃ l ∈ s.launches, l.op = 1 ∧ ∃ b ∈ s.all, b.launch = l.id ∧ b.placed = true ∧ b.region.fd = 9 ∧ b.status ≠ .halted) ∧
       s.find 0 1 = some (placed 0 1) ∧ ∀ b ∈ s.all, b.core = 0 → b.bur = 1 → b.region.fd ≠ 9) := by decide +kernel

theorem witness_LaunchesComplete :
    recordOk' (launch1 []) = true ∧ recordOk' (record 1 [(256, 0)]) = false ∧ base.readRegion (recP0 (launch1 [])) = none ∧
    (let s := imaged []
     let g := rgn5
     let v : Via := Via.dev g 0
     s.readRegion 0x5000 = some g ∧ s.resumesFirst g.prio = false ∧ (s.rcbAt 0x5000).isSome = true ∧
       okP (readImage v (recP1 (launch1 [])) 128 s) (fun y => headerOk (natOfBytes y.2) && okP (readTable v (recP1 (launch1 []))
         (hdTlen (natOfBytes y.2)) (hdDcnt (natOfBytes y.2)) y.1) fun z => rowTableOk (hdBmask (natOfBytes y.2)) [] z.2 &&
           okP (reserve g (natOfBytes y.2) 0 1 z.1) fun ps => ps == [(0, 0)]) = true ∧
       okP (readImage v 0x40006000 128 s) (fun y => !headerOk (natOfBytes y.2)) = true ∧
       rowTableOk 1 [] [0, 0] = false ∧ okP (reserve g header 0 1 two) (fun _ => true) = false ∧
       recEvok (launch1 []) = false) ∧
    (let x : Todo := { ask := launch1 [], node := 0, region := rgn5, hdr := some header, want := [0] }
     ({ imaged [] with launches := [{ id := 4, q := 0, op := 1, tag := 0, todo := some x }] } : State).roomKept = true) ∧
    base.roomKept = false ∧
    (let l : Launch := { id := 4, q := 0, op := 1, tag := 0, region := rgn, list := some (0x40003000, 0) }
     let s : State := { imaged [] with launches := [l] }
     s.launches.find? (·.id == 4) = some l ∧ okP (readImage (Via.dev l.region 0) (0x40004000 + 64 * 0) 64 s) (fun y => recOp (BitVec.ofNat 512 (natOfBytes y.2)) == 0) = true ∧
       okP (readImage (Via.dev l.region 0) (0x40005000 + 64 * 0) 64 s) (fun y => recOp (BitVec.ofNat 512 (natOfBytes y.2)) != 1) = true) := by
  decide +kernel

/-- Core 0 is full; a burner evicted from it waits to be bound again. -/
def crowded : State :=
  { imaged [] with b := two.b, others := two.others, saved := [{ placed 0 0 with status := .suspended, auto := true }] }

/-- Save areas fit wherever no region has a budget over them. -/
theorem areas_fit {s : State} (ks : List (Nat × Nat)) (h : ∀ b ∈ s.all, b.region.chain = []) : areasFit ks s = true := by
  simp only [areasFit, List.all_eq_true]
  intro b hb pa hp
  rw [h b (List.mem_filter.mp hb).1] at hp
  cases hp

theorem fits_evictRoom {g : Region} {h first count id : Nat} {s : State} (hc : ∀ b ∈ s.all, b.region.chain = [])
    (ok : okP (reserve g h first count (s.without ((s.all.filter (mayEvict g s)).map fun b => (b.core, b.bur)))) (fun _ => true) = true) :
    ∃ ks, evictRoom g h first count id s = some ks := by
  obtain ⟨ps, hp⟩ := exists_any ok
  unfold evictRoom
  simp only [areas_fit _ hc, Bool.and_true, hp, Bool.not_true, Bool.false_eq_true, if_false, if_true]
  split <;> exact ⟨_, rfl⟩

theorem witness_LaunchesWait :
    crowded.readRegion 0x5000 = some rgn5 ∧
    (let l : Launch := { id := crowded.nextLaunch, q := 0, op := 1, tag := 0, rcb := 0x5000, region := rgn5 }
     let opened : State := { crowded with launches := crowded.launches ++ [l], nextLaunch := crowded.nextLaunch + 1 }
     opened.resumesFirst rgn5.prio = true ∧ (resumeSome opened).resumesFirst rgn5.prio = true) ∧
    (let g := { rgn5 with prio := 1 }
     let s : State := { crowded with saved := [] }
     s.resumesFirst g.prio = false ∧ recEvok (launch1 [(8, 1)]) = true ∧ okP (reserve g header 0 1 s) (fun _ => true) = false ∧
       ∃ ks, evictRoom g header 0 1 s.nextLaunch s = some ks) :=
  ⟨by decide +kernel, by decide +kernel, by decide +kernel, by decide +kernel, by decide +kernel,
    fits_evictRoom (by decide +kernel) (by decide +kernel)⟩

/-- A save area is never empty: where DRAMQ is 0 it has no room. -/
theorem area_full {k : SaveKind} {s : State} {pa : Nat} (hc : pa ∈ s.b.region.chain) (h0 : s.b.region.budget pa 3 = 0) :
    areaFits k s = false := by
  have hl : (saveImage k s).length ≠ 0 := by simp [saveImage, bytesOfNat]
  simp only [areaFits, List.all_eq_false]
  exact ⟨pa, hc, by rw [h0]; simp only [decide_eq_true_eq]; omega⟩

theorem witness_DispatchCompletes :
    (let b : Burner := { Burner.fresh 0 0 with status := .starting, tlen := 4, image := 0x40007000, region := rgn, launch := 4 }
     let s : State := { imaged [] with b := b, slots := [(0, 1)], launches := [{ id := 4, q := 0, op := 1, tag := 0, toBind := 1, left := 1 }] }
     s.find 0 0 = some b ∧ (tabGet 0 s.slots 0).extractLsb' 0 2 = 1 ∧
       okP (loadImage b (fun _ => true) (clearPartition b { s with mail := tabSet s.mail 0 (BitVec.ofNat 256
         (b.image.toNat + b.arg.toNat * 2 ^ 64 + b.rank * 2 ^ 128 + b.count * 2 ^ 192)) })) (fun y => y.2.2.length == 3) = true ∧
       s.launches.find? (·.id == 4) = some { id := 4, q := 0, op := 1, tag := 0, toBind := 1, left := 1 }) ∧
    (∀ st ∈ [BStat.halted, .frozen, .running], (withB fun b => { b with status := st }).find 0 0 = some (withB fun b => { b with status := st }).b ∧
      (withB fun b => { b with status := st }).b.engineBusy = false) ∧
    (landing bcast []).b.engineBusy = false ∧ base.b.collBusy = false ∧ (landing bcast []).b.collBusy = true ∧ (portState (.publish 7 42 0) true).b.engineBusy = true ∧
    areaFits .eviction (base.focus base.b.core base.b.bur) = true ∧
    (let s := withB fun b => { b with region := rgn5 }
     areaFits .eviction (s.focus s.b.core s.b.bur) = false) := by
  refine ⟨?_, ?_, ?_, ?_, ?_, ?_, by decide +kernel, area_full (pa := 0x5000) (by decide) (by decide)⟩ <;> decide +kernel

/-- A queue whose two rings hold 16 records, enabled, and host memory of a gigabyte. -/
def setup1 : BitVec 256 := BitVec.ofNat 256 (0x1000 * 2 ^ 64 + 2 ^ 192 + 4 * 2 ^ 224 + 4 * 2 ^ 229)
def queuing (w : WQ) : State := { base with hwin := 0x40000000, wqs := [w], acceptDone := true, accept := 1 }

theorem witness_WorkQueuesComplete :
    (let w : WQ := { id := 5, setup := setup1, live := setup1, posted := 3, cpos := 15, head := 2, tail := 4 }
     let s := queuing w
     s.wq 5 = w ∧ w.held = [] ∧ w.posted < 2 ^ (w.live.extractLsb' 229 5).toNat ∧ wqIrqa w = 0 ∧
       s.physKind (0x800000000000 + (wqCbase w + 16 * w.cpos)) = some .host ∧ s.phys.wf = true ∧ 2 ^ (w.live.extractLsb' 229 5).toNat ≤ w.cpos + 1 ∧
       s.stState = 1 ∧ w.setup.getLsbD 192 = true ∧ w.stopped = false ∧ ((18 : Word) - w.head).toNat ≤ 2 ^ (w.setup.extractLsb' 224 5).toNat ∧
       2 ^ (w.setup.extractLsb' 224 5).toNat < ((19 : Word) - w.head).toNat) ∧
    (let s := queuing { id := 5 }
     (s.wq 5).setup.getLsbD 192 = false ∧ setup1.getLsbD 192 = true ∧ setupOk setup1 s = true ∧ setupOk setup1 base = false ∧
       (0 : BitVec 256).getLsbD 192 = false) := by decide +kernel

theorem witness_CoreActsComplete :
    (withB fun b => { b with sbuf := [⟨8, 7, 0⟩] }).b.sbuf = [⟨8, 7, 0⟩] ∧ base.mesh.wf = true ∧
    (let s := imaged []
     0x40000000 ≤ (0x40007000 : DWord).toNat ∧ (0x40007000 : DWord).toNat < 2 ^ 57 ∧
       okP (missWalk s { Via.dev rgn 0 with core := some 0 } true 0x40007000 1) (fun y => y.2.1 == 0x7000) = true ∧
       okP (missWalk s { Via.dev rgn 0 with core := some 0 } true 0x80000000 1) (fun _ => true) = false) ∧
    (let s : State := { (withB fun b => { b with ev := 2, lend := true, front := false }) with
       others := [{ placed 0 1 with status := .running, front := true }] }
     (lendOver 0 s).isSome = true ∧ lendOver 1 s = none) ∧
    (let s := withB fun b => { b with dctl := 0x100 }
     s.b.dctl.getLsbD 8 = true ∧ s.b.te = false ∧ s.b.skipStop = false ∧ s.b.pfx = none ∧ s.b.pc = s.b.dpc ∧ s.b.ql = [] ∧ s.b.qx = [] ∧
       s.b.qs = [] ∧ s.b.dDm = false) ∧
    (withB fun b => { b with dctl := 0x900 }).b.dDm = true ∧ (withB fun b => { b with dpc := 4 }).b.pc ≠ 4 ∧
    (let s := withB fun b => { b with status := .held }
     s.b.status = .held ∧ s.b.dctl.getLsbD 10 = false) := by decide +kernel

/-- What a start step finds is a free value (log 11): either case of its clause holds of it. -/
theorem witness_PowerErrorsAndStarts :
    (let s : State := { base with svn := 2, minSvn := 1 }
     s.stState = 1 ∧ s.minSvn.toNat < s.svn.toNat ∧ (vget s.b.psel 3).getLsbD 31 = false ∧ s.phys.wf = true) ∧
    base.svn.toNat ≤ base.minSvn.toNat ∧ (bootImage = none ∨ ∃ d v, bootImage = some (d, v)) ∧
    (let s : State := { base with stState := 0, stKind := 2, stStep := 8 }
     (∀ k, (h : k < 16) → s.keys[k] ≠ none) ∧ (∃ k, ∃ h : k < 16, ({ s with keys := Vector.replicate 16 none } : State).keys[k] = none)) := by
  refine ⟨by decide, by decide, ?_, by decide, 0, by decide, by decide⟩
  cases h : bootImage with
  | none => exact .inl rfl
  | some p => exact .inr ⟨p.1, p.2, rfl⟩

theorem witness_HostWindowCompletes :
    base.stState = 1 ∧ base.acceptDone = false ∧ (queuing { id := 0 }).acceptDone = true ∧ (0x40000000 : DWord).toNat % 2 ^ 30 = 0 ∧
    (0x800000000000 : DWord).toNat ≤ 2 ^ 47 ∧ 2 ^ 47 < (0x800040000000 : DWord).toNat ∧ (0x40000001 : DWord).toNat % 2 ^ 30 ≠ 0 ∧
    base.astat ≠ 1 ∧ ({ base with stState := 2 } : State).stState ≠ 1 ∧ base.hostVia = none ∧
    (let s : State := { imaged [] with hrcb := 0x5000 }
     let v := Via.dev rgn5 0
     let u := v.ofHost
     let bs : List Byte := [1, 2, 3, 4, 5, 6, 7, 8]
     s.hostVia = some v ∧ hostAccessOk 0x7000 8 = true ∧ hostAccessOk 0x40000000 bs.length = true ∧ hostAccessOk 4 8 = false ∧
       okP (rdVA s u s.b (2 ^ 30 + 0x7000) 8) (fun y => y.2.length == 8) = true ∧
       (∃ c a, rdVA s u s.b (2 ^ 30 + 0x40000000) 8 = .error (.cause c, a)) ∧
       (wrVA s u s.b (2 ^ 30 + 0x7000) bs).2.isNone = true ∧ ∃ c a n, (wrVA s u s.b (2 ^ 30 + 0x40000000) bs).2 = some (.cause c, a, n)) ∧
    base.faultTab = [] ∧ (3 : DWord).getLsbD 2 = false ∧
    ({ base with astat := 1 } : State).astat = 1 := by
  refine ⟨by decide, by decide, by decide, by decide, by decide, by decide, by decide, by decide, by decide, by decide +kernel,
    ⟨by decide +kernel, by decide, by decide, by decide, by decide +kernel, ⟨_, _, rfl⟩, by decide +kernel, ⟨_, _, _, rfl⟩⟩, rfl, by decide,
    by decide⟩

/-- Whether a flit's tag is the right one is a free value (log 9): either case of the clauses holds of it. -/
theorem witness_FabricCompletes :
    (let p : Port := { id := 3, up := true }
     let f : BitVec 2048 := BitVec.ofNat 2048 0x100
     let s : State := { base with ports := [p] }
     s.ports.find? (·.id == 3) = some p ∧ flitType f = 1 ∧ p.seqOf f = p.rx ∧ (p.flitFails s.pkg f = true ∨ p.flitFails s.pkg f = false) ∧
       flitDpkg f = s.pkg ∧ p.retry = false ∧ (p.tx - p.since).toNat < 2 ^ 40 ∧ p.fails < 8 ∧ flitType (BitVec.ofNat 2048 0x200) = 2 ∧
       p.seqOf (BitVec.ofNat 2048 0x1000000000100) ≠ p.rx) ∧
    (let s : State := { base with ports := [{ id := 3, up := true, peer := 1 }] }
     flitDpkg (BitVec.ofNat 2048 0x800100) ≠ s.pkg ∧ (s.port 3).replay.length < 512 ∧
       (s.routeTo 2 = none ∨ ∃ k, s.routeTo 2 = some k)) ∧
    (let p : Port := { id := 3, up := true, rx := 1, tx := 2 ^ 40, fails := 8 }
     ({ base with ports := [p] } : State).ports.find? (·.id == 3) = some p ∧ 2 ^ 40 ≤ (p.tx - p.since).toNat ∧ p.replay.length < 512 ∧ 8 ≤ p.fails) ∧
    (let p : Port := { id := 3 }
     base.ports.find? (·.id == 3) = some p ∧ p.up = false) := by
  refine ⟨⟨rfl, by decide +kernel, by decide +kernel, ?_, by decide +kernel, rfl, by decide, by decide, by decide +kernel,
    by decide +kernel⟩, ⟨by decide +kernel, by decide +kernel, ?_⟩, by decide +kernel, by decide +kernel⟩
  · cases Port.flitFails { id := 3, up := true } _ (BitVec.ofNat 2048 0x100) <;> simp
  · cases State.routeTo _ 2 <;> simp

/-- The words of an instruction at the program counter. -/
def fetching (ws : List Word) (p : Option (BitVec 24)) : State :=
  withB fun b => { b with pfx := p, tlen := 32, text := Memory.setBytes [] 0 (ws.flatMap wordBytes) }

theorem witness_StepRunsTheDecodedInstruction :
    (let s := fetching [0x18A04300] none
     s.b.status = .running ∧ s.b.front = true ∧ s.b.bypass = [] ∧ s.b.pcStops = false ∧ s.sched = [0] ∧
       decode (s.b.textAt s.b.pc.toNat) = .ok (.add 3 (.reg 1) (.imm 5), 1)) ∧
    decode ((fetching [] none).b.textAt 0) = .error .illegalOpcode ∧
    (let s := fetching [0x0005E0FA, 0x18A04300] (some 0x0005E0)
     s.b.pfx = some 0x0005E0 ∧ decode (s.b.textAt (s.b.pc.toNat + 4)) = .ok (.add 3 (.reg 1) (.imm 5), 1) ∧
       (pfxCause 0x0005E0 (.add 3 (.reg 1) (.imm 5))).isSome = true) ∧
    (let s := fetching [0x000258FA, 0x78208410] (some 0x000258)
     decode (s.b.textAt (s.b.pc.toNat + 4)) = .ok (.fcvt 4 (.reg 2) 1, 1) ∧ pfxCause 0x000258 (.fcvt 4 (.reg 2) 1) = none) ∧
    decode ((fetching [0x0005E0FA] (some 0x0005E0)).b.textAt 4) = .error .illegalOpcode :=
  ⟨⟨rfl, rfl, rfl, by decide, rfl, rfl⟩, rfl, ⟨rfl, rfl, by decide⟩, ⟨rfl, by decide⟩, rfl⟩

theorem witness_EncodingRoundTrip :
    (Instr.addw 2 (.reg 4) (.lit2 0xFFFFFFFF)).WellFormed = true ∧ encode (.addw 2 (.reg 4) (.lit2 0xFFFFFFFF)) ≠ [] ∧
    (Instr.vld { fm with wsel := 3, psel := 1, a := .lit 1, b := .lit 2, d := 2047 }).WellFormed = true ∧
    encode (.vld { fm with wsel := 3, psel := 1, a := .lit 1, b := .lit 2, d := 2047 }) ≠ [] ∧
    (Instr.pfx 0x0001DB).WellFormed = true ∧ encode (.pfx 0x0001DB) ≠ [] := by decide

theorem witness_StepKeepsMemory :
    State.reset.memWf = true ∧ step { State.reset with sched := [4] } = .next { State.reset with cycle := 1 } := ⟨by decide, rfl⟩

/-! ### WREG.restore: a slot's commit record holds a SHA-3 digest, whose value is open (log 9), so its witness reads open bytes -/

/-- Bytes in memory from an address on, before what else is there. -/
def listed : Nat → List Byte → Memory → Memory
  | _, [], m => m
  | a, b :: bs, m => (a, b) :: listed (a + 1) bs m
theorem listed_lt : ∀ (bs : List Byte) (a x : Nat) (m : Memory), x < a ∨ a + bs.length ≤ x → (listed a bs m).get x = m.get x
  | [], _, _, _, _ => rfl
  | b :: bs, a, x, m, h => by
    rw [listed, Memory.get, if_neg (by simp at h; omega), listed_lt bs (a + 1) x m (by simp at h ⊢; omega)]
theorem listed_get : ∀ (bs : List Byte) (a i : Nat) (m : Memory) (h : i < bs.length), (listed a bs m).get (a + i) = bs[i]
  | b :: bs, a, 0, m, _ => by simp [listed, Memory.get]
  | b :: bs, a, i + 1, m, h => by
    rw [listed, Memory.get, if_neg (by omega), show a + (i + 1) = a + 1 + i by omega, listed_get bs (a + 1) i m (by simpa using h)]
    rfl

/-- The commit record of a slot of one row of zeros, at step 44 and SEQ 1. -/
def digest : BitVec 256 := Config.sha3 (List.replicate 256 0)
def slotHead : List Byte := bytesOfNat 32 (0x7C640C4B + 2 ^ 32 + 2 ^ 64 + 44 * 2 ^ 128 + 2 ^ 192)
def slotBytes : List Byte := slotHead ++ (List.range 32).map fun k => digest.extractLsb' (8 * k) 8
def slotRest : Memory := tables ++ bytesFrom 0x8000 (bytesOfNat 128 (rcd ckp).toNat)
def restorable : State := { mapped [] with phys := listed 0x30000 slotBytes slotRest, accept := 0x1FF }
def restoreF : EF := { fe with d := 9, a := .lit2 0x40008000, unit := 2 }
def restoreW : Fwd := fwdEF (.wregRestore restoreF) restoreF true false false [9] false restorable.b
def restoring : State := (entered restoreW restorable).drain

theorem natOfBytes_cons (b : Byte) (bs : List Byte) : natOfBytes (b :: bs) = b.toNat + 256 * natOfBytes bs := rfl
theorem natOfBytes_append (xs ys : List Byte) : natOfBytes (xs ++ ys) = natOfBytes xs + 2 ^ (8 * xs.length) * natOfBytes ys := by
  induction xs with
  | nil => simp [natOfBytes]
  | cons x xs ih =>
    rw [List.cons_append, natOfBytes_cons, natOfBytes_cons, ih, List.length_cons, Nat.mul_add 8, Nat.pow_add]
    simp [Nat.mul_add, Nat.mul_assoc, Nat.mul_left_comm, Nat.add_assoc]
theorem natOfBytes_field (D : BitVec 256) : ∀ n k, natOfBytes ((List.range' k n).map fun k => D.extractLsb' (8 * k) 8) =
    D.toNat / 2 ^ (8 * k) % 2 ^ (8 * n)
  | 0, k => by simp [natOfBytes, Nat.mod_one]
  | n + 1, k => by
    rw [List.range'_succ, List.map_cons, natOfBytes_cons, natOfBytes_field D n (k + 1), BitVec.extractLsb'_toNat, Nat.shiftRight_eq_div_pow,
      Nat.mul_add 8 k 1, Nat.pow_add, ← Nat.div_div_eq_div_mul, Nat.mul_add 8 n 1, Nat.pow_add, Nat.mul_comm (2 ^ (8 * n)), Nat.mod_mul]

theorem slot_nat : natOfBytes slotBytes = 0x7C640C4B + 2 ^ 32 + 2 ^ 64 + 44 * 2 ^ 128 + 2 ^ 192 + 2 ^ 256 * digest.toNat := by
  have h : natOfBytes slotHead = 0x7C640C4B + 2 ^ 32 + 2 ^ 64 + 44 * 2 ^ 128 + 2 ^ 192 := by decide +kernel
  rw [slotBytes, natOfBytes_append, h, show slotHead.length = 32 from rfl, List.range_eq_range', natOfBytes_field,
    Nat.mod_eq_of_lt (by simpa using digest.isLt)]
  simp

/-- A read inside one row through the leaf of `mapped`. -/
theorem read_leaf {s : State} {v : Via} (hd : v.die = 0) (hv0 : v.core = some 0) (hh : v.host = false) (ha : v.region.asn = 0)
    (ht : s.tlb = [leafC, leaf]) (hb0 : s.b.bypass = []) (hp : s.poison = [])
    (hr : s.rowKey = []) (htr : s.trail = none) {va n : Nat} (h1 : 0x40000000 ≤ va) (h2 : va < 0x80000000) (hn : 0 < n) (hm : n ≤ 256 - va % 256) :
    rdVA s v s.b va n = .ok (s, (List.range n).map fun i => s.phys.get (va - 0x40000000 + i)) := by
  have ht' : translate s v false va n = .ok (s, va - 0x40000000, 0x1C7) := by
    have hq : va / 2 ^ 30 = 1 := by omega
    have hb : leafCheck s v ⟨true, []⟩ va 0x1C7 (va % 2 ^ 30) = .ok () := by
      have : s.physKind (va % 2 ^ 30) = some .lpddr := by simp [State.physKind]; omega
      simp only [leafCheck, this]
      simp [pteR, pteWch, Access.writes, show (PKind.lpddr == PKind.control) = false from rfl,
        show (PKind.lpddr == PKind.cxl) = false from rfl]
    have hu : useBypass v ⟨true, []⟩ va 0x1C7 s = s := by simp [useBypass, hb0]
    have hf : ptePfn 0x1C7 + va % 2 ^ 30 = va % 2 ^ 30 := by simp [ptePfn]
    have hc : ([leafC, leaf].find? fun t => t.inTlb (some 0) v.die && t.serves v.region.asn va false) = some leafC := by
      rw [List.find?_cons_of_pos]
      simp [leafC, leaf, TlbEnt.inTlb, TlbEnt.serves, hd, ha]
      omega
    show translateBy s v ⟨true, []⟩ va = _
    unfold translateBy
    simp only [State.tlbHit]
    rw [ht, hv0]
    dsimp only [Option.isSome, Access.writes, List.isEmpty]
    rw [if_pos rfl, Bool.not_true, hc]
    dsimp only [leafC, leaf]
    rw [hf, hb]
    dsimp only
    rw [hu, show va % 2 ^ 30 = va - 0x40000000 by omega]
  have hl : locate s v s.b false va n = .ok (s, .phys (va - 0x40000000) 0) := by
    have hv : vaBad va = false := by simp [vaBad]; omega
    have hk : isControl (va - 0x40000000) = false := by simp [isControl]; omega
    rw [Sys2Proof.Machine.translate] at ht'
    have hw : s.walkFinds v (.plain false va n) va = none := by simp [State.walkFinds, hp]
    rw [locate, locateBy, hv, hw]
    simp only [Bool.false_eq_true, ↓reduceIte, ht', hk, hp, hh, Bool.false_and]
    rw [if_neg (by omega)]
    simp [pteKey]
  have hmin : min n (256 - va % 256) = n := by omega
  obtain ⟨k, hk⟩ : ∃ k, n / 256 + 2 = k + 2 := ⟨n / 256, rfl⟩
  have hfu : rowFuel s n = n / 256 + 2 := by simp [rowFuel, htr]
  have hrd : s.rowDone false va n [] = none := by simp [State.rowDone, htr]
  rw [rdVA, hfu, hk, readVA, if_neg (by omega)]
  simp only [hmin, hrd, hl, Nat.sub_self]
  rw [readVA]
  simp only [↓reduceIte, List.append_nil, State.locBytes]
  congr 2
  apply List.map_congr_left
  intro i hi
  rw [List.mem_range] at hi
  have hk : isControl (va - 0x40000000 + i) = false := by simp [isControl]; omega
  have hw : s.writerKey ((va - 0x40000000 + i) / 256) = s.keyNow 0 := by
    rw [State.writerKey, hr, if_pos (by omega)]; rfl
  rw [State.physByte, hk, hw]
  simp

theorem restoring_phys : restoring.phys = listed 0x30000 slotBytes slotRest := rfl
theorem slotBytes_length : slotBytes.length = 64 := rfl
theorem read_restoring {va n : Nat} (h1 : 0x40000000 ≤ va) (h2 : va < 0x80000000) (hn : 0 < n) (hm : n ≤ 256 - va % 256)
    (h : va + n ≤ 0x40030000 ∨ 0x40030040 ≤ va) :
    rdVA restoring restoring.viaB restoring.b va n = .ok (restoring, (List.range n).map fun i => slotRest.get (va - 0x40000000 + i)) := by
  rw [read_leaf rfl rfl rfl rfl rfl rfl rfl rfl rfl h1 h2 hn hm, restoring_phys]
  congr 2
  apply List.map_congr_left
  intro i hi
  rw [List.mem_range] at hi
  rw [listed_lt _ _ _ _ (by rw [slotBytes_length]; omega)]

theorem restore_read : readRecord 0x40008000 restoring = .ok (restoring, (rcd ckp).toNat, 0, none) := by
  have hn : natOfBytes ((List.range 128).map fun i => slotRest.get (0x40008000 - 0x40000000 + i)) = (rcd ckp).toNat := by decide +kernel
  have ho : recordOk (rcd ckp).toNat = true := by decide +kernel
  have he : rExm (rcd ckp).toNat = false := by decide +kernel
  have hz : rNrep (rcd ckp).toNat = 0 := by decide +kernel
  have hd : homeDie restoring restoring.b.region (rcd ckp).toNat = some 0 := by decide +kernel
  rw [readRecord, read_restoring (by omega) (by omega) (by omega) (by omega) (by omega)]
  have hr : rangeOk 0x40008000 128 = true := by decide
  simp [hn, ho, he, hz, hd, hr, readReplicas]

theorem slot_read : readSlot restoring.viaB 0x40030000 restoring = some ⟨1, 44, 1, 0, false⟩ := by
  have h64 : rdVA restoring restoring.viaB restoring.b 0x40030000 64 = .ok (restoring, slotBytes) := by
    rw [read_leaf rfl rfl rfl rfl rfl rfl rfl rfl rfl (by omega) (by omega) (by omega) (by omega), restoring_phys]
    congr 2
  have hds : rdVA restoring restoring.viaB restoring.b (0x40030000 + 256) (256 * (1 + 0)) = .ok (restoring, List.replicate 256 0) := by
    rw [read_restoring (by omega) (by omega) (by omega) (by omega) (by omega)]
    have : (List.range (256 * (1 + 0))).map (fun i => slotRest.get (0x40030000 + 256 - 0x40000000 + i)) = List.replicate 256 0 := by
      decide +kernel
    rw [this]
  have hx := digest.isLt
  have f (lo w : Nat) (v : Nat) (h : (0x7C640C4B + 2 ^ 32 + 2 ^ 64 + 44 * 2 ^ 128 + 2 ^ 192 + 2 ^ 256 * digest.toNat) / 2 ^ lo % 2 ^ w = v) :
      fld (natOfBytes slotBytes) lo w = v := by rw [fld, slot_nat, h]
  have f0 := f 0 32 0x7C640C4B (by omega)
  have f1 := f 37 3 0 (by omega)
  have f2 := f 41 23 0 (by omega)
  have f3 := f 64 32 1 (by omega)
  have f4 := f 96 32 0 (by omega)
  have f5 := f 256 256 digest.toNat (by omega)
  have f6 := f 192 64 1 (by omega)
  have f7 := f 128 64 44 (by omega)
  have f8 := f 40 1 0 (by omega)
  rw [readSlot, slotRead, h64]
  simp only [f0, f1, f2, f3, f4, hds]
  have hg : Config.sha3 (List.replicate 256 0) = digest := rfl
  simp only [f5, f6, f7, f8, hg]
  simp

theorem witness_WeightRestore :
    Ready restoreW restorable ∧ readRecord (restorable.b.op64 restoreF.a).toNat restoring = .ok (restoring, (rcd ckp).toNat, 0, none) ∧
    rCkp (rcd ckp).toNat = true ∧ freeTids restoring 0 ≠ [] ∧
    newestSlot restoring.viaB (rcd ckp).toNat restoring = some (0, ⟨1, 44, 1, 0, false⟩) ∧
    ∃ s2, restoreSlot (rcd ckp).toNat 0 ⟨1, 44, 1, 0, false⟩ restoring = .ok s2 ∧ decide (freeTids s2 0 ≠ []) = true := by
  refine ⟨ready_idle (by decide) (by decide) rfl rfl (by decide), restore_read, by decide +kernel, by decide +kernel, ?_, exists_ok (by decide +kernel)⟩
  have h0 : rSlot (rcd ckp).toNat 0 = 0x40030000 := by decide +kernel
  have h1 : rSlot (rcd ckp).toNat 1 = 0x40040000 := by decide +kernel
  have hz : readSlot restoring.viaB 0x40040000 restoring = none := by
    have : natOfBytes ((List.range 64).map fun i => slotRest.get (0x40040000 - 0x40000000 + i)) = 0 := by decide +kernel
    rw [readSlot, slotRead, read_restoring (by omega) (by omega) (by omega) (by omega) (by omega)]
    simp [this, fld]
  rw [newestSlot, h0, h1, slot_read, hz]

/-- R378's magic, version, kind, burner and core in a header; sections 1, 2 and 5 have the lengths it gives, and the header of a
yield names sections 1 and 11 alone. -/
theorem test_save_area :
    let s : State := { State.reset with b := { core := 5, bur := 1, membs := [⟨0, 0, 0, 1, 7, 8, 3, 0, .maker, 0⟩] } }
    (saveImage .yield s).take 16 = [0x56, 0x53, 0x64, 0x0C, 1, 0, 0x2D, 0, 0, 1, 0, 0, 0, 4, 0, 0] ∧
    ((saveImage .yield s).drop 88).take 8 = [0, 5, 0, 0, 32, 0, 0, 0] ∧
    (stateSection s).length = 1024 ∧ (fifoSection s.b).length = 1536 ∧ (descriptorSection s.b).length = 16384 := by
  decide +kernel

end Sys2Proof.Tests
end

section
/-! ## The integer functions of R255 and R256 over the integers -/
namespace Sys2Proof.Machine

/-- A word is the one whose signed value it has. -/
theorem eq_ofInt_of_toInt_eq {w : Nat} {x : BitVec w} {i : Int} (h : x.toInt = i) : x = BitVec.ofInt w i := by
  rw [← h, BitVec.ofInt_toInt]
/-- A word is the one whose unsigned value it has. -/
theorem eq_ofNat_of_toNat_eq {w : Nat} {x : BitVec w} {n : Nat} (h : x.toNat = n) : x = BitVec.ofNat w n := by
  rw [← h, BitVec.ofNat_toNat, BitVec.setWidth_eq]

theorem amt_eq (y : Word) : amt y = y.toNat % 32 := by simp [amt, BitVec.extractLsb'_toNat]
theorem amt_lt (y : Word) : amt y < 32 := by rw [amt_eq]; omega

theorem add_eq_ofInt (x y : Word) : x + y = BitVec.ofInt 32 (x.toInt + y.toInt) := by
  rw [BitVec.ofInt_add, BitVec.ofInt_toInt, BitVec.ofInt_toInt]
theorem sub_eq_ofInt (x y : Word) : x - y = BitVec.ofInt 32 (x.toInt - y.toInt) :=
  BitVec.eq_of_toInt_eq (by rw [BitVec.toInt_sub, BitVec.toInt_ofInt])
theorem mul_eq_ofInt (x y : Word) : x * y = BitVec.ofInt 32 (x.toInt * y.toInt) := by
  rw [BitVec.ofInt_mul, BitVec.ofInt_toInt, BitVec.ofInt_toInt]

/-- The high half of a 64-bit word is its signed value divided by 2^32. -/
theorem hi32_eq_ofInt (z : DWord) : hi32 z = BitVec.ofInt 32 (z.toInt / 2 ^ 32) := by
  have h : hi32 z = (z.sshiftRight 32).setWidth 32 := by
    ext i hi
    simp [BitVec.getElem_sshiftRight, show i < 64 by omega, show 32 + i < 64 by omega]
  rw [h, ← BitVec.signExtend_eq_setWidth_of_le _ (by decide)]
  refine BitVec.eq_of_toInt_eq ?_
  rw [BitVec.toInt_signExtend, BitVec.toInt_sshiftRight, BitVec.toInt_ofInt, Int.shiftRight_eq_div_pow]
  rfl
/-- Two words' signed product fits 64 bits. -/
theorem natAbs_mul_toInt_le (x y : Word) : (x.toInt * y.toInt).natAbs ≤ 2 ^ 31 * 2 ^ 31 := by
  have bound (z : Word) : z.toInt.natAbs ≤ 2 ^ 31 := by
    have hl := z.le_two_mul_toInt
    have hu := z.two_mul_toInt_lt
    omega
  rw [Int.natAbs_mul]
  exact Nat.mul_le_mul (bound x) (bound y)
theorem mulh_eq_ofInt (x y : Word) :
    hi32 (x.signExtend 64 * y.signExtend 64) = BitVec.ofInt 32 (x.toInt * y.toInt / 2 ^ 32) := by
  have hp : (x.signExtend 64 * y.signExtend 64).toInt = x.toInt * y.toInt := by
    have hb := natAbs_mul_toInt_le x y
    rw [BitVec.toInt_mul, BitVec.toInt_signExtend_of_le (by decide), BitVec.toInt_signExtend_of_le (by decide)]
    exact Int.bmod_eq_of_le (by omega) (by omega)
  rw [hi32_eq_ofInt, hp]
theorem mulhu_eq_ofNat (x y : Word) :
    hi32 (x.setWidth 64 * y.setWidth 64) = BitVec.ofNat 32 (x.toNat * y.toNat / 2 ^ 32) := by
  have hp : x.toNat * y.toNat < 2 ^ 64 := by
    calc x.toNat * y.toNat < 2 ^ 32 * 2 ^ 32 := Nat.mul_lt_mul'' x.isLt y.isLt
      _ = 2 ^ 64 := by decide
  refine BitVec.eq_of_toNat_eq ?_
  rw [BitVec.extractLsb'_toNat, BitVec.toNat_mul, BitVec.toNat_setWidth_of_le (by decide),
    BitVec.toNat_setWidth_of_le (by decide), Nat.mod_eq_of_lt hp, BitVec.toNat_ofNat, Nat.shiftRight_eq_div_pow]

/-- R256: the quotient of −2^31 and −1 is −2^31, which is 2^31 modulo 2^32. -/
theorem divS_eq (x y : Word) : divS x y = if y = 0 then 0xFFFFFFFF else BitVec.ofInt 32 (x.toInt.tdiv y.toInt) := by
  unfold divS
  congr 1
  exact BitVec.eq_of_toInt_eq (by rw [BitVec.toInt_sdiv, BitVec.toInt_ofInt])
theorem remS_eq (x y : Word) : remS x y = if y = 0 then x else BitVec.ofInt 32 (x.toInt.tmod y.toInt) := by
  unfold remS
  rw [eq_ofInt_of_toInt_eq (BitVec.toInt_srem x y)]
theorem divU_eq (x y : Word) : divU x y = if y = 0 then 0xFFFFFFFF else BitVec.ofNat 32 (x.toNat / y.toNat) := by
  unfold divU
  rw [eq_ofNat_of_toNat_eq (BitVec.toNat_udiv (x := x) (y := y))]
theorem remU_eq (x y : Word) : remU x y = if y = 0 then x else BitVec.ofNat 32 (x.toNat % y.toNat) := by
  unfold remU
  rw [eq_ofNat_of_toNat_eq (BitVec.toNat_umod (x := x) (y := y))]

theorem shl_eq_ofNat (x y : Word) : x <<< amt y = BitVec.ofNat 32 (x.toNat * 2 ^ (y.toNat % 32)) :=
  BitVec.eq_of_toNat_eq (by rw [BitVec.toNat_shiftLeft, BitVec.toNat_ofNat, Nat.shiftLeft_eq, amt_eq])
theorem shr_eq_ofNat (x y : Word) : x >>> amt y = BitVec.ofNat 32 (x.toNat / 2 ^ (y.toNat % 32)) :=
  eq_ofNat_of_toNat_eq (by rw [BitVec.toNat_ushiftRight, Nat.shiftRight_eq_div_pow, amt_eq])
theorem sra_eq_ofInt (x y : Word) : x.sshiftRight (amt y) = BitVec.ofInt 32 (x.toInt / 2 ^ (y.toNat % 32)) :=
  eq_ofInt_of_toInt_eq (by rw [BitVec.toInt_sshiftRight, Int.shiftRight_eq_div_pow, amt_eq]; norm_cast)
theorem rol_eq (x y : Word) :
    x.rotateLeft (amt y) = x <<< (y.toNat % 32) ||| x >>> (32 - y.toNat % 32) := by
  rw [BitVec.rotateLeft_def, amt_eq, Nat.mod_mod]
theorem ror_eq (x y : Word) :
    x.rotateRight (amt y) = x >>> (y.toNat % 32) ||| x <<< (32 - y.toNat % 32) := by
  rw [BitVec.rotateRight_def, amt_eq, Nat.mod_mod]

/-- Words of equal value are one word, so that a strict and a weak comparison choose the same one. -/
theorem ite_lt_eq_ite_le {lt le : Prop} [Decidable lt] [Decidable le] {x y : Word} (h : le ↔ lt ∨ x = y) :
    (if lt then x else y) = if le then x else y := by
  by_cases hl : lt
  · rw [if_pos hl, if_pos (h.2 (.inl hl))]
  · rw [if_neg hl]
    split
    · rename_i hle; exact ((h.1 hle).resolve_left hl).symm
    · rfl
theorem ite_lt_swap_eq_ite_le {lt le : Prop} [Decidable lt] [Decidable le] {x y : Word} (h : le ↔ lt ∨ x = y) :
    (if lt then y else x) = if le then y else x := by
  by_cases hl : lt
  · rw [if_pos hl, if_pos (h.2 (.inl hl))]
  · rw [if_neg hl]
    split
    · rename_i hle; exact (h.1 hle).resolve_left hl
    · rfl
theorem toInt_le_iff (x y : Word) : x.toInt ≤ y.toInt ↔ x.slt y = true ∨ x = y := by
  rw [BitVec.slt_iff_toInt_lt, Int.le_iff_lt_or_eq, BitVec.toInt_inj]
theorem toNat_le_iff (x y : Word) : x.toNat ≤ y.toNat ↔ x.ult y = true ∨ x = y := by
  rw [BitVec.ult_iff_toNat_lt, Nat.le_iff_lt_or_eq, BitVec.toNat_inj]
theorem min_eq_ite (x y : Word) : (if x.slt y then x else y) = if x.toInt ≤ y.toInt then x else y :=
  ite_lt_eq_ite_le (toInt_le_iff x y)
theorem max_eq_ite (x y : Word) : (if x.slt y then y else x) = if x.toInt ≤ y.toInt then y else x :=
  ite_lt_swap_eq_ite_le (toInt_le_iff x y)
theorem minu_eq_ite (x y : Word) : (if x.ult y then x else y) = if x.toNat ≤ y.toNat then x else y :=
  ite_lt_eq_ite_le (toNat_le_iff x y)
theorem maxu_eq_ite (x y : Word) : (if x.ult y then y else x) = if x.toNat ≤ y.toNat then y else x :=
  ite_lt_swap_eq_ite_le (toNat_le_iff x y)

theorem two_pow_32_eq {k : Nat} (hk : k < 32) : 2 ^ 32 = 2 ^ (k + 1) * 2 ^ (31 - k) := by
  rw [← Nat.pow_add, show k + 1 + (31 - k) = 32 by omega]
/-- The low n + 1 bits of a word, shifted to the top: what SEXT and ZEXT shift back. -/
theorem toNat_shiftLeft_top {x : Word} {k : Nat} (hk : k < 32) :
    (x <<< (31 - k)).toNat = x.toNat % 2 ^ (k + 1) * 2 ^ (31 - k) := by
  rw [BitVec.toNat_shiftLeft, Nat.shiftLeft_eq, two_pow_32_eq hk, Nat.mul_mod_mul_right]
theorem zext32_eq_ofNat (x y : Word) : zext32 x y = BitVec.ofNat 32 (x.toNat % 2 ^ (y.toNat % 32 + 1)) := by
  refine eq_ofNat_of_toNat_eq ?_
  rw [zext32, BitVec.toNat_ushiftRight, toNat_shiftLeft_top (amt_lt y), Nat.shiftRight_eq_div_pow,
    Nat.mul_div_cancel _ (Nat.two_pow_pos _), amt_eq]
/-- The top k + 1 bits of a word, the others 0, shifted back with their sign. -/
theorem toInt_sshiftRight_top {z : Word} {m k : Nat} (hk : k < 32) (hz : z.toNat = m * 2 ^ (31 - k)) :
    (z.sshiftRight (31 - k)).toInt = if m < 2 ^ k then (m : Int) else m - 2 ^ (k + 1) := by
  have h31 : 2 ^ 31 = 2 ^ k * 2 ^ (31 - k) := by rw [← Nat.pow_add, show k + (31 - k) = 31 by omega]
  have h32 : ((2 ^ 32 : Nat) : Int) = 2 ^ (k + 1) * ((2 ^ (31 - k) : Nat) : Int) := by
    rw [two_pow_32_eq hk, Int.natCast_mul, Int.natCast_pow 2 (k + 1)]
    rfl
  have hpos : ((2 ^ (31 - k) : Nat) : Int) ≠ 0 := Int.natCast_ne_zero.2 (Nat.ne_of_gt (Nat.two_pow_pos _))
  have hsign : 2 * (m * 2 ^ (31 - k)) < 2 ^ 32 ↔ m < 2 ^ k := by
    rw [← Nat.mul_lt_mul_right (Nat.two_pow_pos (31 - k)) (b := m), ← h31]; omega
  rw [BitVec.toInt_sshiftRight, Int.shiftRight_eq_div_pow, BitVec.toInt_eq_toNat_cond, hz]
  by_cases hm : m < 2 ^ k
  · rw [if_pos hm, if_pos (hsign.2 hm), Int.natCast_mul, Int.mul_ediv_cancel _ hpos]
  · rw [if_neg hm, if_neg fun h => hm (hsign.1 h), Int.natCast_mul, h32, ← Int.sub_mul, Int.mul_ediv_cancel _ hpos]
theorem sext32_eq_ofInt (x y : Word) : sext32 x y = BitVec.ofInt 32
    (if x.toNat % 2 ^ (y.toNat % 32 + 1) < 2 ^ (y.toNat % 32) then (x.toNat % 2 ^ (y.toNat % 32 + 1) : Nat)
      else (x.toNat % 2 ^ (y.toNat % 32 + 1) : Nat) - 2 ^ (y.toNat % 32 + 1)) := by
  rw [← amt_eq y]
  exact eq_ofInt_of_toInt_eq (toInt_sshiftRight_top (amt_lt y) (toNat_shiftLeft_top (amt_lt y)))

/-- CMP's five bits, each at its place, are their sum. -/
theorem bits_or_eq_sum : ∀ e l u g h : Bool, bit e 0 ||| bit l 1 ||| bit u 2 ||| bit g 3 ||| bit h 4 =
    BitVec.ofNat 32 ((if e then 1 else 0) + (if l then 2 else 0) + (if u then 4 else 0) + (if g then 8 else 0) +
      (if h then 16 else 0)) := by decide
theorem cmp32_eq_ofNat (x y : Word) : cmp32 x y =
    BitVec.ofNat 32 ((if x = y then 1 else 0) + (if x.toInt < y.toInt then 2 else 0) +
      (if x.toNat < y.toNat then 4 else 0) + (if y.toInt < x.toInt then 8 else 0) + (if y.toNat < x.toNat then 16 else 0)) := by
  rw [cmp32, bits_or_eq_sum]
  simp only [beq_iff_eq, BitVec.slt_iff_toInt_lt, BitVec.ult_iff_toNat_lt]

/-! ### Counting bits -/

theorem clzGo_le (x : Word) : ∀ n, clzGo x n ≤ n
  | 0 => Nat.le_refl 0
  | n + 1 => by
    have := clzGo_le x n
    rw [clzGo]; split <;> omega
theorem clzGo_zeros (x : Word) : ∀ n j, j < clzGo x n → x.getLsbD (n - 1 - j) = false
  | 0, _, h => absurd h (Nat.not_lt_zero _)
  | n + 1, j, h => by
    rw [clzGo] at h
    split at h
    · omega
    · rename_i hn
      cases j with
      | zero => simpa using hn
      | succ j =>
        rw [show n + 1 - 1 - (j + 1) = n - 1 - j by omega]
        exact clzGo_zeros x n j (by omega)
theorem clzGo_one (x : Word) : ∀ n, clzGo x n < n → x.getLsbD (n - 1 - clzGo x n) = true
  | 0, h => absurd h (Nat.not_lt_zero _)
  | n + 1, h => by
    rw [clzGo] at h ⊢
    split at h
    · rename_i hn; rw [if_pos hn]; exact hn
    · rename_i hn
      rw [if_neg hn, show n + 1 - 1 - (clzGo x n + 1) = n - 1 - clzGo x n by omega]
      exact clzGo_one x n (by omega)

theorem ctzGo_le (x : Word) : ∀ n, ctzGo x n ≤ n
  | 0 => Nat.le_refl 0
  | n + 1 => by
    have := ctzGo_le x n
    rw [ctzGo]; split <;> omega
theorem ctzGo_zeros (x : Word) : ∀ n j, n ≤ 32 → j < ctzGo x n → x.getLsbD (32 - n + j) = false
  | 0, _, _, h => absurd h (Nat.not_lt_zero _)
  | n + 1, j, hn, h => by
    rw [ctzGo] at h
    split at h
    · omega
    · rename_i hb
      cases j with
      | zero => simpa using hb
      | succ j =>
        rw [show 32 - (n + 1) + (j + 1) = 32 - n + j by omega]
        exact ctzGo_zeros x n j (by omega) (by omega)
theorem ctzGo_one (x : Word) : ∀ n, n ≤ 32 → ctzGo x n < n → x.getLsbD (32 - n + ctzGo x n) = true
  | 0, _, h => absurd h (Nat.not_lt_zero _)
  | n + 1, hn, h => by
    rw [ctzGo] at h ⊢
    split at h
    · rename_i hb; rw [if_pos hb]; simpa using hb
    · rename_i hb
      rw [if_neg hb, show 32 - (n + 1) + (ctzGo x n + 1) = 32 - n + ctzGo x n by omega]
      exact ctzGo_one x n (by omega) (by omega)

theorem popcGo_eq_countP (x : Word) : ∀ n, popcGo x n = (List.range n).countP x.getLsbD
  | 0 => rfl
  | n + 1 => by
    rw [popcGo, popcGo_eq_countP x n, List.range_succ, List.countP_append, List.countP_singleton, Nat.add_comm]

/-! ## The instructions -/

section
variable (d : BitVec 6) (a b : Opnd) (s : State)

theorem exec_add : exec (.add d a b) s = op2 d a b (fun x y => x + y) s := rfl
theorem exec_sub : exec (.sub d a b) s = op2 d a b (fun x y => x - y) s := rfl
theorem exec_mul : exec (.mul d a b) s = op2 d a b (fun x y => x * y) s := rfl
theorem exec_mulh : exec (.mulh d a b) s = op2 d a b (fun x y => hi32 (x.signExtend 64 * y.signExtend 64)) s := rfl
theorem exec_mulhu : exec (.mulhu d a b) s = op2 d a b (fun x y => hi32 (x.setWidth 64 * y.setWidth 64)) s := rfl
theorem exec_div : exec (.div d a b) s = op2 d a b divS s := rfl
theorem exec_rem : exec (.rem d a b) s = op2 d a b remS s := rfl
theorem exec_divu : exec (.divu d a b) s = op2 d a b divU s := rfl
theorem exec_remu : exec (.remu d a b) s = op2 d a b remU s := rfl
theorem exec_and : exec (.and d a b) s = op2 d a b (fun x y => x &&& y) s := rfl
theorem exec_or : exec (.or d a b) s = op2 d a b (fun x y => x ||| y) s := rfl
theorem exec_xor : exec (.xor d a b) s = op2 d a b (fun x y => x ^^^ y) s := rfl
theorem exec_andn : exec (.andn d a b) s = op2 d a b (fun x y => x &&& ~~~y) s := rfl
theorem exec_shl : exec (.shl d a b) s = op2 d a b (fun x y => x <<< amt y) s := rfl
theorem exec_shr : exec (.shr d a b) s = op2 d a b (fun x y => x >>> amt y) s := rfl
theorem exec_sra : exec (.sra d a b) s = op2 d a b (fun x y => x.sshiftRight (amt y)) s := rfl
theorem exec_rol : exec (.rol d a b) s = op2 d a b (fun x y => x.rotateLeft (amt y)) s := rfl
theorem exec_ror : exec (.ror d a b) s = op2 d a b (fun x y => x.rotateRight (amt y)) s := rfl
theorem exec_min : exec (.min d a b) s = op2 d a b (fun x y => if x.slt y then x else y) s := rfl
theorem exec_max : exec (.max d a b) s = op2 d a b (fun x y => if x.slt y then y else x) s := rfl
theorem exec_minu : exec (.minu d a b) s = op2 d a b (fun x y => if x.ult y then x else y) s := rfl
theorem exec_maxu : exec (.maxu d a b) s = op2 d a b (fun x y => if x.ult y then y else x) s := rfl
theorem exec_sext : exec (.sext d a b) s = op2 d a b sext32 s := rfl
theorem exec_zext : exec (.zext d a b) s = op2 d a b zext32 s := rfl
theorem exec_sel : exec (.sel d a b) s = op2 d a b (fun x y => if s.b.getS d != 0 then x else y) s := rfl
theorem exec_cmp : exec (.cmp d a b) s = op2 d a b cmp32 s := rfl
theorem exec_clz : exec (.clz d a) s = op1 d a clz32 s := rfl
theorem exec_ctz : exec (.ctz d a) s = op1 d a ctz32 s := rfl
theorem exec_popc : exec (.popc d a) s = op1 d a popc32 s := rfl
theorem exec_mov : exec (.mov d a) s = op1 d a (fun x => x) s := rfl
theorem exec_li (i : BitVec 18) : exec (.li d i) s = ccOp [d] 1 (fun x => x.setS d (i.signExtend 32)) s := rfl

end

/-- Two 32-bit sources, the result under another name. -/
theorem op2_writesS_of_eq {i : Instr} {s : State} {d : BitVec 6} {a b : Opnd} {f : Word → Word → Word} {v : Word}
    (he : exec i s = op2 d a b f s) (hr : s.b.held (d :: (opRegs a ++ opRegs b)) = false)
    (hv : f (s.b.op32 a) (s.b.op32 b) = v) : WritesS i s d v (1 + litN a + litN b) := hv ▸ op2_writesS he hr
/-- One 32-bit source, the result under another name. -/
theorem op1_writesS_of_eq {i : Instr} {s : State} {d : BitVec 6} {a : Opnd} {f : Word → Word} {v : Word}
    (he : exec i s = op1 d a f s) (hr : s.b.held (d :: opRegs a) = false) (hv : f (s.b.op32 a) = v) :
    WritesS i s d v (1 + litN a) := hv ▸ op1_writesS he hr

theorem clz_writesS {s : State} {d : BitVec 6} {a : Opnd} (hr : s.b.held (d :: opRegs a) = false) :
    ∃ z ≤ 32, (∀ j < z, (s.b.op32 a).getLsbD (31 - j) = false) ∧ (z < 32 → (s.b.op32 a).getLsbD (31 - z) = true) ∧
      WritesS (.clz d a) s d (BitVec.ofNat 32 z) (1 + litN a) :=
  ⟨clzGo (s.b.op32 a) 32, clzGo_le _ 32, clzGo_zeros _ 32, clzGo_one _ 32, op1_writesS (exec_clz d a s) hr⟩
theorem ctz_writesS {s : State} {d : BitVec 6} {a : Opnd} (hr : s.b.held (d :: opRegs a) = false) :
    ∃ z ≤ 32, (∀ j < z, (s.b.op32 a).getLsbD j = false) ∧ (z < 32 → (s.b.op32 a).getLsbD z = true) ∧
      WritesS (.ctz d a) s d (BitVec.ofNat 32 z) (1 + litN a) :=
  ⟨ctzGo (s.b.op32 a) 32, ctzGo_le _ 32, fun j hj => by simpa using ctzGo_zeros _ 32 j (by omega) hj,
    fun hz => by simpa using ctzGo_one _ 32 (by omega) hz, op1_writesS (exec_ctz d a s) hr⟩

/-- Settles O1: each instruction is an `op2`, an `op1` or LI's `ccOp`, whose word function is the integer function stated. -/
theorem scalarIntegerResults : Obligations.ScalarIntegerResults := by
  unfold Obligations.ScalarIntegerResults
  refine ⟨fun s d a b hr => ?_, fun s d a hr => ?_, fun s d i hr => ?_⟩
  · exact ⟨op2_writesS_of_eq (exec_add d a b s) hr (add_eq_ofInt _ _),
      op2_writesS_of_eq (exec_sub d a b s) hr (sub_eq_ofInt _ _),
      op2_writesS_of_eq (exec_mul d a b s) hr (mul_eq_ofInt _ _),
      op2_writesS_of_eq (exec_mulh d a b s) hr (mulh_eq_ofInt _ _),
      op2_writesS_of_eq (exec_mulhu d a b s) hr (mulhu_eq_ofNat _ _),
      op2_writesS_of_eq (exec_div d a b s) hr (divS_eq _ _),
      op2_writesS_of_eq (exec_rem d a b s) hr (remS_eq _ _),
      op2_writesS_of_eq (exec_divu d a b s) hr (divU_eq _ _),
      op2_writesS_of_eq (exec_remu d a b s) hr (remU_eq _ _),
      op2_writesS (exec_and d a b s) hr,
      op2_writesS (exec_or d a b s) hr,
      op2_writesS (exec_xor d a b s) hr,
      op2_writesS (exec_andn d a b s) hr,
      op2_writesS_of_eq (exec_shl d a b s) hr (shl_eq_ofNat _ _),
      op2_writesS_of_eq (exec_shr d a b s) hr (shr_eq_ofNat _ _),
      op2_writesS_of_eq (exec_sra d a b s) hr (sra_eq_ofInt _ _),
      op2_writesS_of_eq (exec_rol d a b s) hr (rol_eq _ _),
      op2_writesS_of_eq (exec_ror d a b s) hr (ror_eq _ _),
      op2_writesS_of_eq (exec_min d a b s) hr (min_eq_ite _ _),
      op2_writesS_of_eq (exec_max d a b s) hr (max_eq_ite _ _),
      op2_writesS_of_eq (exec_minu d a b s) hr (minu_eq_ite _ _),
      op2_writesS_of_eq (exec_maxu d a b s) hr (maxu_eq_ite _ _),
      op2_writesS_of_eq (exec_sext d a b s) hr (sext32_eq_ofInt _ _),
      op2_writesS_of_eq (exec_zext d a b s) hr (zext32_eq_ofNat _ _),
      op2_writesS_of_eq (exec_sel d a b s) hr (by simp only [bne_iff_ne]),
      op2_writesS_of_eq (exec_cmp d a b s) hr (cmp32_eq_ofNat _ _)⟩
  · exact ⟨clz_writesS hr,
      ctz_writesS hr,
      op1_writesS_of_eq (exec_popc d a s) hr (congrArg (BitVec.ofNat 32) (popcGo_eq_countP _ 32)),
      op1_writesS (exec_mov d a s) hr⟩
  · exact ccOp_writesS (exec_li d s i) (congrArg _ (eq_ofInt_of_toInt_eq (BitVec.toInt_signExtend_of_le (by decide)))) hr

end Sys2Proof.Machine
end

section
/-! ## Scalar floating point (R259 to R262) -/
namespace Sys2Proof.Machine

/-! ### Delivering a result and its flags (R76 to R78, R259) -/

section
variable (d : BitVec 6) (a b : Opnd) (s : State)

theorem exec_fadd : exec (.fadd d a b) s = floatOp (opRegs a ++ opRegs b) d (1 + litN a + litN b)
    (fun o x => deliver32 o (addFV (o.rm == 2) (fp32 (x.op32 a)) (fp32 (x.op32 b)))) s := rfl
theorem exec_fsub : exec (.fsub d a b) s = floatOp (opRegs a ++ opRegs b) d (1 + litN a + litN b)
    (fun o x => deliver32 o (addFV (o.rm == 2) (fp32 (x.op32 a)) (negFV (fp32 (x.op32 b))))) s := rfl
theorem exec_fmul : exec (.fmul d a b) s = floatOp (opRegs a ++ opRegs b) d (1 + litN a + litN b)
    (fun o x => deliver32 o (mulFV (fp32 (x.op32 a)) (fp32 (x.op32 b)))) s := rfl
theorem exec_ffma : exec (.ffma d a b) s = floatOp (opRegs a ++ opRegs b) d (1 + litN a + litN b)
    (fun o x => deliver32 o (fmaFV (o.rm == 2) (fp32 (x.op32 a)) (fp32 (x.op32 b)) (fp32 (x.getS d)))) s := rfl
theorem exec_fcvt (f : BitVec 5) : exec (.fcvt d a f) s = floatOp (opRegs a) d (1 + litN a)
    (fun o x => fcvt32 f.toNat ((pfxOf x.pfx).fmt.getD 1).toNat o (x.op32 a)) s := rfl
theorem exec_fcvti : exec (.fcvti d a) s = floatOp (opRegs a) d (1 + litN a) (fun o x => fcvt32 1 9 o (x.op32 a)) s := rfl
theorem exec_fcvtf : exec (.fcvtf d a) s = floatOp (opRegs a) d (1 + litN a) (fun o x => fcvt32 9 1 o (x.op32 a)) s := rfl
theorem exec_fmin : exec (.fmin d a b) s = op2 d a b (fun x y => w32 (minMaxF ffFP32 false x.toNat y.toNat)) s := rfl
theorem exec_fmax : exec (.fmax d a b) s = op2 d a b (fun x y => w32 (minMaxF ffFP32 true x.toNat y.toNat)) s := rfl
theorem exec_fcmp : exec (.fcmp d a b) s = op2 d a b fcmp32 s := rfl
end

/-- One element's flags and saturation, raised. -/
theorem raise_add_flags (b : Burner) (x : Fx) : (b.raise (({} : FSum).add x)).flags = b.flags ||| x.fl.setWidth 32 := by
  simp [Burner.raise, FSum.add, FSum.addN]
theorem raise_add_satcnt (b : Burner) (x : Fx) :
    (b.raise (({} : FSum).add x)).satcnt.toNat = min (b.satcnt.toNat + if x.sat then 1 else 0) 0xFFFFFFFF := by
  simp only [Burner.raise, FSum.add, FSum.addN, Nat.zero_add, BitVec.toNat_ofNat]
  exact Nat.mod_eq_of_lt (by omega)

/-- What `floatOp` does when the rounding code in force is a mode. -/
theorem floatOp_writesF {i : Instr} {s : State} {rs : List (BitVec 6)} {d : BitVec 6} {n : Nat} {f : RMode → Burner → Word × Fx}
    {m : BitVec 3} {r : Word × Fx} (he : exec i s = floatOp rs d n f s) (hr : s.b.held (d :: rs) = false)
    (hm : roundNoSr (pfxOf s.b.pfx) 0 s.b.drm = some m) (hf : f { rm := m, sat := (pfxOf s.b.pfx).sat } s.b = r) :
    WritesF i s d r.1 r.2.fl (if r.2.sat then 1 else 0) n := by
  refine ⟨retire n (s.modB fun b => (b.setS d r.1).raise (({} : FSum).add r.2)), ?_, Burner.getS_setS_self s.b d r.1,
    fun q hq => Burner.getS_setS_ne s.b hq r.1, ⟨rfl, rfl, rfl, rfl, rfl⟩, raise_add_flags _ r.2, raise_add_satcnt _ r.2,
    ⟨fun _ => rfl, fun _ => rfl⟩, rfl⟩
  rw [he, floatOp, ccDo_ready hr]
  simp only [hm, hf]

/-- R82: a code that is no rounding mode of a scalar float instruction traps before anything is written. -/
theorem floatOp_illegalRounding {i : Instr} {s : State} {rs : List (BitVec 6)} {d : BitVec 6} {n : Nat}
    {f : RMode → Burner → Word × Fx} (he : exec i s = floatOp rs d n f s) (hr : s.b.held (d :: rs) = false)
    (hm : roundNoSr (pfxOf s.b.pfx) 0 s.b.drm = none) :
    exec i s = .next (takeTrap { c := .illegalRounding, iaddr := s.b.pc, cutPc := s.b.pc } s) := by
  rw [he, floatOp, ccDo_ready hr]
  simp only [hm]
  rfl

/-- The codes of R20 that R82 refuses: 101, 111, and 110 when BCTL.DRM is one of 101, 110 and 111. -/
theorem roundNoSr_eq_none {p : Pfx} {drm : BitVec 3}
    (h : p.rnd.getD 0 = 5 ∨ p.rnd.getD 0 = 7 ∨ (p.rnd.getD 0 = 6 ∧ (drm = 5 ∨ drm = 6 ∨ drm = 7))) :
    roundNoSr p 0 drm = none := by
  unfold roundNoSr
  rcases h with h | h | ⟨h, hd | hd | hd⟩ <;> simp_all

/-! ### Conversions (R262) -/

theorem fcvt32_raw {cs cd : Nat} (h : cs = 0 ∨ cd = 0) (o : RMode) (x : Word) : fcvt32 cs cd o x = (x, {}) := by
  rw [fcvt32, if_pos (by simpa using h)]

/-- R66: clearing bits 7:6 of every byte leaves the low six bits of the lowest byte. -/
theorem fp6Mask_low (x : Word) : (x &&& 0x3F3F3F3F).toNat % 256 = x.toNat % 256 % 64 := by
  have h : (x &&& 0x3F3F3F3F).extractLsb' 0 8 = x.extractLsb' 0 8 &&& 0x3F#8 := BitVec.extractLsb'_and
  have := congrArg BitVec.toNat h
  rw [BitVec.toNat_and, BitVec.extractLsb'_toNat, BitVec.extractLsb'_toNat, Nat.shiftRight_zero, Nat.shiftRight_zero] at this
  exact this.trans (Nat.and_two_pow_sub_one_eq_mod _ 6)

/-- The element in the low bits of a word, with R66's masking of the FP6 formats. -/
theorem sub_fp6Mask_zero (c : Nat) (x : Word) :
    sub c (fp6Mask c x) 0 = if isFP6 c then x.toNat % 2 ^ elW c % 64 else x.toNat % 2 ^ elW c := by
  unfold sub fp6Mask
  split
  · rename_i h
    have hw : elW c = 8 := by
      rcases (by simpa [isFP6] using h : c = 6 ∨ c = 7) with rfl | rfl <;> rfl
    rw [hw, Nat.mul_zero, Nat.pow_zero, Nat.div_one]
    exact fp6Mask_low x
  · rw [Nat.mul_zero, Nat.pow_zero, Nat.div_one]

theorem fcvt32_convert {cs cd : Nat} (h : ¬(cs = 0 ∨ cd = 0)) (o : RMode) (x : Word) : fcvt32 cs cd o x =
    (w32 (convEl cs cd o (if isFP6 cs then x.toNat % 2 ^ elW cs % 64 else x.toNat % 2 ^ elW cs)).1,
      (convEl cs cd o (if isFP6 cs then x.toNat % 2 ^ elW cs % 64 else x.toNat % 2 ^ elW cs)).2) := by
  rw [fcvt32, if_neg (by simpa using h), sub_fp6Mask_zero]

/-- A conversion between formats cs and cd: RAW32 on either side copies the word. -/
theorem fcvt_writesF {i : Instr} {s : State} {d : BitVec 6} {a : Opnd} {f : RMode → Burner → Word × Fx} {m : BitVec 3}
    {cs cd : Nat} (he : exec i s = floatOp (opRegs a) d (1 + litN a) f s) (hr : s.b.held (d :: opRegs a) = false)
    (hm : roundNoSr (pfxOf s.b.pfx) 0 s.b.drm = some m) (hf : ∀ o, f o s.b = fcvt32 cs cd o (s.b.op32 a)) :
    let src := (s.b.op32 a).toNat % 2 ^ elW cs
    let r := convEl cs cd { rm := m, sat := (pfxOf s.b.pfx).sat } (if isFP6 cs then src % 64 else src)
    if cs = 0 ∨ cd = 0 then WritesF i s d (s.b.op32 a) 0 0 (1 + litN a)
    else WritesF i s d (BitVec.ofNat 32 r.1) r.2.fl (if r.2.sat then 1 else 0) (1 + litN a) := by
  dsimp only
  split
  · rename_i hc
    exact floatOp_writesF he hr hm ((hf _).trans (fcvt32_raw hc _ _))
  · rename_i hc
    exact floatOp_writesF he hr hm ((hf _).trans (fcvt32_convert hc _ _))

/-! ### The order of values (R261) -/

/-- A number is its signed multiple of 2^g at every grid exponent g below its own. -/
theorem rat_eq_gridInt {neg : Bool} {m : Nat} {e g : Int} (h : g ≤ e) :
    (FV.num neg m e).rat = some ((gridInt neg m e g : Rat) * 2 ^ g) := by
  have hp : ((p2 (e - g) : Nat) : Rat) * 2 ^ g = 2 ^ e := by
    have hz := Rat.zpow_add (q := 2) (by decide) ((e - g).toNat : Int) g
    rw [Rat.zpow_natCast, show ((e - g).toNat : Int) + g = e by omega] at hz
    rw [hz, p2, Rat.natCast_pow]
    rfl
  have hm : (m : Rat) * 2 ^ e = (((m * p2 (e - g) : Nat) : Int) : Rat) * 2 ^ g := by
    rw [Rat.intCast_natCast, Rat.natCast_mul, Rat.mul_assoc, hp]
  cases neg with
  | false =>
    have hv : 1 * (m : Rat) * 2 ^ e = (((m * p2 (e - g) : Nat) : Int) : Rat) * 2 ^ g := by rw [Rat.one_mul, hm]
    exact congrArg some hv
  | true =>
    have hv : -1 * (m : Rat) * 2 ^ e = ((-((m * p2 (e - g) : Nat) : Int) : Int) : Rat) * 2 ^ g := by
      rw [Rat.mul_assoc, hm, Rat.neg_mul, Rat.one_mul, Rat.intCast_neg, Rat.neg_mul]
    exact congrArg some hv

/-- `cmpFV` of two numbers is the order of their rationals. -/
theorem cmpFV_of_rat {x y : FV} {p q : Rat} (hx : x.rat = some p) (hy : y.rat = some q) :
    cmpFV x y = if p < q then -1 else if q < p then 1 else 0 := by
  cases x with
  | nan => cases hx
  | inf n => cases hx
  | num na ma ea =>
    cases y with
    | nan => cases hy
    | inf n => cases hy
    | num nb mb eb =>
      rw [rat_eq_gridInt (Int.min_le_left ea eb), Option.some.injEq] at hx
      rw [rat_eq_gridInt (Int.min_le_right ea eb), Option.some.injEq] at hy
      have hg : (0 : Rat) < 2 ^ min ea eb := Rat.zpow_pos (by decide)
      have hneg (u v : Int) : u - v < 0 ↔ u < v := by omega
      rw [cmpFV, ← hx, ← hy]
      simp only [Rat.mul_lt_mul_right hg, Rat.intCast_lt_intCast, gt_iff_lt, hneg, Int.sub_pos]

/-- Swapping the values turns the comparison round. -/
theorem cmpFV_swap (x y : FV) : cmpFV y x = -cmpFV x y := by
  cases x with
  | nan => cases y <;> rfl
  | inf n => cases y with
    | nan => rfl
    | inf m => cases n <;> cases m <;> rfl
    | num _ _ _ => cases n <;> rfl
  | num na ma ea => cases y with
    | nan => rfl
    | inf m => cases m <;> rfl
    | num nb mb eb =>
      simp only [cmpFV, Int.min_comm eb ea]
      generalize gridInt na ma ea (min ea eb) = u
      generalize gridInt nb mb eb (min ea eb) = v
      omega

/-- Numbers that compare as equal are one multiple of their grid. -/
theorem gridInt_eq_of_cmp_zero {na nb : Bool} {ma mb : Nat} {ea eb : Int}
    (h : cmpFV (.num na ma ea) (.num nb mb eb) = 0) : gridInt na ma ea (min ea eb) = gridInt nb mb eb (min ea eb) := by
  simp only [cmpFV] at h
  omega

/-- An infinity stands beyond every number and beyond the other infinity. -/
theorem cmpFV_inf {n : Bool} {y : FV} (hn : y ≠ .nan) (hi : y ≠ .inf n) : cmpFV (.inf n) y = if n then -1 else 1 := by
  cases y with
  | nan => exact absurd rfl hn
  | inf m =>
    have : n ≠ m := fun h => hi (h ▸ rfl)
    simp [cmpFV, this]
  | num _ _ _ => rfl

theorem ltTot_of_cmp_neg {x y : FV} (h : cmpFV x y < 0) : ltTot x y = true := by simp [ltTot, h]
theorem ltTot_of_cmp_pos {x y : FV} (h : 0 < cmpFV x y) : ltTot x y = false := by
  have hn : ¬cmpFV x y < 0 := by omega
  have hz : cmpFV x y ≠ 0 := by omega
  simp [ltTot, hn, hz]
theorem ltTot_of_cmp_zero {x y : FV} (h : cmpFV x y = 0) : ltTot x y = (negBit x && !negBit y) := by simp [ltTot, h]

/-! ### FP32 codes -/

/-- The value of an FP32 code by its fields: sign, exponent and fraction (R57). -/
theorem fp32_eq (w : Word) : fp32 w =
    if w.toNat / 2 ^ 23 % 2 ^ 8 = 255 then (if w.toNat % 2 ^ 23 = 0 then .inf (w.getLsbD 31) else .nan)
    else if w.toNat / 2 ^ 23 % 2 ^ 8 = 0 then .num (w.getLsbD 31) (w.toNat % 2 ^ 23) (-149)
    else .num (w.getLsbD 31) (w.toNat % 2 ^ 23 + 2 ^ 23) ((w.toNat / 2 ^ 23 % 2 ^ 8 : Nat) - 127 - 23) := by
  have hs : w.getLsbD 31 = (w.toNat / 2 ^ 31 % 2 == 1) := by
    rw [BitVec.getLsbD, Nat.testBit_eq_decide_div_mod_eq]
    rfl
  rw [hs]
  simp [fp32, FF.val, ffFP32, FF.sb, FF.emin]

/-- The number of an FP32 code: its magnitude has at most 24 bits, all of them above the smallest exponent, and with the sign
it gives the code back. -/
theorem fp32_num {w : Word} {neg : Bool} {m : Nat} {e : Int} (h : fp32 w = .num neg m e) :
    -149 ≤ e ∧ m < 2 ^ 24 ∧ (-149 < e → 2 ^ 23 ≤ m) ∧ w.toNat = (if neg then 2 ^ 31 else 0) + (e + 149).toNat * 2 ^ 23 + m := by
  have hsign : (if w.getLsbD 31 then 2 ^ 31 else 0) = w.toNat / 2 ^ 31 * 2 ^ 31 := by
    have hw := w.isLt
    rw [BitVec.getLsbD, Nat.testBit_eq_decide_div_mod_eq]
    by_cases hb : w.toNat / 2 ^ 31 % 2 = 1
    · rw [if_pos (decide_eq_true hb)]; omega
    · rw [if_neg (by simpa using hb)]; omega
  rw [fp32_eq] at h
  by_cases hmax : w.toNat / 2 ^ 23 % 2 ^ 8 = 255
  · rw [if_pos hmax] at h
    split at h <;> cases h
  · rw [if_neg hmax] at h
    by_cases hzero : w.toNat / 2 ^ 23 % 2 ^ 8 = 0
    · rw [if_pos hzero] at h
      obtain ⟨rfl, rfl, rfl⟩ := FV.num.inj h
      rw [hsign]
      omega
    · rw [if_neg hzero] at h
      obtain ⟨rfl, rfl, rfl⟩ := FV.num.inj h
      rw [hsign]
      omega

theorem fp32_negBit {w : Word} (h : fp32 w ≠ .nan) : negBit (fp32 w) = w.getLsbD 31 := by
  rw [fp32_eq] at h ⊢
  by_cases hmax : w.toNat / 2 ^ 23 % 2 ^ 8 = 255
  · rw [if_pos hmax] at h ⊢
    by_cases hfrac : w.toNat % 2 ^ 23 = 0
    · rw [if_pos hfrac]; rfl
    · rw [if_neg hfrac] at h; exact absurd rfl h
  · rw [if_neg hmax]
    split <;> rfl

theorem p2_zero : p2 0 = 1 := rfl
/-- The magnitude of an FP32 number determines its fields. -/
theorem fields_eq_of_magnitude_eq {m n : Nat} {e f : Int} (hef : e ≤ f) (he : -149 ≤ e) (hm : m < 2 ^ 24)
    (hn : -149 < f → 2 ^ 23 ≤ n) (h : m = n * p2 (f - e)) : m = n ∧ e = f := by
  rcases Int.lt_or_eq_of_le hef with hlt | rfl
  · have hk : 2 ^ 1 ≤ p2 (f - e) := Nat.pow_le_pow_right (by decide) (by omega)
    have hle := Nat.mul_le_mul (hn (by omega)) hk
    omega
  · rw [Int.sub_self, p2_zero, Nat.mul_one] at h
    exact ⟨h, rfl⟩

/-- At their common grid two numbers of one sign and one value have one magnitude. -/
theorem magnitude_eq_of_gridInt_eq {neg : Bool} {m n : Nat} {e f g : Int} (h : gridInt neg m e g = gridInt neg n f g) :
    m * p2 (e - g) = n * p2 (f - g) := by
  cases neg with
  | false => exact Int.ofNat.inj h
  | true => exact Int.ofNat.inj (Int.neg_inj.1 h)

/-- Two FP32 numbers of one sign that compare as equal have one code. -/
theorem fp32_eq_of_cmp_zero {x y : Word} {neg : Bool} {ma mb : Nat} {ea eb : Int} (ha : fp32 x = .num neg ma ea)
    (hb : fp32 y = .num neg mb eb) (h : cmpFV (fp32 x) (fp32 y) = 0) : x = y := by
  obtain ⟨hea, hma, hla, hca⟩ := fp32_num ha
  obtain ⟨heb, hmb, hlb, hcb⟩ := fp32_num hb
  rw [ha, hb] at h
  have hmag := magnitude_eq_of_gridInt_eq (gridInt_eq_of_cmp_zero h)
  have hfields : ma = mb ∧ ea = eb := by
    rcases Int.le_total ea eb with hle | hle
    · rw [Int.min_eq_left hle, Int.sub_self, p2_zero, Nat.mul_one] at hmag
      exact fields_eq_of_magnitude_eq hle hea hma hlb hmag
    · rw [Int.min_eq_right hle, Int.sub_self, p2_zero, Nat.mul_one] at hmag
      obtain ⟨hm, he⟩ := fields_eq_of_magnitude_eq hle heb hmb hla hmag.symm
      exact ⟨hm.symm, he.symm⟩
  obtain ⟨rfl, rfl⟩ := hfields
  exact BitVec.eq_of_toNat_eq (hca.trans hcb.symm)

theorem exists_num_of_rat {x : FV} {p : Rat} (h : x.rat = some p) : ∃ m e, x = .num (negBit x) m e := by
  cases x with
  | nan => cases h
  | inf n => cases h
  | num neg m e => exact ⟨m, e, rfl⟩

/-! ### FMIN, FMAX and FCMP (R261) -/

/-- FMIN, FMAX and FCMP of two words give lo, hi and rel. -/
def Compares (x y lo hi rel : Word) : Prop :=
  w32 (minMaxF ffFP32 false x.toNat y.toNat) = lo ∧ w32 (minMaxF ffFP32 true x.toNat y.toNat) = hi ∧ fcmp32 x y = rel

theorem Compares.writesS {s : State} {d : BitVec 6} {a b : Opnd} {lo hi rel : Word}
    (h : Compares (s.b.op32 a) (s.b.op32 b) lo hi rel) (hr : s.b.held (d :: (opRegs a ++ opRegs b)) = false) :
    WritesS (.fmin d a b) s d lo (1 + litN a + litN b) ∧ WritesS (.fmax d a b) s d hi (1 + litN a + litN b) ∧
      WritesS (.fcmp d a b) s d rel (1 + litN a + litN b) := by
  obtain ⟨rfl, rfl, rfl⟩ := h
  exact ⟨op2_writesS (exec_fmin d a b s) hr, op2_writesS (exec_fmax d a b s) hr, op2_writesS (exec_fcmp d a b s) hr⟩

theorem isNaN_nan : isNaN .nan = true := rfl
theorem isNaN_eq_false {x : FV} (h : x ≠ .nan) : isNaN x = false := by
  cases x with
  | nan => exact absurd rfl h
  | inf _ => rfl
  | num _ _ _ => rfl
theorem w32_toNat (x : Word) : w32 x.toNat = x := (eq_ofNat_of_toNat_eq rfl).symm

theorem minMaxF_nan_nan {x y : Word} (mx : Bool) (hx : fp32 x = .nan) (hy : fp32 y = .nan) :
    minMaxF ffFP32 mx x.toNat y.toNat = 0x7FC00000 := by
  unfold fp32 at hx hy
  simp only [minMaxF, hx, hy, isNaN_nan]
  rfl
theorem minMaxF_nan_left {x y : Word} (mx : Bool) (hx : fp32 x = .nan) (hy : fp32 y ≠ .nan) :
    minMaxF ffFP32 mx x.toNat y.toNat = y.toNat := by
  unfold fp32 at hx hy
  simp only [minMaxF, hx, isNaN_nan, isNaN_eq_false hy]
theorem minMaxF_nan_right {x y : Word} (mx : Bool) (hx : fp32 x ≠ .nan) (hy : fp32 y = .nan) :
    minMaxF ffFP32 mx x.toNat y.toNat = x.toNat := by
  unfold fp32 at hx hy
  simp only [minMaxF, hy, isNaN_nan, isNaN_eq_false hx]
/-- Of two values that are no NaN the order of R261 chooses, and the first operand stands when it is undecided. -/
theorem minMaxF_ordered {x y : Word} (mx : Bool) (hx : fp32 x ≠ .nan) (hy : fp32 y ≠ .nan) :
    minMaxF ffFP32 mx x.toNat y.toNat = if (ltTot (fp32 x) (fp32 y)) != mx then x.toNat
      else if ltTot (fp32 x) (fp32 y) == ltTot (fp32 y) (fp32 x) then x.toNat else y.toNat := by
  unfold fp32 at hx hy ⊢
  simp only [minMaxF, isNaN_eq_false hx, isNaN_eq_false hy]

theorem fcmp32_nan {x y : Word} (h : fp32 x = .nan ∨ fp32 y = .nan) : fcmp32 x y = 8 := by
  rcases h with h | h <;> simp [fcmp32, h, isNaN_nan]
theorem fcmp32_ordered {x y : Word} (hx : fp32 x ≠ .nan) (hy : fp32 y ≠ .nan) :
    fcmp32 x y = if cmpFV (fp32 x) (fp32 y) = 0 then 1 else if cmpFV (fp32 x) (fp32 y) < 0 then 2 else 4 := by
  simp [fcmp32, isNaN_eq_false hx, isNaN_eq_false hy]

theorem compares_nan_nan {x y : Word} (hx : fp32 x = .nan) (hy : fp32 y = .nan) : Compares x y 0x7FC00000 0x7FC00000 8 := by
  refine ⟨?_, ?_, fcmp32_nan (.inl hx)⟩ <;> rw [minMaxF_nan_nan _ hx hy] <;> rfl
theorem compares_nan_left {x y : Word} (hx : fp32 x = .nan) (hy : fp32 y ≠ .nan) : Compares x y y y 8 := by
  refine ⟨?_, ?_, fcmp32_nan (.inl hx)⟩ <;> rw [minMaxF_nan_left _ hx hy, w32_toNat]
theorem compares_nan_right {x y : Word} (hx : fp32 x ≠ .nan) (hy : fp32 y = .nan) : Compares x y x x 8 := by
  refine ⟨?_, ?_, fcmp32_nan (.inr hy)⟩ <;> rw [minMaxF_nan_right _ hx hy, w32_toNat]

section
variable {x y : Word} (hx : fp32 x ≠ .nan) (hy : fp32 y ≠ .nan)
include hx hy

theorem compares_of_neg (h : cmpFV (fp32 x) (fp32 y) < 0) : Compares x y x y 2 := by
  have h' : 0 < cmpFV (fp32 y) (fp32 x) := by rw [cmpFV_swap]; omega
  have hz : cmpFV (fp32 x) (fp32 y) ≠ 0 := by omega
  rw [Compares, minMaxF_ordered _ hx hy, minMaxF_ordered _ hx hy, fcmp32_ordered hx hy, ltTot_of_cmp_neg h,
    ltTot_of_cmp_pos h', if_neg hz, if_pos h]
  exact ⟨w32_toNat x, w32_toNat y, rfl⟩
theorem compares_of_pos (h : 0 < cmpFV (fp32 x) (fp32 y)) : Compares x y y x 4 := by
  have h' : cmpFV (fp32 y) (fp32 x) < 0 := by rw [cmpFV_swap]; omega
  have hz : cmpFV (fp32 x) (fp32 y) ≠ 0 := by omega
  have hn : ¬cmpFV (fp32 x) (fp32 y) < 0 := by omega
  rw [Compares, minMaxF_ordered _ hx hy, minMaxF_ordered _ hx hy, fcmp32_ordered hx hy, ltTot_of_cmp_pos h,
    ltTot_of_cmp_neg h', if_neg hz, if_neg hn]
  exact ⟨w32_toNat y, w32_toNat x, rfl⟩
/-- Equal values: the signs of two zeros decide, and otherwise the first operand stands. -/
theorem compares_of_zero (h : cmpFV (fp32 x) (fp32 y) = 0) :
    Compares x y (if negBit (fp32 y) && !negBit (fp32 x) then y else x)
      (if negBit (fp32 x) && !negBit (fp32 y) then y else x) 1 := by
  have h' : cmpFV (fp32 y) (fp32 x) = 0 := by rw [cmpFV_swap, h]; rfl
  rw [Compares, minMaxF_ordered _ hx hy, minMaxF_ordered _ hx hy, fcmp32_ordered hx hy, ltTot_of_cmp_zero h,
    ltTot_of_cmp_zero h', h]
  cases negBit (fp32 x) <;> cases negBit (fp32 y) <;> exact ⟨w32_toNat _, w32_toNat _, rfl⟩
end

/-- Two numbers: the rationals decide, and of equal ones the sign. -/
theorem compares_of_rat {x y : Word} {p q : Rat} (hp : (fp32 x).rat = some p) (hq : (fp32 y).rat = some q) :
    Compares x y (if p < q ∨ (p = q ∧ x.getLsbD 31 = true) then x else y)
      (if p < q ∨ (p = q ∧ x.getLsbD 31 = true) then y else x) (if p = q then 1 else if p < q then 2 else 4) := by
  have hx : fp32 x ≠ .nan := fun h => by rw [h] at hp; cases hp
  have hy : fp32 y ≠ .nan := fun h => by rw [h] at hq; cases hq
  have hc := cmpFV_of_rat hp hq
  by_cases hlt : p < q
  · rw [if_pos hlt] at hc
    rw [if_pos (.inl hlt), if_pos (.inl hlt), if_neg fun h : p = q => Rat.lt_irrefl (h ▸ hlt), if_pos hlt]
    exact compares_of_neg hx hy (by rw [hc]; decide)
  · rw [if_neg hlt] at hc
    by_cases hgt : q < p
    · have hne : p ≠ q := fun h => Rat.lt_irrefl (h ▸ hgt)
      have hn : ¬(p < q ∨ (p = q ∧ x.getLsbD 31 = true)) := fun h => h.elim hlt fun h' => hne h'.1
      rw [if_pos hgt] at hc
      rw [if_neg hn, if_neg hn, if_neg hne, if_neg hlt]
      exact compares_of_pos hx hy (by rw [hc]; decide)
    · have heq : p = q := Rat.le_antisymm (Rat.not_lt.1 hgt) (Rat.not_lt.1 hlt)
      rw [if_neg hgt] at hc
      have hz := compares_of_zero hx hy hc
      obtain ⟨ma, ea, ha⟩ := exists_num_of_rat hp
      obtain ⟨mb, eb, hb⟩ := exists_num_of_rat hq
      have hs : negBit (fp32 x) = negBit (fp32 y) → x = y := fun h => fp32_eq_of_cmp_zero (h ▸ ha) hb hc
      have hd : (p < q ∨ (p = q ∧ x.getLsbD 31 = true)) ↔ negBit (fp32 x) = true := by
        rw [fp32_negBit hx]
        exact ⟨fun h => h.elim (absurd · hlt) And.right, fun h => .inr ⟨heq, h⟩⟩
      simp only [hd, if_pos heq]
      cases hnx : negBit (fp32 x) <;> cases hny : negBit (fp32 y) <;> rw [hnx, hny] at hz hs
      · obtain rfl := hs rfl; exact hz
      · exact hz
      · exact hz
      · obtain rfl := hs rfl; exact hz

theorem compares_inf_left {x y : Word} {n : Bool} (hx : fp32 x = .inf n) (hy : fp32 y ≠ .nan) (hi : fp32 y ≠ .inf n) :
    Compares x y (if n then x else y) (if n then y else x) (if n then 2 else 4) := by
  have hn : fp32 x ≠ .nan := by simp [hx]
  have hc := cmpFV_inf hy hi
  rw [← hx] at hc
  cases n with
  | true => exact compares_of_neg hn hy (by rw [hc]; decide)
  | false => exact compares_of_pos hn hy (by rw [hc]; decide)
theorem compares_inf_right {x y : Word} {n : Bool} (hy : fp32 y = .inf n) (hx : fp32 x ≠ .nan) (hi : fp32 x ≠ .inf n) :
    Compares x y (if n then y else x) (if n then x else y) (if n then 4 else 2) := by
  have hn : fp32 y ≠ .nan := by simp [hy]
  have hc := cmpFV_inf hx hi
  rw [← hy, cmpFV_swap] at hc
  cases n with
  | true => exact compares_of_pos hx hn (by simp at hc; omega)
  | false => exact compares_of_neg hx hn (by simp at hc; omega)
theorem compares_inf_inf {x y : Word} {n : Bool} (hx : fp32 x = .inf n) (hy : fp32 y = .inf n) : Compares x y x x 1 := by
  have hz := compares_of_zero (x := x) (y := y) (by simp [hx]) (by simp [hy]) (by simp [hx, hy, cmpFV])
  simpa [hx, hy] using hz

/-- Settles O4: the arithmetic and conversions are `floatOp` of the exact result delivered; FMIN, FMAX and FCMP follow the
order of the values. -/
theorem scalarFloatResultsAndTrap : Obligations.ScalarFloatResultsAndTrap := by
  unfold Obligations.ScalarFloatResultsAndTrap
  refine ⟨⟨fun s d a b c m hm => ⟨fun hr => ?_, fun hr => ?_⟩, fun s d a b hr hc => ?_⟩, fun s d a b hr => ?_⟩
  · exact ⟨floatOp_writesF (exec_fadd d a b s) hr hm rfl, floatOp_writesF (exec_fsub d a b s) hr hm rfl,
      floatOp_writesF (exec_fmul d a b s) hr hm rfl, floatOp_writesF (exec_ffma d a b s) hr hm rfl⟩
  · exact ⟨fcvt_writesF (exec_fcvt d a s c) hr hm fun _ => rfl, fcvt_writesF (exec_fcvti d a s) hr hm fun _ => rfl,
      fcvt_writesF (exec_fcvtf d a s) hr hm fun _ => rfl⟩
  · have hm := roundNoSr_eq_none hc
    exact ⟨floatOp_illegalRounding (exec_fadd d a b s) hr hm, floatOp_illegalRounding (exec_fsub d a b s) hr hm,
      floatOp_illegalRounding (exec_fmul d a b s) hr hm, floatOp_illegalRounding (exec_ffma d a b s) hr hm⟩
  · exact ⟨fun hx hy => (compares_nan_nan hx hy).writesS hr, fun hx hy => (compares_nan_left hx hy).writesS hr,
      fun hx hy => (compares_nan_right hx hy).writesS hr, fun p q hp hq => (compares_of_rat hp hq).writesS hr,
      fun n hx hy hi => (compares_inf_left hx hy hi).writesS hr, fun n hy hx hi => (compares_inf_right hy hx hi).writesS hr,
      fun n hx hy => (compares_inf_inf hx hy).writesS hr⟩

end Sys2Proof.Machine
end

section
/-! ## Branches (R24, R25, R263, R264, R266) -/
namespace Sys2Proof.Machine

/-! ### Taken and not taken -/

theorem ccFault_eq (c : Cause) (s : State) :
    ccFault c 0 s = .next (takeTrap { c := c, iaddr := s.b.pc, cutPc := s.b.pc } s) := rfl

theorem takenTo_of_branchTo {i : Instr} {s : State} {t : Word} {f : State → State} (he : exec i s = branchTo t f s) :
    TakenTo i s t (f s) := by
  rw [branchTo] at he
  rw [TakenTo]
  split
  · rename_i h; rw [he, if_pos h, ccFault_eq]
  · rename_i h; rw [Retires, he, if_neg h]

section
variable {i : Instr} {s : State} {c : Bool} {n : Nat} {t : Word} {f : State → State}

theorem takenTo_of_branchIf (he : exec i s = branchIf c n t f s) (hc : c = true) : TakenTo i s t (f s) :=
  takenTo_of_branchTo (by rw [he, branchIf, if_pos hc])
theorem retires_of_branchIf (he : exec i s = branchIf c n t f s) (hc : c = false) (hf : (f s).b.after n = nextPc s n) :
    Retires i s (nextPc s n) (f s) := by
  rw [Retires, he, branchIf, hc, if_neg Bool.false_ne_true, retire, hf]
end

/-! ### The branch instructions -/

section
variable {s : State} {a : Opnd} (o : BitVec 13) (hr : s.b.held (opRegs a) = false)
include hr

theorem exec_bcNz : exec (.bcNz a o) s = branchIf (s.b.op32 a != 0) (1 + litN a) (cbTarget s.b o) id s := ccDo_ready hr
theorem exec_bcZ : exec (.bcZ a o) s = branchIf (s.b.op32 a == 0) (1 + litN a) (cbTarget s.b o) id s := ccDo_ready hr
theorem exec_jr : exec (.jr a) s = branchTo (s.b.op32 a &&& 0xFFFFFFFC) id s := ccDo_ready hr

/-- A BCQ selector above 64 is refused before the queue is looked at. -/
theorem bcq_illegalOperand (any : Bool) (h : 64 < (s.b.op32 a).toNat) :
    bcq any a o s = .next (takeTrap { c := .illegalOperand, iaddr := s.b.pc, cutPc := s.b.pc } s) := by
  rw [bcq, ccDo_ready hr]
  exact if_pos h
theorem bcq_empty (any : Bool) (h : (s.b.op32 a).toNat ≤ 64) (hq : s.b.cq = []) : bcq any a o s = .next s := by
  rw [bcq, ccDo_ready hr]
  dsimp only
  rw [if_neg (by omega), hq]
end

/-- The burner after BCQ takes the head of its condition queue, whose remaining entries are rest. -/
def Burner.popCq (rest : List DWord) (b : Burner) : Burner :=
  { b with cq := rest, cqc := b.cqc.drop 1, knows := b.knows.join (b.cqc.headD {}) }

theorem bcq_head {s : State} {a : Opnd} (o : BitVec 13) (hr : s.b.held (opRegs a) = false) (any : Bool) {h : DWord}
    {rest : List DWord} (hk : (s.b.op32 a).toNat ≤ 64) (hq : s.b.cq = h :: rest) :
    bcq any a o s = branchIf (bcqHit (s.b.op32 a) h == any) (1 + litN a) (cbTarget s.b o) (·.modB (Burner.popCq rest)) s := by
  rw [bcq, ccDo_ready hr]
  dsimp only
  rw [if_neg (by omega), hq]
  rfl

/-- R266: selector 0 covers all 64 bits. -/
theorem bcqHit_iff (k : Word) (e : DWord) :
    bcqHit k e = true ↔ if k = 0 then e ≠ 0 else e.getLsbD (k.toNat - 1) = true := by
  rw [bcqHit]
  split <;> simp

/-- BCQ.any branches exactly where BCQ.none falls through; both take the entry. -/
theorem bcq_pair {s : State} {a : Opnd} (o : BitVec 13) (hr : s.b.held (opRegs a) = false) {h : DWord} {rest : List DWord}
    (hk : (s.b.op32 a).toNat ≤ 64) (hq : s.b.cq = h :: rest) :
    (bcqHit (s.b.op32 a) h = true → TakenTo (.bcqAny a o) s (cbTarget s.b o) (s.modB (Burner.popCq rest)) ∧
      Retires (.bcqNone a o) s (nextPc s (1 + litN a)) (s.modB (Burner.popCq rest))) ∧
    (¬bcqHit (s.b.op32 a) h = true → TakenTo (.bcqNone a o) s (cbTarget s.b o) (s.modB (Burner.popCq rest)) ∧
      Retires (.bcqAny a o) s (nextPc s (1 + litN a)) (s.modB (Burner.popCq rest))) := by
  have hany : exec (.bcqAny a o) s = _ := bcq_head o hr true hk hq
  have hnone : exec (.bcqNone a o) s = _ := bcq_head o hr false hk hq
  refine ⟨fun hit => ?_, fun miss => ?_⟩
  · exact ⟨takenTo_of_branchIf hany (by rw [hit]; rfl), retires_of_branchIf hnone (by rw [hit]; rfl) rfl⟩
  · rw [Bool.not_eq_true] at miss
    exact ⟨takenTo_of_branchIf hnone (by rw [miss]; rfl), retires_of_branchIf hany (by rw [miss]; rfl) rfl⟩

theorem exec_bevSet (e : BitVec 6) (o : BitVec 13) (s : State) :
    exec (.bevSet e o) s = branchIf (s.b.ev.getLsbD e.toNat) 1 (cbTarget s.b o) id s := rfl
theorem exec_bevClr (e : BitVec 6) (o : BitVec 13) (s : State) :
    exec (.bevClr e o) s = branchIf (!s.b.ev.getLsbD e.toNat) 1 (cbTarget s.b o) id s := rfl
theorem exec_b (o : BitVec 24) (s : State) : exec (.b o) s = branchTo (cjTarget s.b o) id s := rfl
theorem exec_ret {s : State} (hr : s.b.held [63] = false) : exec .ret s = branchTo (s.b.getS 63 &&& 0xFFFFFFFC) id s :=
  ccDo_ready hr
theorem exec_call (o : BitVec 24) {s : State} (hr : s.b.held [63] = false) :
    exec (.call o) s = branchTo (cjTarget s.b o) (fun s => s.modB fun b => b.setS 63 (s.b.after 1)) s := ccDo_ready hr

theorem bcNz_branches {s : State} {a : Opnd} (o : BitVec 13) (hr : s.b.held (opRegs a) = false) :
    if s.b.op32 a ≠ 0 then TakenTo (.bcNz a o) s (cbTarget s.b o) s else Retires (.bcNz a o) s (nextPc s (1 + litN a)) s := by
  split
  · rename_i h; exact takenTo_of_branchIf (exec_bcNz o hr) (by simpa using h)
  · rename_i h; exact retires_of_branchIf (exec_bcNz o hr) (by simpa using h) rfl
theorem bcZ_branches {s : State} {a : Opnd} (o : BitVec 13) (hr : s.b.held (opRegs a) = false) :
    if s.b.op32 a = 0 then TakenTo (.bcZ a o) s (cbTarget s.b o) s else Retires (.bcZ a o) s (nextPc s (1 + litN a)) s := by
  split
  · rename_i h; exact takenTo_of_branchIf (exec_bcZ o hr) (by simpa using h)
  · rename_i h; exact retires_of_branchIf (exec_bcZ o hr) (by simpa using h) rfl
theorem bev_branches (e : BitVec 6) (o : BitVec 13) (s : State) :
    if s.b.ev.getLsbD e.toNat then TakenTo (.bevSet e o) s (cbTarget s.b o) s ∧ Retires (.bevClr e o) s (nextPc s 1) s
    else TakenTo (.bevClr e o) s (cbTarget s.b o) s ∧ Retires (.bevSet e o) s (nextPc s 1) s := by
  split
  · rename_i h
    exact ⟨takenTo_of_branchIf (exec_bevSet e o s) h, retires_of_branchIf (exec_bevClr e o s) (by rw [h]; rfl) rfl⟩
  · rename_i h
    rw [Bool.not_eq_true] at h
    exact ⟨takenTo_of_branchIf (exec_bevClr e o s) (by rw [h]; rfl), retires_of_branchIf (exec_bevSet e o s) h rfl⟩

/-! ## What the trace unit and a passed front leave of the acting burner -/

/-- A trace record touches nothing of its burner but the count of lost records (R391). -/
theorem traceEv_b (s : State) (bit kind : Nat) (pc a bb c : Word) :
    ∃ n, (s.traceEv bit kind pc a bb c).b = { s.b with trlost := n } := by
  unfold State.traceEv
  split
  · exact ⟨_, rfl⟩
  · dsimp only
    split
    · by_cases h : s.b.is s.b.core s.b.bur = true
      · exact ⟨_, if_pos h⟩
      · exact ⟨_, if_neg h⟩
    · exact ⟨_, rfl⟩

theorem other_eq_none_iff (s : State) : s.other = none ↔ ∀ o ∈ s.others, o.is s.b.core (1 - s.b.bur) = false := by
  simp [State.other]

theorem loseRec_other (r : TrcRec) {s : State} (h : s.other = none) : (loseRec r s).other = none := by
  rw [other_eq_none_iff] at h ⊢
  obtain ⟨hcore, hbur⟩ : (loseRec r s).b.core = s.b.core ∧ (loseRec r s).b.bur = s.b.bur := by
    constructor <;> simp only [loseRec, State.modTrace, State.modAt, State.modWhere] <;> split <;> rfl
  rw [hcore, hbur]
  simp only [loseRec, State.modTrace, State.modAt, State.modWhere, List.mem_map, forall_exists_index, and_imp,
    forall_apply_eq_imp_iff₂]
  intro o ho
  split <;> exact h o ho
theorem traceEv_other {s : State} (bit kind : Nat) (pc a bb c : Word) (h : s.other = none) :
    (s.traceEv bit kind pc a bb c).other = none := by
  unfold State.traceEv
  split
  · exact h
  · dsimp only
    split
    · exact loseRec_other _ h
    · exact h

theorem withdrawLoad_eq (b : Burner) : b.withdrawLoad = { b with carry := none, qs := b.withdrawLoad.qs } := by
  unfold Burner.withdrawLoad
  dsimp only
  split
  · rfl
  · split <;> rfl

theorem surrender_b (s : State) : ∃ n, s.surrender.b = { s.b with slotM := n } := by
  unfold State.surrender
  dsimp only
  split
  · exact ⟨_, rfl⟩
  · exact ⟨_, rfl⟩
theorem surrender_others (s : State) : s.surrender.others = s.others := by
  unfold State.surrender
  dsimp only
  split <;> rfl

theorem leaveFront_b (s : State) (why : Nat) :
    ∃ n m, (s.leaveFront why).b = { s.b with front := false, slotM := n, trlost := m } := by
  obtain ⟨n, hn⟩ := surrender_b { s with b := { s.b with front := false } }
  unfold State.leaveFront
  dsimp only
  split
  · obtain ⟨m, hm⟩ := traceEv_b { s with b := { s.b with front := false } }.surrender 2 3
      { s with b := { s.b with front := false } }.surrender.b.pc 0 (w32 why) 0
    exact ⟨n, m, by rw [hm, hn]⟩
  · exact ⟨n, s.b.trlost, hn⟩
theorem leaveFront_other {s : State} (why : Nat) (h : s.other = none) : (s.leaveFront why).other = none := by
  have ht : { s with b := { s.b with front := false } }.surrender.other = none := by
    obtain ⟨n, hn⟩ := surrender_b { s with b := { s.b with front := false } }
    rw [State.other, surrender_others, hn]
    exact h
  unfold State.leaveFront
  dsimp only
  split
  · exact traceEv_other _ _ _ _ _ _ ht
  · exact ht

/-- Leaving the front of a core without another burner: nothing comes to the front, and the burner keeps its registers. -/
theorem passFront_alone {s : State} (why : Nat) (h : s.other = none) :
    ∃ n m q, (s.passFront why).b = { s.b with front := false, carry := none, qs := q, sbuf := [], slotM := n, trlost := m } := by
  have hb : (s.modB Burner.withdrawLoad).drain.b = { s.b with carry := none, qs := s.b.withdrawLoad.qs, sbuf := [] } := by
    show { s.b.withdrawLoad with sbuf := [] } = _
    rw [withdrawLoad_eq]
  have ho : (s.modB Burner.withdrawLoad).drain.other = none := by
    rw [State.other, hb]
    exact h
  obtain ⟨n, m, hl⟩ := leaveFront_b (s.modB Burner.withdrawLoad).drain why
  refine ⟨n, m, s.b.withdrawLoad.qs, ?_⟩
  simp only [State.passFront, leaveFront_other why ho]
  rw [hl, hb]

theorem traceEv_passFront_alone {s : State} (bit kind : Nat) (pc a bb c : Word) (why : Nat) (h : s.other = none) :
    ∃ n m q, ((s.traceEv bit kind pc a bb c).passFront why).b =
      { s.b with front := false, carry := none, qs := q, sbuf := [], slotM := n, trlost := m } := by
  obtain ⟨n, m, q, hp⟩ := passFront_alone why (traceEv_other bit kind pc a bb c h)
  obtain ⟨l, hl⟩ := traceEv_b s bit kind pc a bb c
  exact ⟨n, m, q, by rw [hp, hl]⟩

/-! ## Loops (R267, R268) -/

theorem ltrN_eq (w : Word) : ltrN w = w.toNat % 2 ^ 27 := by simp [ltrN, BitVec.extractLsb'_toNat]
theorem ltrS1_eq (w : Word) : ltrS1 w = w.toNat / 2 ^ 27 % 4 := by
  simp [ltrS1, BitVec.extractLsb'_toNat, Nat.shiftRight_eq_div_pow]
theorem ltrOk_iff (w : Word) :
    ltrOk w = true ↔ w.toNat / 2 ^ 29 = 0 ∧ w.toNat % 2 ^ 27 + w.toNat / 2 ^ 27 % 4 ≤ 2 ^ 27 - 1 := by
  have hw := w.isLt
  rw [ltrOk, ltrN_eq, ltrS1_eq, Bool.and_eq_true, decide_eq_true_eq, beq_iff_eq, ← BitVec.toNat_inj, BitVec.extractLsb'_toNat,
    Nat.shiftRight_eq_div_pow]
  refine and_congr_left' ?_
  rw [Nat.mod_eq_of_lt (by omega)]
  rfl

/-- Bit j of a sum of chosen powers of two says whether 2^j was chosen. -/
theorem sumNat_two_pow_getLsbD (c : Nat → Bool) {j : Nat} (hj : j < 4) :
    (BitVec.ofNat 4 (sumNat ((List.range 4).map fun k => if c k then 2 ^ k else 0))).getLsbD j = c j := by
  have table : ∀ c0 c1 c2 c3 : Bool, ∀ i : Fin 4, (BitVec.ofNat 4 (sumNat [if c0 then 2 ^ 0 else 0, if c1 then 2 ^ 1 else 0,
      if c2 then 2 ^ 2 else 0, if c3 then 2 ^ 3 else 0])).getLsbD i = [c0, c1, c2, c3][i] := by decide
  refine (table (c 0) (c 1) (c 2) (c 3) ⟨j, hj⟩).trans ?_
  rcases (by omega : j = 0 ∨ j = 1 ∨ j = 2 ∨ j = 3) with rfl | rfl | rfl | rfl <;> rfl
theorem loopSP_getLsbD (ltr : Word) (iter : Nat) {j : Nat} (hj : j < 4) :
    (loopSP ltr iter).getLsbD j = decide (j ≤ ltrS1 ltr ∧ j ≤ iter ∧ iter - j < ltrN ltr) := by
  simpa [loopSP, Bool.decide_and, Bool.and_assoc] using sumNat_two_pow_getLsbD
    (fun k => decide (k ≤ ltrS1 ltr) && decide (k ≤ iter) && decide (iter - k < ltrN ltr)) hj

theorem toNat_append_eq_add {m n : Nat} (x : BitVec m) (y : BitVec n) : (x ++ y).toNat = 2 ^ n * x.toNat + y.toNat := by
  rw [BitVec.toNat_append, ← Nat.shiftLeft_add_eq_or_of_lt y.isLt, Nat.shiftLeft_eq, Nat.mul_comm]

theorem lstWord_toNat (ltr : Word) {iter : Nat} (h : iter < 2 ^ 27) :
    (lstWord ltr iter).toNat = 2 ^ 27 * (2 ^ 4 * 1 + (loopSP ltr iter).toNat) + iter := by
  unfold lstWord
  rw [toNat_append_eq_add, toNat_append_eq_add, BitVec.toNat_ofNat, BitVec.toNat_ofNat, Nat.mod_eq_of_lt h]
theorem lstWord_iter (ltr : Word) {iter : Nat} (h : iter < 2 ^ 27) : (lstWord ltr iter).toNat % 2 ^ 27 = iter := by
  rw [lstWord_toNat ltr h]
  omega
theorem lstWord_active (ltr : Word) {iter : Nat} (h : iter < 2 ^ 27) : (lstWord ltr iter).getLsbD 31 = true := by
  rw [BitVec.getLsbD, lstWord_toNat ltr h, Nat.testBit_two_pow_mul_add _ h, if_neg (by decide),
    Nat.testBit_two_pow_mul_add _ (loopSP ltr iter).isLt, if_neg (by decide)]
  rfl
theorem lstWord_stage (ltr : Word) {iter j : Nat} (h : iter < 2 ^ 27) (hj : j < 4) :
    (lstWord ltr iter).getLsbD (27 + j) = (loopSP ltr iter).getLsbD j := by
  rw [BitVec.getLsbD, lstWord_toNat ltr h, Nat.testBit_two_pow_mul_add _ h, if_neg (by omega), Nat.add_sub_cancel_left,
    Nat.testBit_two_pow_mul_add _ (loopSP ltr iter).isLt, if_pos hj]
  rfl

theorem loopWord_toNat (taken : Bool) (sp : BitVec 4) {iter : Nat} (h : iter < 2 ^ 27) :
    (loopWord taken sp iter).toNat = (if taken then 2 ^ 31 else 0) + sp.toNat * 2 ^ 27 + iter := by
  unfold loopWord
  rw [toNat_append_eq_add, toNat_append_eq_add, BitVec.toNat_ofBool, BitVec.toNat_ofNat, Nat.mod_eq_of_lt h]
  cases taken
  · simp only [Bool.toNat_false, Bool.false_eq_true, if_false]; omega
  · simp only [Bool.toNat_true, if_true]; omega

/-! ### What a LOOP decides, from LSTk, LTRk and the value v of its operand (R268) -/

/-- LTRk of the pass: kept while the loop is active, otherwise what it arms with. -/
def Burner.loopLtr (b : Burner) (k : BitVec 4) (v : Word) : Word := if (b.getLst k).getLsbD 31 then b.getLtr k else v
/-- The new ITER. -/
def Burner.loopIter (b : Burner) (k : BitVec 4) : Nat :=
  ((if (b.getLst k).getLsbD 31 then (b.getLst k).toNat % 2 ^ 27 else 0) + 1) % 2 ^ 27
/-- Whether passes remain. -/
def Burner.loopTaken (b : Burner) (k : BitVec 4) (v : Word) : Bool :=
  decide (b.loopIter k < (b.loopLtr k v).toNat % 2 ^ 27 + (b.loopLtr k v).toNat / 2 ^ 27 % 4)
/-- The loop word of R385, as a number. -/
def Burner.loopRecord (b : Burner) (k : BitVec 4) (v : Word) : Nat :=
  (if b.loopTaken k v then 2 ^ 31 else 0) +
    (if (b.getLst k).getLsbD 31 then (b.getLst k).toNat / 2 ^ 27 % 16 else 0) * 2 ^ 27 + b.loopIter k
/-- The new LSTk. -/
def Burner.loopLst (b : Burner) (k : BitVec 4) (v : Word) : Word :=
  if b.loopTaken k v then lstWord (b.loopLtr k v) (b.loopIter k) else 0
/-- Where decoding goes on. -/
def Burner.loopNext (b : Burner) (k : BitVec 4) (a : Opnd) (o : BitVec 13) : Word :=
  if b.loopTaken k (b.op32 a) then cbTarget b o else b.after (1 + litN a)
/-- The state with the loop's registers advanced and its LOOP record written (R390). -/
def State.looped (s : State) (k : BitVec 4) (v : Word) : State :=
  (s.modB fun b => b.setLoop k (s.b.loopLtr k v) (s.b.loopLst k v)).traceEv 0 0 s.b.pc (k.setWidth 32)
    (w32 (s.b.loopRecord k v)) 0

theorem loopIter_lt (b : Burner) (k : BitVec 4) : b.loopIter k < 2 ^ 27 := Nat.mod_lt _ (by decide)
theorem loopIter_eq (b : Burner) (k : BitVec 4) :
    ((if (b.getLst k).getLsbD 31 then ((b.getLst k).extractLsb' 0 27).toNat else 0) + 1) % 2 ^ 27 = b.loopIter k := by
  rw [Burner.loopIter, BitVec.extractLsb'_toNat, Nat.shiftRight_zero]
theorem loopLtr_eq (b : Burner) (k : BitVec 4) (v : Word) :
    (if (b.getLst k).getLsbD 31 then b.getLtr k else v) = b.loopLtr k v := rfl
theorem loopLst_eq (b : Burner) (k : BitVec 4) (v : Word) :
    (if b.loopTaken k v then lstWord (b.loopLtr k v) (b.loopIter k) else 0) = b.loopLst k v := rfl
theorem loopNext_eq (b : Burner) (k : BitVec 4) (a : Opnd) (o : BitVec 13) :
    (if b.loopTaken k (b.op32 a) then cbTarget b o else b.after (1 + litN a)) = b.loopNext k a o := rfl
theorem loopTaken_eq (b : Burner) (k : BitVec 4) (v : Word) :
    decide (b.loopIter k < ltrN (b.loopLtr k v) + ltrS1 (b.loopLtr k v)) = b.loopTaken k v := by
  rw [Burner.loopTaken, ltrN_eq, ltrS1_eq]
theorem loopWord_toNat_eq_record (b : Burner) (k : BitVec 4) (v : Word) :
    (loopWord (b.loopTaken k v) (if (b.getLst k).getLsbD 31 then (b.getLst k).extractLsb' 27 4 else 0) (b.loopIter k)).toNat =
      b.loopRecord k v := by
  rw [loopWord_toNat _ _ (loopIter_lt b k), Burner.loopRecord, apply_ite BitVec.toNat, BitVec.extractLsb'_toNat,
    Nat.shiftRight_eq_div_pow]
  rfl

theorem loopRecord_lt (b : Burner) (k : BitVec 4) (v : Word) : b.loopRecord k v < 2 ^ 32 :=
  loopWord_toNat_eq_record b k v ▸ (loopWord _ _ _).isLt
theorem loopWord_eq_record (b : Burner) (k : BitVec 4) (v : Word) :
    loopWord (b.loopTaken k v) (if (b.getLst k).getLsbD 31 then (b.getLst k).extractLsb' 27 4 else 0) (b.loopIter k) =
      BitVec.ofNat 32 (b.loopRecord k v) := eq_ofNat_of_toNat_eq (loopWord_toNat_eq_record b k v)
/-- The address of a loop stop: the identifier over the loop word. -/
theorem loopAddr_eq (b : Burner) (k : BitVec 4) (v : Word) :
    k.setWidth 32 ++ BitVec.ofNat 32 (b.loopRecord k v) = w64 (k.toNat * 2 ^ 32 + b.loopRecord k v) := by
  refine eq_ofNat_of_toNat_eq ?_
  rw [toNat_append_eq_add, BitVec.toNat_ofNat, Nat.mod_eq_of_lt (loopRecord_lt b k v), BitVec.toNat_setWidth_of_le (by decide),
    Nat.mul_comm]

theorem loopStops_iff (b : Burner) (k : BitVec 4) (iter : Nat) : b.loopStops k iter = true ↔
    b.te = false ∧ b.dLse = true ∧ b.dLid = k ∧ (b.dLae = true ∨ b.diter.toNat % 2 ^ 27 = iter) := by
  rw [Burner.loopStops, BitVec.extractLsb'_toNat, Nat.shiftRight_zero]
  simp only [Bool.and_eq_true, Bool.or_eq_true, Bool.not_eq_true', beq_iff_eq, and_assoc]
theorem stopWaits_iff (b : Burner) :
    (b.dQd && !b.queuesEmpty) = true ↔ b.dQd = true ∧ ¬(b.ql = [] ∧ b.qx = [] ∧ b.qs = []) := by
  simp only [Burner.queuesEmpty, Bool.and_eq_true, Bool.not_eq_true', ← Bool.not_eq_true, List.isEmpty_iff, and_assoc]

/-- LOOP whose operand may be read: its four ends in the order of their tests. -/
theorem exec_loop {s : State} {k : BitVec 4} {a : Opnd} (o : BitVec 13)
    (h : (s.b.getLst k).getLsbD 31 = true ∨ s.b.held (opRegs a) = false) :
    exec (.loop k a o) s =
      if !(s.b.getLst k).getLsbD 31 && !ltrOk (s.b.op32 a) then ccFault .illegalOperand 0 s
      else if s.b.loopTaken k (s.b.op32 a) && orphan s.b (cbTarget s.b o) then ccFault .orphanPfx 0 s
      else if s.b.loopStops k (s.b.loopIter k) && s.b.dQd && !s.b.queuesEmpty then .next s
      else
        let t := retireAt (s.b.loopNext k a o) (s.looped k (s.b.op32 a))
        .next (if s.b.loopStops k (s.b.loopIter k) then
            debugStop (w64 (k.toNat * 2 ^ 32 + s.b.loopRecord k (s.b.op32 a))) s.b.pc (s.b.loopNext k a o) t
          else t) := by
  have hr : s.b.held (if (s.b.getLst k).getLsbD 31 then [] else opRegs a) = false := by
    split
    · simp [Burner.held]
    · rename_i hact; exact h.resolve_left hact
  show execLoop k a o s = _
  rw [execLoop]
  dsimp only
  rw [ccDo_ready hr]
  simp only [loopIter_eq, loopLtr_eq, loopTaken_eq, loopLst_eq, loopNext_eq, retireAt_pc, loopWord_eq_record,
    BitVec.ofNat_toNat, loopAddr_eq, State.looped]

/-- The operand may arm the loop, or the loop is active and does not read it. -/
def Burner.loopFits (b : Burner) (k : BitVec 4) (v : Nat) : Prop :=
  (b.getLst k).getLsbD 31 = true ∨ (v / 2 ^ 29 = 0 ∧ v % 2 ^ 27 + v / 2 ^ 27 % 4 ≤ 2 ^ 27 - 1)
theorem loopFits_iff (b : Burner) (k : BitVec 4) (v : Word) :
    b.loopFits k v.toNat ↔ (!(b.getLst k).getLsbD 31 && !ltrOk v) = false := by
  rw [Burner.loopFits, ← ltrOk_iff]
  cases (b.getLst k).getLsbD 31 <;> simp

/-! ### A stop (R385) -/

theorem debugStop_trap {s : State} (h : s.b.dDm = false) (addr : DWord) (iaddr cutPc : Word) :
    debugStop addr iaddr cutPc s = takeTrap { c := .debugStop, addr := addr, iaddr := iaddr, cutPc := cutPc } s := by
  rw [debugStop, h]
  rfl
/-- DM = 1 on a core without another burner: the burner is held with the trap's registers set and its own as they were. -/
theorem debugStop_held {s : State} (h : s.b.dDm = true) (ho : s.other = none) (addr : DWord) (iaddr cutPc : Word) :
    ∃ r n m c q, (debugStop addr iaddr cutPc s).b = { s.b with
      trec0 := r, ntrap := n, slotM := m, trlost := c, qs := q, carry := none, sbuf := [], taddr := addr, tepc := cutPc
      tcause := ({ c := .debugStop } : TrapInfo).tcause, pc := cutPc, pfx := none, status := .held, front := false } := by
  rw [debugStop, if_pos h]
  exact ⟨_, _, traceEv_passFront_alone 1 1 iaddr _ (lo32 addr) _ 3 ho⟩
theorem debugStop_tcause : ({ c := .debugStop } : TrapInfo).tcause.toNat % 256 = Cause.debugStop.code := by decide

/-! ### The ends of LOOP -/

/-- A completed LOOP has touched LTRk, LSTk and, through its trace record, the count of lost records. -/
theorem looped_b (s : State) (k : BitVec 4) (v : Word) : ∃ n, (s.looped k v).b =
    { s.b with ltr := s.b.ltr.set k.toNat (s.b.loopLtr k v) k.isLt, lst := s.b.lst.set k.toNat (s.b.loopLst k v) k.isLt
               trlost := n } :=
  traceEv_b (s.modB fun b => b.setLoop k (s.b.loopLtr k v) (s.b.loopLst k v)) _ _ _ _ _ _
theorem looped_other {s : State} (k : BitVec 4) (v : Word) (h : s.other = none) : (s.looped k v).other = none :=
  traceEv_other (s := s.modB fun b => b.setLoop k (s.b.loopLtr k v) (s.b.loopLst k v)) _ _ _ _ _ _ h
theorem retireAt_looped_dDm (s : State) (k : BitVec 4) (v p : Word) : (retireAt p (s.looped k v)).b.dDm = s.b.dDm := by
  obtain ⟨n, hn⟩ := looped_b s k v
  rw [retireAt, hn]
  rfl
theorem looped_kept (s : State) (k : BitVec 4) (v : Word) : (s.looped k v).b.te = s.b.te ∧ (s.looped k v).b.s = s.b.s := by
  obtain ⟨n, hn⟩ := looped_b s k v
  rw [hn]
  exact ⟨rfl, rfl⟩
theorem looped_getLst (s : State) (k : BitVec 4) (v : Word) : (s.looped k v).b.getLst k = s.b.loopLst k v := by
  obtain ⟨n, hn⟩ := looped_b s k v
  rw [hn]
  exact Vector.getElem_set_self _
theorem looped_getLtr (s : State) (k : BitVec 4) (v : Word) : (s.looped k v).b.getLtr k = s.b.loopLtr k v := by
  obtain ⟨n, hn⟩ := looped_b s k v
  rw [hn]
  exact Vector.getElem_set_self _

/-- A loop stop is due (R385). -/
def Burner.stopDue (b : Burner) (k : BitVec 4) : Prop :=
  b.te = false ∧ b.dLse = true ∧ b.dLid = k ∧ (b.dLae = true ∨ b.diter.toNat % 2 ^ 27 = b.loopIter k)
/-- The stop waits for the queues. -/
def Burner.stopWaits (b : Burner) : Prop := b.dQd = true ∧ ¬(b.ql = [] ∧ b.qx = [] ∧ b.qs = [])

/-- The new LSTk of a loop with passes left: ITER, the active bit, and the stages at work. -/
theorem loopLst_taken {b : Burner} {k : BitVec 4} {v : Word} (ht : b.loopTaken k v = true) :
    (b.loopLst k v).toNat % 2 ^ 27 = b.loopIter k ∧ (b.loopLst k v).getLsbD 31 = true ∧
      ∀ j, j < 4 → (b.loopLst k v).getLsbD (27 + j) =
        decide (j ≤ (b.loopLtr k v).toNat / 2 ^ 27 % 4 ∧ j ≤ b.loopIter k ∧
          b.loopIter k - j < (b.loopLtr k v).toNat % 2 ^ 27) := by
  have hi := loopIter_lt b k
  rw [Burner.loopLst, if_pos ht]
  refine ⟨lstWord_iter _ hi, lstWord_active _ hi, fun j hj => ?_⟩
  rw [lstWord_stage _ hi hj, loopSP_getLsbD _ _ hj, ltrN_eq, ltrS1_eq]
theorem loopLst_ended {b : Burner} {k : BitVec 4} {v : Word} (ht : b.loopTaken k v = false) : b.loopLst k v = 0 := by
  rw [Burner.loopLst, ht]
  rfl

section
variable {s : State} {k : BitVec 4} {a : Opnd} (o : BitVec 13)
  (hr : (s.b.getLst k).getLsbD 31 = true ∨ s.b.held (opRegs a) = false)
include hr

theorem loop_illegalOperand (hf : ¬s.b.loopFits k (s.b.op32 a).toNat) :
    exec (.loop k a o) s = .next (takeTrap { c := .illegalOperand, iaddr := s.b.pc, cutPc := s.b.pc } s) := by
  rw [loopFits_iff, Bool.not_eq_false] at hf
  rw [exec_loop o hr, if_pos hf, ccFault_eq]

section
variable (hf : s.b.loopFits k (s.b.op32 a).toNat)
include hf

theorem loop_orphanPfx (ht : s.b.loopTaken k (s.b.op32 a) = true) (ho : orphan s.b (cbTarget s.b o) = true) :
    exec (.loop k a o) s = .next (takeTrap { c := .orphanPfx, iaddr := s.b.pc, cutPc := s.b.pc } s) := by
  rw [exec_loop o hr, (loopFits_iff _ _ _).1 hf, if_neg Bool.false_ne_true, ht, ho, Bool.and_self, if_pos rfl, ccFault_eq]

section
variable (ho : s.b.loopTaken k (s.b.op32 a) = true → orphan s.b (cbTarget s.b o) = false)
include ho

/-- What is left once the operand fits and the target is no orphan's: the stop. -/
theorem exec_loop_stop : exec (.loop k a o) s =
    if s.b.loopStops k (s.b.loopIter k) && s.b.dQd && !s.b.queuesEmpty then .next s
    else .next (if s.b.loopStops k (s.b.loopIter k) then
        debugStop (w64 (k.toNat * 2 ^ 32 + s.b.loopRecord k (s.b.op32 a))) s.b.pc (s.b.loopNext k a o)
          (retireAt (s.b.loopNext k a o) (s.looped k (s.b.op32 a)))
      else retireAt (s.b.loopNext k a o) (s.looped k (s.b.op32 a))) := by
  have hno : (s.b.loopTaken k (s.b.op32 a) && orphan s.b (cbTarget s.b o)) = false := by
    cases ht : s.b.loopTaken k (s.b.op32 a)
    · rfl
    · exact ho ht
  rw [exec_loop o hr, (loopFits_iff _ _ _).1 hf, if_neg Bool.false_ne_true, hno, if_neg Bool.false_ne_true]

theorem loop_waits (hd : s.b.stopDue k) (hw : s.b.stopWaits) : exec (.loop k a o) s = .next s := by
  rw [exec_loop_stop o hr hf ho, (loopStops_iff _ _ _).2 hd, Bool.true_and, if_pos ((stopWaits_iff _).2 hw)]
theorem loop_retires (hd : ¬s.b.stopDue k) :
    Retires (.loop k a o) s (s.b.loopNext k a o) (s.looped k (s.b.op32 a)) := by
  have hs : s.b.loopStops k (s.b.loopIter k) = false := Bool.not_eq_true _ ▸ fun h => hd ((loopStops_iff _ _ _).1 h)
  rw [Retires, exec_loop_stop o hr hf ho, hs]
  rfl
theorem exec_loop_due (hd : s.b.stopDue k) (hw : ¬s.b.stopWaits) : exec (.loop k a o) s = .next
    (debugStop (w64 (k.toNat * 2 ^ 32 + s.b.loopRecord k (s.b.op32 a))) s.b.pc (s.b.loopNext k a o)
      (retireAt (s.b.loopNext k a o) (s.looped k (s.b.op32 a)))) := by
  rw [exec_loop_stop o hr hf ho, (loopStops_iff _ _ _).2 hd, Bool.true_and, if_neg fun h => hw ((stopWaits_iff _).1 h),
    if_pos rfl]
theorem loop_debugStop (hd : s.b.stopDue k) (hw : ¬s.b.stopWaits) (hm : s.b.dDm = false) :
    exec (.loop k a o) s = .next (takeTrap
      { c := .debugStop, addr := w64 (k.toNat * 2 ^ 32 + s.b.loopRecord k (s.b.op32 a)), iaddr := s.b.pc
        cutPc := s.b.loopNext k a o } (retireAt (s.b.loopNext k a o) (s.looped k (s.b.op32 a)))) := by
  rw [exec_loop_due o hr hf ho hd hw, debugStop_trap ((retireAt_looped_dDm s k _ _).trans hm)]
/-- DM = 1: the burner is held where the loop leads, outside any handler, with its loop registers advanced. -/
theorem loop_held (hd : s.b.stopDue k) (hw : ¬s.b.stopWaits) (hm : s.b.dDm = true) :
    ∃ u, exec (.loop k a o) s = .next u ∧ (s.other = none →
      u.b.status = .held ∧ u.b.front = false ∧ u.b.te = false ∧ u.b.pc = s.b.loopNext k a o ∧ u.b.tepc = s.b.loopNext k a o ∧
      u.b.taddr = w64 (k.toNat * 2 ^ 32 + s.b.loopRecord k (s.b.op32 a)) ∧
      u.b.tcause.toNat % 256 = Cause.debugStop.code ∧ u.b.s = s.b.s ∧ u.b.getLst k = s.b.loopLst k (s.b.op32 a) ∧
      u.b.getLtr k = s.b.loopLtr k (s.b.op32 a)) := by
  refine ⟨_, exec_loop_due o hr hf ho hd hw, fun halone => ?_⟩
  obtain ⟨hte, hs⟩ := looped_kept s k (s.b.op32 a)
  obtain ⟨r, t, m, c, q, hu⟩ := debugStop_held ((retireAt_looped_dDm s k (s.b.op32 a) (s.b.loopNext k a o)).trans hm)
    (looped_other k _ halone) (w64 (k.toNat * 2 ^ 32 + s.b.loopRecord k (s.b.op32 a))) s.b.pc (s.b.loopNext k a o)
  rw [hu]
  exact ⟨rfl, rfl, hte.trans hd.1, rfl, rfl, rfl, debugStop_tcause, hs, looped_getLst s k _, looped_getLtr s k _⟩
end
end
end

/-- Settles O8: each branch is `branchTo` or `branchIf`; LOOP's ends are those of `exec_loop`. -/
theorem branchesAndLoops : Obligations.BranchesAndLoops := by
  unfold Obligations.BranchesAndLoops
  refine ⟨fun s a o far e => ⟨fun hr => ⟨bcNz_branches o hr, bcZ_branches o hr, takenTo_of_branchTo (exec_jr hr),
      fun h rest hq hk => ?_, fun hq hk => ⟨bcq_empty o hr true hk hq, bcq_empty o hr false hk hq⟩,
      fun hk => ⟨bcq_illegalOperand o hr true hk, bcq_illegalOperand o hr false hk⟩⟩,
    bev_branches e o s, takenTo_of_branchTo (exec_b far s),
    fun hr => ⟨takenTo_of_branchTo (exec_ret hr), takenTo_of_branchTo (exec_call far hr)⟩⟩, fun s k a o => ?_⟩
  · dsimp only
    rw [← bcqHit_iff]
    exact bcq_pair o hr hk hq
  · intro lst act v fits ltr iter total taken sp word t next trap due waits hr
    exact ⟨loop_illegalOperand o hr, loop_orphanPfx o hr, fun hf ho => ⟨loop_waits o hr hf ho, s.b.loopLst k (s.b.op32 a),
      loopLst_taken, loopLst_ended, loop_retires o hr hf ho, loop_debugStop o hr hf ho, loop_held o hr hf ho⟩⟩

end Sys2Proof.Machine
end
